-- ==== Sys2Proof/Word.lean ====
section
/-! DEFINITION. The words of the station and their plainest arithmetic. -/

namespace Sys2Proof

/-- A byte of the SPI port (R194). -/
abbrev Byte := BitVec 8
/-- A sample word: result in bits 11 to 0, channel in bits 14 to 12, bit 15 clear (00_scope, Conventions). -/
abbrev Word := BitVec 16
/-- A stored codeword: 16 data bits at positions 0 to 15, 6 check bits at positions 16 to 21 (R138). -/
abbrev Codeword := BitVec 22
/-- A local tick count, 32 bits, wrapping (R118). -/
abbrev Tick := BitVec 32
/-- A logical segment number, 0 to 255 (R1). -/
abbrev SegNo := Fin 256
/-- A record slot, 0 to 15 (R42). -/
abbrev SlotNo := Fin 16
/-- A spare, 0 to 7 (R158). -/
abbrev SpareNo := Fin 8
/-- A set of station IDs: bit s for ID s (R201). -/
abbrev IdSet := BitVec 32
/-- A cause set: bits 0 to 7 detectors, bit 8 TRIGIN, bit 9 HOST (R201). -/
abbrev CauseSet := BitVec 10

/-- One more, stopping at `cap`: a saturating count (00_scope, Conventions). -/
def satSucc (cap n : Nat) : Nat := min cap (n + 1)

/-- `a / b` rounded up. -/
def divUp (a b : Nat) : Nat := (a + b - 1) / b

/-- Ticks from `y` to `x` on the local tick count, modulo 2^32 (R118). -/
def ticksSince (x y : Tick) : Nat := (x - y).toNat

/-- R118: an instant x is at or after y when x − y modulo 2^32 lies from 0 to 2^31 − 1. -/
def atOrAfter (x y : Tick) : Bool := (x - y).toNat < 2 ^ 31

end Sys2Proof
end

