-- ==== Sys2Proof/Config.lean ====
section
/-! DEFINITION. What is fixed for the part, and the configuration block as the station holds it.

The spec leaves no result of a command open, so there is no opaque free value here: where two orders
are possible the queue's order decides (log 1), and every other open point is a named choice of the log. -/

namespace Sys2Proof

/-- R1: words in one segment. -/
def segmentWords : Nat := 512
/-- R1: 264 physical segments of 512 words. -/
def arrayWords : Nat := 135168
/-- R150: entries of the error log. -/
def logRoom : Nat := 4
/-- R58: entries of a retrigger list. -/
def retrigRoom : Nat := 4
/-- R184: fields of the configuration block. -/
def fieldCount : Nat := 86
/-- R198: argument bytes of CONFIGURE. -/
def configBytes : Nat := 116
/-- R25: core clocks of one conversion. -/
def conversionClocks : Nat := 48

/-- The configuration store's block (R180, R184): each field's stored value, the parity bit kept with each
field (R187), and H, which the controller computes at acceptance (R6, R186). -/
structure ConfigStore where
  /-- field i of R184 stands at place i − 1; of the 16 bits those of its range are stored (log 41) -/
  fields : Vector (BitVec 16) 86
  parity : Vector Bool 86
  target : Nat
  deriving DecidableEq, Repr

end Sys2Proof
end

