-- ==== Sys2Proof/Syntax.lean ====
section
/-! DEFINITION. The commands of the station: one constructor per row of spec/opcode_table.json. -/

namespace Sys2Proof

/-- One analog input as a conversion meets it (R27): the input voltage and VREF, in any one unit. -/
structure AnalogLevel where
  vin : Int
  vref : Nat
  deriving DecidableEq, Repr

/-- A field of the configuration store: the store as the `block`-th accepted block wrote it (log 11), and the
field's index of R184. -/
structure StoredField where
  block : Nat
  index : Nat
  deriving DecidableEq, Repr

/-- The commands (log 1). Host commands carry their argument bytes (R198). A row that meets the outside
carries what the outside shows: levels of pins, the straps, the width of a pulse, an upset of the store. -/
inductive Instr where
  /-- STATUS, R201 -/
  | status
  /-- CONFIGURE, R186: the argument bytes -/
  | configure (block : List Byte)
  /-- START, R189, R192 -/
  | start
  /-- STOP, R191 -/
  | stop
  /-- RESET, R183 -/
  | reset
  /-- LIST RECORDS, R70 -/
  | listRecords
  /-- READ RECORD, R70 -/
  | readRecord (slot : Byte)
  /-- READ DATA, R71 -/
  | readData (slot chainIndex : Byte) (offset count : BitVec 16)
  /-- RELEASE, R72 -/
  | release (slot : Byte)
  /-- SOFT TRIGGER, R85 -/
  | softTrigger
  /-- PEEK LOG, R151 -/
  | peekLog
  /-- TAKE LOG, R151 -/
  | takeLog
  /-- READ ERROR COUNT, R153 -/
  | readErrorCount
  /-- READ REMAP, R166 -/
  | readRemap
  /-- NEXT EVENT, R176 -/
  | nextEvent
  /-- SET MASK, R174 -/
  | setMask (level : Byte)
  /-- a command byte not in the command list, R199 -/
  | badCommand (code : Byte)
  /-- CSN rises, R195 -/
  | csnRise
  /-- power-on reset completes with these straps, R182, R181 -/
  | powerOnReset (straps : BitVec 5)
  /-- the pin reset completes with these straps, R182, R181 -/
  | pinReset (straps : BitVec 5)
  /-- the parity checker meets a field after `upset` changed its stored bits, R187, R193 -/
  | parityMismatch (field : StoredField) (upset : BitVec 16)
  /-- the INIT fill writes its last word, R137 -/
  | fillComplete
  /-- a frame instant, R25 -/
  | sweepStart
  /-- the last conversion of a sweep ends; the levels AIN0 to AIN7 show from now to that end, R25 (log 19) -/
  | frameComplete (inputs : List AnalogLevel)
  /-- the TRIGIN unit samples the pin, R83 -/
  | trigInSample (high : Bool)
  /-- an accepted low in IDLE, R94 -/
  | leadingEdge
  /-- an accepted high in LOW, the line held low `width` ticks from the pulse's start, R95 -/
  | trailingEdge (width : Nat)
  /-- a slot's sampling tick, other stations holding the line low or not up to it, R98 -/
  | tagSlotSample (peersLow : Bool)
  /-- the tag window ends, R99, R100 -/
  | tagWindowEnd (peersLow : Bool)
  /-- the holdoff timer reaches 0, R112 -/
  | holdoffExpire
  /-- a bit slot's sampling tick, R101 -/
  | numberSlotSample (peersLow : Bool)
  /-- the number window ends, R102, R100 -/
  | numberWindowEnd (peersLow : Bool)
  /-- a low beyond 48T, R96 -/
  | lineStuckDeclare
  /-- an accepted high in STUCK, R97 -/
  | stuckRelease
  /-- the high run reaches 64T in RECOVER, R97 -/
  | recoverComplete
  /-- the transmitter begins a drive, R106 -/
  | driveStart
  /-- the transmitter releases its pulse, R107, R109 -/
  | driveEnd
  /-- the transmitter drives its own slot, R111 -/
  | slotDutyDrive
  /-- the transmitter drives the bit slot of the next 1 bit, R110 -/
  | numberBitDrive
  /-- the phase reaches P in RUNNING, R123 -/
  | epochRequest
  /-- a local epoch begins, R121 -/
  | localEpoch
  /-- the host read prefetch is granted the port, R140 -/
  | prefetchRead
  /-- the scrubber's timer reaches 0, R148 -/
  | scrubRequest
  /-- the scrubber is granted the port, R148 -/
  | scrubRead
  /-- the write-back buffer is granted the port, R145 -/
  | writeBack
  /-- CSN falls, R194 -/
  | csnFall
  /-- RSTN is driven low, R182 -/
  | rstnLow
  /-- an accepted low in RECOVER, R97 -/
  | recoverCountRestart
  deriving DecidableEq, Repr

end Sys2Proof
end

