-- ==== Sys2Proof/WellFormed.lean ====
section
/-! DEFINITION. Which terms spell a command: the sizes and ranges the spec gives the operands. -/

namespace Sys2Proof

/-- R198: the bytes of the command list. -/
def commandBytes : List Nat :=
  [0x01, 0x02, 0x03, 0x04, 0x05, 0x10, 0x11, 0x12, 0x13, 0x20, 0x30, 0x31, 0x32, 0x33, 0x40, 0x41]

/-- Well-formed commands: CONFIGURE has 116 argument bytes (R198); a bad command's byte is not in the
command list (R199); a mismatch names a field of R184; a sweep meets the eight inputs with a positive
VREF (R27). The other operands are as wide as the spec makes them. -/
def Instr.wf : Instr → Bool
  | .configure block => block.length == configBytes
  | .badCommand code => !commandBytes.contains code.toNat
  | .parityMismatch field _ => 1 ≤ field.index && field.index ≤ fieldCount
  | .frameComplete inputs => inputs.length == 8 && inputs.all (fun a => 0 < a.vref)
  | .status => true
  | .start => true
  | .stop => true
  | .reset => true
  | .listRecords => true
  | .readRecord _ => true
  | .readData _ _ _ _ => true
  | .release _ => true
  | .softTrigger => true
  | .peekLog => true
  | .takeLog => true
  | .readErrorCount => true
  | .readRemap => true
  | .nextEvent => true
  | .setMask _ => true
  | .csnRise => true
  | .powerOnReset _ => true
  | .pinReset _ => true
  | .fillComplete => true
  | .sweepStart => true
  | .trigInSample _ => true
  | .leadingEdge => true
  | .trailingEdge _ => true
  | .tagSlotSample _ => true
  | .tagWindowEnd _ => true
  | .holdoffExpire => true
  | .numberSlotSample _ => true
  | .numberWindowEnd _ => true
  | .lineStuckDeclare => true
  | .stuckRelease => true
  | .recoverComplete => true
  | .driveStart => true
  | .driveEnd => true
  | .slotDutyDrive => true
  | .numberBitDrive => true
  | .epochRequest => true
  | .localEpoch => true
  | .prefetchRead => true
  | .scrubRequest => true
  | .scrubRead => true
  | .writeBack => true
  | .csnFall => true
  | .rstnLow => true
  | .recoverCountRestart => true

end Sys2Proof
end

