-- ==== Sys2Proof/Decode.lean ====
section
/-! DEFINITION. Reading commands from bits: the table's words (it gives none), and the host port's command
decoder, which reads a command from the bytes of one transaction (R195, R198, R199). -/

namespace Sys2Proof

/-- No row of spec/opcode_table.json gives bits, so no word spells a command. -/
def decodeTableWord (_nbits _w : Nat) : Option Instr := none

/-- Two bytes, most significant first (R194). -/
def pair (hi lo : Byte) : BitVec 16 := hi ++ lo

/-- The command decoder of the host port: the command that the bytes on MOSI spell once its last argument
byte is complete; later bytes are ignored (R194). `none` while bytes are still missing (R195). -/
def decodeCommand : List Byte → Option Instr
  | [] => none
  | code :: args =>
    match code.toNat with
    | 0x01 => some .status
    | 0x02 => if args.length < configBytes then none else some (.configure (args.take configBytes))
    | 0x03 => some .start
    | 0x04 => some .stop
    | 0x05 => some .reset
    | 0x10 => some .listRecords
    | 0x11 => match args with
      | slot :: _ => some (.readRecord slot)
      | [] => none
    | 0x12 => match args with
      | slot :: index :: o1 :: o0 :: c1 :: c0 :: _ => some (.readData slot index (pair o1 o0) (pair c1 c0))
      | _ => none
    | 0x13 => match args with
      | slot :: _ => some (.release slot)
      | [] => none
    | 0x20 => some .softTrigger
    | 0x30 => some .peekLog
    | 0x31 => some .takeLog
    | 0x32 => some .readErrorCount
    | 0x33 => some .readRemap
    | 0x40 => some .nextEvent
    | 0x41 => match args with
      | level :: _ => some (.setMask level)
      | [] => none
    | _ => some (.badCommand code)

/-- The bytes a host sends for a command (R198): the command byte and the argument bytes. Rows that are not
host commands have none. -/
def hostBytes : Instr → Option (List Byte)
  | .status => some [0x01]
  | .configure block => some (0x02 :: block)
  | .start => some [0x03]
  | .stop => some [0x04]
  | .reset => some [0x05]
  | .listRecords => some [0x10]
  | .readRecord slot => some [0x11, slot]
  | .readData slot index offset count =>
    some [0x12, slot, index, offset.extractLsb' 8 8, offset.extractLsb' 0 8,
      count.extractLsb' 8 8, count.extractLsb' 0 8]
  | .release slot => some [0x13, slot]
  | .softTrigger => some [0x20]
  | .peekLog => some [0x30]
  | .takeLog => some [0x31]
  | .readErrorCount => some [0x32]
  | .readRemap => some [0x33]
  | .nextEvent => some [0x40]
  | .setMask level => some [0x41, level]
  | .badCommand code => some [code]
  | .csnRise => none
  | .powerOnReset _ => none
  | .pinReset _ => none
  | .parityMismatch _ _ => none
  | .fillComplete => none
  | .sweepStart => none
  | .frameComplete _ => none
  | .trigInSample _ => none
  | .leadingEdge => none
  | .trailingEdge _ => none
  | .tagSlotSample _ => none
  | .tagWindowEnd _ => none
  | .holdoffExpire => none
  | .numberSlotSample _ => none
  | .numberWindowEnd _ => none
  | .lineStuckDeclare => none
  | .stuckRelease => none
  | .recoverComplete => none
  | .driveStart => none
  | .driveEnd => none
  | .slotDutyDrive => none
  | .numberBitDrive => none
  | .epochRequest => none
  | .localEpoch => none
  | .prefetchRead => none
  | .scrubRequest => none
  | .scrubRead => none
  | .writeBack => none
  | .csnFall => none
  | .rstnLow => none
  | .recoverCountRestart => none

end Sys2Proof
end

