-- ==== Sys2Proof/Machine/State.lean ====
section
/-! DEFINITION. The state of the station as plain data, and its value after reset. -/

namespace Sys2Proof.Machine

/-! ### Timebase and shared kinds -/

/-- A timestamp (00_scope, Conventions; R122). -/
structure Timestamp where
  epoch : BitVec 16
  phase : BitVec 16
  unsynced : Bool
  deriving DecidableEq, Repr

/-- A tick with the timestamp the timebase issued for it (R122). -/
structure Capture where
  tick : Tick
  stamp : Timestamp
  deriving DecidableEq, Repr

/-- The seven station states (R180). -/
inductive StationState where
  | unconfigured | configured | init | listen | running | halted | fault
  deriving DecidableEq, Repr

/-- Whether the entry tick of LISTEN is still to come, and where LISTEN was entered from (R24; log 4). -/
inductive EntryWait where
  | none | fromInit | fromHalted
  deriving DecidableEq, Repr

/-- The station controller (R180). -/
structure Controller where
  state : StationState
  /-- no block is held after a reset (R180) -/
  config : Option ConfigStore
  stationId : BitVec 5
  entry : EntryWait
  /-- the model's own: blocks accepted so far, through every reset (log 11) -/
  blocks : Nat
  deriving DecidableEq, Repr

/-- R119 sync state. -/
inductive Sync where
  | seeking | locked
  deriving DecidableEq, Repr

/-- R119 counting mode: HELD, LINE, LOCAL. -/
inductive Counting where
  | held | line | localScale
  deriving DecidableEq, Repr

/-- The timebase (R117 to R119). `prescale` is the running divisor's k, or none while stopped; `nextPrescale` the k
that an accepted block has given a running prescaler, until the next tick boundary takes it (R186). -/
structure Timebase where
  prescale : Option Nat
  nextPrescale : Option Nat
  localTick : Tick
  phase : BitVec 16
  epoch : BitVec 16
  sync : Sync
  mode : Counting
  requestMade : Bool
  provisional : Bool
  deriving DecidableEq, Repr

/-! ### Segment pool, writer, sequencer -/

/-- A physical home (R1). -/
inductive Home where
  | main
  | spare (j : SpareNo)
  deriving DecidableEq, Repr

/-- A segment header (R2). -/
structure Header where
  home : Home
  generation : BitVec 8
  firstStamp : Option Timestamp
  valid : Nat
  tally : Nat
  retirePending : Bool
  deriving DecidableEq, Repr

/-- The pool's lists and headers (R2 to R4, R16). -/
structure Pool where
  free : List SegNo
  history : List SegNo
  withdrawn : List SegNo
  headers : Vector Header 256
  deriving DecidableEq, Repr

/-- R29 writer state. -/
inductive WriterState where
  | idle | filling | overrun
  deriving DecidableEq, Repr

/-- The frame writer (R29). In OVERRUN its take claim is outstanding (R20). -/
structure Writer where
  state : WriterState
  current : Option SegNo
  pos : Nat
  discarded : Nat
  deriving DecidableEq, Repr

/-- The acquisition sequencer (R24, R25): ticks to the next instant, the frame being swept, the channel, and the
levels sampled so far in the sweep, AIN0's first, from which its partial results come (R27). -/
structure Sequencer where
  divider : Option Nat
  sweep : Option Capture
  position : Nat
  samples : List AnalogLevel
  deriving DecidableEq, Repr

/-! ### Capture records -/

/-- The parts of a trigger request, and of the local cause it becomes (R86, R43). -/
structure Cause where
  causes : CauseSet
  first : Timestamp
  retried : Bool
  deriving DecidableEq, Repr

/-- A retrigger entry (R43, R58). -/
structure Retrigger where
  stamp : Timestamp
  origin : Option IdSet
  cause : Option Cause
  deriving DecidableEq, Repr

/-- R42 record states of a slot that is not FREE. -/
inductive RecState where
  | collecting | awaiting | closed
  deriving DecidableEq, Repr

/-- R43 flags. -/
structure RecFlags where
  preShort : Bool
  truncated : Bool
  stopped : Bool
  extendCapped : Bool
  memError : Bool
  unsynced : Bool
  deriving DecidableEq, Repr

/-- R61: the item whose window is pending. -/
inductive PendingItem where
  | trigger
  | retrigger (index : Nat)
  deriving DecidableEq, Repr

/-- One record (R43), with the controller's working values: leading-edge tick, placed or not, post end,
pending retrigger edges, pending window. -/
structure Record where
  sequence : BitVec 16
  state : RecState
  trigTime : Timestamp
  origin : Option IdSet
  cause : Option Cause
  retrigs : List Retrigger
  overflow : Nat
  chain : List SegNo
  firstOffset : Nat
  trigIndex : Nat
  total : Nat
  flags : RecFlags
  uncorrectable : Nat
  edgeTick : Tick
  placed : Bool
  postEnd : Nat
  pendingEdges : List Tick
  window : Option PendingItem
  deriving DecidableEq, Repr

/-- The record controller (R42, R44, R48, R32). A slot that holds no record is FREE. -/
structure RecordUnit where
  slots : Vector (Option Record) 16
  seq : BitVec 16
  missed : Nat
  /-- instant of the latest frame report (R32) -/
  lastReport : Option Tick
  deriving DecidableEq, Repr

/-! ### Detectors and TRIGIN -/

/-- R73 detector states. -/
inductive DetState where
  | disabled | armed | qualifying | fired
  deriving DecidableEq, Repr

/-- What a detector keeps of its own (R73). -/
structure Detector where
  state : DetState
  count : Nat
  prev : Option (BitVec 12)
  deriving DecidableEq, Repr

/-- The run of equal samples being counted (R82): candidate level, run start, run count. -/
structure TrigRun where
  high : Bool
  start : Capture
  count : Nat
  deriving DecidableEq, Repr

/-- The TRIGIN unit (R82), with the ticks to its next sample. -/
structure TrigIn where
  watching : Bool
  accepted : Option Bool
  run : Option TrigRun
  timer : Nat
  deriving DecidableEq, Repr

/-! ### The line agent -/

/-- The last sample of the line (R92): its level, the first sample of its run with whether an epoch request
was held then (R127), whether two agree. -/
structure LineRun where
  high : Bool
  start : Capture
  epochHeld : Bool
  agree : Bool
  deriving DecidableEq, Repr

/-- The line filter (R92). `accepted` is some true for high. `sampled` says that the present tick's sample
has been taken (log 5). -/
structure LineFilter where
  accepted : Option Bool
  last : Option LineRun
  highRun : Nat
  sampled : Bool
  deriving DecidableEq, Repr

/-- R93 receiver states. -/
inductive RxState where
  | idle | low | tagWindow | numberWindow | stuck | recover
  deriving DecidableEq, Repr

/-- The leading-edge capture (R94), with whether an epoch request was held at the edge (R127). The
captured phase is the timestamp's. -/
structure EdgeCapture where
  edge : Capture
  epochHeld : Bool
  deriving DecidableEq, Repr

/-- The line receiver (R93). In LOW without a capture the pulse has no true leading edge (R100). What `width` holds
during a pulse and after it is log 40's. -/
structure Receiver where
  state : RxState
  pulseStart : Tick
  capture : Option EdgeCapture
  width : Nat
  origin : Tick
  slotPos : Nat
  /-- the model's own: the window's last slot has been sampled (log 36) -/
  slotsDone : Bool
  idSet : IdSet
  bits : BitVec 16
  lineErrors : Nat
  deriving DecidableEq, Repr

/-- A pulse of the station's own (R107, R109): its kind, the tick it began on, whether the line is still
pulled low. It stands until the receiver classifies the pulse. -/
structure Drive where
  isEpoch : Bool
  begun : Tick
  pulling : Bool
  deriving DecidableEq, Repr

/-- The number-bit duty of a number window (R110): the number, the next bit slot, whether a slot is driven. -/
structure BitDuty where
  number : BitVec 16
  next : Nat
  driving : Bool
  deriving DecidableEq, Repr

/-- The line transmitter (R103). Its state is computed from what it holds. -/
structure Transmitter where
  drive : Option Drive
  request : Option Cause
  epochHeld : Bool
  holdoff : Nat
  suppressed : Nat
  lost : Nat
  slotDuty : Bool
  slotDriving : Bool
  bitDuty : Option BitDuty
  deriving DecidableEq, Repr

/-! ### Memory integrity and retirement -/

/-- The sample array: address and codeword, strictly rising addresses, no entry equal to what an unlisted
address reads as (log 8). -/
abbrev Memory := List (Nat × Codeword)

/-- R150 kinds of finding and finders. -/
inductive Kind where
  | corrected | uncorrectable
  deriving DecidableEq, Repr

/-- R150 finder. -/
inductive Finder where
  | hostRead | scrub
  deriving DecidableEq, Repr

/-- An error log entry (R150). -/
structure LogEntry where
  kind : Kind
  finder : Finder
  seg : SegNo
  home : Home
  offset : Nat
  syndrome : BitVec 6
  bit : Option Nat
  stamp : Timestamp
  deriving DecidableEq, Repr

/-- The write-back buffer's entry (R144). -/
structure WriteBackEntry where
  address : Nat
  word : Word
  seg : SegNo
  generation : BitVec 8
  deriving DecidableEq, Repr

/-- The scrubber (R147). -/
structure Scrubber where
  walking : Bool
  seg : SegNo
  offset : Fin 512
  timer : Nat
  request : Bool
  deriving DecidableEq, Repr

/-- The host read prefetch of a READ DATA (R140, R141). -/
structure Prefetch where
  seg : SegNo
  offset : Nat
  remaining : Nat
  corrected : Nat
  uncorrectable : Nat
  presented : Bool
  deriving DecidableEq, Repr

/-- The memory integrity unit (R135 to R154). -/
structure Integrity where
  array : Memory
  fill : Option Nat
  log : List LogEntry
  errorCount : Nat
  buffer : Option WriteBackEntry
  scrub : Scrubber
  prefetch : Option Prefetch
  deriving DecidableEq, Repr

/-- R158 spare states. -/
inductive SpareState where
  | unused | mapped | dead
  deriving DecidableEq, Repr

/-- A remap table entry (R159). -/
structure RemapEntry where
  seg : SegNo
  spare : SpareNo
  moves : Nat
  deriving DecidableEq, Repr

/-- The retirement unit (R158, R159). -/
structure Retirement where
  spares : Vector SpareState 8
  remap : List RemapEntry
  deriving DecidableEq, Repr

/-! ### Events, host port, pins -/

/-- The fourteen event sources in order (R169). -/
inductive Source where
  | configFault | lineStuck | memUncorrectable | recordClosed | triggerMissed | originLost | overrun
  | freeLow | spareExhausted | syncStep | epochMismatch | syncSeeking | logFull | memCorrected
  deriving DecidableEq, Repr

/-- States of a source: CLEAR of an edge source and IDLE of a level source are `quiet` (R170, R171). -/
inductive SourceState where
  | quiet | pending | acked
  deriving DecidableEq, Repr

/-- What the event unit holds for one source (R170, R171, R173). -/
structure SourceCell where
  state : SourceState
  count : Nat
  level : Nat
  deriving DecidableEq, Repr

/-- The event unit (R169, R174). Source of order r stands at place r − 1. -/
structure EventUnit where
  cells : Vector SourceCell 14
  mask : Nat
  deriving DecidableEq, Repr

/-- Phases of the host port (R194, R197). -/
inductive PortPhase where
  | idle | command | arguments | response | trailing | waitRise
  deriving DecidableEq, Repr

/-- The host port (R197). `shiftIn` holds the bits of the byte being received; `response` holds the response
bytes determined so far (log 6). -/
structure Port where
  phase : PortPhase
  bitCount : Nat
  shiftIn : Byte
  byteCount : Nat
  command : Option Byte
  args : List Byte
  response : List Byte
  prefetchWord : Option Word
  deriving DecidableEq, Repr

/-- The input pins as the outside holds them. `peersLow`: some other station pulls the XTL low (R91). `mosi`: the
bits that the host has still to clock in, each with its edges of SCK (R194; log 6). -/
structure Pins where
  rstnLow : Bool
  csnLow : Bool
  mosi : List Bool
  straps : BitVec 5
  peersLow : Bool
  trigIn : Bool
  analog : List AnalogLevel
  deriving DecidableEq, Repr

/-! ### The whole station -/

/-- The station, and the queue of the commands that wait (log 1). -/
structure State where
  ctl : Controller
  tb : Timebase
  pool : Pool
  writer : Writer
  seqr : Sequencer
  recs : RecordUnit
  dets : Vector Detector 8
  trig : TrigIn
  filter : LineFilter
  rx : Receiver
  tx : Transmitter
  mem : Integrity
  ret : Retirement
  ev : EventUnit
  port : Port
  pins : Pins
  pending : List Instr
  deriving DecidableEq, Repr

/-- No command stops the station: the spec gives every command an effect or an answer, so no reason exists. -/
inductive Fault where
  deriving DecidableEq, Repr

/-- Why a command has no meaning. -/
inductive Refusal where
  /-- raised by exec's arm of a command that has not been given its meaning; safe -/
  | notModelled (mnemonic : String)
  deriving DecidableEq, Repr

/-! ### Reset values -/

/-- A header at power-on (R22). -/
def Header.reset : Header :=
  { home := .main, generation := 0, firstStamp := none, valid := 0, tally := 0, retirePending := false }

/-- R22: the logical segments 0 to 255 in ascending order. -/
@[irreducible] def allSegments : List SegNo := List.ofFn (fun i : Fin 256 => i)

/-- R22. -/
def Pool.reset : Pool :=
  { free := allSegments, history := [], withdrawn := [], headers := Vector.replicate 256 Header.reset }

/-- R29. -/
def Writer.reset : Writer := { state := .idle, current := none, pos := 0, discarded := 0 }

/-- R24. -/
def Sequencer.reset : Sequencer := { divider := none, sweep := none, position := 0, samples := [] }

/-- R45. -/
def RecordUnit.reset : RecordUnit :=
  { slots := Vector.replicate 16 none, seq := 0, missed := 0, lastReport := none }

/-- R76. -/
def Detector.reset : Detector := { state := .disabled, count := 0, prev := none }

/-- R82; no run is counted, and with it the run start is dropped (log 37). -/
def TrigIn.reset : TrigIn := { watching := false, accepted := none, run := none, timer := 0 }

/-- R92 gives the accepted level and the high run; that the last sample is dropped is log 38's. -/
def LineFilter.reset : LineFilter := { accepted := none, last := none, highRun := 0, sampled := false }

/-- R93; the fields the spec gives no value are log 13's and log 36's. -/
def Receiver.reset : Receiver :=
  { state := .idle, pulseStart := 0, capture := none, width := 0, origin := 0, slotPos := 0, slotsDone := false,
    idSet := 0, bits := 0, lineErrors := 0 }

/-- R103. -/
def Transmitter.reset : Transmitter :=
  { drive := none, request := none, epochHeld := false, holdoff := 0, suppressed := 0, lost := 0, slotDuty := false,
    slotDriving := false, bitDuty := none }

/-- R117 to R119. -/
def Timebase.reset : Timebase :=
  { prescale := none, nextPrescale := none, localTick := 0, phase := 0, epoch := 0, sync := .seeking, mode := .held, requestMade := false,
    provisional := false }

/-- R147; a stopped timer's value is log 33's. -/
def Scrubber.reset : Scrubber := { walking := false, seg := 0, offset := 0, timer := 0, request := false }

/-- R154; the array lists nothing (log 8). -/
def Integrity.reset : Integrity :=
  { array := [], fill := none, log := [], errorCount := 0, buffer := none, scrub := .reset, prefetch := none }

/-- R168. -/
def Retirement.reset : Retirement := { spares := Vector.replicate 8 .unused, remap := [] }

/-- R173: the levels after any reset, in order. -/
def resetLevels : Vector Nat 14 := #v[3, 3, 2, 1, 1, 1, 2, 1, 2, 0, 1, 0, 1, 0]

/-- R179. -/
def EventUnit.reset : EventUnit :=
  { cells := Vector.ofFn (fun i : Fin 14 => { state := .quiet, count := 0, level := resetLevels.get i }), mask := 3 }

/-- R197 gives the phase and the empty prefetch word; that the counts are 0 and that no bit, command, argument or
response is held is log 42's. -/
def Port.reset : Port :=
  { phase := .idle, bitCount := 0, shiftIn := 0, byteCount := 0, command := none, args := [], response := [],
    prefetchWord := none }

/-- What the outside shows at the start: log 12. -/
def Pins.reset : Pins :=
  { rstnLow := false, csnLow := false, mosi := [], straps := 0, peersLow := false, trigIn := false,
    analog := List.replicate 8 { vin := 0, vref := 1 } }

/-- R180; the ID of straps all low (log 12). -/
def Controller.reset : Controller :=
  { state := .unconfigured, config := none, stationId := 0, entry := .none, blocks := 0 }

/-- The station right after a power-on reset (R182), with no command waiting. -/
def State.reset : State :=
  { ctl := .reset, tb := .reset, pool := .reset, writer := .reset, seqr := .reset, recs := .reset,
    dets := Vector.replicate 8 Detector.reset, trig := .reset, filter := .reset, rx := .reset, tx := .reset,
    mem := .reset, ret := .reset, ev := .reset, port := .reset, pins := .reset, pending := [] }

end Sys2Proof.Machine
end

