-- ==== Sys2Proof/Machine/Flags.lean ====
section
/-! DEFINITION. The event sources, the mask and IRQN (chapter 9): what the flags of other processors are. -/

namespace Sys2Proof.Machine

/-- The order number of R169, less one: a source's place in the event unit. -/
def Source.place : Source → Fin 14
  | .configFault => 0
  | .lineStuck => 1
  | .memUncorrectable => 2
  | .recordClosed => 3
  | .triggerMissed => 4
  | .originLost => 5
  | .overrun => 6
  | .freeLow => 7
  | .spareExhausted => 8
  | .syncStep => 9
  | .epochMismatch => 10
  | .syncSeeking => 11
  | .logFull => 12
  | .memCorrected => 13

/-- R169: the level sources are those of orders 2, 7, 8, 12 and 13; the others are edge sources. -/
def levelPlace (i : Fin 14) : Bool :=
  i == 1 || i == 6 || i == 7 || i == 11 || i == 12

/-- R170: a raise makes a CLEAR edge source PENDING with count 1 and counts up a PENDING one, to 255. -/
def SourceCell.raised (c : SourceCell) : SourceCell :=
  { c with state := .pending, count := satSucc 255 c.count }

/-- R171: the start of a condition takes IDLE to PENDING and leaves PENDING and ACKED. A level source's
count is 1 while it is PENDING. -/
def SourceCell.started (c : SourceCell) : SourceCell :=
  match c.state with
  | .quiet => { c with state := .pending, count := 1 }
  | .pending => c
  | .acked => c

/-- R171: the end of a condition takes every state to IDLE. -/
def SourceCell.ended (c : SourceCell) : SourceCell := { c with state := .quiet, count := 0 }

/-- R170, R171: what NEXT EVENT leaves of the source it takes. -/
def SourceCell.taken (isLevel : Bool) (c : SourceCell) : SourceCell :=
  { c with state := if isLevel then .acked else .quiet, count := 0 }

/-- The cell of a source. -/
def EventUnit.cell (e : EventUnit) (src : Source) : SourceCell := e.cells.get src.place

/-- The event unit with one cell changed. -/
def EventUnit.update (e : EventUnit) (i : Fin 14) (f : SourceCell → SourceCell) : EventUnit :=
  { e with cells := e.cells.set i (f (e.cells.get i)) }

/-- A raise handed to an edge source (R169, R170). -/
def raise (src : Source) (s : State) : State := { s with ev := s.ev.update src.place SourceCell.raised }

/-- A level source's condition, as it was and as it is now: the owner hands over the start or the end (R171). -/
def handLevel (src : Source) (before after : Bool) (s : State) : State :=
  if !before && after then { s with ev := s.ev.update src.place SourceCell.started }
  else if before && !after then { s with ev := s.ev.update src.place SourceCell.ended }
  else s

/-- R176: whether source i goes before source j: the higher level, then the lower order. -/
def moreUrgent (e : EventUnit) (i j : Fin 14) : Bool :=
  (e.cells.get j).level < (e.cells.get i).level
    || ((e.cells.get j).level == (e.cells.get i).level && i < j)

/-- R176: the more urgent of the best source so far and source i, if i is PENDING. -/
def EventUnit.prefer (e : EventUnit) (best : Option (Fin 14)) (i : Fin 14) : Option (Fin 14) :=
  if (e.cells.get i).state = .pending then
    match best with
    | none => some i
    | some b => if moreUrgent e i b then some i else some b
  else best

/-- R176: the place of the PENDING source with the highest level, and of those the lowest order. -/
def EventUnit.mostUrgent (e : EventUnit) : Option (Fin 14) := (List.finRange 14).foldl e.prefer none

/-- R173, R174: the twelve levels and the mask level of an accepted block; a PENDING source stays PENDING. -/
def EventUnit.configured (e : EventUnit) (level : Fin 14 → Nat) (mask : Nat) : EventUnit :=
  { cells := Vector.ofFn (fun i : Fin 14 =>
      if i.val < 2 then e.cells.get i else { e.cells.get i with level := level i }),
    mask := mask }

/-- R175: IRQN is low exactly when some source is PENDING at or above M; during a reset it is high. -/
def State.irqnLow (s : State) : Bool :=
  !s.pins.rstnLow &&
    (List.finRange 14).any (fun i =>
      (s.ev.cells.get i).state == .pending && s.ev.mask ≤ (s.ev.cells.get i).level)

end Sys2Proof.Machine
end

