-- ==== Sys2Proof/Machine/Operands.lean ====
section
/-! DEFINITION. Operands: the fields of the configuration block (R184, R185, R201), what the blocks read from
an accepted block, and the conversion of an analog input (R27). -/

namespace Sys2Proof.Machine

/-! ### The fields of a block -/

/-- R201: bytes of each field, in block order. -/
def fieldWidths : List Nat :=
  [1, 1, 2, 1, 1, 2, 2, 2, 1, 1, 2]
    ++ (List.replicate 8 [1, 1, 1, 2, 2, 2, 1]).flatten
    ++ [1, 1, 1] ++ List.replicate 12 1 ++ [1, 2, 1, 1]

/-- The whole of a field's bytes form its value, most significant byte first (R194, R201). -/
def bytesValue (bs : List Byte) : BitVec 16 :=
  bs.foldl (fun v b => (v <<< 8) ||| b.setWidth 16) 0

/-- The field values that the argument bytes carry, in block order (R201). -/
def splitFields : List Nat → List Byte → List (BitVec 16)
  | [], _ => []
  | w :: ws, bs => bytesValue (bs.take w) :: splitFields ws (bs.drop w)

/-- Field `i` of R184 among parsed values. -/
def fieldAt (vals : List (BitVec 16)) (i : Nat) : Nat := (vals.getD (i - 1) 0).toNat

/-- R184: the values a field may take. -/
def inRange (i v : Nat) : Bool :=
  if i = 1 then 3 ≤ v && v ≤ 8
  else if i = 2 then 4 ≤ v && v ≤ 64
  else if i = 3 then 1000 ≤ v && v ≤ 60000
  else if i = 4 then 1 ≤ v && v ≤ 255
  else if i = 5 then v = 1 || v = 2 || v = 4 || v = 8
  else if i = 6 then 1 ≤ v && v ≤ 65535
  else if i = 7 then v ≤ 65535
  else if i = 8 then 1 ≤ v && v ≤ 65535
  else if i = 9 then 1 ≤ v && v ≤ 64
  else if i = 10 then v ≤ 1
  else if i = 11 then v ≤ 4095
  else if i ≤ 67 then
    match (i - 12) % 7 with
    | 0 => v ≤ 1
    | 1 => v ≤ 7
    | 2 => v ≤ 3
    | 6 => v = 1 || v = 2 || v = 4 || v = 8
    | _ => v ≤ 4095
  else if i = 68 then v ≤ 1
  else if i = 69 then v ≤ 2
  else if i = 70 then v = 1 || v = 8 || v = 32
  else if i ≤ 82 then v ≤ 2
  else if i = 83 then v ≤ 3
  else if i = 84 then v ≤ 65535
  else if i = 85 then 1 ≤ v && v ≤ 15
  else v ≤ 255

/-- F = 512/n (00_scope, Conventions). -/
def framesPerSegment (n : Nat) : Nat := segmentWords / n

/-- R6: H = ceil(Npre/F) + 1. -/
def historyTarget (npre n : Nat) : Nat := divUp npre (framesPerSegment n) + 1

/-- R185: the cross-checks made when the check reaches field `i`. -/
def crossCheck (vals : List (BitVec 16)) (i : Nat) : Bool :=
  let f := fieldAt vals
  if i = 6 then conversionClocks * f 5 ≤ f 6 * 2 ^ f 1
  else if i = 9 then historyTarget (f 7) (f 5) + 1 + divUp (f 8) (framesPerSegment (f 5)) ≤ f 9
  else if 12 ≤ i && i ≤ 67 then
    let base := 12 + 7 * ((i - 12) / 7)
    let mode := f (base + 2)
    if f base = 0 then true
    else
      match (i - 12) % 7 with
      | 1 => f i < f 5
      | 4 => mode != 2 || f i < f (base + 3)
      | 5 =>
        match mode with
        | 1 => f (base + 3) + f i ≤ 4095
        | 2 => f (base + 4) + f i + f i ≤ f (base + 3)
        | _ => f i ≤ f (base + 3)
      | _ => true
  else true

/-- R185: the index of the first field that fails, in block order. -/
def firstFailing (vals : List (BitVec 16)) : Option Nat :=
  (List.range' 1 fieldCount).find? (fun i => !(inRange i (fieldAt vals i) && crossCheck vals i))

/-- R187 (log 10): a field's parity bit is the exclusive-OR of its stored bits. -/
def parityOf (v : BitVec 16) : Bool := (List.range 16).foldl (fun p i => p ^^ v.getLsbD i) false

/-- R186, R187: the block written whole into the store, each field with its parity, and H computed. -/
def storeOf (vals : List (BitVec 16)) : ConfigStore :=
  { fields := Vector.ofFn (fun i : Fin 86 => vals.getD i.val 0),
    parity := Vector.ofFn (fun i : Fin 86 => parityOf (vals.getD i.val 0)),
    target := historyTarget (fieldAt vals 7) (fieldAt vals 5) }

/-! ### What the blocks read from the store -/

/-- The stored value of field `i` of R184. -/
def field (c : ConfigStore) (i : Nat) : Nat := (c.fields.toList.getD (i - 1) 0).toNat

/-- Bit time T, in ticks. -/
def bitTime (c : ConfigStore) : Nat := field c 2
/-- Epoch period P, in ticks. -/
def period (c : ConfigStore) : Nat := field c 3
/-- Lock window W, in ticks. -/
def lockWindow (c : ConfigStore) : Nat := field c 4
/-- Channel count n. -/
def channels (c : ConfigStore) : Nat := field c 5
/-- Sample period Ts, in ticks. -/
def samplePeriod (c : ConfigStore) : Nat := field c 6
/-- Npre, in frames. -/
def preFrames (c : ConfigStore) : Nat := field c 7
/-- Npost, in frames. -/
def postFrames (c : ConfigStore) : Nat := field c 8
/-- Lmax, in segments. -/
def maxChain (c : ConfigStore) : Nat := field c 9
/-- Retrigger mode EXTEND (R201: LOG 0, EXTEND 1). -/
def extendMode (c : ConfigStore) : Bool := field c 10 == 1
/-- R112: the configured holdoff times 16 ticks. -/
def holdoffTicks (c : ConfigStore) : Nat := 16 * field c 11
/-- F of the block. -/
def framesOf (c : ConfigStore) : Nat := framesPerSegment (channels c)
/-- TRIGIN enable. -/
def trigEnabled (c : ConfigStore) : Bool := field c 68 == 1
/-- TRIGIN sample interval I, in ticks. -/
def trigInterval (c : ConfigStore) : Nat := field c 70
/-- R84: whether an accepted edge matches the configured edge (RISING 0, FALLING 1, BOTH 2). -/
def edgeMatches (c : ConfigStore) (rising : Bool) : Bool :=
  match field c 69 with
  | 0 => rising
  | 1 => !rising
  | _ => true
/-- Scrub interval S, in ticks. -/
def scrubInterval (c : ConfigStore) : Nat := field c 84
/-- Retire threshold. -/
def retireThreshold (c : ConfigStore) : Nat := field c 85
/-- Free-low threshold, in segments. -/
def freeLowThreshold (c : ConfigStore) : Nat := field c 86
/-- R184: field `j` (0 to 6) of detector d's run. -/
def detField (c : ConfigStore) (d : Fin 8) (j : Nat) : Nat := field c (12 + 7 * d.val + j)
/-- Detector enable. -/
def detEnabled (c : ConfigStore) (d : Fin 8) : Bool := detField c d 0 == 1

/-- R187: whether field `i` of the store no longer matches its parity bit. -/
def mismatchAt (c : ConfigStore) (i : Nat) : Bool :=
  parityOf (c.fields.toList.getD (i - 1) 0) != c.parity.toList.getD (i - 1) false

/-- The first field of the store that does not match its parity, if any (R187). -/
def firstMismatch (c : ConfigStore) : Option Nat := (List.range' 1 fieldCount).find? (mismatchAt c)

/-- The bits stored of a field: the fewest that hold R184's range (log 41). -/
def fieldBits (i : Nat) : Nat :=
  if i = 1 then 4
  else if i = 2 then 7
  else if i = 3 then 16
  else if i = 4 then 8
  else if i = 5 then 4
  else if i ≤ 8 then 16
  else if i = 9 then 7
  else if i = 10 then 1
  else if i = 11 then 12
  else if i ≤ 67 then
    match (i - 12) % 7 with
    | 0 => 1
    | 1 => 3
    | 2 => 2
    | 6 => 4
    | _ => 12
  else if i = 68 then 1
  else if i = 69 then 2
  else if i = 70 then 6
  else if i ≤ 83 then 2
  else if i = 84 then 16
  else if i = 85 then 4
  else 8

/-- The bits of an upset that strike stored bits of field `i` (log 41). -/
def struckBits (i : Nat) (bits : BitVec 16) : BitVec 16 := bits &&& BitVec.ofNat 16 (2 ^ fieldBits i - 1)

/-- The store after an upset changed stored bits of field `i`; its parity bit stands (log 11, log 41). -/
def upsetField (c : ConfigStore) (i : Nat) (bits : BitVec 16) : ConfigStore :=
  { c with fields := Vector.ofFn (fun j : Fin 86 =>
    if j.val + 1 = i then c.fields.get j ^^^ struckBits i bits else c.fields.get j) }

/-! ### Analog inputs -/

/-- R27: floor(4096 × Vin / VREF), limited to 4095; 0 at or below 0 V. -/
def convert (a : AnalogLevel) : Nat :=
  if a.vin ≤ 0 then 0 else min 4095 (4096 * a.vin.toNat / a.vref)

/-- R27: the sample word of a conversion on channel c. -/
def sampleWord (channel : Nat) (a : AnalogLevel) : Word := BitVec.ofNat 16 (channel * 4096 + convert a)

/-- R25: the levels sampled once the first `m` conversions have begun: those sampled before stand, and each other
channel takes the level its input shows now. -/
def latchInputs (m : Nat) (inputs samples : List AnalogLevel) : List AnalogLevel :=
  samples ++ (inputs.drop samples.length).take (m - samples.length)

/-- R25: how many of n conversions have begun by the end of the tick `d` ticks after the frame's instant: conversion
c begins 48 × c core clocks after the instant (log 4). -/
def begunConversions (k n d : Nat) : Nat := min n (divUp ((d + 1) * 2 ^ k) conversionClocks)

/-- R25: the n words of a frame, in channel order. -/
def frameWords (n : Nat) (inputs : List AnalogLevel) : List Word :=
  (List.range n).map (fun c => sampleWord c (inputs.getD c { vin := 0, vref := 1 }))

/-- The 12-bit result that a sample word holds (R75). -/
def resultOf (w : Word) : BitVec 12 := w.setWidth 12

end Sys2Proof.Machine
end

