-- ==== Sys2Proof/Machine/Ops.lean ====
section
/-! DEFINITION. Operations the meanings share: codewords and the sample array, timestamps, setters that hand
conditions to the event unit, the line as the pin shows it, and the clock. -/

namespace Sys2Proof.Machine

/-! ### The codeword (R138, R139) -/

/-- R138: the columns of data bits 0 to 15: the sixteen smallest values with three 1 bits. -/
def dataColumns : List (BitVec 6) :=
  [0x07, 0x0B, 0x0D, 0x0E, 0x13, 0x15, 0x16, 0x19, 0x1A, 0x1C, 0x23, 0x25, 0x26, 0x29, 0x2A, 0x2C]

/-- R138: the columns of the stored positions 0 to 21. -/
def columns : List (BitVec 6) := dataColumns ++ [0x01, 0x02, 0x04, 0x08, 0x10, 0x20]

/-- R138: the column of the virtual address bit. -/
def virtualColumn : BitVec 6 := 0x1F

/-- R138: 1 when the 18-bit address has an odd number of 1 bits. -/
def addressParity (address : Nat) : Bool :=
  (List.range 18).foldl (fun p i => p ^^ address.testBit i) false

/-- Exclusive-OR of the columns of the positions that hold 1, from position `i` up. -/
def columnSum (bit : Nat → Bool) : List (BitVec 6) → Nat → BitVec 6
  | [], _ => 0
  | c :: cs, i => (if bit i then c else 0) ^^^ columnSum bit cs (i + 1)

/-- The virtual bit's share of a syndrome. -/
def addressShare (address : Nat) : BitVec 6 := if addressParity address then virtualColumn else 0

/-- R138: the check bits that make the exclusive-OR over data, check and virtual positions zero. -/
def checkBits (address : Nat) (w : Word) : BitVec 6 := columnSum w.getLsbD dataColumns 0 ^^^ addressShare address

/-- R138: the codeword written for a word at an address. -/
def encode (address : Nat) (w : Word) : Codeword := (checkBits address w ++ w : BitVec (6 + 16))

/-- R139: the syndrome of a codeword read at an address. -/
def syndrome (address : Nat) (c : Codeword) : BitVec 6 := columnSum c.getLsbD columns 0 ^^^ addressShare address

/-- R139: what the decoder answers. -/
inductive Decoded where
  | clean (w : Word)
  | correctable (position : Nat) (w : Word)
  | uncorrectable (w : Word)
  deriving DecidableEq, Repr

/-- R139: the outcome follows from the syndrome. -/
def decodeWord (address : Nat) (c : Codeword) : Decoded :=
  let syn := syndrome address c
  if syn = 0 then .clean (c.setWidth 16)
  else
    match columns.findIdx? (· == syn) with
    | some p => .correctable p ((c ^^^ BitVec.twoPow 22 p).setWidth 16)
    | none => .uncorrectable (c.setWidth 16)

/-- The word the decoder returns to the reader (R139). -/
def Decoded.word : Decoded → Word
  | .clean w => w
  | .correctable _ w => w
  | .uncorrectable w => w

/-! ### The sample array -/

/-- What an unlisted address reads as: the INIT fill's codeword of 8000H (R137; log 8). -/
def fillWord (address : Nat) : Codeword := encode address 0x8000

/-- The codeword stored at an address. -/
def readArray : Memory → Nat → Codeword
  | [], a => fillWord a
  | (b, c) :: r, a => if a = b then c else if a < b then fillWord a else readArray r a

/-- An entry in front, unless it says what an unlisted address reads as. -/
def putEntry (a : Nat) (c : Codeword) (m : Memory) : Memory := if c = fillWord a then m else (a, c) :: m

/-- One codeword written, in canonical form. -/
def writeArray : Memory → Nat → Codeword → Memory
  | [], a, c => putEntry a c []
  | (b, d) :: r, a, c =>
    if a < b then putEntry a c ((b, d) :: r)
    else if a = b then putEntry a c r
    else (b, d) :: writeArray r a c

/-- Every entry lies above `lo`, addresses rise, and no entry says what an unlisted address reads as. -/
def wfFrom (lo : Nat) : Memory → Bool
  | [] => true
  | (a, c) :: r => lo ≤ a && a < arrayWords && c != fillWord a && wfFrom (a + 1) r

/-- The array's canonical form. -/
def Memory.wf (m : Memory) : Bool := wfFrom 0 m

/-- R137: the array after the fill has written the addresses below `n`. -/
def fillBelow (n : Nat) (m : Memory) : Memory := m.filter (fun e => n ≤ e.1)

/-- R1: the physical number of a segment's home. -/
def physicalNumber (g : SegNo) : Home → Nat
  | .main => g.val
  | .spare j => 256 + j.val

/-- R2: a segment's header. -/
def State.header (s : State) (g : SegNo) : Header := s.pool.headers.get g

/-- A segment's header written. -/
def setHeader (g : SegNo) (h : Header) (s : State) : State :=
  { s with pool := { s.pool with headers := s.pool.headers.set g h } }

/-- R1: the physical word address of a segment and a 9-bit offset, by the home recorded now. -/
def State.address (s : State) (g : SegNo) (offset : Nat) : Nat :=
  physicalNumber g (s.header g).home * segmentWords + offset % segmentWords

/-- R31, R138: a word encoded for the address of a segment and offset, and written there. -/
def storeWord (g : SegNo) (offset : Nat) (w : Word) (s : State) : State :=
  let a := s.address g offset
  { s with mem := { s.mem with array := writeArray s.mem.array a (encode a w) } }

/-- R31: the words of a frame written at consecutive offsets, in channel order. -/
def storeWords (g : SegNo) : Nat → List Word → State → State
  | _, [], s => s
  | o, w :: ws, s => storeWords g (o + 1) ws (storeWord g o w s)

/-! ### Timestamps and state setters -/

/-- R122: the timestamp the timebase issues on the present tick. -/
def State.stamp (s : State) : Timestamp :=
  { epoch := s.tb.epoch, phase := s.tb.phase, unsynced := s.tb.sync == .seeking }

/-- The present tick and its timestamp. -/
def State.capture (s : State) : Capture := { tick := s.tb.localTick, stamp := s.stamp }

/-- R133: the condition of SYNC_SEEKING. -/
def seekingHolds (st : StationState) (y : Sync) : Bool := st == .running && y == .seeking

/-- The station state changes; the start or end of SYNC_SEEKING is handed over (R133). -/
def setStation (st : StationState) (s : State) : State :=
  handLevel .syncSeeking (seekingHolds s.ctl.state s.tb.sync) (seekingHolds st s.tb.sync)
    { s with ctl := { s.ctl with state := st } }

/-- The sync state changes; the start or end of SYNC_SEEKING is handed over (R133). -/
def setSync (y : Sync) (s : State) : State :=
  handLevel .syncSeeking (seekingHolds s.ctl.state s.tb.sync) (seekingHolds s.ctl.state y)
    { s with tb := { s.tb with sync := y } }

/-- The receiver changes state; the start or end of LINE_STUCK is handed over (R96, R97). -/
def setRx (x : RxState) (s : State) : State :=
  handLevel .lineStuck (s.rx.state == .stuck) (x == .stuck) { s with rx := { s.rx with state := x } }

/-- The writer changes; the start or end of OVERRUN is handed over (R36, R40). -/
def setWriter (w : Writer) (s : State) : State :=
  handLevel .overrun (s.writer.state == .overrun) (w.state == .overrun) { s with writer := w }

/-- The error log changes; the start or end of LOG_FULL is handed over (R150). -/
def setLog (l : List LogEntry) (s : State) : State :=
  handLevel .logFull (s.mem.log.length == logRoom) (l.length == logRoom) { s with mem := { s.mem with log := l } }

/-- R172, R21: FREE_LOW's condition; before a configuration the threshold is taken as 0. -/
def freeLowHolds (cfg : Option ConfigStore) (free : List SegNo) : Bool :=
  match cfg with
  | none => false
  | some c => free.length < freeLowThreshold c

/-- The free list changes; FREE_LOW is judged again (R21). -/
def setFree (f : List SegNo) (s : State) : State :=
  handLevel .freeLow (freeLowHolds s.ctl.config s.pool.free) (freeLowHolds s.ctl.config f)
    { s with pool := { s.pool with free := f } }

/-! ### The line -/

/-- R91: whether the transmitter pulls the line: a pulse, its own slot or a 1 bit. -/
def Transmitter.pulls (t : Transmitter) : Bool :=
  (t.drive.any (·.pulling)) || t.slotDriving || t.bitDuty.any (·.driving)

/-- R91: the level at the pin is the wired-OR of this station's drive and the others'. -/
def State.lineLow (s : State) : Bool := s.pins.peersLow || s.tx.pulls

/-- R103: the transmitter's state, from what it holds. -/
inductive TxState where
  | quiet | pending | drivingTrigger | drivingEpoch | retryWait
  deriving DecidableEq, Repr

/-- R103: driving while a pulse of its own awaits classification; otherwise RETRY_WAIT with a request
absorbed once, PENDING with another request, QUIET with none. -/
def Transmitter.state (t : Transmitter) : TxState :=
  match t.drive with
  | some d => if d.isEpoch then .drivingEpoch else .drivingTrigger
  | none =>
    match t.request with
    | some r => if r.retried then .retryWait else .pending
    | none => if t.epochHeld then .pending else .quiet

/-- R92: the filter runs in LISTEN, RUNNING and HALTED. -/
def filterRuns : StationState → Bool
  | .listen => true
  | .running => true
  | .halted => true
  | .unconfigured => false
  | .configured => false
  | .init => false
  | .fault => false

/-- R92: a run of equal samples that begins on the present tick. -/
def freshRun (s : State) : LineRun :=
  { high := !s.lineLow, start := s.capture, epochHeld := s.tx.epochHeld, agree := false }

/-- R92: the run of equal samples after the present tick's sample. -/
def nextRun (s : State) : LineRun :=
  match s.filter.last with
  | some r => if r.high = !s.lineLow then { r with agree := true } else freshRun s
  | none => freshRun s

/-- The level that two samples agree on and that is not yet accepted (R92). -/
def risingOrFalling (s : State) : Option Bool :=
  match s.filter.last with
  | none => none
  | some r => if r.agree && s.filter.accepted != some r.high then some r.high else none

/-- The row that takes an edge accepted now: a low in IDLE (R94), a high in LOW (R95), a high in STUCK, a low
in RECOVER (R97). The first accepted level makes no edge (R92). -/
def edgeRow (s : State) : Option Instr :=
  match s.filter.accepted, risingOrFalling s, s.filter.last with
  | some _, some high, some r =>
    match s.rx.state with
    | .idle => if high then none else some .leadingEdge
    | .low => if high then some (.trailingEdge (ticksSince r.start.tick s.rx.pulseStart)) else none
    | .stuck => if high then some .stuckRelease else none
    | .recover => if high then none else some .recoverCountRestart
    | .tagWindow => none
    | .numberWindow => none
  | _, _, _ => none

/-- R92: the level of the last sample is accepted. The high run is counted from the run's first sample. -/
def acceptLevel (s : State) : State :=
  match s.filter.last with
  | none => s
  | some r =>
    { s with filter := { s.filter with
        accepted := some r.high, highRun := if r.high then ticksSince s.tb.localTick r.start.tick else 0 } }

/-- R92: the line is sampled for the present tick. A level that no row takes is accepted here. -/
def sampleLine (s : State) : State :=
  if filterRuns s.ctl.state && !s.filter.sampled then
    let t := { s with filter := { s.filter with last := some (nextRun s), sampled := true } }
    if (risingOrFalling t).isSome && (edgeRow t).isNone then acceptLevel t else t
  else s

/-! ### The clock (log 2) -/

/-- R121: the phase and epoch number after one tick. In LOCAL mode the tick that would bring the phase to P,
or finds it past P, begins a local epoch. -/
def countPhase (p : Option Nat) (tb : Timebase) : Timebase :=
  match tb.mode with
  | .held => tb
  | .line => if tb.phase = 65535 then tb else { tb with phase := tb.phase + 1 }
  | .localScale =>
    match p with
    | none => tb
    | some per =>
      if per ≤ tb.phase.toNat + 1 then { tb with phase := 0, epoch := tb.epoch + 1 }
      else { tb with phase := tb.phase + 1 }

/-- R24, R25: the divider falls to the next instant; the sweep position is the channel being converted at the tick's
first core clock; each channel whose conversion begins in the tick is sampled (log 4). -/
def countSequencer (k n : Nat) (now : Tick) (waiting : Bool) (inputs : List AnalogLevel) (q : Sequencer) : Sequencer :=
  { q with
    divider := if waiting then q.divider else q.divider.map (· - 1),
    position := match q.sweep with
      | none => q.position
      | some f => min (n - 1) (ticksSince now f.tick * 2 ^ k / conversionClocks),
    samples := match q.sweep with
      | none => q.samples
      | some f => latchInputs (begunConversions k n (ticksSince now f.tick)) inputs q.samples }

/-- R111, R110: a slot or bit drive ends with its slot. -/
def countTransmitter (t : Nat) (ownId : Nat) (elapsed : Nat) (x : Transmitter) : Transmitter :=
  { x with
    holdoff := x.holdoff - 1,
    slotDriving := x.slotDriving && elapsed < 2 * t + ownId * t,
    bitDuty := x.bitDuty.map (fun d => { d with driving := d.driving && elapsed < t + d.next * t }) }

/-- R147, R148: while WALKING the interval timer falls by one at each tick and waits at 0. -/
def countScrubber (waiting : Bool) (b : Scrubber) : Scrubber :=
  if b.walking && !waiting then { b with timer := b.timer - 1 } else b

/-- R117, R118, R186: the timebase at a tick boundary: phase and epoch number counted, the local tick count one up,
and a divisor that waits taken for the ticks from here on. -/
def countTimebase (p k : Nat) (tb : Timebase) : Timebase :=
  { countPhase (some p) tb with
    localTick := tb.localTick + 1, prescale := some (tb.nextPrescale.getD k), nextPrescale := none }

/-- One tick passes (R117, R118): every block that counts in ticks counts, the fill at the divisor of the tick that
ends. While the prescaler is stopped no tick passes. Nothing but counting happens here; what a count brings about is its row's. -/
def countTick (s : State) : State :=
  match s.tb.prescale, s.ctl.config with
  | some k, some c =>
    let now := s.tb.localTick + 1
    { s with
      tb := countTimebase (period c) k s.tb,
      ctl := { s.ctl with entry := .none },
      seqr := countSequencer k (channels c) now (s.ctl.entry != .none) s.pins.analog s.seqr,
      trig := { s.trig with timer := s.trig.timer - 1 },
      filter := { s.filter with
        sampled := false,
        highRun := if s.filter.accepted = some true then s.filter.highRun + 1 else s.filter.highRun },
      tx := countTransmitter (bitTime c) s.ctl.stationId.toNat (ticksSince now s.rx.origin) s.tx,
      mem := { s.mem with
        scrub := countScrubber (s.ctl.entry == .fromInit) s.mem.scrub,
        fill := s.mem.fill.map (fun d => min arrayWords (d + 2 ^ k)) } }
  | _, _ => s

/-- The rest of the present tick and the coming of the next: the line is sampled, then the tick passes. -/
def tick (s : State) : State := countTick (sampleLine s)

/-- `n` ticks pass. -/
def State.elapse : Nat → State → State
  | 0, s => s
  | n + 1, s => State.elapse n (tick s)

/-- The line held at a level by the other stations from now on (log 5). -/
def holdLine (low : Bool) (s : State) : State := { s with pins := { s.pins with peersLow := low } }

/-- The analog inputs at these levels from now on (log 19). -/
def holdInputs (inputs : List AnalogLevel) (s : State) : State := { s with pins := { s.pins with analog := inputs } }

/-- The filter run until two successive samples agree on the line's level (R92): none, one or two ticks. -/
def settle (high : Bool) (s : State) : State :=
  let s := sampleLine s
  match s.filter.last with
  | some r =>
    if r.high = high then if r.agree then s else sampleLine (tick s)
    else sampleLine (tick (sampleLine (tick s)))
  | none => sampleLine (tick (sampleLine (tick s)))

/-! ### Commands and rows -/

/-- While a reset is held only its completion is taken (R182). -/
def State.live (s : State) : Bool := !s.pins.rstnLow

/-- A row that needs a configuration: its effect while no reset is held and a block is held; otherwise its
event does not come about and nothing changes (log 1). -/
def whenConfigured (s : State) (f : ConfigStore → State) : State :=
  if s.live then
    match s.ctl.config with
    | none => s
    | some c => f c
  else s

/-- A row of the clock: `due` says in how many ticks it comes about, or that it cannot. The clock runs to the
row's time (log 3) and the row's effect follows. -/
def atTime (due : Option Nat) (f : State → State) (s : State) : State :=
  match due with
  | none => s
  | some wait => f (s.elapse wait)

/-- R195, R196: a host command executes on the clock on which its last byte is complete, in the command phase
of a transaction. The response is captured whole. Outside the command phase the bytes are no command (R194). -/
def hostCommand (code : Byte) (args : List Byte) (f : State → State × List Byte) (s : State) : State :=
  if s.live && s.port.phase == .command then
    let q := f s
    { q.1 with port :=
      { phase := .response, bitCount := 0, shiftIn := 0, byteCount := 1 + args.length, command := some code, args := args,
        response := q.2, prefetchWord := none } }
  else s

/-- R196: the status codes. -/
inductive Status where
  | ok | badCommand | badState | badSlot | badRange | badConfig | locked | empty
  deriving DecidableEq, Repr

/-- R196. -/
def Status.code : Status → Byte
  | .ok => 0x00
  | .badCommand => 0x01
  | .badState => 0x02
  | .badSlot => 0x03
  | .badRange => 0x04
  | .badConfig => 0x05
  | .locked => 0x06
  | .empty => 0x07

/-- A refused command answers its code and changes nothing (R199). -/
def refuse (code : Status) (s : State) : State × List Byte := (s, [code.code])

/-- A served command answers OK and the command's response bytes (R196). -/
def answer (bytes : List Byte) (s : State) : State × List Byte := (s, Status.ok.code :: bytes)

end Sys2Proof.Machine
end

