-- ==== Sys2Proof/Machine/Pool.lean ====
section
/-! DEFINITION. The segment pool and the retirement unit (chapters 1 and 8): takes, the retirement check,
returns and the writer's take claim. -/

namespace Sys2Proof.Machine

/-- R5: a take raises the generation and clears valid frames and the first-frame timestamp. -/
def Header.taken (h : Header) : Header := { h with generation := h.generation + 1, valid := 0, firstStamp := none }

/-- R5 on a segment's header. -/
def takeHeader (g : SegNo) (s : State) : State := setHeader g (s.header g).taken s

/-- R4: the head of the free list taken, or the refusal. -/
def popFree (s : State) : Option (SegNo × State) :=
  match s.pool.free with
  | [] => none
  | g :: r => some (g, takeHeader g (setFree r s))

/-- R161: the lowest-numbered UNUSED spare. -/
def lowestUnused (sp : Vector SpareState 8) : Option SpareNo :=
  (List.finRange 8).find? (fun j => sp.get j == .unused)

/-- R159, R162: the segment's entry rewritten in its place. -/
def rewriteEntry (g : SegNo) (j : SpareNo) (e : RemapEntry) : RemapEntry :=
  if e.seg = g then { e with spare := j, moves := e.moves + 1 } else e

/-- R161, R162: a retire-pending segment is given spare j. -/
def retireTo (g : SegNo) (j : SpareNo) (s : State) : State :=
  let h := s.header g
  let r := match h.home with
    | .main => { spares := s.ret.spares.set j .mapped, remap := s.ret.remap ++ [{ seg := g, spare := j, moves := 1 }] }
    | .spare i => { spares := (s.ret.spares.set i .dead).set j .mapped, remap := s.ret.remap.map (rewriteEntry g j) }
  setHeader g { h with home := .spare j, tally := 0, retirePending := false } { s with ret := r }

/-- R163: a retire-pending segment with no UNUSED spare is withdrawn and SPARE_EXHAUSTED is raised. -/
def withdraw (g : SegNo) (s : State) : State :=
  let r := match (s.header g).home with
    | .main => s.ret
    | .spare i => { spares := s.ret.spares.set i .dead, remap := s.ret.remap.filter (fun e => e.seg != g) }
  raise .spareExhausted { s with ret := r, pool := { s.pool with withdrawn := s.pool.withdrawn ++ [g] } }

/-- R160: the retirement check. The answer says whether the segment may enter the free list. -/
def retireCheck (g : SegNo) (s : State) : State × Bool :=
  if (s.header g).retirePending then
    match lowestUnused s.ret.spares with
    | some j => (retireTo g j s, true)
    | none => (withdraw g s, false)
  else (s, true)

/-- R13: a segment enters the free list tail through the retirement check. -/
def enterFree (g : SegNo) (s : State) : State :=
  let q := retireCheck g s
  if q.2 then setFree (q.1.pool.free ++ [g]) q.1 else q.1

/-- R13: a return of several segments, one at a time in order. -/
def returnAll : List SegNo → State → State
  | [], s => s
  | g :: gs, s => returnAll gs (enterFree g s)

/-- R30, R33, R37: the segment taken becomes the writer's current segment at frame position 0. -/
def beginSegment (g : SegNo) (s : State) : State :=
  setWriter { s.writer with state := .filling, current := some g, pos := 0 } s

/-- R36: a refused take claim. -/
def enterOverrun (s : State) : State :=
  setWriter { s.writer with state := .overrun, current := none, pos := 0 } s

/-- The history chain replaced. -/
def setHistory (h : List SegNo) (s : State) : State := { s with pool := { s.pool with history := h } }

/-- R8 steps 2 and 3: with the free list empty, the oldest history segment that passes the check (log 15). -/
def takeHistory : List SegNo → State → State
  | [], s => enterOverrun (setHistory [] s)
  | g :: r, s =>
    let q := retireCheck g (setHistory r s)
    if q.2 then beginSegment g (takeHeader g q.1) else takeHistory r q.1

/-- R8: the writer's take claim. -/
def writerTake (s : State) : State :=
  match popFree s with
  | some (g, t) => beginSegment g t
  | none => takeHistory s.pool.history s

/-- R20: an outstanding claim is served once a return has been taken whole and the free list holds a segment. -/
def serveOutstanding (s : State) : State :=
  if s.writer.state = .overrun then
    match popFree s with
    | some (g, t) => beginSegment g t
    | none => s
  else s

/-- R9: the full lone current segment joins history, the chain is trimmed past H, and the writer takes. -/
def segmentFull (c : ConfigStore) (g : SegNo) (s : State) : State :=
  let h := s.pool.history ++ [g]
  let s := { setHistory h s with writer := { s.writer with current := none } }
  let s :=
    if c.target < h.length then
      match h with
      | old :: rest => enterFree old (setHistory rest s)
      | [] => s
    else s
  writerTake s

/-- R38: the writer becomes IDLE and holds no segment; an outstanding claim is cancelled. -/
def writerIdle (s : State) : State := setWriter { s.writer with state := .idle, current := none, pos := 0 } s

end Sys2Proof.Machine
end

