-- ==== Sys2Proof/Machine/Records.lean ====
section
/-! DEFINITION. The record controller (chapter 3): openings, placement, collection, retriggers, windows,
closing. -/

namespace Sys2Proof.Machine

/-- The slot of the first record that meets a condition. -/
def findRecord (p : Record → Bool) (s : State) : Option SlotNo :=
  (List.finRange 16).find? (fun i => (s.recs.slots.get i).any p)

/-- R42: COLLECTING and AWAITING are OPEN. -/
def Record.isOpen (r : Record) : Bool := r.state != .closed

/-- R42: the COLLECTING record's slot, if there is one. -/
def collectingSlot (s : State) : Option SlotNo := findRecord (fun r => r.state == .collecting) s

/-- R42: the OPEN record's slot, if there is one. -/
def openSlot (s : State) : Option SlotNo := findRecord Record.isOpen s

/-- R47: the lowest-numbered FREE slot. -/
def freeSlot (s : State) : Option SlotNo :=
  (List.finRange 16).find? (fun i => (s.recs.slots.get i).isNone)

/-- A slot written. -/
def setSlot (i : SlotNo) (r : Option Record) (s : State) : State :=
  { s with recs := { s.recs with slots := s.recs.slots.set i r } }

/-- R7: the writer's lone current segment: its current segment while no record is COLLECTING. -/
def State.lone (s : State) : Option SegNo :=
  match collectingSlot s with
  | some _ => none
  | none => s.writer.current

/-- Frames held in a chain: the valid frames of its segments. -/
def heldFrames (s : State) (chain : List SegNo) : Nat := (chain.map (fun g => (s.header g).valid)).sum

/-- R51, R32: how many of the chain's `held` frames lie at or after the edge, their instants counted back
from the latest report in steps of Ts. None if no held frame does. -/
def framesFrom (ts held : Nat) (last : Option Tick) (edge : Tick) : Option Nat :=
  match last with
  | none => none
  | some t => if held = 0 || !atOrAfter t edge then none else some (min held (ticksSince t edge / ts + 1))

/-- R52: the instant of the oldest of the `m` latest frames lies at or after the edge plus Ts. -/
def frameMissing (ts m : Nat) (last : Option Tick) (edge : Tick) : Bool :=
  match last with
  | none => false
  | some t => ts ≤ ticksSince t edge - (m - 1) * ts

/-- R52: the lead segments, the rest of the chain, and the first frame's position in it. The segment being
filled stays. -/
def splitLead (valid : SegNo → Nat) : List SegNo → Nat → List SegNo × List SegNo × Nat
  | [], n => ([], [], n)
  | [g], n => ([], [g], n)
  | g :: h :: r, n =>
    if valid g ≤ n then
      let q := splitLead valid (h :: r) (n - valid g)
      (g :: q.1, q.2)
    else ([], g :: h :: r, n)

/-- R68: a record enters CLOSED. -/
def raiseClosed (s : State) : State := raise .recordClosed s

/-- R57: the data of the record in slot i are complete. The writer makes its take claim (R12). -/
def completeData (i : SlotNo) (s : State) : State :=
  match s.recs.slots.get i with
  | none => s
  | some r =>
    let r := { r with pendingEdges := [] }
    let s := match r.window with
      | some _ => setSlot i (some { r with state := .awaiting }) s
      | none => raiseClosed (setSlot i (some { r with state := .closed }) s)
    writerTake { s with writer := { s.writer with current := none } }

/-- R54: the data are complete when a placed record's total frames have reached the post end. -/
def completeAtEnd (i : SlotNo) (s : State) : State :=
  match s.recs.slots.get i with
  | none => s
  | some r => if r.placed && r.postEnd ≤ r.total then completeData i s else s

/-- R52: placement, with `m` frames held from the trigger frame through the latest report. -/
def placeRecord (c : ConfigStore) (i : SlotNo) (r : Record) (m : Nat) (s : State) : State :=
  let missing := frameMissing (samplePeriod c) m s.recs.lastReport r.edgeTick
  let a := if missing then 0 else heldFrames s r.chain - m
  let pre := min (preFrames c) a
  let q := splitLead (fun g => (s.header g).valid) r.chain (a - pre)
  let r := { r with
    chain := q.2.1, firstOffset := q.2.2, trigIndex := pre, total := pre + m, postEnd := pre + postFrames c,
    placed := true, flags := { r.flags with preShort := a < preFrames c || missing } }
  returnAll q.1 (setSlot i (some r) s)

/-- R53: a record whose data end before its trigger frame is fixed keeps every frame it holds. Its post end has
no value and stays as it was (log 28). -/
def Record.placedWithout (c : ConfigStore) (held : Nat) (r : Record) : Record :=
  if r.placed then r
  else { r with
    placed := true, firstOffset := 0, total := held, trigIndex := held,
    flags := { r.flags with preShort := held < preFrames c } }

/-- R51: the trigger frame is fixed if a held frame lies at or after the leading edge. -/
def fixTrigger (c : ConfigStore) (i : SlotNo) (s : State) : State :=
  match s.recs.slots.get i with
  | none => s
  | some r =>
    if r.placed then s
    else
      match framesFrom (samplePeriod c) (heldFrames s r.chain) s.recs.lastReport r.edgeTick with
      | none => s
      | some m => placeRecord c i r m s

/-- R59: the post end becomes the later of its value and the retrigger frame's number plus Npost. -/
def Record.extended (c : ConfigStore) (frame : Nat) (r : Record) : Record :=
  { r with postEnd := max r.postEnd (frame + postFrames c) }

/-- R55: EXTEND_CAPPED's test: the post end was moved past trigger frame index + Npost. -/
def Record.wasExtended (c : ConfigStore) (r : Record) : Bool := r.trigIndex + postFrames c < r.postEnd

/-- R55, R56: the fill of a COLLECTING record's last segment that the frame has not completed. -/
def collectClaim (c : ConfigStore) (i : SlotNo) (s : State) : State :=
  match s.recs.slots.get i with
  | none => s
  | some r =>
    if r.placed && maxChain c ≤ r.chain.length then
      completeData i (setSlot i (some { r with flags := { r.flags with extendCapped := r.wasExtended c } }) s)
    else
      match popFree s with
      | some (g, t) => beginSegment g (setSlot i (some { r with chain := r.chain ++ [g] }) t)
      | none =>
        let r := r.placedWithout c (heldFrames s r.chain)
        completeData i (setSlot i (some { r with flags := { r.flags with truncated := true } }) s)

/-- R54, R59: one more frame of a placed COLLECTING record; pending retriggers that it settles share its number. -/
def Record.counted (c : ConfigStore) (instant : Tick) (r : Record) : Record :=
  let r :=
    if r.pendingEdges.any (fun e => atOrAfter instant e) then r.extended c r.total else r
  { r with total := r.total + 1, pendingEdges := r.pendingEdges.filter (fun e => !atOrAfter instant e) }

/-- R59: after a placement at this report, the retriggers that the frame settles; the frame is already counted. -/
def Record.settled (c : ConfigStore) (instant : Tick) (r : Record) : Record :=
  let r :=
    if r.placed && r.pendingEdges.any (fun e => atOrAfter instant e) then r.extended c (r.total - 1) else r
  { r with pendingEdges :=
      if r.placed then r.pendingEdges.filter (fun e => !atOrAfter instant e) else r.pendingEdges }

/-- R51, R52, R54, R59: a frame report fixes and places the record, or counts one more frame of it. -/
def countReport (c : ConfigStore) (i : SlotNo) (instant : Tick) (s : State) : State :=
  match s.recs.slots.get i with
  | none => s
  | some r =>
    if r.placed then setSlot i (some (r.counted c instant)) s
    else
      let t := fixTrigger c i s
      setSlot i ((t.recs.slots.get i).map (Record.settled c instant)) t

/-- R54, R55: the record's end is checked; a fill that has not completed it leads to the collect claim. -/
def endReport (c : ConfigStore) (i : SlotNo) (filled : Bool) (s : State) : State :=
  match s.recs.slots.get i with
  | none => s
  | some r =>
    if r.placed && r.postEnd ≤ r.total then completeData i s
    else if filled then collectClaim c i s
    else s

/-- R51 to R55: a frame report for the COLLECTING record in slot i. -/
def recordReport (c : ConfigStore) (i : SlotNo) (instant : Tick) (filled : Bool) (s : State) : State :=
  endReport c i filled (countReport c i instant s)

/-- R44: the sequence gap that refuses an open. -/
def sequenceGap (s : State) : Bool :=
  (List.finRange 16).any (fun i =>
    (s.recs.slots.get i).any (fun r => 32768 ≤ (s.recs.seq - r.sequence).toNat))

/-- R48: a missed trigger. -/
def missTrigger (s : State) : State :=
  raise .triggerMissed { s with recs := { s.recs with missed := satSucc 255 s.recs.missed } }

/-- R47: all flags clear, except UNSYNCED where R49 sets it. -/
def RecFlags.opened (unsynced : Bool) : RecFlags :=
  { preShort := false, truncated := false, stopped := false, extendCapped := false, memError := false,
    unsynced := unsynced }

/-- R47: the fields of a record at its open. The post end has no value there; the model holds 0 until the
placement, and nothing reads it (log 28). -/
def Record.opened (seq : BitVec 16) (edge : Capture) (cause : Option Cause) (chain : List SegNo) : Record :=
  { sequence := seq, state := .collecting, trigTime := edge.stamp, origin := none, cause := cause, retrigs := [],
    overflow := 0, chain := chain, firstOffset := 0, trigIndex := 0, total := 0,
    flags := RecFlags.opened edge.stamp.unsynced,
    uncorrectable := 0, edgeTick := edge.tick, placed := false, postEnd := 0, pendingEdges := [],
    window := some .trigger }

/-- R47, R48, R10: a trigger event with no record OPEN opens one, or is missed. -/
def openRecord (c : ConfigStore) (edge : Capture) (cause : Option Cause) (s : State) : State :=
  match freeSlot s, sequenceGap s, s.writer.current with
  | some i, false, some g =>
    let r := Record.opened s.recs.seq edge cause (s.pool.history ++ [g])
    let s := setHistory [] (setSlot i (some r) { s with recs := { s.recs with seq := s.recs.seq + 1 } })
    completeAtEnd i (fixTrigger c i s)
  | _, _, _ => missTrigger s

/-- R58: the retrigger entry, or the overflow count. -/
def Record.logged (edge : Capture) (cause : Option Cause) (r : Record) : Record :=
  if r.retrigs.length < retrigRoom then
    { r with
      retrigs := r.retrigs ++ [{ stamp := edge.stamp, origin := none, cause := cause }],
      window := some (.retrigger r.retrigs.length) }
  else { r with overflow := satSucc 255 r.overflow, window := none }

/-- R59: in EXTEND mode a retrigger of a COLLECTING record moves the post end, now or when its frame comes. -/
def Record.retriggerEnd (c : ConfigStore) (held : Nat) (last : Option Tick) (edge : Tick) (r : Record) : Record :=
  if extendMode c && r.state == .collecting then
    match r.placed, framesFrom (samplePeriod c) held last edge with
    | true, some m => r.extended c (held - m - r.firstOffset)
    | _, _ => { r with pendingEdges := r.pendingEdges ++ [edge] }
  else r

/-- R46: a trigger event. It is taken while the station is RUNNING. -/
def triggerEvent (c : ConfigStore) (edge : Capture) (cause : Option Cause) (s : State) : State :=
  if s.ctl.state = .running then
    match openSlot s with
    | none => openRecord c edge cause s
    | some i =>
      match s.recs.slots.get i with
      | none => s
      | some r =>
        setSlot i (some ((r.logged edge cause).retriggerEnd c (heldFrames s r.chain) s.recs.lastReport edge.tick)) s
  else s

/-- The origin set of the pending item (R62). -/
def Record.withOrigin (item : PendingItem) (ids : IdSet) (r : Record) : Record :=
  match item with
  | .trigger => { r with origin := some ids }
  | .retrigger k => { r with retrigs := r.retrigs.modify k (fun e => { e with origin := some ids }) }

/-- R105: the local cause handed as an addition to the trigger event just classified. -/
def Record.withCause (item : PendingItem) (cause : Cause) (r : Record) : Record :=
  match item with
  | .trigger => { r with cause := some cause }
  | .retrigger k => { r with retrigs := r.retrigs.modify k (fun e => { e with cause := some cause }) }

/-- R105: dropped where no item of an OPEN record is pending. -/
def attachCause (cause : Cause) (s : State) : State :=
  match openSlot s with
  | none => s
  | some i =>
    match s.recs.slots.get i with
    | none => s
    | some r =>
      match r.window with
      | none => s
      | some item => setSlot i (some (r.withCause item cause)) s

/-- R62 to R64: a window result: a set, or none for "cut short". -/
def windowResult (result : Option IdSet) (s : State) : State :=
  match openSlot s with
  | none => s
  | some i =>
    match s.recs.slots.get i with
    | none => s
    | some r =>
      match r.window with
      | none => s
      | some item =>
        let r := match result with
          | some ids => r.withOrigin item ids
          | none => r
        let r := { r with window := none }
        if r.state = .awaiting then raiseClosed (setSlot i (some { r with state := .closed }) s)
        else setSlot i (some r) s

/-- R65, R66, R67: an OPEN record closes where it stands, with STOPPED or without. -/
def Record.closedAs (c : ConfigStore) (stopped : Bool) (held : Nat) (r : Record) : Record :=
  let r := if r.state = .collecting then r.placedWithout c held else r
  { r with
    state := .closed, window := none, pendingEdges := [],
    flags := { r.flags with stopped := r.flags.stopped || stopped } }

/-- R65 to R67: the OPEN record closes at once and RECORD_CLOSED is raised. -/
def closeOpen (c : ConfigStore) (stopped : Bool) (s : State) : State :=
  match openSlot s with
  | none => s
  | some i =>
    match s.recs.slots.get i with
    | none => s
    | some r => raiseClosed (setSlot i (some (r.closedAs c stopped (heldFrames s r.chain))) s)

/-- The slot of the record whose chain holds a segment (R3). -/
def holderOf (g : SegNo) (s : State) : Option SlotNo := findRecord (fun r => r.chain.contains g) s

/-- R69: an uncorrectable word marks the record that holds its segment. -/
def markRecord (g : SegNo) (s : State) : State :=
  match holderOf g s with
  | none => s
  | some i =>
    match s.recs.slots.get i with
    | none => s
    | some r =>
      setSlot i
        (some { r with flags := { r.flags with memError := true }, uncorrectable := satSucc 255 r.uncorrectable }) s

end Sys2Proof.Machine
end

