-- ==== Sys2Proof/Machine/Line.lean ====
section
/-! DEFINITION. The line agent (chapter 5) and the timebase's part in it (chapter 6): offers of causes, the
classification of pulses, the outcome for the transmitter's requests, alignment. -/

namespace Sys2Proof.Machine

/-! ### Offers (R86 to R88, R104) -/

/-- R88: an offer merged into the held request. -/
def Cause.merged (causes : CauseSet) (q : Cause) : Cause := { q with causes := q.causes ||| causes }

/-- R86: a request as it is formed. -/
def newRequest (causes : CauseSet) (time : Timestamp) : Cause := { causes := causes, first := time, retried := false }

/-- R104: a suppressed offer. -/
def suppress (s : State) : State := { s with tx := { s.tx with suppressed := satSucc 255 s.tx.suppressed } }

/-- R104: a request is formed and held. -/
def holdRequest (causes : CauseSet) (time : Timestamp) (s : State) : State :=
  { s with tx := { s.tx with request := some (newRequest causes time) } }

/-- R105: an offer in the opening guard joins the trigger just classified: its cause goes to the record
controller and the slot duty of this window is taken up. -/
def joinTrigger (causes : CauseSet) (time : Timestamp) (s : State) : State :=
  attachCause (newRequest causes time) { s with tx := { s.tx with slotDuty := true } }

/-- R87, R88, R104: a cause is offered to the transmitter. It takes offers while the station is RUNNING (R103).
A request formed when the line allows a drive is driven by DRIVE_START on the same tick (R106). A second offer
in one opening guard finds the slot duty taken up and is suppressed (log 29). -/
def offer (c : ConfigStore) (causes : CauseSet) (time : Timestamp) (s : State) : State :=
  if s.ctl.state = .running then
    match s.tx.request with
    | some q => { s with tx := { s.tx with request := some (q.merged causes) } }
    | none =>
      if 0 < s.tx.holdoff then suppress s
      else
        match s.rx.state with
        | .tagWindow =>
          if bitTime c ≤ ticksSince s.tb.localTick s.rx.origin then suppress s
          else if s.tx.slotDuty then suppress s
          else joinTrigger causes time s
        | .stuck => suppress s
        | .recover => suppress s
        | .low => holdRequest causes time s
        | .numberWindow => holdRequest causes time s
        | .idle => holdRequest causes time s
  else s

/-! ### Pulses (R95, R105, R107, R109, R114) -/

/-- R95 classes. -/
inductive PulseClass where
  | glitch | trigger | epoch | malformed
  deriving DecidableEq, Repr

/-- R95: the class of a pulse `w` ticks wide. -/
def classify (t w : Nat) : PulseClass :=
  if 2 * w < 3 * t then .glitch
  else if 2 * w ≤ 5 * t then .trigger
  else if 2 * w < 10 * t then .malformed
  else if 2 * w ≤ 14 * t then .epoch
  else .malformed

/-- R107, R114: a trigger request whose own pulse was absorbed. In HALTED it is dropped uncounted. -/
def absorb (s : State) : State :=
  match s.tx.request with
  | none => s
  | some q =>
    if s.ctl.state != .running then { s with tx := { s.tx with request := none } }
    else if q.retried then
      raise .originLost { s with tx := { s.tx with request := none, lost := satSucc 255 s.tx.lost } }
    else { s with tx := { s.tx with request := some { q with retried := true } } }

/-- The station's own pulse is classified: the transmitter waits for it no more (R107, R109). -/
def endDrive (s : State) : State := { s with tx := { s.tx with drive := none } }

/-- R105, R107: the request a TRIGGER pulse serves is given up and the slot duty taken up. -/
def serveRequest (s : State) : State :=
  match s.tx.request with
  | none => s
  | some _ => { s with tx := { s.tx with request := none, slotDuty := true } }

/-- R109, R110: a pulse classified EPOCH satisfies a held epoch request; the number-bit duty follows, with the
number the timebase expects (R125). -/
def satisfyEpoch (s : State) : State :=
  if s.tx.epochHeld then
    { s with tx := { s.tx with
        epochHeld := false, bitDuty := some { number := s.tb.epoch + 1, next := 0, driving := false } } }
  else s

/-- Whether the pulse awaiting classification is an own TRIGGER drive. -/
def drivesTrigger (t : Transmitter) : Bool := t.drive.any (fun d => !d.isEpoch)

/-- Whether the pulse awaiting classification is an own EPOCH drive. -/
def drivesEpoch (t : Transmitter) : Bool := t.drive.any (·.isEpoch)

/-- R127: φ more than W ticks from P, in either direction. -/
def stepsAway (phase per w : Nat) : Bool := per + w < phase || phase + w < per

/-- R126, R127: alignment to the leading edge, in RUNNING. -/
def align (c : ConfigStore) (e : EdgeCapture) (s : State) : State :=
  if s.ctl.state = .running then
    let step := s.tb.sync == .locked && !e.epochHeld && stepsAway e.edge.stamp.phase.toNat (period c) (lockWindow c)
    let t := { s with tb := { s.tb with
        phase := BitVec.ofNat 16 (ticksSince s.tb.localTick e.edge.tick), epoch := s.tb.epoch + 1,
        provisional := true, requestMade := false } }
    if step then raise .syncStep t else t
  else s

/-- R95: a TRIGGER pulse: the tag window opens, a held request is served and the trigger event handed on. -/
def onTrigger (c : ConfigStore) (e : EdgeCapture) (s : State) : State :=
  let cause := s.tx.request
  let s := { s with rx := { s.rx with origin := s.tb.localTick, slotPos := 0, slotsDone := false, idSet := 0 } }
  triggerEvent c e.edge cause (serveRequest (endDrive (setRx .tagWindow s)))

/-- R107, R114: an own TRIGGER drive that did not classify TRIGGER is absorbed. -/
def absorbOwn (s : State) : State := if drivesTrigger s.tx then absorb s else s

/-- R95: an EPOCH pulse: an own TRIGGER drive is absorbed, a held epoch request satisfied, the number window
opens and the timebase aligns. -/
def onEpoch (c : ConfigStore) (e : EdgeCapture) (s : State) : State :=
  let s := absorbOwn s
  let s := { s with rx := { s.rx with origin := s.tb.localTick, slotPos := 0, slotsDone := false, bits := 0 } }
  align c e (satisfyEpoch (endDrive (setRx .numberWindow s)))

/-- R114: in HALTED an own EPOCH drive that did not classify EPOCH is dropped; in RUNNING it stays held (R109). -/
def dropOwnEpoch (s : State) : State :=
  if drivesEpoch s.tx && s.ctl.state != .running then { s with tx := { s.tx with epochHeld := false } } else s

/-- R95, R100: a malformed pulse: the line-error count rises. -/
def onMalformed (s : State) : State :=
  let s := dropOwnEpoch (absorbOwn s)
  let s := { s with rx := { s.rx with lineErrors := satSucc 255 s.rx.lineErrors, capture := none } }
  endDrive (setRx .idle s)

/-- R95, R105: a glitch hands on nothing; requests stay held (log 17). -/
def onGlitch (s : State) : State := endDrive (setRx .idle { s with rx := { s.rx with capture := none } })

/-- R95: the pulse is classified on the tick of the acceptance by its width; without a true leading edge it is
malformed whatever its width (R100). The width register takes w here and keeps it until the next pulse (log 40). -/
def classifyPulse (c : ConfigStore) (w : Nat) (s : State) : State :=
  let s := { s with rx := { s.rx with width := w } }
  match s.rx.capture with
  | none => onMalformed s
  | some e =>
    match classify (bitTime c) w with
    | .glitch => onGlitch s
    | .trigger => onTrigger c e s
    | .epoch => onEpoch c e s
    | .malformed => onMalformed s

/-! ### Windows (R98 to R102, R110 to R112, R129, R130) -/

/-- R98, R101: ticks from a window's origin to the sampling of slot `i`. -/
def sampleOffset (t i : Nat) : Nat := t + i * t + t / 2

/-- R100: a window that ends with the line low: LOW, with no true leading edge and the width measure begun (log 40). -/
def cutShort (s : State) : State :=
  setRx .low { s with rx := { s.rx with pulseStart := s.tb.localTick, capture := none, width := 0 } }

/-- The accepted level of the present tick is low, this tick's sample counted (R92). -/
def State.acceptedLow (s : State) : Bool := (sampleLine s).filter.accepted == some false

/-- R99, R100, R112: the end of a tag window. -/
def endTagWindow (c : ConfigStore) (s : State) : State :=
  let low := s.acceptedLow
  let s := windowResult (if low then none else some s.rx.idSet) s
  let s := { s with tx := { s.tx with
      slotDuty := false, slotDriving := false,
      holdoff := if s.ctl.state = .running then holdoffTicks c else 0 } }
  if low then cutShort s else setRx .idle { s with rx := { s.rx with capture := none } }

/-- R129, R130: a number result, complete or "cut short". -/
def numberResult (result : Option (BitVec 16)) (s : State) : State :=
  if s.ctl.state = .running && s.tb.provisional then
    let t := { s with tb := { s.tb with provisional := false } }
    match result with
    | none => t
    | some v =>
      let u := { t with tb := { t.tb with epoch := v } }
      match s.tb.sync with
      | .seeking => setSync .locked u
      | .locked => if v = s.tb.epoch then t else raise .epochMismatch u
  else s

/-- R102, R100: the end of a number window. -/
def endNumberWindow (s : State) : State :=
  let low := s.acceptedLow
  let s := numberResult (if low then none else some s.rx.bits) s
  let s := { s with tx := { s.tx with bitDuty := none } }
  if low then cutShort s else setRx .idle { s with rx := { s.rx with capture := none } }

/-- R113, R114: the transmitter at a STUCK declaration. -/
def txStuck (s : State) : State :=
  if s.ctl.state = .running then
    let t := { s with tx := { s.tx with drive := none, holdoff := 0 } }
    match s.tx.request with
    | none => t
    | some _ => raise .originLost { t with tx := { t.tx with request := none, lost := satSucc 255 t.tx.lost } }
  else
    { s with tx := { s.tx with
        drive := none, holdoff := 0,
        request := if drivesTrigger s.tx then none else s.tx.request,
        epochHeld := if drivesEpoch s.tx then false else s.tx.epochHeld } }

/-- R96, R132, R67: the receiver declares STUCK. The capture of the pulse's leading edge is dropped (log 30). -/
def declareStuck (c : ConfigStore) (s : State) : State :=
  let collecting := (collectingSlot s).isSome
  let s := txStuck (setRx .stuck { s with rx := { s.rx with capture := none } })
  let s := setSync .seeking { s with tb := { s.tb with provisional := false } }
  let s := closeOpen c false s
  if collecting then writerTake { s with writer := { s.writer with current := none } } else s

end Sys2Proof.Machine
end

