-- ==== Sys2Proof/Machine/Memory.lean ====
section
/-! DEFINITION. Findings, the write-back offer, the scrubber's choice of a word and the port's arbiter
(chapter 7). -/

namespace Sys2Proof.Machine

/-- R135: the requesters that present between commands; the frame writer's words go with its frame (R31). -/
inductive Requester where
  | prefetch | writeBack | scrubber
  deriving DecidableEq, Repr

/-- R135: the highest-priority request presented. -/
def granted (m : Integrity) : Option Requester :=
  if m.prefetch.any (·.presented) then some .prefetch
  else if m.buffer.isSome then some .writeBack
  else if m.scrub.request then some .scrubber
  else none

/-- R143: the tally and the retire-pending flag after a finding. -/
def Header.found (threshold : Nat) (kind : Kind) (h : Header) : Header :=
  let tally := match kind with
    | .corrected => satSucc 15 h.tally
    | .uncorrectable => 15
  { h with tally := tally, retirePending := h.retirePending || threshold ≤ tally }

/-- R142, R150: the log entry of a finding. -/
def logEntry (finder : Finder) (g : SegNo) (offset : Nat) (syn : BitVec 6) (position : Option Nat) (s : State) :
    LogEntry :=
  { kind := if position.isSome then .corrected else .uncorrectable, finder := finder, seg := g,
    home := (s.header g).home, offset := offset, syndrome := syn, bit := position, stamp := s.stamp }

/-- R142 steps 1 to 5: counter, log, tally and event of a finding; the record's mark for an uncorrectable one. -/
def finding (c : ConfigStore) (finder : Finder) (g : SegNo) (offset : Nat) (syn : BitVec 6) (position : Option Nat)
    (s : State) : State :=
  let entry := logEntry finder g offset syn position s
  let s := { s with mem := { s.mem with errorCount := satSucc 65535 s.mem.errorCount } }
  let s := if s.mem.log.length < logRoom then setLog (s.mem.log ++ [entry]) s else s
  match position with
  | some _ =>
    raise .memCorrected (setHeader g ((s.header g).found (retireThreshold c) .corrected) s)
  | none =>
    raise .memUncorrectable
      (markRecord g (setHeader g ((s.header g).found (retireThreshold c) .uncorrectable) s))

/-- R144: a write-back offered to an EMPTY buffer; a FULL one refuses. -/
def offerWriteBack (g : SegNo) (address : Nat) (w : Word) (s : State) : State :=
  match s.mem.buffer with
  | some _ => s
  | none =>
    { s with mem := { s.mem with
        buffer := some { address := address, word := w, seg := g, generation := (s.header g).generation } } }

/-- R139, R142: one word read and decoded for a finder; the decode's outcome. -/
def readOutcome (g : SegNo) (offset : Nat) (s : State) : Decoded :=
  decodeWord (s.address g offset) (readArray s.mem.array (s.address g offset))

/-- R142: what a read of one word brings about. A clean word does nothing. No row changes a stored bit of the
array: the outside does, between steps (log 34). -/
def readWord (c : ConfigStore) (finder : Finder) (g : SegNo) (offset : Nat) (s : State) : State :=
  let address := s.address g offset
  let syn := syndrome address (readArray s.mem.array address)
  match readOutcome g offset s with
  | .clean _ => s
  | .correctable p w => offerWriteBack g address w (finding c finder g offset syn (some p) s)
  | .uncorrectable _ => finding c finder g offset syn none s

/-- R145: the entry may be written back: same generation, and in history or in a record's chain. -/
def writeBackStands (e : WriteBackEntry) (s : State) : Bool :=
  (s.header e.seg).generation == e.generation && (s.pool.history.contains e.seg || (holderOf e.seg s).isSome)

/-- R21, R148: the scrubber skips a segment in the free list, in the withdrawn set, or being filled. -/
def skipped (g : SegNo) (s : State) : Bool :=
  s.pool.free.contains g || s.pool.withdrawn.contains g || s.writer.current == some g

/-- R148 steps 1 to 4: the word read at a grant: the one at the position, else word 0 of the next segment not
skipped, of up to 256 examined. -/
def scrubTarget (s : State) : Nat → SegNo → Fin 512 → Option (SegNo × Fin 512)
  | 0, _, _ => none
  | n + 1, g, o => if skipped g s then scrubTarget s n (g + 1) 0 else some (g, o)

/-- R148: the position after a word has been read. -/
def nextPosition (g : SegNo) (o : Fin 512) : SegNo × Fin 512 := if o = 511 then (g + 1, 0) else (g, o + 1)

end Sys2Proof.Machine
end

