-- ==== Sys2Proof/Machine/Due.lean ====
section
/-! DEFINITION. When the rows of the clock come about: for each, in how many ticks, or none where it cannot
(log 3). A row is due when the answer is 0. -/

namespace Sys2Proof.Machine

/-- R24: the sequencer runs in LISTEN and RUNNING. -/
def acquiring (st : StationState) : Bool := st == .listen || st == .running

/-- R187: the states in which the parity checker compares. -/
def checking : StationState → Bool
  | .configured => true
  | .init => true
  | .listen => true
  | .running => true
  | .halted => true
  | .unconfigured => false
  | .fault => false

/-- R117, R186: the ticks in which so many core clocks pass: the tick in progress has 2^k of them, and a divisor that
waits holds for the ticks after it. -/
def ticksFor (k : Nat) (next : Option Nat) (clocks : Nat) : Nat :=
  match next with
  | none => divUp clocks (2 ^ k)
  | some j => if clocks = 0 then 0 else 1 + divUp (clocks - 2 ^ k) (2 ^ j)

/-- R137: the fill's last word. -/
def fillDue (s : State) : Option Nat :=
  match s.ctl.state, s.mem.fill, s.tb.prescale with
  | .init, some d, some k => some (ticksFor k s.tb.nextPrescale (arrayWords - d))
  | _, _, _ => none

/-- R24: a frame instant; the first is the entry tick. -/
def sweepDue (s : State) : Option Nat :=
  if acquiring s.ctl.state && s.seqr.sweep.isNone then
    s.seqr.divider.map (fun d => d + (s.ctl.entry != .none).toNat)
  else none

/-- R25: the end of a sweep, 48 × n core clocks after its instant (log 4). -/
def frameDue (c : ConfigStore) (s : State) : Option Nat :=
  match s.seqr.sweep, s.tb.prescale with
  | some f, some k =>
    if acquiring s.ctl.state then
      some (conversionClocks * channels c / 2 ^ k - ticksSince s.tb.localTick f.tick)
    else none
  | _, _ => none

/-- R82: the TRIGIN unit's next sample. -/
def trigInDue (s : State) : Option Nat := if s.trig.watching then some s.trig.timer else none

/-- Ticks since the origin of the window in progress. -/
def State.sinceOrigin (s : State) : Nat := ticksSince s.tb.localTick s.rx.origin

/-- R98: the next slot's sampling tick. -/
def tagSlotDue (c : ConfigStore) (s : State) : Option Nat :=
  if s.rx.state = .tagWindow ∧ s.rx.slotsDone = false then
    some (sampleOffset (bitTime c) s.rx.slotPos - s.sinceOrigin)
  else none

/-- R98: the tag window's end, 34T after its origin. -/
def tagEndDue (c : ConfigStore) (s : State) : Option Nat :=
  if s.rx.state = .tagWindow then some (34 * bitTime c - s.sinceOrigin) else none

/-- R101: the next bit slot's sampling tick. -/
def numberSlotDue (c : ConfigStore) (s : State) : Option Nat :=
  if s.rx.state = .numberWindow ∧ s.rx.slotsDone = false then
    some (sampleOffset (bitTime c) s.rx.slotPos - s.sinceOrigin)
  else none

/-- R101: the number window's end, 18T after its origin. -/
def numberEndDue (c : ConfigStore) (s : State) : Option Nat :=
  if s.rx.state = .numberWindow then some (18 * bitTime c - s.sinceOrigin) else none

/-- R96: the tick 48T + 1 after the leading edge's time. -/
def stuckDue (c : ConfigStore) (s : State) : Option Nat :=
  if s.rx.state = .low ∧ filterRuns s.ctl.state then
    some (48 * bitTime c + 1 - ticksSince s.tb.localTick s.rx.pulseStart)
  else none

/-- R97: the high run at 64T in RECOVER. -/
def recoverDue (c : ConfigStore) (s : State) : Option Nat :=
  if s.rx.state = .recover ∧ s.filter.accepted = some true then some (64 * bitTime c - s.filter.highRun) else none

/-- R112: the holdoff timer at 0. -/
def holdoffDue (s : State) : Option Nat := if 0 < s.tx.holdoff then some s.tx.holdoff else none

/-- R106: the first tick on which a held request is driven. -/
def driveStartDue (c : ConfigStore) (s : State) : Option Nat :=
  if s.ctl.state = .running ∧ s.rx.state = .idle ∧ s.tx.drive = none ∧ s.filter.accepted = some true then
    if s.tx.epochHeld then some (2 * bitTime c - s.filter.highRun)
    else if s.tx.request.isSome then some (max (2 * bitTime c - s.filter.highRun) s.tx.holdoff)
    else none
  else none

/-- R107, R109: a TRIGGER drive lasts 2T ticks and an EPOCH drive 6T. -/
def Drive.width (t : Nat) (d : Drive) : Nat := if d.isEpoch then 6 * t else 2 * t

/-- R107, R109: the release of the pulse being driven. -/
def driveEndDue (c : ConfigStore) (s : State) : Option Nat :=
  match s.tx.drive with
  | none => none
  | some d =>
    if d.pulling then some (d.width (bitTime c) - ticksSince s.tb.localTick d.begun) else none

/-- R111: the start of this station's slot, while the slot is not past. -/
def slotDutyDue (c : ConfigStore) (s : State) : Option Nat :=
  let t := bitTime c
  let id := s.ctl.stationId.toNat
  if s.rx.state = .tagWindow ∧ s.tx.slotDuty = true ∧ s.tx.slotDriving = false ∧ s.sinceOrigin < t + id * t + t then
    some (t + id * t - s.sinceOrigin)
  else none

/-- R110: the next bit slot of a 1 bit that is not past. -/
def nextBitSlot (t elapsed : Nat) (d : BitDuty) : Option Nat :=
  (List.range 16).find? (fun j => d.next ≤ j && d.number.getLsbD (15 - j) && elapsed < t + j * t + t)

/-- R110: the start of that slot. -/
def numberBitDue (c : ConfigStore) (s : State) : Option Nat :=
  match s.rx.state, s.tx.bitDuty with
  | .numberWindow, some d =>
    (nextBitSlot (bitTime c) s.sinceOrigin d).map (fun j => bitTime c + j * bitTime c - s.sinceOrigin)
  | _, _ => none

/-- R123: the phase at P, once for an epoch. -/
def epochRequestDue (c : ConfigStore) (s : State) : Option Nat :=
  if s.ctl.state = .running ∧ s.tb.mode = .line ∧ s.tb.requestMade = false then
    some (period c - s.tb.phase.toNat)
  else none

/-- R121: the tick that begins a local epoch. -/
def localEpochDue (c : ConfigStore) (s : State) : Option Nat :=
  if s.tb.mode = .localScale then some (max 1 (period c - s.tb.phase.toNat)) else none

/-- R148: the scrub timer at 0. -/
def scrubRequestDue (s : State) : Option Nat :=
  if s.mem.scrub.walking ∧ s.mem.scrub.request = false then
    some (s.mem.scrub.timer + (s.ctl.entry == .fromInit).toNat)
  else none

end Sys2Proof.Machine
end

