-- ==== Sys2Proof/Machine/Acquisition.lean ====
section
/-! DEFINITION. The rows of acquisition, the detectors and the TRIGIN unit (chapters 2 and 4). -/

namespace Sys2Proof.Machine

/-- R25: the levels sampled in the tick of the frame's instant: AIN0's, and those of the further channels whose
conversions begin in the same tick. -/
def firstSamples (c : ConfigStore) (s : State) : List AnalogLevel :=
  match s.tb.prescale with
  | some k => latchInputs (begunConversions k (channels c) 0) s.pins.analog []
  | none => []

/-- R24, R25, R28: the divider is loaded with Ts and the sweep begins with its instant and timestamp. -/
def startSweep (c : ConfigStore) (s : State) : State :=
  { s with seqr :=
    { divider := some (samplePeriod c), sweep := some s.capture, position := 0, samples := firstSamples c s } }

/-- SWEEP_START, R25. -/
def execSweepStart (s : State) : Host.Outcome State Fault Refusal :=
  .next (whenConfigured s (fun c => atTime (sweepDue s) (startSweep c) s))

/-! ### The frame writer (R31 to R36) -/

/-- R31 steps 2 and 3: the header after a frame at position `p`. -/
def Header.framed (stamp : Timestamp) (p : Nat) (h : Header) : Header :=
  { h with firstStamp := if p = 0 then some stamp else h.firstStamp, valid := h.valid + 1 }

/-- R31 steps 1 to 4: the frame's words, header, position and report. -/
def writeFrame (n : Nat) (g : SegNo) (f : Capture) (words : List Word) (s : State) : State :=
  let p := s.writer.pos
  let t := storeWords g (p * n) words s
  let t := setHeader g ((t.header g).framed f.stamp p) t
  { t with writer := { t.writer with pos := p + 1 }, recs := { t.recs with lastReport := some f.tick } }

/-- R31: a frame reaches the FILLING writer; R33 or R34 follows a fill. -/
def frameFilling (c : ConfigStore) (g : SegNo) (f : Capture) (words : List Word) (s : State) : State :=
  let full : Bool := framesOf c ≤ s.writer.pos + 1
  let t := writeFrame (channels c) g f words s
  match collectingSlot t with
  | some i => recordReport c i f.tick full t
  | none => if full then segmentFull c g t else t

/-- R36: a frame discarded in OVERRUN. -/
def discardFrame (s : State) : State :=
  { s with writer := { s.writer with discarded := satSucc 65535 s.writer.discarded } }

/-- R31, R36, R38: a frame reaches the writer. -/
def writerFrame (c : ConfigStore) (f : Capture) (words : List Word) (s : State) : State :=
  match s.writer.state, s.writer.current with
  | .filling, some g => frameFilling c g f words s
  | .filling, none => s
  | .overrun, _ => discardFrame s
  | .idle, _ => s

/-! ### The detector bank (R75 to R81) -/

/-- R75: the size of the step. -/
def stepSize (prev : Option (BitVec 12)) (v : Nat) : Option Nat :=
  prev.map (fun p => (v - p.toNat) + (p.toNat - v))

/-- R77: the fire condition of a mode. -/
def fires (mode a b v : Nat) (size : Option Nat) : Bool :=
  match mode with
  | 0 => a < v
  | 1 => v < a
  | 2 => a < v || v < b
  | _ => size.any (fun d => a < d)

/-- R77: the re-arm condition of a mode, judged on one frame. -/
def rearms (mode a b h v : Nat) (size : Option Nat) : Bool :=
  match mode with
  | 0 => v + h ≤ a
  | 1 => a + h ≤ v
  | 2 => b + h ≤ v && v + h ≤ a
  | _ => size.any (fun d => d + h ≤ a)

/-- R78: a frame that an ARMED or QUALIFYING detector meets, or not. -/
def Detector.qualified (q : Nat) (met : Bool) (d : Detector) : Detector :=
  if met then
    let count := if d.state = .armed then 1 else d.count + 1
    if q ≤ count then { d with state := .fired, count := 0 } else { d with state := .qualifying, count := count }
  else { d with state := .armed, count := 0 }

/-- R80: a frame that a FIRED detector's re-arm condition meets, or not. In STEP, `q` quiet frames re-arm. -/
def Detector.rearmed (need : Nat) (met : Bool) (d : Detector) : Detector :=
  if met then
    if need ≤ d.count + 1 then { d with state := .armed, count := 0 } else { d with count := d.count + 1 }
  else { d with count := 0 }

/-- R75, R76, R78, R80: an enabled detector after a frame whose value is `v`. A DISABLED one only keeps it. -/
def Detector.judged (c : ConfigStore) (i : Fin 8) (v : BitVec 12) (d : Detector) : Detector :=
  let mode := detField c i 2
  let a := detField c i 3
  let b := detField c i 4
  let h := detField c i 5
  let q := detField c i 6
  let size := stepSize d.prev v.toNat
  let e := match d.state with
    | .disabled => d
    | .armed => d.qualified q (fires mode a b v.toNat size)
    | .qualifying => d.qualified q (fires mode a b v.toNat size)
    | .fired => d.rearmed (if mode = 3 then q else 1) (rearms mode a b h v.toNat size)
  { e with prev := some v }

/-- R75: the value of detector i in a frame. -/
def detValue (c : ConfigStore) (i : Fin 8) (words : List Word) : BitVec 12 := resultOf (words.getD (detField c i 1) 0)

/-- R81: every enabled detector judges the frame. -/
def judgeAll (c : ConfigStore) (words : List Word) (dets : Vector Detector 8) : Vector Detector 8 :=
  Vector.ofFn (fun i : Fin 8 =>
    if detEnabled c i then (dets.get i).judged c i (detValue c i words) else dets.get i)

/-- R79, R81: the detectors that became FIRED on this frame. -/
def newlyFired (before after : Vector Detector 8) : CauseSet :=
  (List.finRange 8).foldl
    (fun causes i =>
      if (before.get i).state != .fired && (after.get i).state == .fired then causes ||| BitVec.twoPow 10 i.val
      else causes)
    0

/-- R81: a frame reaches the detector bank; the detectors it fires make one offer at its timestamp. -/
def bankFrame (c : ConfigStore) (stamp : Timestamp) (words : List Word) (s : State) : State :=
  let after := judgeAll c words s.dets
  let causes := newlyFired s.dets after
  let t := { s with dets := after }
  if causes = 0 then t else offer c causes stamp t

/-- R25: the sweep ends and the frame of its sampled levels is handed to the writer and to the detector bank (log
16). Every conversion has begun by then, so nothing is left to sample in a sweep that ran its time. -/
def finishSweep (c : ConfigStore) (s : State) : State :=
  match s.seqr.sweep with
  | none => s
  | some f =>
    let words := frameWords (channels c) (latchInputs (channels c) s.pins.analog s.seqr.samples)
    let t := { s with seqr := { s.seqr with sweep := none, position := 0, samples := [] } }
    bankFrame c f.stamp words (writerFrame c f words t)

/-- FRAME_COMPLETE, R25: the inputs show the operand's levels up to the sweep's end; a channel sampled before keeps
its level (log 19). -/
def execFrameComplete (inputs : List AnalogLevel) (s : State) : Host.Outcome State Fault Refusal :=
  .next (whenConfigured s (fun c =>
    if (frameDue c s).isSome then atTime (frameDue c s) (finishSweep c) (holdInputs inputs s) else s))

/-! ### TRIGIN (R83, R84) -/

/-- R83: the run of equal samples after a sample taken at `now`. -/
def nextTrigRun (high : Bool) (now : Capture) : Option TrigRun → TrigRun
  | some r => if r.high = high then { r with count := r.count + 1 } else { high := high, start := now, count := 1 }
  | none => { high := high, start := now, count := 1 }

/-- R84: what an acceptance offers: a matching edge against a level accepted before. The run, its start with it, is
over (log 37). -/
def acceptTrigIn (c : ConfigStore) (high : Bool) (start : Timestamp) (s : State) : State :=
  let t := { s with trig := { s.trig with accepted := some high, run := none } }
  if s.trig.accepted = some !high ∧ edgeMatches c high then offer c 0x100 start t else t

/-- R83: one sample of the pin. -/
def sampleTrigIn (c : ConfigStore) (high : Bool) (s : State) : State :=
  let run := nextTrigRun high s.capture s.trig.run
  let t := { s with
    pins := { s.pins with trigIn := high }, trig := { s.trig with timer := trigInterval c, run := some run } }
  if 3 ≤ run.count then acceptTrigIn c high run.start.stamp t else t

/-- TRIGIN_SAMPLE, R83, R84. -/
def execTrigInSample (high : Bool) (s : State) : Host.Outcome State Fault Refusal :=
  .next (whenConfigured s (fun c => atTime (trigInDue s) (sampleTrigIn c high) s))

end Sys2Proof.Machine
end

