-- ==== Sys2Proof/Machine/Layout.lean ====
section
/-! DEFINITION. The layouts of everything the host reads (R201, R198). -/

namespace Sys2Proof.Machine

/-- One byte. -/
def byte (n : Nat) : Byte := BitVec.ofNat 8 n

/-- Two bytes, most significant first (R194). -/
def bytes2 (n : Nat) : List Byte := [byte (n / 256), byte n]

/-- Four bytes, most significant first. -/
def bytes4 (n : Nat) : List Byte := bytes2 (n / 65536) ++ bytes2 n

/-- R201: a timestamp in 5 bytes; bit 0 of the last is unsynced. -/
def stampBytes (t : Timestamp) : List Byte :=
  bytes2 t.epoch.toNat ++ bytes2 t.phase.toNat ++ [byte t.unsynced.toNat]

/-- R201: an absent timestamp is epoch 0, phase 0 with bit 1 set. -/
def optStampBytes : Option Timestamp → List Byte
  | some t => stampBytes t
  | none => [0, 0, 0, 0, 2]

/-- R201. -/
def StationState.code : StationState → Nat
  | .unconfigured => 0
  | .configured => 1
  | .init => 2
  | .listen => 3
  | .running => 4
  | .halted => 5
  | .fault => 6

/-- R201. -/
def RecState.code : RecState → Nat
  | .collecting => 1
  | .awaiting => 2
  | .closed => 3

/-- R201. -/
def WriterState.code : WriterState → Nat
  | .idle => 0
  | .filling => 1
  | .overrun => 2

/-- R201. -/
def Home.code : Home → Nat
  | .main => 0
  | .spare j => j.val + 1

/-- R201. -/
def SpareState.code : SpareState → Nat
  | .unused => 0
  | .mapped => 1
  | .dead => 2

/-- The slots that are not FREE (R70). -/
def usedSlots (s : State) : Nat := (s.recs.slots.toList.filter Option.isSome).length

/-- The spares that are UNUSED (R166). -/
def unusedSpares (s : State) : Nat := (s.ret.spares.toList.filter (· == .unused)).length

/-- R201: the status response, 16 bytes. -/
def statusBytes (s : State) : List Byte :=
  [byte s.ctl.state.code,
    byte ((s.tb.sync == .locked).toNat + 2 * s.writer.state.code + 8 * s.ctl.stationId.toNat)]
  ++ bytes2 s.pool.free.length
  ++ [byte s.pool.history.length]
  ++ bytes2 s.pool.withdrawn.length
  ++ [byte (unusedSpares s), byte (usedSlots s), byte s.mem.log.length, byte s.recs.missed, byte s.tx.suppressed,
    byte s.tx.lost, byte s.rx.lineErrors]
  ++ bytes2 s.writer.discarded

/-- R198: one slot of LIST RECORDS. -/
def slotBytes : Option Record → List Byte
  | none => [0, 0, 0]
  | some r => byte r.state.code :: bytes2 r.sequence.toNat

/-- R70, R198: the response of LIST RECORDS. -/
def listBytes (s : State) : List Byte := s.recs.slots.toList.flatMap slotBytes

/-- R201: the flags byte of a descriptor. -/
def flagByte (f : RecFlags) : Byte :=
  byte (f.preShort.toNat + 2 * f.truncated.toNat + 4 * f.stopped.toNat + 8 * f.extendCapped.toNat
    + 16 * f.memError.toNat + 32 * f.unsynced.toNat)

/-- R201: the presence byte: origin set, local cause, retried flag. -/
def presenceByte (origin : Option IdSet) (cause : Option Cause) : Byte :=
  byte (origin.isSome.toNat + 2 * cause.isSome.toNat + 4 * (cause.any (·.retried)).toNat)

/-- R201: an origin set, zeros when absent. -/
def originBytes : Option IdSet → List Byte
  | some ids => bytes4 ids.toNat
  | none => [0, 0, 0, 0]

/-- R201: a local cause set and its first-cause timestamp. A field that may be absent is sent as zeros with
its presence bit clear; the model's choice is that this holds for the timestamp too (log 35). -/
def causeBytes : Option Cause → List Byte
  | some q => bytes2 q.causes.toNat ++ stampBytes q.first
  | none => [0, 0, 0, 0, 0, 0, 0]

/-- R201: a retrigger entry, 17 bytes. -/
def retriggerBytes (e : Retrigger) : List Byte :=
  stampBytes e.stamp ++ [presenceByte e.origin e.cause] ++ originBytes e.origin ++ causeBytes e.cause

/-- R201: a chain entry, 9 bytes. -/
def chainBytes (s : State) (g : SegNo) : List Byte :=
  let h := s.header g
  [byte g.val, h.generation] ++ bytes2 h.valid ++ optStampBytes h.firstStamp

/-- R201: a record descriptor. -/
def descriptorBytes (s : State) (i : SlotNo) (r : Record) : List Byte :=
  [byte i.val] ++ bytes2 r.sequence.toNat ++ [byte r.state.code, flagByte r.flags, byte r.uncorrectable]
  ++ stampBytes r.trigTime ++ [presenceByte r.origin r.cause] ++ originBytes r.origin ++ causeBytes r.cause
  ++ bytes2 r.firstOffset ++ bytes2 r.trigIndex ++ bytes2 r.total
  ++ [byte r.overflow, byte r.retrigs.length, byte r.chain.length]
  ++ r.retrigs.flatMap retriggerBytes ++ r.chain.flatMap (chainBytes s)

/-- R201: a log entry, 13 bytes. -/
def logBytes (e : LogEntry) : List Byte :=
  [(match e.kind with | .corrected => 0 | .uncorrectable => 1), (match e.finder with | .hostRead => 0 | .scrub => 1),
    byte e.seg.val, byte e.home.code]
  ++ bytes2 e.offset
  ++ [e.syndrome.setWidth 8, (match e.bit with | some p => byte p | none => 0xFF)]
  ++ stampBytes e.stamp

/-- R201: the READ REMAP response. -/
def remapBytes (s : State) : List Byte :=
  s.ret.spares.toList.map (fun x => byte x.code)
  ++ [byte s.ret.remap.length]
  ++ s.ret.remap.flatMap (fun e => [byte e.seg.val, byte e.spare.val, byte e.moves])
  ++ bytes2 s.pool.withdrawn.length
  ++ s.pool.withdrawn.flatMap (fun g => [byte g.val, byte (s.header g).home.code])

end Sys2Proof.Machine
end

