-- ==== Sys2Proof/Machine/Station.lean ====
section
/-! DEFINITION. What the station controller makes the blocks do together (chapter 10): LISTEN entry, RUNNING
entry, STOP, FAULT entry and the resets. -/

namespace Sys2Proof.Machine

/-- R24: the sequencer stops; the divider holds no count and the sweep position is AIN0. -/
def stopSequencer (s : State) : State := { s with seqr := .reset }

/-- R76, R82: the detectors and the TRIGIN unit become DISABLED. -/
def disableRequesters (s : State) : State :=
  { s with dets := Vector.replicate 8 Detector.reset, trig := .reset }

/-- R147: at LISTEN entry from INIT the scrubber, if S is not 0, begins to walk; from HALTED it walks on. -/
def scrubAtListen (c : ConfigStore) (fromInit : Bool) (b : Scrubber) : Scrubber :=
  if fromInit && scrubInterval c != 0 then { b with walking := true, timer := scrubInterval c } else b

/-- R24, R147: the entry tick is still to come. A scrub timer that waits for the entry tick of a LISTEN entry from
INIT waits on through STOP and START in that tick. -/
def entryWait (fromInit : Bool) (e : EntryWait) : EntryWait :=
  if fromInit || e == .fromInit then .fromInit else .fromHalted

/-- R190, R24, R30, R92, R93, R120, R147: LISTEN entry, from INIT or from HALTED. The receiver's width, slot position
and capture are cleared (log 31). -/
def enterListen (c : ConfigStore) (fromInit : Bool) (s : State) : State :=
  let s := setRx .recover s
  let s := { s with
    ctl := { s.ctl with entry := entryWait fromInit s.ctl.entry },
    seqr := { divider := some 0, sweep := none, position := 0, samples := [] },
    filter := { accepted := none, last := none, highRun := 0, sampled := true },
    rx := { s.rx with capture := none, width := 0, slotPos := 0, slotsDone := false },
    tb := { s.tb with
      phase := 0, epoch := 0, sync := .seeking, mode := .held, requestMade := false, provisional := false },
    recs := { s.recs with lastReport := none },
    mem := { s.mem with scrub := scrubAtListen c fromInit s.mem.scrub } }
  writerTake (setStation .listen s)

/-- R76: an enabled detector becomes ARMED at RUNNING entry and keeps its previous value. -/
def armDetectors (c : ConfigStore) (dets : Vector Detector 8) : Vector Detector 8 :=
  Vector.ofFn (fun d : Fin 8 =>
    if detEnabled c d then { dets.get d with state := .armed, count := 0 } else dets.get d)

/-- R190, R76, R82, R120, R112: RUNNING entry. -/
def enterRunning (c : ConfigStore) (s : State) : State :=
  let s := { s with
    dets := armDetectors c s.dets,
    trig := if trigEnabled c then { TrigIn.reset with watching := true } else .reset,
    tb := { s.tb with
      phase := 0, epoch := 0, sync := .seeking, mode := .line, requestMade := false, provisional := false },
    tx := { s.tx with holdoff := 0 } }
  setStation .running s

/-- R15: the history chain, oldest first, and the lone current segment return; the writer goes IDLE (R38). -/
def returnPool (s : State) : State :=
  let back := s.pool.history ++ s.lone.toList
  returnAll back (setHistory [] (writerIdle s))

/-- R114: the transmitter at STOP: what it is driving it finishes, and what waits is dropped uncounted. -/
def txStop (x : Transmitter) : Transmitter :=
  { x with
    request := if drivesTrigger x then x.request else none,
    epochHeld := x.epochHeld && drivesEpoch x,
    holdoff := 0 }

/-- R191: STOP in LISTEN or RUNNING. The scrubber's timer carries on, a wait for the entry tick included (R147). -/
def enterHalted (c : ConfigStore) (s : State) : State :=
  let s := closeOpen c true (returnPool (stopSequencer s))
  let s := disableRequesters s
  let s := { s with
    tb := { s.tb with mode := .localScale, requestMade := false },
    tx := txStop s.tx }
  setStation .halted s

/-- R115: the transmitter cut at FAULT entry or a reset; its counts stay. -/
def txCut (x : Transmitter) : Transmitter :=
  { Transmitter.reset with suppressed := x.suppressed, lost := x.lost }

/-- R147, R154: the scrubber at FAULT entry; its position is kept. A stopped timer's value is log 33's. -/
def scrubFault (b : Scrubber) : Scrubber := { b with walking := false, timer := 0, request := false }

/-- R137: a fill in progress is abandoned where it stands. -/
def abandonFill (m : Integrity) : Integrity :=
  match m.fill with
  | none => m
  | some n => { m with fill := none, array := fillBelow n m.array }

/-- R188: FAULT entry. The receiver's width, slot position, origin and results are cleared (log 31), and the
filter's last sample with its accepted level and high run (R92; log 38). -/
def enterFault (c : ConfigStore) (s : State) : State :=
  let s := closeOpen c true (returnPool (stopSequencer s))
  let s := setRx .idle (disableRequesters s)
  let m := abandonFill s.mem
  let s := { s with
    ctl := { s.ctl with entry := .none },
    filter := { s.filter with accepted := none, last := none, highRun := 0 },
    rx := { Receiver.reset with lineErrors := s.rx.lineErrors },
    tx := txCut s.tx,
    tb := { s.tb with mode := .localScale, requestMade := false },
    mem := { m with scrub := scrubFault m.scrub } }
  raise .configFault (setStation .fault s)

/-- R197: the port when a power-on or pin reset completes: if CSN is low it waits for CSN to rise (log 42). -/
def portAfterReset (csnLow : Bool) : Port := { Port.reset with phase := if csnLow then .waitRise else .idle }

/-- R182, R22, R154, R168, R179: power-on values in every block. The pins and the queue are the outside's; the
array keeps its contents (log 9), and the model's count of blocks stays (log 11). -/
def powerOn (pins : Pins) (id : BitVec 5) (s : State) : State :=
  { State.reset with
    ctl := { Controller.reset with stationId := id, blocks := s.ctl.blocks },
    mem := { Integrity.reset with array := (abandonFill s.mem).array },
    port := portAfterReset pins.csnLow,
    pins := pins,
    pending := s.pending }

/-- R23: a header after a soft reset. -/
def Header.softReset (h : Header) : Header := { h with firstStamp := none, valid := 0 }

/-- R23: the free list rebuilt in ascending order, with every segment that is not withdrawn. -/
def rebuiltFree (withdrawn : List SegNo) : List SegNo :=
  allSegments.filter (fun g => !withdrawn.contains g)

/-- R183, R23, R154, R168, R172: soft reset. The station ID, the memory-health record, the port's transaction,
the pins and the queue stay. -/
def softReset (s : State) : State :=
  let m := abandonFill s.mem
  let t := { State.reset with
    ctl := { Controller.reset with stationId := s.ctl.stationId, blocks := s.ctl.blocks },
    pool :=
      { free := rebuiltFree s.pool.withdrawn, history := [], withdrawn := s.pool.withdrawn,
        headers := Vector.ofFn (fun g : SegNo => (s.header g).softReset) },
    mem := { Integrity.reset with array := m.array, log := m.log, errorCount := m.errorCount },
    ret := s.ret, port := s.port, pins := s.pins, pending := s.pending }
  handLevel .logFull false (t.mem.log.length == logRoom) t

end Sys2Proof.Machine
end

