-- ==== Sys2Proof/Machine/HostCommands.lean ====
section
/-! DEFINITION. The host commands (chapter 11), one meaning for each row. -/

namespace Sys2Proof.Machine

/-- STATUS, R201: the status response as the station stands. -/
def execStatus (s : State) : Host.Outcome State Fault Refusal :=
  .next (hostCommand 0x01 [] (fun s => answer (statusBytes s) s) s)

/-- R186, R117: a stopped prescaler starts with divisor 2^k; a running one takes it from its next tick boundary. -/
def takeDivisor (k : Nat) (tb : Timebase) : Timebase :=
  match tb.prescale with
  | none => { tb with prescale := some k }
  | some _ => { tb with nextPrescale := some k }

/-- R186: the effects of an accepted block. -/
def acceptBlock (vals : List (BitVec 16)) (s : State) : State :=
  let store := storeOf vals
  let t := { s with
    ctl := { s.ctl with config := some store, blocks := s.ctl.blocks + 1 },
    ev := s.ev.configured (fun i => fieldAt vals (69 + i.val)) (fieldAt vals 83),
    tb := takeDivisor (fieldAt vals 1) s.tb }
  setStation .configured
    (handLevel .freeLow (freeLowHolds s.ctl.config s.pool.free) (freeLowHolds (some store) s.pool.free) t)

/-- R186, R185: CONFIGURE by the station state and the block's fields. -/
def configureWith (args : List Byte) (s : State) : State × List Byte :=
  if s.ctl.state = .unconfigured ∨ s.ctl.state = .configured then
    let vals := splitFields fieldWidths args
    match firstFailing vals with
    | some i => (s, [Status.badConfig.code, byte i])
    | none => answer [] (acceptBlock vals s)
  else refuse .locked s

/-- CONFIGURE, R186. A transaction that ends before the 116th argument byte executes nothing (R195), and bytes
after it are ignored (R194). -/
def execConfigure (block : List Byte) (s : State) : Host.Outcome State Fault Refusal :=
  .next
    (if block.length < configBytes then s
     else hostCommand 0x02 (block.take configBytes) (configureWith (block.take configBytes)) s)

/-- R192: the line agent has finished what STOP left it. -/
def lineQuiet (s : State) : Bool :=
  s.tx.state == .quiet && s.rx.state != .low && s.rx.state != .tagWindow && s.rx.state != .numberWindow

/-- R189, R192: START by the station state. -/
def startWith (s : State) : State × List Byte :=
  match s.ctl.state, s.ctl.config with
  | .configured, some _ => answer [] (setStation .init { s with mem := { s.mem with fill := some 0 } })
  | .halted, some c => if lineQuiet s then answer [] (enterListen c false s) else refuse .badState s
  | _, _ => refuse .badState s

/-- START, R189, R192. -/
def execStart (s : State) : Host.Outcome State Fault Refusal := .next (hostCommand 0x03 [] startWith s)

/-- R191: STOP by the station state. -/
def stopWith (s : State) : State × List Byte :=
  match s.ctl.config with
  | some c =>
    if s.ctl.state = .listen ∨ s.ctl.state = .running then answer [] (enterHalted c s) else refuse .badState s
  | none => refuse .badState s

/-- STOP, R191. -/
def execStop (s : State) : Host.Outcome State Fault Refusal := .next (hostCommand 0x04 [] stopWith s)

/-- RESET, R183: the port keeps the transaction and sends OK (R197). -/
def execReset (s : State) : Host.Outcome State Fault Refusal :=
  .next (hostCommand 0x05 [] (fun s => answer [] (softReset s)) s)

/-- LIST RECORDS, R70. -/
def execListRecords (s : State) : Host.Outcome State Fault Refusal :=
  .next (hostCommand 0x10 [] (fun s => answer (listBytes s) s) s)

/-- R199: a slot argument judged: BAD_SLOT above 15, then the slot's record. -/
def withSlot (slot : Byte) (s : State) (f : SlotNo → Option Record → State × List Byte) : State × List Byte :=
  if h : slot.toNat < 16 then f ⟨slot.toNat, h⟩ (s.recs.slots.get ⟨slot.toNat, h⟩) else refuse .badSlot s

/-- R70: READ RECORD of a slot. -/
def readRecordWith (slot : Byte) (s : State) : State × List Byte :=
  withSlot slot s (fun i r =>
    match r with
    | none => refuse .badState s
    | some r => answer (descriptorBytes s i r) s)

/-- READ RECORD, R70. -/
def execReadRecord (slot : Byte) (s : State) : Host.Outcome State Fault Refusal :=
  .next (hostCommand 0x11 [slot] (readRecordWith slot) s)

/-- R71, R199: the range of a READ DATA is within its bounds; the segment at the chain index. -/
def dataRange (r : Record) (index offset count : Nat) : Option SegNo :=
  if 1 ≤ count ∧ count ≤ 512 ∧ offset + count ≤ 512 then r.chain[index]? else none

/-- R140: the prefetch of a range, its first word presented. -/
def Prefetch.begun (g : SegNo) (offset count : Nat) : Prefetch :=
  { seg := g, offset := offset, remaining := count, corrected := 0, uncorrectable := 0, presented := true }

/-- R71, R140: READ DATA presents the first word of its range to the port. -/
def readDataWith (slot index : Byte) (offset count : BitVec 16) (s : State) : State × List Byte :=
  withSlot slot s (fun _ r =>
    match r with
    | none => refuse .badState s
    | some r =>
      if r.state != .closed then refuse .badState s
      else
        match dataRange r index.toNat offset.toNat count.toNat with
        | none => refuse .badRange s
        | some g =>
          answer [] { s with mem := { s.mem with
            prefetch := some (Prefetch.begun g offset.toNat count.toNat) } })

/-- READ DATA, R71, R140. -/
def execReadData (slot index : Byte) (offset count : BitVec 16) (s : State) : Host.Outcome State Fault Refusal :=
  .next (hostCommand 0x12
    [slot, index, offset.extractLsb' 8 8, offset.extractLsb' 0 8, count.extractLsb' 8 8, count.extractLsb' 0 8]
    (readDataWith slot index offset count) s)

/-- R72, R14: the chain returns whole, the slot becomes FREE, and an outstanding claim is then served (R20). -/
def releaseRecord (i : SlotNo) (r : Record) (s : State) : State :=
  serveOutstanding (returnAll r.chain (setSlot i none s))

/-- R72: RELEASE of a slot. -/
def releaseWith (slot : Byte) (s : State) : State × List Byte :=
  withSlot slot s (fun i r =>
    match r with
    | none => refuse .badState s
    | some r => if r.state != .closed then refuse .badState s else answer [] (releaseRecord i r s))

/-- RELEASE, R72. -/
def execRelease (slot : Byte) (s : State) : Host.Outcome State Fault Refusal :=
  .next (hostCommand 0x13 [slot] (releaseWith slot) s)

/-- R201: the cause HOST. -/
def causeHost : CauseSet := 0x200

/-- R85: SOFT TRIGGER by the station state. -/
def softTriggerWith (s : State) : State × List Byte :=
  match s.ctl.config with
  | some c => if s.ctl.state = .running then answer [] (offer c causeHost s.stamp s) else refuse .badState s
  | none => refuse .badState s

/-- SOFT TRIGGER, R85. -/
def execSoftTrigger (s : State) : Host.Outcome State Fault Refusal := .next (hostCommand 0x20 [] softTriggerWith s)

/-- R151: PEEK LOG leaves the log as it was. -/
def peekLogWith (s : State) : State × List Byte :=
  match s.mem.log with
  | [] => refuse .empty s
  | e :: _ => answer (logBytes e) s

/-- PEEK LOG, R151. -/
def execPeekLog (s : State) : Host.Outcome State Fault Refusal := .next (hostCommand 0x30 [] peekLogWith s)

/-- R151: TAKE LOG removes the oldest entry. -/
def takeLogWith (s : State) : State × List Byte :=
  match s.mem.log with
  | [] => refuse .empty s
  | e :: r => answer (logBytes e) (setLog r s)

/-- TAKE LOG, R151. -/
def execTakeLog (s : State) : Host.Outcome State Fault Refusal := .next (hostCommand 0x31 [] takeLogWith s)

/-- READ ERROR COUNT, R153: the counter's value, and the counter zeroed. -/
def execReadErrorCount (s : State) : Host.Outcome State Fault Refusal :=
  .next (hostCommand 0x32 []
    (fun s => answer (bytes2 s.mem.errorCount) { s with mem := { s.mem with errorCount := 0 } }) s)

/-- READ REMAP, R166. -/
def execReadRemap (s : State) : Host.Outcome State Fault Refusal :=
  .next (hostCommand 0x33 [] (fun s => answer (remapBytes s) s) s)

/-- R176, R199: the most urgent source is answered with its level and count, and taken. -/
def nextEventWith (s : State) : State × List Byte :=
  match s.ev.mostUrgent with
  | none => answer [0, 0, 0] s
  | some i =>
    let cell := s.ev.cells.get i
    answer [byte (i.val + 1), byte cell.level, byte cell.count]
      { s with ev := s.ev.update i (SourceCell.taken (levelPlace i)) }

/-- NEXT EVENT, R176. -/
def execNextEvent (s : State) : Host.Outcome State Fault Refusal := .next (hostCommand 0x40 [] nextEventWith s)

/-- R174: SET MASK. -/
def setMaskWith (level : Byte) (s : State) : State × List Byte :=
  if level.toNat ≤ 3 then answer [] { s with ev := { s.ev with mask := level.toNat } } else refuse .badRange s

/-- SET MASK, R174. -/
def execSetMask (level : Byte) (s : State) : Host.Outcome State Fault Refusal :=
  .next (hostCommand 0x41 [level] (setMaskWith level) s)

/-- R199: a command byte not in the command list is refused. A listed byte is no bad command. -/
def execBadCommand (code : Byte) (s : State) : Host.Outcome State Fault Refusal :=
  .next (if commandBytes.contains code.toNat then s else hostCommand code [] (refuse .badCommand) s)

/-- CSN_FALL, R194, R197: a transaction begins with the shift state in the command phase. -/
def execCsnFall (s : State) : Host.Outcome State Fault Refusal :=
  let t := { s with pins := { s.pins with csnLow := true } }
  .next
    (if s.pins.csnLow then s
     else if s.live && s.port.phase == .idle then { t with port := { Port.reset with phase := .command } }
     else t)

/-- CSN_RISE, R195, R141: the transaction ends; an unexecuted command is discarded, the response and a READ
DATA's prefetch stop. -/
def execCsnRise (s : State) : Host.Outcome State Fault Refusal :=
  let t := { s with pins := { s.pins with csnLow := false } }
  .next
    (if s.pins.csnLow then { t with port := Port.reset, mem := { s.mem with prefetch := none } } else s)

end Sys2Proof.Machine
end

