-- ==== Sys2Proof/Machine/LineEvents.lean ====
section
/-! DEFINITION. The rows of the line receiver and transmitter (chapter 5). -/

namespace Sys2Proof.Machine

/-- The other stations pull the line low, unless it is low already (log 5). -/
def pullLine (s : State) : State := if s.lineLow then s else holdLine true s

/-- The other stations leave the line released while a row waits for its time (log 3). -/
def releaseWhile (wait : Nat) (s : State) : State := if wait = 0 then s else holdLine false s

/-! ### Pulses (R94 to R97) -/

/-- R94: the receiver enters LOW with the capture of the edge time, and its width measure starts: the width register
holds 0 until the classification (log 40). -/
def enterLow (r : LineRun) (s : State) : State :=
  setRx .low { s with rx := { s.rx with
    pulseStart := r.start.tick, capture := some { edge := r.start, epochHeld := r.epochHeld }, width := 0 } }

/-- R94: an accepted low in IDLE, its edge time the first low sample. -/
def takeLeadingEdge (s : State) : State :=
  match s.filter.last with
  | none => s
  | some r => enterLow r (acceptLevel s)

/-- LEADING_EDGE, R94. The line is low until two samples agree (R92, log 5). -/
def execLeadingEdge (s : State) : Host.Outcome State Fault Refusal :=
  .next (whenConfigured s (fun _ =>
    if filterRuns s.ctl.state && s.rx.state == .idle then takeLeadingEdge (settle false (pullLine s)) else s))

/-- R96: the receiver declares STUCK on the tick 48T + 1, the line low up to it and in that tick's sample. -/
def stuckAtBound (c : ConfigStore) (wait : Nat) (s : State) : State :=
  declareStuck c (sampleLine ((if wait = 0 then s else pullLine s).elapse wait))

/-- R95, R96: whether the run that ends the low began after 48T ticks. -/
def outlasts48T (c : ConfigStore) (s : State) : Bool :=
  s.filter.last.any (fun r => 48 * bitTime c < ticksSince r.start.tick s.rx.pulseStart)

/-- R95: an accepted high in LOW; the width is taken from the edge times. -/
def takeTrailingEdge (c : ConfigStore) (s : State) : State :=
  match s.filter.last with
  | none => s
  | some r => classifyPulse c (ticksSince r.start.tick s.rx.pulseStart) (acceptLevel s)

/-- TRAILING_EDGE, R95: the line is held low to `width` ticks from the pulse's start, then high until two
samples agree (log 5). A low beyond 48T is STUCK before its trailing edge (R96). No trailing edge comes about while
this station still pulls the line. No other row runs in the ticks that the row lets pass (log 3, log 32). -/
def execTrailingEdge (width : Nat) (s : State) : Host.Outcome State Fault Refusal :=
  .next (whenConfigured s (fun c =>
    if filterRuns s.ctl.state && s.rx.state == .low && !s.tx.pulls then
      let wait := width - ticksSince s.tb.localTick s.rx.pulseStart
      let t := if wait = 0 then s else (pullLine s).elapse wait
      let u := settle true (holdLine false t)
      match stuckDue c s with
      | some bound => if outlasts48T c u then stuckAtBound c bound s else takeTrailingEdge c u
      | none => s
    else s))

/-- R96: the declaration, unless this tick's sample ends the low. -/
def judgeStuck (c : ConfigStore) (s : State) : State :=
  let t := sampleLine s
  if risingOrFalling t = some true then t else declareStuck c t

/-- LINE_STUCK_DECLARE, R96: the line stays low to the tick 48T + 1 and that tick's sample (log 3). -/
def execLineStuckDeclare (s : State) : Host.Outcome State Fault Refusal :=
  .next (whenConfigured s (fun c =>
    match stuckDue c s with
    | none => s
    | some wait => judgeStuck c ((if wait = 0 then s else pullLine s).elapse wait)))

/-- STUCK_RELEASE, R97: an accepted high in STUCK. -/
def execStuckRelease (s : State) : Host.Outcome State Fault Refusal :=
  .next (whenConfigured s (fun _ =>
    if filterRuns s.ctl.state && s.rx.state == .stuck && !s.tx.pulls then
      setRx .recover (acceptLevel (settle true (holdLine false s)))
    else s))

/-- The line released until the filter accepts a high, where it has not yet (log 3). -/
def awaitHigh (s : State) : State :=
  if s.filter.accepted = some true then s else acceptLevel (settle true (holdLine false s))

/-- R97, R190: the receiver enters IDLE; in LISTEN the station enters RUNNING on this tick. -/
def finishRecover (c : ConfigStore) (s : State) : State :=
  let t := setRx .idle s
  if t.ctl.state = .listen then enterRunning c t else t

/-- RECOVER_COMPLETE, R97, R190: the line stays high until the high run is 64T (log 3). -/
def execRecoverComplete (s : State) : Host.Outcome State Fault Refusal :=
  .next (whenConfigured s (fun c =>
    if filterRuns s.ctl.state && s.rx.state == .recover && !s.tx.pulls then
      let t := awaitHigh s
      match recoverDue c t with
      | none => s
      | some wait => finishRecover c ((releaseWhile wait t).elapse wait)
    else s))

/-- RECOVER_COUNT_RESTART, R97: an accepted low in RECOVER sets the high run to 0. The others' hold of the
line is then as it was before (log 5). -/
def execRecoverCountRestart (s : State) : Host.Outcome State Fault Refusal :=
  .next (whenConfigured s (fun _ =>
    if filterRuns s.ctl.state && s.rx.state == .recover then
      holdLine s.pins.peersLow (acceptLevel (settle false (pullLine s)))
    else s))

/-! ### Windows (R98 to R102) -/

/-- R98, R101: the slot position after a slot's sampling; it stays at the window's last slot. -/
def Receiver.pastSlot (last : Nat) (r : Receiver) : Receiver :=
  if r.slotPos < last then { r with slotPos := r.slotPos + 1 } else { r with slotsDone := true }

/-- R98: a slot's sampling: a low adds the slot's station ID to the set. -/
def sampleTagSlot (s : State) : State :=
  { s with rx := { s.rx.pastSlot 31 with
      idSet := if s.acceptedLow then s.rx.idSet ||| BitVec.twoPow 32 s.rx.slotPos else s.rx.idSet } }

/-- TAG_SLOT_SAMPLE, R98: the next slot, the others holding the line as `peersLow` says up to it. -/
def execTagSlotSample (peersLow : Bool) (s : State) : Host.Outcome State Fault Refusal :=
  .next (whenConfigured s (fun c =>
    if (tagSlotDue c s).isSome then atTime (tagSlotDue c s) sampleTagSlot (holdLine peersLow s) else s))

/-- TAG_WINDOW_END, R99, R100, R112. -/
def execTagWindowEnd (peersLow : Bool) (s : State) : Host.Outcome State Fault Refusal :=
  .next (whenConfigured s (fun c =>
    if (tagEndDue c s).isSome then atTime (tagEndDue c s) (endTagWindow c) (holdLine peersLow s) else s))

/-- R101: a bit slot's sampling: slot j carries bit 15 − j, and a low is a 1. -/
def sampleNumberSlot (s : State) : State :=
  { s with rx := { s.rx.pastSlot 15 with
      bits := if s.acceptedLow then s.rx.bits ||| BitVec.twoPow 16 (15 - s.rx.slotPos) else s.rx.bits } }

/-- NUMBER_SLOT_SAMPLE, R101. -/
def execNumberSlotSample (peersLow : Bool) (s : State) : Host.Outcome State Fault Refusal :=
  .next (whenConfigured s (fun c =>
    if (numberSlotDue c s).isSome then atTime (numberSlotDue c s) sampleNumberSlot (holdLine peersLow s) else s))

/-- NUMBER_WINDOW_END, R102, R100. -/
def execNumberWindowEnd (peersLow : Bool) (s : State) : Host.Outcome State Fault Refusal :=
  .next (whenConfigured s (fun c =>
    if (numberEndDue c s).isSome then atTime (numberEndDue c s) endNumberWindow (holdLine peersLow s) else s))

/-! ### The transmitter (R106 to R112) -/

/-- HOLDOFF_EXPIRE, R112: the timer counts to 0. -/
def execHoldoffExpire (s : State) : Host.Outcome State Fault Refusal :=
  .next (whenConfigured s (fun _ => atTime (holdoffDue s) id s))

/-- R106, R107: the last sample of the line once a drive has begun on the present tick. With the tick's sample still to
come it stands; a high sample taken on this tick already is taken again, low (log 39). -/
def drivenSample (s : State) (r : LineRun) : LineRun :=
  if s.filter.sampled && r.high then
    { high := false, start := s.capture, epochHeld := s.tx.epochHeld, agree := false }
  else r

/-- R106: the drive begins; an epoch request goes first. -/
def beginDrive (s : State) : State :=
  { s with
    tx := { s.tx with drive := some { isEpoch := s.tx.epochHeld, begun := s.tb.localTick, pulling := true } },
    filter := { s.filter with last := s.filter.last.map (drivenSample s) } }

/-- DRIVE_START, R106, R108: the others leave the line released while it waits (log 3). -/
def execDriveStart (s : State) : Host.Outcome State Fault Refusal :=
  .next (whenConfigured s (fun c =>
    match driveStartDue c s with
    | none => s
    | some wait => beginDrive ((releaseWhile wait s).elapse wait)))

/-- R107, R109: the line is released; the transmitter waits for its receiver to classify the pulse. -/
def releaseDrive (s : State) : State :=
  { s with tx := { s.tx with drive := s.tx.drive.map (fun d => { d with pulling := false }) } }

/-- DRIVE_END, R107, R109. -/
def execDriveEnd (s : State) : Host.Outcome State Fault Refusal :=
  .next (whenConfigured s (fun c => atTime (driveEndDue c s) releaseDrive s))

/-- SLOT_DUTY_DRIVE, R111: the station's own slot is pulled low; it is released when the slot ends. -/
def execSlotDutyDrive (s : State) : Host.Outcome State Fault Refusal :=
  .next (whenConfigured s (fun c =>
    atTime (slotDutyDue c s) (fun s => { s with tx := { s.tx with slotDriving := true } }) s))

/-- R110: the slot of the next 1 bit is pulled low; it is released when the slot ends. -/
def driveNumberBit (c : ConfigStore) (s : State) : State :=
  match s.tx.bitDuty with
  | none => s
  | some d =>
    match nextBitSlot (bitTime c) s.sinceOrigin d with
    | none => s
    | some j => { s with tx := { s.tx with bitDuty := some { d with next := j + 1, driving := true } } }

/-- NUMBER_BIT_DRIVE, R110. -/
def execNumberBitDrive (s : State) : Host.Outcome State Fault Refusal :=
  .next (whenConfigured s (fun c => atTime (numberBitDue c s) (driveNumberBit c) s))

end Sys2Proof.Machine
end

