-- ==== Sys2Proof/Machine/MemoryEvents.lean ====
section
/-! DEFINITION. The rows of the memory port's requesters (chapter 7). -/

namespace Sys2Proof.Machine

/-- R141, R200: what the prefetch keeps after a word has been decoded. -/
def Prefetch.advanced (outcome : Decoded) (p : Prefetch) : Prefetch :=
  let p := { p with offset := p.offset + 1, remaining := p.remaining - 1, presented := false }
  match outcome with
  | .clean _ => p
  | .correctable _ _ => { p with corrected := p.corrected + 1 }
  | .uncorrectable _ => { p with uncorrectable := p.uncorrectable + 1 }

/-- R200: the summary, sent after the last word. -/
def Prefetch.summary (p : Prefetch) : List Byte :=
  if p.remaining = 0 then bytes2 p.corrected ++ bytes2 p.uncorrectable else []

/-- R140, R142, R200: the next word of the range is granted, decoded and put into the prefetch word and the
response; after the last word the summary follows. -/
def prefetchWord (c : ConfigStore) (p : Prefetch) (s : State) : State :=
  let outcome := readOutcome p.seg p.offset s
  let p' := p.advanced outcome
  let t := readWord c .hostRead p.seg p.offset s
  { t with
    mem := { t.mem with prefetch := some p' },
    port := { t.port with
      prefetchWord := some outcome.word,
      response := t.port.response ++ bytes2 outcome.word.toNat ++ p'.summary } }

/-- PREFETCH_READ, R140: the word that the prefetch presents is granted. The first is presented by READ DATA, a later
one when the word before it begins to shift out (R200). -/
def execPrefetchRead (s : State) : Host.Outcome State Fault Refusal :=
  .next (whenConfigured s (fun c =>
    match s.mem.prefetch with
    | none => s
    | some p => if p.presented && 0 < p.remaining then prefetchWord c p s else s))

/-- R148: the read request is presented and the timer waits at 0. -/
def presentScrub (s : State) : State :=
  { s with mem := { s.mem with scrub := { s.mem.scrub with request := true } } }

/-- SCRUB_REQUEST, R148. -/
def execScrubRequest (s : State) : Host.Outcome State Fault Refusal :=
  .next (whenConfigured s (fun _ => atTime (scrubRequestDue s) presentScrub s))

/-- R148: the request is granted: the timer is set to S and the position moves on past the word read. -/
def Scrubber.granted (c : ConfigStore) (target : Option (SegNo × Fin 512)) (b : Scrubber) : Scrubber :=
  let b := { b with timer := scrubInterval c, request := false }
  match target with
  | none => b
  | some (g, o) => { b with seg := (nextPosition g o).1, offset := (nextPosition g o).2 }

/-- R148: the grant. -/
def scrubGrant (c : ConfigStore) (s : State) : State :=
  let target := scrubTarget s 256 s.mem.scrub.seg s.mem.scrub.offset
  let t := match target with
    | none => s
    | some (g, o) => readWord c .scrub g o.val s
  { t with mem := { t.mem with scrub := t.mem.scrub.granted c target } }

/-- SCRUB_READ, R148. The scrubber is granted the port when no requester before it presents (R135, log 18). -/
def execScrubRead (s : State) : Host.Outcome State Fault Refusal :=
  .next (whenConfigured s (fun c =>
    if s.mem.scrub.walking && granted s.mem == some .scrubber then scrubGrant c s else s))

/-- R145: the entry is written, or discarded; the buffer becomes EMPTY. -/
def writeBackGrant (e : WriteBackEntry) (s : State) : State :=
  { s with mem := { s.mem with
      array := if writeBackStands e s then writeArray s.mem.array e.address (encode e.address e.word)
        else s.mem.array,
      buffer := none } }

/-- WRITE_BACK, R145: granted when the prefetch does not present (R135, log 18). -/
def execWriteBack (s : State) : Host.Outcome State Fault Refusal :=
  .next (whenConfigured s (fun _ =>
    match s.mem.buffer with
    | none => s
    | some e => if granted s.mem = some .writeBack then writeBackGrant e s else s))

end Sys2Proof.Machine
end

