-- ==== Sys2Proof/Machine/Resets.lean ====
section
/-! DEFINITION. The rows of the reset pins and of the station controller (chapter 10, R137, R181, R182, R187). -/

namespace Sys2Proof.Machine

/-- POWER_ON_RESET, R182, R181: the power-on detector releases; the straps are read. RSTN stays as it is: while it
is held low the pin reset lasts. -/
def execPowerOnReset (straps : BitVec 5) (s : State) : Host.Outcome State Fault Refusal :=
  .next (powerOn { s.pins with straps := straps } straps s)

/-- PIN_RESET, R182, R181: RSTN is seen high again; the straps are read. -/
def execPinReset (straps : BitVec 5) (s : State) : Host.Outcome State Fault Refusal :=
  .next (powerOn { s.pins with rstnLow := false, straps := straps } straps s)

/-- RSTN_LOW, R182: the station is held at its reset values while RSTN is low. The straps are not read yet
(R181), so the held station ID stands. -/
def execRstnLow (s : State) : Host.Outcome State Fault Refusal :=
  .next (powerOn { s.pins with rstnLow := true } s.ctl.stationId s)

/-- The store's contents changed by an upset; FREE_LOW is judged against the threshold as it now reads. -/
def upsetStore (c d : ConfigStore) (s : State) : State :=
  handLevel .freeLow (freeLowHolds (some c) s.pool.free) (freeLowHolds (some d) s.pool.free)
    { s with ctl := { s.ctl with config := some d } }

/-- The store after bits of a field have changed, when `accepted` blocks have been accepted. A store that has been
rewritten since stands as it is (R187, R193; log 11). -/
def struckStore (accepted : Nat) (f : StoredField) (upset : BitVec 16) (c : ConfigStore) : ConfigStore :=
  if f.block = accepted then upsetField c f.index upset else c

/-- PARITY_MISMATCH, R187, R188, R193: the field's stored bits have changed by `upset` (log 11). If the field no
longer matches its parity bit the station enters FAULT; if it still matches, no mismatch comes about. -/
def execParityMismatch (field : StoredField) (upset : BitVec 16) (s : State) : Host.Outcome State Fault Refusal :=
  .next (whenConfigured s (fun c =>
    let d := struckStore s.ctl.blocks field upset c
    if checking s.ctl.state && mismatchAt d field.index then enterFault d (upsetStore c d s) else s))

/-- R137, R189: every word of the array is the fill's, and the station enters LISTEN. -/
def finishFill (c : ConfigStore) (s : State) : State :=
  enterListen c true { s with mem := { s.mem with array := [], fill := none } }

/-- FILL_COMPLETE, R137, R189. -/
def execFillComplete (s : State) : Host.Outcome State Fault Refusal :=
  .next (whenConfigured s (fun c => atTime (fillDue s) (finishFill c) s))

end Sys2Proof.Machine
end

