-- ==== Sys2Proof/Machine/Timebase.lean ====
section
/-! DEFINITION. The rows of the timebase (chapter 6). -/

namespace Sys2Proof.Machine

/-- R123: the request is made and the transmitter holds it. -/
def makeEpochRequest (s : State) : State :=
  { s with tb := { s.tb with requestMade := true }, tx := { s.tx with epochHeld := true } }

/-- EPOCH_REQUEST, R123. -/
def execEpochRequest (s : State) : Host.Outcome State Fault Refusal :=
  .next (whenConfigured s (fun c => atTime (epochRequestDue c s) makeEpochRequest s))

/-- LOCAL_EPOCH, R121: the clock runs to the tick that begins the next local epoch, whose counting begins it. -/
def execLocalEpoch (s : State) : Host.Outcome State Fault Refusal :=
  .next (whenConfigured s (fun c => atTime (localEpochDue c s) id s))

end Sys2Proof.Machine
end

