-- ==== Sys2Proof/Machine/Dispatch.lean ====
section
/-! DEFINITION. One arm per command. -/

namespace Sys2Proof.Machine

def exec (i : Instr) (s : State) : Host.Outcome State Fault Refusal :=
  match i with
  | .status => Sys2Proof.Machine.execStatus s
  | .configure block => Sys2Proof.Machine.execConfigure block s
  | .start => Sys2Proof.Machine.execStart s
  | .stop => Sys2Proof.Machine.execStop s
  | .reset => Sys2Proof.Machine.execReset s
  | .listRecords => Sys2Proof.Machine.execListRecords s
  | .readRecord slot => Sys2Proof.Machine.execReadRecord slot s
  | .readData slot chainIndex offset count => Sys2Proof.Machine.execReadData slot chainIndex offset count s
  | .release slot => Sys2Proof.Machine.execRelease slot s
  | .softTrigger => Sys2Proof.Machine.execSoftTrigger s
  | .peekLog => Sys2Proof.Machine.execPeekLog s
  | .takeLog => Sys2Proof.Machine.execTakeLog s
  | .readErrorCount => Sys2Proof.Machine.execReadErrorCount s
  | .readRemap => Sys2Proof.Machine.execReadRemap s
  | .nextEvent => Sys2Proof.Machine.execNextEvent s
  | .setMask level => Sys2Proof.Machine.execSetMask level s
  | .badCommand code => Sys2Proof.Machine.execBadCommand code s
  | .csnRise => Sys2Proof.Machine.execCsnRise s
  | .powerOnReset straps => Sys2Proof.Machine.execPowerOnReset straps s
  | .pinReset straps => Sys2Proof.Machine.execPinReset straps s
  | .parityMismatch field upset => Sys2Proof.Machine.execParityMismatch field upset s
  | .fillComplete => Sys2Proof.Machine.execFillComplete s
  | .sweepStart => Sys2Proof.Machine.execSweepStart s
  | .frameComplete inputs => Sys2Proof.Machine.execFrameComplete inputs s
  | .trigInSample high => Sys2Proof.Machine.execTrigInSample high s
  | .leadingEdge => Sys2Proof.Machine.execLeadingEdge s
  | .trailingEdge width => Sys2Proof.Machine.execTrailingEdge width s
  | .tagSlotSample peersLow => Sys2Proof.Machine.execTagSlotSample peersLow s
  | .tagWindowEnd peersLow => Sys2Proof.Machine.execTagWindowEnd peersLow s
  | .holdoffExpire => Sys2Proof.Machine.execHoldoffExpire s
  | .numberSlotSample peersLow => Sys2Proof.Machine.execNumberSlotSample peersLow s
  | .numberWindowEnd peersLow => Sys2Proof.Machine.execNumberWindowEnd peersLow s
  | .lineStuckDeclare => Sys2Proof.Machine.execLineStuckDeclare s
  | .stuckRelease => Sys2Proof.Machine.execStuckRelease s
  | .recoverComplete => Sys2Proof.Machine.execRecoverComplete s
  | .driveStart => Sys2Proof.Machine.execDriveStart s
  | .driveEnd => Sys2Proof.Machine.execDriveEnd s
  | .slotDutyDrive => Sys2Proof.Machine.execSlotDutyDrive s
  | .numberBitDrive => Sys2Proof.Machine.execNumberBitDrive s
  | .epochRequest => Sys2Proof.Machine.execEpochRequest s
  | .localEpoch => Sys2Proof.Machine.execLocalEpoch s
  | .prefetchRead => Sys2Proof.Machine.execPrefetchRead s
  | .scrubRequest => Sys2Proof.Machine.execScrubRequest s
  | .scrubRead => Sys2Proof.Machine.execScrubRead s
  | .writeBack => Sys2Proof.Machine.execWriteBack s
  | .csnFall => Sys2Proof.Machine.execCsnFall s
  | .rstnLow => Sys2Proof.Machine.execRstnLow s
  | .recoverCountRestart => Sys2Proof.Machine.execRecoverCountRestart s

end Sys2Proof.Machine
end

