-- ==== Sys2Proof/Machine/Port.lean ====
section
/-! DEFINITION. The shifting of bits through the host port (R194, R195, R197, R200): what one clocked bit of MOSI
does, and what MISO shows. -/

namespace Sys2Proof.Machine

/-- R194: whether the port shifts: CSN low, no reset held, and a transaction that the port takes part in. -/
def State.shifting (s : State) : Bool :=
  s.live && s.pins.csnLow && s.port.phase != .idle && s.port.phase != .waitRise

/-- The place in the response of the byte that is being shifted out: bytes of the transaction less the command's. -/
def Port.place (p : Port) : Nat := p.byteCount - (1 + p.args.length)

/-- R194, R195, R198: a byte of the command or its arguments is complete. With the last one the command the bytes
spell goes to the front of the queue, and its row finds the port as a row from outside does (log 6). -/
def takeByte (b : Byte) (s : State) : State :=
  match s.port.command.toList ++ s.port.args ++ [b] with
  | [] => s
  | code :: args =>
    match decodeCommand (code :: args) with
    | some c => { s with port := { Port.reset with phase := .command }, pending := c :: s.pending }
    | none =>
      { s with port := { s.port with
          phase := .arguments, bitCount := 0, shiftIn := 0, byteCount := s.port.byteCount + 1,
          command := some code, args := args } }

/-- R200: the word in the prefetch word begins to shift out: it moves to the shift state and the next word of the
range, if there is one, is presented. The words stand at the odd places of the response. -/
def shiftWord (s : State) : State :=
  if s.port.prefetchWord.isSome && s.port.place % 2 == 1 then
    { s with
      port := { s.port with prefetchWord := none },
      mem := { s.mem with prefetch := s.mem.prefetch.map (fun p => { p with presented := decide (0 < p.remaining) }) } }
  else s

/-- R194: the phase after a byte has been shifted out: trailing once the whole response has been. -/
def Port.sentPhase (reading : Bool) (p : Port) : PortPhase :=
  if p.response.length ≤ p.place && !reading then .trailing else p.phase

/-- R194, R200: a byte has been shifted out. -/
def sendByte (s : State) : State :=
  let t := { s with port := { s.port with bitCount := 0, byteCount := s.port.byteCount + 1 } }
  let reading := t.mem.prefetch.any (fun p => 0 < p.remaining)
  shiftWord { t with port := { t.port with phase := t.port.sentPhase reading } }

/-- R194: the bit joins the byte being received, most significant bit first. -/
def Port.received (bit : Bool) (p : Port) : Byte := (p.shiftIn <<< 1) ||| (BitVec.ofBool bit).setWidth 8

/-- R194: one bit of MOSI with its two edges of SCK. Outside a transaction it is ignored; in the response it only
moves the response on. -/
def clockBit (bit : Bool) (s : State) : State :=
  if s.shifting then
    let receiving := s.port.phase == .command || s.port.phase == .arguments
    if s.port.bitCount < 7 then
      { s with port := { s.port with
          bitCount := s.port.bitCount + 1, shiftIn := if receiving then s.port.received bit else s.port.shiftIn } }
    else if receiving then takeByte (s.port.received bit) s
    else sendByte s
  else s

/-- R194: the byte that MISO is sending, or none while it is at high impedance. -/
def State.misoByte (s : State) : Option Byte :=
  if s.shifting then
    match s.port.phase with
    | .response => some (s.port.response.getD s.port.place 0xFF)
    | .trailing => some 0xFF
    | .command => some 0x00
    | .arguments => some 0x00
    | .idle => none
    | .waitRise => none
  else none

/-- R194: the level of MISO, the byte's most significant bit first. -/
def State.miso (s : State) : Option Bool := s.misoByte.map (fun b => b.getLsbD (7 - s.port.bitCount))

end Sys2Proof.Machine
end

