-- ==== Sys2Proof/Machine/Idle.lean ====
section
/-! DEFINITION. What the station does while no command waits: its rows of the clock as they come due, the bits the
host clocks in, the line's sample, and the tick (log 2, log 6). -/

namespace Sys2Proof.Machine

/-- A row due now. -/
def isDue (due : Option Nat) : Bool := due == some 0

/-- R187: whether the parity checker sees a mismatch now. -/
def parityRow (c : ConfigStore) (s : State) : Option Instr :=
  if checking s.ctl.state then
    (firstMismatch c).map (fun i => .parityMismatch { block := s.ctl.blocks, index := i } 0)
  else none

/-- R96: the low that has outlasted 48T, once this tick's sample has not ended it. -/
def stuckRow (c : ConfigStore) (s : State) : Bool :=
  isDue (stuckDue c s) && s.filter.sampled && s.filter.accepted == some false && risingOrFalling s != some true

/-- The rows of the clock in the order the model takes them when several are due (log 2), each with whether it
is due. A row that samples a pin takes the pin as the outside holds it. -/
def clockRows (c : ConfigStore) (s : State) : List (Bool × Instr) :=
  [ (isDue (fillDue s), .fillComplete),
    (s.mem.prefetch.any (fun p => p.presented && 0 < p.remaining), .prefetchRead),
    (granted s.mem == some .writeBack, .writeBack),
    (s.mem.scrub.walking && granted s.mem == some .scrubber, .scrubRead),
    (filterRuns s.ctl.state && !s.tx.pulls && isDue (recoverDue c s), .recoverComplete),
    (isDue (tagSlotDue c s), .tagSlotSample s.pins.peersLow),
    (isDue (numberSlotDue c s), .numberSlotSample s.pins.peersLow),
    (isDue (tagEndDue c s), .tagWindowEnd s.pins.peersLow),
    (isDue (numberEndDue c s), .numberWindowEnd s.pins.peersLow),
    (isDue (driveEndDue c s), .driveEnd),
    (isDue (slotDutyDue c s), .slotDutyDrive),
    (isDue (numberBitDue c s), .numberBitDrive),
    (isDue (frameDue c s), .frameComplete s.pins.analog),
    (isDue (sweepDue s), .sweepStart),
    (isDue (trigInDue s), .trigInSample s.pins.trigIn),
    (isDue (epochRequestDue c s), .epochRequest),
    (isDue (scrubRequestDue s), .scrubRequest),
    (isDue (driveStartDue c s), .driveStart),
    (stuckRow c s, .lineStuckDeclare) ]

/-- The first row that is due, if any (log 2). A mismatch of the store is seen before all else. -/
def dueRow (c : ConfigStore) (s : State) : Option Instr :=
  match parityRow c s with
  | some i => some i
  | none => ((clockRows c s).find? (·.1)).map (·.2)

/-- R92: whether the present tick's sample of the line is still to be taken. -/
def sampleWaits (s : State) : Bool := filterRuns s.ctl.state && !s.filter.sampled

/-- The row that is due now; with no configuration, or in a reset, none is. -/
def rowNow (s : State) : Option Instr :=
  if s.live then s.ctl.config.bind (fun c => dueRow c s) else none

/-- The line is sampled, and an edge its second sample accepts joins the queue; with the sample taken one tick
passes. With no configuration, or in a reset, nothing happens. -/
def timePasses (s : State) : State :=
  if s.live && s.ctl.config.isSome then
    if sampleWaits s then { sampleLine s with pending := (edgeRow (sampleLine s)).toList }
    else countTick s
  else s

/-- One idle step: a due row joins the empty queue; else a bit that waits on MOSI is clocked in; else time passes. -/
def idle (s : State) : State :=
  match rowNow s with
  | some row => { s with pending := [row] }
  | none =>
    match s.pins.mosi with
    | b :: rest => clockBit b { s with pins := { s.pins with mosi := rest } }
    | [] => timePasses s

end Sys2Proof.Machine
end

