-- ==== Sys2Proof/Safety.lean ====
section
/-! DEFINITION. What every step keeps: the invariant of the station's memory, counts and level sources, and the
invariant of where the segments stand. -/

namespace Sys2Proof.Machine

/-- R137, R138, R144: the array is in canonical form and a held write-back lies inside it. -/
def memorySafe (m : Integrity) : Prop :=
  Memory.wf m.array = true ∧ ∀ e, m.buffer = some e → e.address < arrayWords

/-- R150, R153: the log holds at most 4 entries and the error counter at most 65535. -/
def findingsSafe (m : Integrity) : Prop := m.log.length ≤ logRoom ∧ m.errorCount ≤ 65535

/-- R29, R48, R103, R93: the saturating counts. -/
def countsSafe (s : State) : Prop :=
  s.writer.discarded ≤ 65535 ∧ s.recs.missed ≤ 255 ∧ s.tx.suppressed ≤ 255 ∧ s.tx.lost ≤ 255
    ∧ s.rx.lineErrors ≤ 255

/-- R171: a level source is IDLE exactly while its condition does not hold. -/
def levelAgrees (e : EventUnit) (src : Source) (holds : Bool) : Prop :=
  ((e.cell src).state == .quiet) = !holds

/-- R171, R169: the five level sources against their conditions. -/
def levelsAgree (s : State) : Prop :=
  levelAgrees s.ev .lineStuck (s.rx.state == .stuck)
    ∧ levelAgrees s.ev .overrun (s.writer.state == .overrun)
    ∧ levelAgrees s.ev .freeLow (freeLowHolds s.ctl.config s.pool.free)
    ∧ levelAgrees s.ev .syncSeeking (seekingHolds s.ctl.state s.tb.sync)
    ∧ levelAgrees s.ev .logFull (s.mem.log.length == logRoom)

/-- R174, R170: the mask level and the occurrence counts. -/
def eventsSafe (e : EventUnit) : Prop := e.mask ≤ 3 ∧ ∀ i : Fin 14, (e.cells.get i).count ≤ 255

/-- What every step keeps. -/
def Safe (s : State) : Prop :=
  memorySafe s.mem ∧ findingsSafe s.mem ∧ countsSafe s ∧ levelsAgree s ∧ eventsSafe s.ev

/-! ### Where the segments stand (R3) -/

/-- The chain of the record a slot holds; a FREE slot has none. -/
def chainOf (slot : Option Record) : List SegNo := (slot.map Record.chain).getD []

/-- How often a segment stands in the chains of the slots. -/
def chainCount (slots : Vector (Option Record) 16) (g : SegNo) : Nat :=
  ((List.finRange 16).map (fun i => (chainOf (slots.get i)).count g)).sum

/-- How often a segment stands in the five places of R3. -/
def placeCount (s : State) (g : SegNo) : Nat :=
  s.pool.free.count g + s.pool.history.count g + s.pool.withdrawn.count g + chainCount s.recs.slots g
    + s.lone.toList.count g

/-- What every step keeps of the segments, the records and the writer. -/
structure Placed (s : State) : Prop where
  /-- R3 -/
  onePlace : ∀ g, placeCount s g = 1
  /-- R42: at most one record is OPEN -/
  oneOpen : ∀ (i j : SlotNo) (r q : Record), s.recs.slots.get i = some r → s.recs.slots.get j = some q →
    r.isOpen = true → q.isOpen = true → i = j
  /-- R7, R3: while a record is COLLECTING the writer fills the last segment of its chain -/
  collecting : ∀ (i : SlotNo) (r : Record), s.recs.slots.get i = some r → r.state = .collecting →
    s.writer.state = .filling ∧ s.writer.current = r.chain.getLast?
  /-- R7, R29: the writer holds a segment exactly while it is FILLING -/
  holds : s.writer.current.isSome = (s.writer.state == .filling)
  /-- R29: outside LISTEN and RUNNING the writer is IDLE -/
  idle : s.ctl.state ≠ .listen → s.ctl.state ≠ .running → s.writer.state = .idle

end Sys2Proof.Machine
end

