-- ==== Sys2Proof/Certificates/Slice0/Obligations.lean ====
section
/-! DEFINITION. The statements for the provers, from the spec's numbered rules. A result statement gives the next
state whole wherever the spec does, so what it does not name is unchanged. -/

open Sys2Proof Sys2Proof.Machine

namespace Sys2Proof.Claims

/-! ### What the statements share -/

/-- No reset is held and the block `c` is held. -/
def Active (s : State) (c : ConfigStore) : Prop := s.pins.rstnLow = false ∧ s.ctl.config = some c

/-- A transaction is in its command phase and no reset is held (R194). -/
def InCommand (s : State) : Prop := s.pins.rstnLow = false ∧ s.port.phase = .command

/-- What a command leaves: the state `t`, with the response captured whole in the port (R196). -/
def answered (t : State) (code : Byte) (args response : List Byte) : State :=
  { t with port :=
    { phase := .response, bitCount := 0, shiftIn := 0, byteCount := 1 + args.length, command := some code,
      args := args, response := response, prefetchWord := none } }

/-- R117, R186: the prescaler stands, or a divisor that waited is the running one. -/
def DivisorTaken (a b : Timebase) : Prop :=
  (b.prescale = a.prescale ∧ b.nextPrescale = a.nextPrescale)
  ∨ ∃ k, a.nextPrescale = some k ∧ b.prescale = some k ∧ b.nextPrescale = none

/-- R117, R186: the core clocks of the next n ticks: 2^k in the tick in progress, and in each after it 2 to the divisor
that waits, where one does. -/
def clocksIn (k : Nat) (next : Option Nat) (n : Nat) : Nat :=
  if n = 0 then 0 else 2 ^ k + (n - 1) * 2 ^ next.getD k

/-- The blocks that the passing of ticks leaves as they were; a divisor that waits is taken. -/
def Untouched (s t : State) : Prop :=
  t.pool = s.pool ∧ t.writer = s.writer ∧ t.recs = s.recs ∧ t.dets = s.dets ∧ t.rx = s.rx ∧ t.ret = s.ret
  ∧ t.ev = s.ev ∧ t.port = s.port ∧ t.pins = s.pins
  ∧ t.ctl.state = s.ctl.state ∧ t.ctl.config = s.ctl.config ∧ t.ctl.stationId = s.ctl.stationId
  ∧ t.mem.array = s.mem.array ∧ t.mem.log = s.mem.log ∧ t.mem.errorCount = s.mem.errorCount
  ∧ t.mem.buffer = s.mem.buffer ∧ t.mem.prefetch = s.mem.prefetch
  ∧ t.tx.drive = s.tx.drive ∧ t.tx.request = s.tx.request ∧ t.tx.epochHeld = s.tx.epochHeld
  ∧ t.tx.suppressed = s.tx.suppressed ∧ t.tx.lost = s.tx.lost ∧ t.tx.slotDuty = s.tx.slotDuty
  ∧ DivisorTaken s.tb t.tb ∧ t.tb.sync = s.tb.sync ∧ t.tb.mode = s.tb.mode
  ∧ t.tb.requestMade = s.tb.requestMade ∧ t.tb.provisional = s.tb.provisional
  ∧ t.seqr.sweep = s.seqr.sweep

/-- The resets and the port's select pin: the rows that a held reset does not shut out. -/
def outlastsReset : Instr → Bool
  | .powerOnReset _ => true
  | .pinReset _ => true
  | .rstnLow => true
  | .csnFall => true
  | .csnRise => true
  | _ => false

/-- The header of a segment at power-on (R22). -/
def freshHeader : Header :=
  { home := .main, generation := 0, firstStamp := none, valid := 0, tally := 0, retirePending := false }

/-- R137: the array that a fill in progress leaves where it is abandoned: the words below its progress are the
fill's, the rest as they stood. -/
def FillAbandoned (m : Integrity) (array : Memory) : Prop :=
  array = (abandonFill m).array
  ∧ (m.fill = none → array = m.array)
  ∧ ∀ done, m.fill = some done → m.array.wf = true → ∀ a,
      readArray array a = if a < done then encode a 0x8000 else readArray m.array a

/-- The state that a power-on or pin reset leaves, with these straps and array and RSTN held low or not. -/
def poweredOn (straps : BitVec 5) (array : Memory) (rstnLow : Bool) (s : State) : State :=
  { State.reset with
    ctl := { state := .unconfigured, config := none, stationId := straps, entry := .none, blocks := s.ctl.blocks },
    mem := { State.reset.mem with array := array },
    port := { State.reset.port with phase := if s.pins.csnLow then .waitRise else .idle },
    pins := { s.pins with rstnLow := rstnLow, straps := straps },
    pending := s.pending }

/-- The bits of a byte in the order they travel, most significant first (R194). -/
def bitsOf (b : Byte) : List Bool := (List.range 8).map (fun i => b.getLsbD (7 - i))

/-- The eight bits of a byte clocked in on MOSI, one after another. -/
def clockByte (b : Byte) (s : State) : State := (bitsOf b).foldl (fun u x => clockBit x u) s

/-- The place in the response of the byte that MISO is sending (R194). -/
def place (s : State) : Nat := s.port.byteCount - (1 + s.port.args.length)

/-- The receiver runs (R93). -/
def ReceiverRuns (s : State) : Prop := s.ctl.state ∈ [StationState.listen, .running, .halted]

end Sys2Proof.Claims

open Sys2Proof.Claims

/-! ### The queue and the clock -/

/-- A step runs the command at the front of the queue on the rest of the queue. Rests on the model's choices of log 1.
-/
def Obligations.StepRunsTheFrontCommand : Prop :=
  ∀ (c : Instr) (s : State) (rest : List Instr),
    step { s with pending := c :: rest } = exec c { s with pending := rest }

/-- The model's choice (log 2, log 6): a step on an empty queue always answers a next state. A row that is due joins
the queue; else a bit that waits on MOSI is clocked in; else the tick moves by one at most, the blocks named in
`Untouched` stand (the line filter, the timers and the slot drives are not among them), and at most one row joins the
queue. -/
def Obligations.IdleStepRunsTheClock : Prop :=
  ∀ s : State, s.pending = [] →
    ∃ t, step s = .next t
      ∧ (∀ row, rowNow s = some row → t = { s with pending := [row] })
      ∧ (rowNow s = none → ∀ bit rest, s.pins.mosi = bit :: rest →
          t = clockBit bit { s with pins := { s.pins with mosi := rest } })
      ∧ (rowNow s ≠ none ∨ s.pins.mosi = [] → Untouched s t
          ∧ (t.tb.localTick = s.tb.localTick ∨ t.tb.localTick = s.tb.localTick + 1) ∧ t.pending.length ≤ 1)

/-- R117, R186, R118, R112, R137, R121, R92: while the prescaler runs, n ticks raise the local tick count by n and count
the holdoff down and the fill on by the core clocks of those ticks; the first tick boundary takes a divisor that waits; the blocks named in `Untouched` stand, and so does the queue. One tick moves the
phase by its counting mode; in LOCAL mode the tick that would bring it to P, or finds it there or past it, begins a
local epoch. In a tick the running filter takes one sample: a sample that agrees with the last one makes the run agree
and another begins a run; the first agreed level is accepted without an edge and so is a level within a window, a high
run counting from the run's first sample; the high run rises by one at the tick while the accepted level is high.
Rests on the model's choices of log 2 and 5. -/
def Obligations.TicksOnlyCount : Prop :=
  ∀ (k : Nat) (c : ConfigStore) (s : State), s.ctl.config = some c → s.tb.prescale = some k →
    (∀ n,
      let u := s.elapse n
      Untouched s u ∧ u.pending = s.pending
        ∧ u.tb.localTick = s.tb.localTick + BitVec.ofNat 32 n
        ∧ u.tx.holdoff = s.tx.holdoff - n
        ∧ (1 ≤ n → u.tb.prescale = some (s.tb.nextPrescale.getD k) ∧ u.tb.nextPrescale = none)
        ∧ (∀ d, s.mem.fill = some d → d ≤ arrayWords →
            u.mem.fill = some (min arrayWords (d + clocksIn k s.tb.nextPrescale n))))
    ∧ let u := tick s
      (s.tb.mode = .held → u.tb.phase = s.tb.phase ∧ u.tb.epoch = s.tb.epoch)
      ∧ (s.tb.mode = .line →
          u.tb.epoch = s.tb.epoch
          ∧ (s.tb.phase = 65535 → u.tb.phase = 65535) ∧ (s.tb.phase ≠ 65535 → u.tb.phase = s.tb.phase + 1))
      ∧ (s.tb.mode = .localScale →
          (s.tb.phase.toNat + 1 < period c → u.tb.phase = s.tb.phase + 1 ∧ u.tb.epoch = s.tb.epoch)
          ∧ (period c ≤ s.tb.phase.toNat + 1 → u.tb.phase = 0 ∧ u.tb.epoch = s.tb.epoch + 1))
      ∧ let v := sampleLine s
        let stamp : Timestamp := { epoch := s.tb.epoch, phase := s.tb.phase, unsynced := s.tb.sync == .seeking }
        let begun : LineRun :=
          { high := !s.lineLow, start := { tick := s.tb.localTick, stamp := stamp }, epochHeld := s.tx.epochHeld,
            agree := false }
        u.filter = { v.filter with
          sampled := false, highRun := v.filter.highRun + if v.filter.accepted = some true then 1 else 0 }
        ∧ (¬ ReceiverRuns s ∨ s.filter.sampled = true → v = s)
        ∧ (ReceiverRuns s → s.filter.sampled = false →
            (s.filter.last = none ∨ (∃ r, s.filter.last = some r ∧ r.high = s.lineLow) →
              v.filter = { s.filter with last := some begun, sampled := true })
            ∧ ∀ r, s.filter.last = some r → r.high = !s.lineLow →
                v.filter.last = some { r with agree := true } ∧ v.filter.sampled = true
                ∧ (s.filter.accepted = some r.high →
                    v.filter.accepted = s.filter.accepted ∧ v.filter.highRun = s.filter.highRun)
                ∧ (s.filter.accepted = none
                    ∨ (s.filter.accepted = some (!r.high) ∧ s.rx.state ∈ [RxState.tagWindow, .numberWindow]) →
                  v.filter.accepted = some r.high
                  ∧ v.filter.highRun = if r.high then (s.tb.localTick - r.start.tick).toNat else 0))

/-- R194, R198, R199: what the command decoder reads from the bytes of a well-formed host command is that command,
whatever bytes follow it. Rests on the model's choices of log 6. -/
def Obligations.DecoderReadsBackEveryHostCommand : Prop :=
  ∀ (i : Instr) (bytes later : List Byte),
    i.wf = true → hostBytes i = some bytes → decodeCommand (bytes ++ later) = some i

/-! ### What every step keeps -/

/-- Both invariants hold at reset. Rests on the model's choices of log 8, 12 and 13. -/
def Obligations.ResetStateHoldsTheInvariants : Prop := Safe State.reset ∧ Placed State.reset

/-- The array keeps its canonical form, the log and the counts keep their bounds, the mask level is a level, and
each level source is IDLE exactly while its condition does not hold (R171), through every step. -/
def Obligations.EveryStepKeepsTheStationSafe : Prop :=
  ∀ s t : State, Safe s → step s = .next t → Safe t

/-- R3: every logical segment stands in exactly one of the five places, through every step; with it, at most one
record is OPEN (R42), a COLLECTING record's last segment is the one being filled (R7), and the writer holds a segment
exactly while it is FILLING and is IDLE outside LISTEN and RUNNING (R29). Rests on the model's choices of log 15. -/
def Obligations.EverySegmentStandsInOnePlace : Prop :=
  ∀ s t : State, Placed s → step s = .next t → Placed t

/-! ### Resets (R22, R23, R182, R183) -/

/-- R182, R181, R154, R168, R179, R137: POWER_ON_RESET and PIN_RESET leave the same state, all of it given; only RSTN
differs: while it is held low a power-on reset does not end the pin reset. The array keeps its contents but for the
words that an abandoned fill has written. Rests on the model's choices of log 9, 11, 12, 13, 24, 33, 37,
38 and 42. -/
def Obligations.PowerOnAndPinResetLeaveTheResetState : Prop :=
  ∀ (straps : BitVec 5) (s : State), ∃ array, FillAbandoned s.mem array
    ∧ exec (.powerOnReset straps) s = .next (poweredOn straps array s.pins.rstnLow s)
    ∧ exec (.pinReset straps) s = .next (poweredOn straps array false s)

/-- R22. -/
def Obligations.PowerOnResetRebuildsThePool : Prop :=
  ∀ (straps : BitVec 5) (s : State) (row : Instr), row ∈ [.powerOnReset straps, .pinReset straps] → ∃ t,
    exec row s = .next t
    ∧ t.pool.free.length = 256 ∧ (∀ n : Nat, (h : n < 256) → t.pool.free[n]? = some ⟨n, h⟩)
    ∧ t.pool.history = [] ∧ t.pool.withdrawn = [] ∧ t.lone = none ∧ t.writer.current = none
    ∧ (∀ i, t.recs.slots.get i = none) ∧ (∀ g, t.header g = freshHeader)
    ∧ t.ctl.config = none ∧ t.writer.state = .idle

/-- R182, R137, R154, R197: while RSTN is low the station is held at its reset values, every block named, the line is
released, IRQN is high and MISO at high impedance, a fill in progress is abandoned, and every row but a reset's and
CSN's changes nothing. The rows that wait are the model's choice of log 24, the array's contents log 9's, the count of
blocks log 11's, receiver registers without a reset value log 13's, timers log 12's and 33's, the run start log 37's, the
filter's last sample log 38's, the port's shift state log 42's. -/
def Obligations.HeldResetKeepsResetValues : Prop :=
  ∀ s : State, ∃ t, exec .rstnLow s = .next t
    ∧ t.pins = { s.pins with rstnLow := true }
    ∧ t.ctl = { State.reset.ctl with stationId := s.ctl.stationId, blocks := s.ctl.blocks }
    ∧ t.tb = State.reset.tb ∧ t.pool = State.reset.pool ∧ t.writer = State.reset.writer ∧ t.seqr = State.reset.seqr
    ∧ t.recs = State.reset.recs ∧ t.dets = State.reset.dets ∧ t.trig = State.reset.trig
    ∧ t.filter = State.reset.filter ∧ t.rx = State.reset.rx ∧ t.tx = State.reset.tx ∧ t.ret = State.reset.ret
    ∧ t.ev = State.reset.ev ∧ t.mem = { State.reset.mem with array := t.mem.array } ∧ FillAbandoned s.mem t.mem.array
    ∧ t.mem.log = [] ∧ t.mem.errorCount = 0 ∧ t.mem.buffer = none ∧ t.mem.fill = none ∧ t.mem.prefetch = none
    ∧ t.port = { State.reset.port with phase := if s.pins.csnLow then .waitRise else .idle }
    ∧ t.tx.pulls = false ∧ t.irqnLow = false ∧ t.misoByte = none ∧ t.pending = s.pending
    ∧ ∀ (i : Instr) (u : State), u.pins.rstnLow = true → outlastsReset i = false → exec i u = .next u

/-- R23. -/
def Obligations.SoftResetKeepsMemoryHealthOfThePool : Prop :=
  ∀ s : State, InCommand s → ∃ t, exec .reset s = .next t
    ∧ t.pool.withdrawn = s.pool.withdrawn
    ∧ (∀ g, (t.header g).home = (s.header g).home ∧ (t.header g).generation = (s.header g).generation
        ∧ (t.header g).tally = (s.header g).tally ∧ (t.header g).retirePending = (s.header g).retirePending
        ∧ (t.header g).firstStamp = none ∧ (t.header g).valid = 0)
    ∧ (∀ g, g ∈ t.pool.free ↔ g ∉ s.pool.withdrawn) ∧ t.pool.free.Pairwise (· < ·)
    ∧ (s.pool.withdrawn.Nodup → t.pool.free.length = 256 - s.pool.withdrawn.length)
    ∧ t.pool.history = [] ∧ t.lone = none ∧ (∀ i, t.recs.slots.get i = none)
    ∧ t.writer.state = .idle ∧ t.ctl.config = none

/-- R183, R168, R154, R181, R172, R197: what RESET keeps, and the rest at its reset value; LOG_FULL is PENDING at once
when the kept log is full. A fill in progress is abandoned. Rests on the model's choices of log 9, 11, 12, 13, 33,
37 and 38. -/
def Obligations.SoftResetKeepsOnlyHealthIdAndPort : Prop :=
  ∀ s : State, InCommand s → ∃ t, exec .reset s = .next (answered t 0x05 [] [0x00])
    ∧ t.ctl = { State.reset.ctl with stationId := s.ctl.stationId, blocks := s.ctl.blocks }
    ∧ t.ret = s.ret ∧ t.mem.log = s.mem.log ∧ t.mem.errorCount = s.mem.errorCount
    ∧ t.mem.buffer = none ∧ t.mem.fill = none ∧ t.mem.prefetch = none ∧ t.mem.scrub = State.reset.mem.scrub
    ∧ FillAbandoned s.mem t.mem.array
    ∧ t.tb = State.reset.tb ∧ t.writer = State.reset.writer ∧ t.seqr = State.reset.seqr ∧ t.recs = State.reset.recs
    ∧ t.dets = State.reset.dets ∧ t.trig = State.reset.trig ∧ t.filter = State.reset.filter ∧ t.rx = State.reset.rx
    ∧ t.tx = State.reset.tx ∧ t.pins = s.pins ∧ t.pending = s.pending
    ∧ (s.mem.log.length ≠ logRoom → t.ev = State.reset.ev)
    ∧ (s.mem.log.length = logRoom → t.ev.mask = 3
        ∧ t.ev.cell .logFull = { state := .pending, count := 1, level := 1 }
        ∧ ∀ src : Source, src ≠ .logFull → t.ev.cell src = State.reset.ev.cell src)

/-! ### The host port (chapter 11) -/

/-- R194, R195, R199: a host row outside the command phase changes nothing; a CONFIGURE cut short writes nothing; in
the command phase a byte not in the command list is answered BAD_COMMAND and changes nothing. Rests on the model's
choices of log 6 and 7. -/
def Obligations.HostRowsActOnlyInTheCommandPhase : Prop :=
  (∀ (i : Instr) (s : State), (hostBytes i).isSome = true → s.port.phase ≠ .command → exec i s = .next s)
  ∧ (∀ (block : List Byte) (s : State), block.length < 116 → exec (.configure block) s = .next s)
  ∧ ∀ (code : Byte) (s : State), InCommand s →
      code.toNat ∉ [0x01, 0x02, 0x03, 0x04, 0x05, 0x10, 0x11, 0x12, 0x13, 0x20, 0x30, 0x31, 0x32, 0x33, 0x40, 0x41] →
      exec (.badCommand code) s = .next (answered s code [] [0x01])

/-- R194, R195, R197, R198, R200, R141: the fall of CSN opens a transaction on an idle port; a port that waits for CSN
to rise, or a held reset, takes none. The rise of CSN ends the transaction: the port is idle and no prefetch request is
presented; the effects that came before stand. Between them bytes travel most significant bit first: a byte joins the
command and its arguments, and with the last of them the command they spell stands at the front of the queue; in the
response MISO sends the response's bytes, then FFH, and as a word of a READ DATA begins to shift out the prefetch word
empties and the next word is presented; while the port takes no part, MISO is at high impedance and the bits are
ignored. Rests on the model's choices of log 6 and 42. -/
def Obligations.CsnOpensAndEndsTransactions : Prop :=
  ∀ s : State,
    (s.pins.csnLow = false →
      (s.pins.rstnLow = false → s.port.phase = .idle →
        exec .csnFall s = .next { s with
          pins := { s.pins with csnLow := true }, port := { State.reset.port with phase := .command } })
      ∧ (s.pins.rstnLow = true ∨ s.port.phase ≠ .idle →
        exec .csnFall s = .next { s with pins := { s.pins with csnLow := true } }))
    ∧ (s.pins.csnLow = true →
      exec .csnRise s = .next { s with
        pins := { s.pins with csnLow := false }, port := State.reset.port, mem := { s.mem with prefetch := none } })
    ∧ (s.pins.csnLow = false ∨ s.pins.rstnLow = true ∨ s.port.phase ∈ [PortPhase.idle, .waitRise] →
        s.misoByte = none ∧ s.miso = none ∧ ∀ bit, clockBit bit s = s)
    ∧ (s.pins.csnLow = true → s.pins.rstnLow = false →
        (s.port.phase ∈ [PortPhase.command, .arguments] → s.misoByte = some 0x00)
        ∧ (s.port.phase = .trailing → s.misoByte = some 0xFF)
        ∧ (∀ b, s.port.phase = .response → s.port.response[place s]? = some b → s.misoByte = some b)
        ∧ (∀ b, s.misoByte = some b → s.miso = some (b.getLsbD (7 - s.port.bitCount)))
        ∧ ∀ b : Byte, s.port.bitCount = 0 →
            (∀ code args, s.port.phase ∈ [PortPhase.command, .arguments] → s.port.shiftIn = 0 →
              s.port.command.toList ++ s.port.args ++ [b] = code :: args →
                (∀ c, decodeCommand (code :: args) = some c →
                  clockByte b s
                    = { s with port := { State.reset.port with phase := .command }, pending := c :: s.pending })
                ∧ (decodeCommand (code :: args) = none →
                  clockByte b s = { s with port := { s.port with
                    phase := .arguments, byteCount := s.port.byteCount + 1, command := some code, args := args } }))
            ∧ (s.port.phase = .trailing → s.port.prefetchWord = none →
                clockByte b s = { s with port := { s.port with byteCount := s.port.byteCount + 1 } })
            ∧ (s.port.phase = .response → 1 + s.port.args.length ≤ s.port.byteCount →
                let next := place s + 1
                let sent : Port := { s.port with byteCount := s.port.byteCount + 1 }
                (s.mem.prefetch = none → s.port.prefetchWord = none →
                  clockByte b s
                    = { s with port := { sent with
                        phase := if s.port.response.length ≤ next then .trailing else .response } })
                ∧ (∀ p w, s.mem.prefetch = some p → s.port.prefetchWord = some w → next % 2 = 1 →
                    next < s.port.response.length →
                  clockByte b s
                    = { s with
                        port := { sent with prefetchWord := none },
                        mem := { s.mem with prefetch := some { p with presented := decide (0 < p.remaining) } } })
                ∧ (s.port.prefetchWord = none ∨ next % 2 = 0 → next < s.port.response.length →
                  clockByte b s = { s with port := sent })))

/-- R201, R40, R116, R133, R155, R166: the sixteen bytes of the status response; STATUS changes nothing. -/
def Obligations.StatusReportsTheStation : Prop :=
  ∀ s : State, InCommand s →
    exec .status s = .next (answered s 0x01 []
      (0x00 :: [BitVec.ofNat 8 s.ctl.state.code,
        BitVec.ofNat 8
          ((if s.tb.sync = .locked then 1 else 0) + 2 * s.writer.state.code + 8 * s.ctl.stationId.toNat),
        BitVec.ofNat 8 (s.pool.free.length / 256), BitVec.ofNat 8 s.pool.free.length,
        BitVec.ofNat 8 s.pool.history.length,
        BitVec.ofNat 8 (s.pool.withdrawn.length / 256), BitVec.ofNat 8 s.pool.withdrawn.length,
        BitVec.ofNat 8 (s.ret.spares.toList.countP (· == .unused)),
        BitVec.ofNat 8 (s.recs.slots.toList.countP Option.isSome),
        BitVec.ofNat 8 s.mem.log.length, BitVec.ofNat 8 s.recs.missed, BitVec.ofNat 8 s.tx.suppressed,
        BitVec.ofNat 8 s.tx.lost, BitVec.ofNat 8 s.rx.lineErrors,
        BitVec.ofNat 8 (s.writer.discarded / 256), BitVec.ofNat 8 s.writer.discarded]))

/-- R70, R198, R199: LIST RECORDS gives 3 bytes for each slot in slot order, the sequence of a FREE slot as 0. READ
RECORD refuses a slot above 15, then a FREE slot, and else answers the descriptor of 32 bytes, 17 for each retrigger
entry and 9 for each chain segment. Both change nothing. -/
def Obligations.ListAndReadRecordAnswerTheTable : Prop :=
  ∀ s : State, InCommand s →
    (∃ response,
      exec .listRecords s = .next (answered s 0x10 [] (0x00 :: response)) ∧ response.length = 48
      ∧ ∀ i : SlotNo,
          (s.recs.slots.get i = none → (response.drop (3 * i.val)).take 3 = [0, 0, 0])
          ∧ ∀ r, s.recs.slots.get i = some r →
              (response.drop (3 * i.val)).take 3
                = [BitVec.ofNat 8 r.state.code, BitVec.ofNat 8 (r.sequence.toNat / 256),
                   BitVec.ofNat 8 r.sequence.toNat])
    ∧ ∀ slot : Byte,
      (15 < slot.toNat → exec (.readRecord slot) s = .next (answered s 0x11 [slot] [0x03]))
      ∧ ∀ h : slot.toNat < 16,
          (s.recs.slots.get ⟨slot.toNat, h⟩ = none →
            exec (.readRecord slot) s = .next (answered s 0x11 [slot] [0x02]))
          ∧ ∀ r, s.recs.slots.get ⟨slot.toNat, h⟩ = some r →
              exec (.readRecord slot) s
                = .next (answered s 0x11 [slot] (0x00 :: descriptorBytes s ⟨slot.toNat, h⟩ r))
              ∧ (descriptorBytes s ⟨slot.toNat, h⟩ r).length = 32 + 17 * r.retrigs.length + 9 * r.chain.length

/-- R201: the bytes of a descriptor's fixed part, of a retrigger entry and of a chain entry, each at its place, and the
codes and byte forms the layouts share: timestamps present and absent, presence bits, origin sets, causes, states and
homes. The first-cause timestamp of an absent cause as zeros is the model's choice of log 35. -/
def Obligations.DescriptorIsLaidOutAsTheSpecSays : Prop :=
  ∀ (s : State) (i : SlotNo) (r : Record),
    (descriptorBytes s i r).take 12
      = [BitVec.ofNat 8 i.val, BitVec.ofNat 8 (r.sequence.toNat / 256), BitVec.ofNat 8 r.sequence.toNat,
         BitVec.ofNat 8 r.state.code,
         BitVec.ofNat 8 ((if r.flags.preShort then 1 else 0) + (if r.flags.truncated then 2 else 0)
           + (if r.flags.stopped then 4 else 0) + (if r.flags.extendCapped then 8 else 0)
           + (if r.flags.memError then 16 else 0) + (if r.flags.unsynced then 32 else 0)),
         BitVec.ofNat 8 r.uncorrectable,
         BitVec.ofNat 8 (r.trigTime.epoch.toNat / 256), BitVec.ofNat 8 r.trigTime.epoch.toNat,
         BitVec.ofNat 8 (r.trigTime.phase.toNat / 256), BitVec.ofNat 8 r.trigTime.phase.toNat,
         (if r.trigTime.unsynced then 1 else 0),
         BitVec.ofNat 8 ((if r.origin.isSome then 1 else 0) + (if r.cause.isSome then 2 else 0)
           + (if r.cause.any (·.retried) then 4 else 0))]
    ∧ (r.origin = none → ((descriptorBytes s i r).drop 12).take 4 = [0, 0, 0, 0])
    ∧ (∀ ids, r.origin = some ids → ((descriptorBytes s i r).drop 12).take 4
        = [BitVec.ofNat 8 (ids.toNat / 65536 / 256), BitVec.ofNat 8 (ids.toNat / 65536),
           BitVec.ofNat 8 (ids.toNat / 256), BitVec.ofNat 8 ids.toNat])
    ∧ (r.cause = none → ((descriptorBytes s i r).drop 16).take 7 = [0, 0, 0, 0, 0, 0, 0])
    ∧ (∀ q, r.cause = some q → ((descriptorBytes s i r).drop 16).take 7
        = [BitVec.ofNat 8 (q.causes.toNat / 256), BitVec.ofNat 8 q.causes.toNat,
           BitVec.ofNat 8 (q.first.epoch.toNat / 256), BitVec.ofNat 8 q.first.epoch.toNat,
           BitVec.ofNat 8 (q.first.phase.toNat / 256), BitVec.ofNat 8 q.first.phase.toNat,
           (if q.first.unsynced then 1 else 0)])
    ∧ ((descriptorBytes s i r).drop 23).take 9
        = [BitVec.ofNat 8 (r.firstOffset / 256), BitVec.ofNat 8 r.firstOffset,
           BitVec.ofNat 8 (r.trigIndex / 256), BitVec.ofNat 8 r.trigIndex,
           BitVec.ofNat 8 (r.total / 256), BitVec.ofNat 8 r.total,
           BitVec.ofNat 8 r.overflow, BitVec.ofNat 8 r.retrigs.length, BitVec.ofNat 8 r.chain.length]
    ∧ (descriptorBytes s i r).drop 32
        = r.retrigs.flatMap (fun e => stampBytes e.stamp ++ [presenceByte e.origin e.cause] ++ originBytes e.origin
            ++ causeBytes e.cause)
          ++ r.chain.flatMap (fun g => [BitVec.ofNat 8 g.val, (s.header g).generation,
              BitVec.ofNat 8 ((s.header g).valid / 256), BitVec.ofNat 8 (s.header g).valid]
              ++ optStampBytes (s.header g).firstStamp)
    ∧ (∀ t : Timestamp,
        stampBytes t = [BitVec.ofNat 8 (t.epoch.toNat / 256), BitVec.ofNat 8 t.epoch.toNat,
          BitVec.ofNat 8 (t.phase.toNat / 256), BitVec.ofNat 8 t.phase.toNat, (if t.unsynced then 1 else 0)]
        ∧ optStampBytes (some t) = stampBytes t)
    ∧ optStampBytes none = [0, 0, 0, 0, 2]
    ∧ (∀ origin cause, presenceByte origin cause = BitVec.ofNat 8
        ((if origin.isSome then 1 else 0) + (if cause.isSome then 2 else 0) + (if cause.any (·.retried) then 4 else 0)))
    ∧ originBytes none = [0, 0, 0, 0]
    ∧ (∀ ids, originBytes (some ids) = [BitVec.ofNat 8 (ids.toNat / 65536 / 256), BitVec.ofNat 8 (ids.toNat / 65536),
        BitVec.ofNat 8 (ids.toNat / 256), BitVec.ofNat 8 ids.toNat])
    ∧ causeBytes none = [0, 0, 0, 0, 0, 0, 0]
    ∧ (∀ q, causeBytes (some q)
        = [BitVec.ofNat 8 (q.causes.toNat / 256), BitVec.ofNat 8 q.causes.toNat] ++ stampBytes q.first)
    ∧ [StationState.unconfigured, .configured, .init, .listen, .running, .halted, .fault].map StationState.code
        = [0, 1, 2, 3, 4, 5, 6]
    ∧ [RecState.collecting, .awaiting, .closed].map RecState.code = [1, 2, 3]
    ∧ [WriterState.idle, .filling, .overrun].map WriterState.code = [0, 1, 2]
    ∧ [SpareState.unused, .mapped, .dead].map SpareState.code = [0, 1, 2]
    ∧ Home.main.code = 0 ∧ ∀ j : SpareNo, (Home.spare j).code = j.val + 1

/-- R71, R199, R140, R200: READ DATA refuses a slot above 15, then a slot that is not CLOSED, then a range out of
bounds; served, it answers OK and the prefetch presents the range's first word, and nothing else changes. Rests on the
model's choices of log 6. -/
def Obligations.ReadDataPresentsTheFirstWord : Prop :=
  ∀ (slot index : Byte) (offset count : BitVec 16) (s : State), InCommand s →
    let args := [slot, index, offset.extractLsb' 8 8, offset.extractLsb' 0 8, count.extractLsb' 8 8, count.extractLsb' 0 8]
    (15 < slot.toNat → exec (.readData slot index offset count) s = .next (answered s 0x12 args [0x03]))
    ∧ ∀ h : slot.toNat < 16,
        ((∀ r, s.recs.slots.get ⟨slot.toNat, h⟩ = some r → r.state ≠ .closed) →
          exec (.readData slot index offset count) s = .next (answered s 0x12 args [0x02]))
        ∧ ∀ r, s.recs.slots.get ⟨slot.toNat, h⟩ = some r → r.state = .closed →
            ((r.chain.length ≤ index.toNat ∨ count.toNat = 0 ∨ 512 < count.toNat ∨ 512 < offset.toNat + count.toNat) →
              exec (.readData slot index offset count) s = .next (answered s 0x12 args [0x04]))
            ∧ ∀ g, r.chain[index.toNat]? = some g → 1 ≤ count.toNat → offset.toNat + count.toNat ≤ 512 →
                let p : Prefetch :=
                  { seg := g, offset := offset.toNat, remaining := count.toNat, corrected := 0, uncorrectable := 0,
                    presented := true }
                exec (.readData slot index offset count) s
                  = .next (answered { s with mem := { s.mem with prefetch := some p } } 0x12 args [0x00])

/-- R72, R14, R199, R20, R37: RELEASE refuses a slot above 15, then a slot that is not CLOSED, and changes nothing
then. Served, with no segment of the chain retire-pending: the chain enters the free list tail oldest first, the
slot is FREE, and FREE_LOW follows the free count; and where the writer is in OVERRUN with the free list empty, its
outstanding claim is served from the head, OVERRUN ends, and the discarded-frame count stands. Whatever the chain's
flags, the slot is FREE and each segment of the chain, oldest first, enters the free list through the check. -/
def Obligations.ReleaseReturnsTheChain : Prop :=
  ∀ (slot : Byte) (s : State), InCommand s →
    (15 < slot.toNat → exec (.release slot) s = .next (answered s 0x13 [slot] [0x03]))
    ∧ ∀ h : slot.toNat < 16,
        ((∀ r, s.recs.slots.get ⟨slot.toNat, h⟩ = some r → r.state ≠ .closed) →
          exec (.release slot) s = .next (answered s 0x13 [slot] [0x02]))
        ∧ ∀ r, s.recs.slots.get ⟨slot.toNat, h⟩ = some r → r.state = .closed →
            let recs : RecordUnit := { s.recs with slots := s.recs.slots.set slot.toNat none h }
            exec (.release slot) s
              = .next (answered (serveOutstanding (returnAll r.chain { s with recs := recs })) 0x13 [slot] [0x00])
            ∧ ((∀ g ∈ r.chain, (s.header g).retirePending = false) →
            (s.writer.state ≠ .overrun → ∃ ev,
              let pool : Pool := { s.pool with free := s.pool.free ++ r.chain }
              exec (.release slot) s = .next (answered { s with pool := pool, recs := recs, ev := ev } 0x13 [slot] [0x00])
              ∧ ∀ src : Source, src ≠ .freeLow → ev.cell src = s.ev.cell src)
            ∧ (s.writer.state = .overrun → s.pool.free = [] → ∀ g rest, r.chain = g :: rest → ∃ ev,
              let pool : Pool := { s.pool with
                free := rest,
                headers := s.pool.headers.set g { s.header g with
                  generation := (s.header g).generation + 1, valid := 0, firstStamp := none } }
              let writer : Writer :=
                { state := .filling, current := some g, pos := 0, discarded := s.writer.discarded }
              exec (.release slot) s
                = .next (answered { s with pool := pool, recs := recs, writer := writer, ev := ev } 0x13 [slot] [0x00])
              ∧ (ev.cell .overrun).state = .quiet
              ∧ ∀ src : Source, src ≠ .freeLow → src ≠ .overrun → ev.cell src = s.ev.cell src))

/-- R151, R201: PEEK LOG and TAKE LOG act on the oldest entry; an empty log answers EMPTY; the removal stands when CSN
rises. A log entry is sent in thirteen bytes as R201 lays them out. -/
def Obligations.LogCommandsActOnTheOldestEntry : Prop :=
  ∀ s : State, InCommand s →
    (s.mem.log = [] →
      exec .peekLog s = .next (answered s 0x30 [] [0x07]) ∧ exec .takeLog s = .next (answered s 0x31 [] [0x07]))
    ∧ ∀ e rest, s.mem.log = e :: rest →
        exec .peekLog s = .next (answered s 0x30 [] (0x00 :: logBytes e))
        ∧ ∃ ev, exec .takeLog s = .next (answered { s with mem := { s.mem with log := rest }, ev := ev }
              0x31 [] (0x00 :: logBytes e))
            ∧ (∀ src : Source, src ≠ .logFull → ev.cell src = s.ev.cell src)
            ∧ (rest.length = 3 → (ev.cell .logFull).state = .quiet)
            ∧ (∀ t u, exec .takeLog s = .next t → exec .csnRise t = .next u → u.mem.log = rest)
            ∧ (logBytes e).length = 13
            ∧ logBytes e
                = [(if e.kind = .corrected then 0 else 1), (if e.finder = .hostRead then 0 else 1),
                   BitVec.ofNat 8 e.seg.val, (match e.home with | .main => 0 | .spare j => BitVec.ofNat 8 (j.val + 1)),
                   BitVec.ofNat 8 (e.offset / 256), BitVec.ofNat 8 e.offset, BitVec.ofNat 8 e.syndrome.toNat,
                   (match e.bit with | some p => BitVec.ofNat 8 p | none => 0xFF),
                   BitVec.ofNat 8 (e.stamp.epoch.toNat / 256), BitVec.ofNat 8 e.stamp.epoch.toNat,
                   BitVec.ofNat 8 (e.stamp.phase.toNat / 256), BitVec.ofNat 8 e.stamp.phase.toNat,
                   (if e.stamp.unsynced then 1 else 0)]

/-- R153: READ ERROR COUNT answers the counter and zeroes it. R166, R201: READ REMAP answers the spare states, the
remap table and the withdrawn set, and changes nothing. -/
def Obligations.HealthReadsAnswerCounterAndRemap : Prop :=
  ∀ s : State, InCommand s →
    exec .readErrorCount s = .next (answered { s with mem := { s.mem with errorCount := 0 } } 0x32 []
      [0x00, BitVec.ofNat 8 (s.mem.errorCount / 256), BitVec.ofNat 8 s.mem.errorCount])
    ∧ exec .readRemap s = .next (answered s 0x33 []
      (0x00 :: (s.ret.spares.toList.map (fun x => BitVec.ofNat 8 x.code)
        ++ [BitVec.ofNat 8 s.ret.remap.length]
        ++ s.ret.remap.flatMap (fun e => [BitVec.ofNat 8 e.seg.val, BitVec.ofNat 8 e.spare.val, BitVec.ofNat 8 e.moves])
        ++ [BitVec.ofNat 8 (s.pool.withdrawn.length / 256), BitVec.ofNat 8 s.pool.withdrawn.length]
        ++ s.pool.withdrawn.flatMap (fun g => [BitVec.ofNat 8 g.val, BitVec.ofNat 8 (s.header g).home.code]))))

/-- R176, R170, R171, R199: NEXT EVENT answers NONE when nothing is PENDING; otherwise it answers and takes a
PENDING source such that no PENDING source has a higher level, nor the same level and a lower order. -/
def Obligations.NextEventTakesTheMostUrgentSource : Prop :=
  ∀ s : State, InCommand s →
    ((∀ i : Fin 14, (s.ev.cells.get i).state ≠ .pending) →
      exec .nextEvent s = .next (answered s 0x40 [] [0x00, 0, 0, 0]))
    ∧ ((∃ i : Fin 14, (s.ev.cells.get i).state = .pending) →
      ∃ i : Fin 14, (s.ev.cells.get i).state = .pending
        ∧ (∀ j : Fin 14, (s.ev.cells.get j).state = .pending →
            (s.ev.cells.get j).level ≤ (s.ev.cells.get i).level
            ∧ ((s.ev.cells.get j).level = (s.ev.cells.get i).level → i ≤ j))
        ∧ let taken : SourceCell :=
            { level := (s.ev.cells.get i).level, count := 0,
              state := if i.val + 1 ∈ [2, 7, 8, 12, 13] then .acked else .quiet }
          exec .nextEvent s
            = .next (answered { s with ev := { s.ev with cells := s.ev.cells.set i taken } } 0x40 []
                [0x00, BitVec.ofNat 8 (i.val + 1), BitVec.ofNat 8 (s.ev.cells.get i).level,
                  BitVec.ofNat 8 (s.ev.cells.get i).count]))

/-- R174, R175: SET MASK with 0 to 3 sets M, with more it is refused; no source changes, and IRQN is low exactly
when some source is PENDING at or above M, and high in a reset. -/
def Obligations.SetMaskSetsTheMaskLevel : Prop :=
  (∀ (level : Byte) (s : State), InCommand s →
    (level.toNat ≤ 3 →
      exec (.setMask level) s = .next (answered { s with ev := { s.ev with mask := level.toNat } } 0x41 [level] [0x00]))
    ∧ (3 < level.toNat → exec (.setMask level) s = .next (answered s 0x41 [level] [0x04])))
  ∧ ∀ s : State, s.irqnLow = true ↔ s.pins.rstnLow = false
      ∧ ∃ i : Fin 14, (s.ev.cells.get i).state = .pending ∧ s.ev.mask ≤ (s.ev.cells.get i).level

/-- R85: SOFT TRIGGER in RUNNING answers OK and offers the cause HOST at the present timestamp; in every other
station state it is refused with BAD_STATE. -/
def Obligations.SoftTriggerOffersHost : Prop :=
  ∀ s : State, InCommand s →
    (∀ c, s.ctl.config = some c → s.ctl.state = .running → s.tx.holdoff = 0 → s.rx.state = .idle → s.tx.request = none →
      let first : Timestamp := { epoch := s.tb.epoch, phase := s.tb.phase, unsynced := s.tb.sync == .seeking }
      let request : Cause := { causes := 0x200, first := first, retried := false }
      exec .softTrigger s
        = .next (answered { s with tx := { s.tx with request := some request } } 0x20 [] [0x00]))
    ∧ (∀ c, s.ctl.config = some c → s.ctl.state = .running →
        exec .softTrigger s = .next (answered (offer c 0x200
          { epoch := s.tb.epoch, phase := s.tb.phase, unsynced := s.tb.sync == .seeking } s) 0x20 [] [0x00]))
    ∧ (s.ctl.state ≠ .running → exec .softTrigger s = .next (answered s 0x20 [] [0x02]))

/-- R185, R186, R195: CONFIGURE is LOCKED outside UNCONFIGURED and CONFIGURED; there a block is refused with the index
of its first failing field and changes nothing, and a block with none is accepted: the store, H, the levels and the
mask level and the station state are set, a stopped prescaler starts with the divisor, a running one has it waiting for
its next tick boundary, and the local tick count stands. Rests on the model's choices of log 4, 7 and 11. -/
def Obligations.ConfigureAcceptsOrNamesTheFirstFailingField : Prop :=
  ∀ (block : List Byte) (s : State), InCommand s → block.length = 116 →
    let vals := splitFields fieldWidths block
    let fails := fun i => !(inRange i (fieldAt vals i) && crossCheck vals i)
    (s.ctl.state ≠ .unconfigured → s.ctl.state ≠ .configured →
      exec (.configure block) s = .next (answered s 0x02 block [0x06]))
    ∧ ((s.ctl.state = .unconfigured ∨ s.ctl.state = .configured) →
        (∀ i, 1 ≤ i → i ≤ 86 → fails i = true → (∀ j, 1 ≤ j → j < i → fails j = false) →
          exec (.configure block) s = .next (answered s 0x02 block [0x05, BitVec.ofNat 8 i]))
        ∧ ((∀ i, 1 ≤ i → i ≤ 86 → fails i = false) →
          ∃ t, exec (.configure block) s = .next (answered t 0x02 block [0x00])
            ∧ t.ctl = { s.ctl with
                state := .configured, config := some (storeOf vals), blocks := s.ctl.blocks + 1 }
            ∧ (s.tb.prescale = none → t.tb = { s.tb with prescale := some (fieldAt vals 1) })
            ∧ (s.tb.prescale ≠ none → t.tb = { s.tb with nextPrescale := some (fieldAt vals 1) })
            ∧ t.ev.mask = fieldAt vals 83
            ∧ (∀ i : Fin 14, (t.ev.cells.get i).level
                = if i.val < 2 then (s.ev.cells.get i).level else fieldAt vals (69 + i.val))
            ∧ (∀ i : Fin 14, i ≠ 7 → i ≠ 11 → (t.ev.cells.get i).state = (s.ev.cells.get i).state
                ∧ (t.ev.cells.get i).count = (s.ev.cells.get i).count)
            ∧ t.pool = s.pool ∧ t.writer = s.writer ∧ t.recs = s.recs ∧ t.mem = s.mem ∧ t.ret = s.ret
            ∧ t.tx = s.tx ∧ t.rx = s.rx ∧ t.dets = s.dets ∧ t.trig = s.trig ∧ t.seqr = s.seqr ∧ t.pins = s.pins
            ∧ t.filter = s.filter ∧ t.pending = s.pending))

/-- R6, R26, R74, R112, R173, R184, R185: what an accepted block guarantees: every field's range, the cross-checks of
Ts and Lmax, and for an enabled detector those of its channel, its thresholds and its hysteresis. That no upset lifts
the retire threshold above the tally's top rests on the model's choice of log 41. -/
def Obligations.AcceptedBlocksKeepTheSpecsBounds : Prop :=
  ∀ vals : List (BitVec 16), firstFailing vals = none →
    let c := storeOf vals
    3 ≤ field c 1 ∧ field c 1 ≤ 8 ∧ 4 ≤ bitTime c ∧ bitTime c ≤ 64 ∧ 1000 ≤ period c ∧ period c ≤ 60000
    ∧ (channels c = 1 ∨ channels c = 2 ∨ channels c = 4 ∨ channels c = 8)
    ∧ 48 * channels c ≤ samplePeriod c * 2 ^ field c 1
    ∧ c.target = (preFrames c + framesOf c - 1) / framesOf c + 1 ∧ 1 ≤ c.target ∧ c.target ≤ 62
    ∧ c.target + 1 + (postFrames c + framesOf c - 1) / framesOf c ≤ maxChain c ∧ maxChain c ≤ 64
    ∧ preFrames c ≤ (c.target - 1) * framesOf c
    ∧ holdoffTicks c ≤ 65520 ∧ 1 ≤ retireThreshold c ∧ retireThreshold c ≤ 15
    ∧ 1 ≤ lockWindow c ∧ lockWindow c ≤ 255 ∧ 1 ≤ samplePeriod c ∧ samplePeriod c ≤ 65535 ∧ preFrames c ≤ 65535
    ∧ 1 ≤ postFrames c ∧ postFrames c ≤ 65535 ∧ 1 ≤ maxChain c ∧ field c 10 ≤ 1 ∧ field c 11 ≤ 4095
    ∧ field c 68 ≤ 1 ∧ field c 69 ≤ 2 ∧ trigInterval c ∈ [1, 8, 32]
    ∧ (∀ r, 3 ≤ r → r ≤ 14 → field c (68 + r) ≤ 2) ∧ field c 83 ≤ 3 ∧ scrubInterval c ≤ 65535
    ∧ freeLowThreshold c ≤ 255
    ∧ (∀ i bits, retireThreshold (upsetField c i bits) ≤ 15)
    ∧ (∀ d : Fin 8,
        let mode := detField c d 2
        let a := detField c d 3
        let b := detField c d 4
        let h := detField c d 5
        detField c d 0 ≤ 1 ∧ detField c d 1 ≤ 7 ∧ mode ≤ 3 ∧ a ≤ 4095 ∧ b ≤ 4095 ∧ h ≤ 4095
        ∧ detField c d 6 ∈ [1, 2, 4, 8]
        ∧ (detField c d 0 = 1 →
            detField c d 1 < channels c
            ∧ (mode = 0 ∨ mode = 3 → h ≤ a) ∧ (mode = 1 → a + h ≤ 4095)
            ∧ (mode = 2 → b < a ∧ (b : Int) + h ≤ (a : Int) - h)))
    ∧ ∀ i, 1 ≤ i → i ≤ 86 → mismatchAt c i = false

namespace Sys2Proof.Claims

/-! ### Segments, records and the writer -/

/-- R5: a header after a take. -/
def takenHeader (h : Header) : Header := { h with generation := h.generation + 1, valid := 0, firstStamp := none }

/-- The frames held in a chain: its segments' valid frames. -/
def framesIn (s : State) (chain : List SegNo) : Nat := (chain.map (fun g => (s.header g).valid)).sum

/-- The writer filling segment g from position 0. -/
def fillingFrom (g : SegNo) (s : State) : Writer :=
  { state := .filling, current := some g, pos := 0, discarded := s.writer.discarded }

/-- The writer in OVERRUN. -/
def overrunning (s : State) : Writer :=
  { state := .overrun, current := none, pos := 0, discarded := s.writer.discarded }

/-- The writer IDLE. -/
def idleWriter (s : State) : Writer :=
  { state := .idle, current := none, pos := 0, discarded := s.writer.discarded }

/-- R8 with the free list not empty: the head is taken. `s` is the state before, `t` after. -/
def TookHead (s t : State) : Prop :=
  ∀ g rest, s.pool.free = g :: rest →
    t.writer = fillingFrom g s ∧ t.pool.free = rest ∧ t.pool.history = s.pool.history
    ∧ t.header g = takenHeader (s.header g) ∧ ∀ a, a ≠ g → t.header a = s.header a

/-- Slot i holds the record r, which is OPEN, and no other slot holds an OPEN record (R42). -/
def OnlyOpen (i : SlotNo) (r : Record) (s : State) : Prop :=
  s.recs.slots.get i = some r ∧ r.state ≠ .closed
  ∧ ∀ j r', j ≠ i → s.recs.slots.get j = some r' → r'.state = .closed

/-- No slot holds an OPEN record. -/
def NoneOpen (s : State) : Prop := ∀ j r, s.recs.slots.get j = some r → r.state = .closed

/-- No slot holds a COLLECTING record. -/
def NoneCollecting (s : State) : Prop := ∀ j r, s.recs.slots.get j = some r → r.state ≠ .collecting

/-- R170: an edge source after one raise. -/
def raisedOnce (e : EventUnit) (src : Source) : SourceCell :=
  { e.cell src with state := .pending, count := min 255 ((e.cell src).count + 1) }

/-- Every source but those named stands, and so does the mask level. -/
def OnlyEvents (named : List Source) (s t : State) : Prop :=
  t.ev.mask = s.ev.mask ∧ ∀ src : Source, src ∉ named → t.ev.cell src = s.ev.cell src

/-- R65, R66, R67, R53: the record r of slot i closed where it stands, with STOPPED or without; `s` is the state
before, `t` after. Origin sets stay as they were, so those unresolved stay absent. -/
def ClosedWhereItStands (c : ConfigStore) (stopped : Bool) (i : SlotNo) (r : Record) (s t : State) : Prop :=
  ∃ r', t.recs.slots.get i = some r' ∧ r'.state = .closed ∧ r'.window = none
    ∧ r'.chain = r.chain ∧ r'.origin = r.origin ∧ r'.retrigs = r.retrigs ∧ r'.cause = r.cause
    ∧ r'.sequence = r.sequence ∧ r'.trigTime = r.trigTime ∧ r'.overflow = r.overflow
    ∧ r'.uncorrectable = r.uncorrectable ∧ r'.pendingEdges = [] ∧ r'.edgeTick = r.edgeTick
    ∧ r'.flags.truncated = r.flags.truncated ∧ r'.flags.stopped = (r.flags.stopped || stopped)
    ∧ r'.flags.extendCapped = r.flags.extendCapped ∧ r'.flags.memError = r.flags.memError
    ∧ r'.flags.unsynced = r.flags.unsynced
    ∧ (r.state = .awaiting ∨ r.placed = true →
        r'.total = r.total ∧ r'.firstOffset = r.firstOffset ∧ r'.trigIndex = r.trigIndex
        ∧ r'.flags.preShort = r.flags.preShort)
    ∧ (r.state = .collecting → r.placed = false →
        r'.firstOffset = 0 ∧ r'.total = framesIn s r.chain ∧ r'.trigIndex = framesIn s r.chain
        ∧ r'.flags.preShort = decide (framesIn s r.chain < preFrames c))
    ∧ (∀ j, j ≠ i → t.recs.slots.get j = s.recs.slots.get j)

/-- R57, R12: the data of the record r in slot i are complete in `u`; `t` is the state after: AWAITING while a window
is pending, otherwise CLOSED with RECORD_CLOSED raised; no retrigger edge pends, and the writer takes. -/
def DataComplete (i : SlotNo) (r : Record) (u t : State) : Prop :=
  TookHead u t
  ∧ (∀ j, j ≠ i → t.recs.slots.get j = u.recs.slots.get j)
  ∧ (r.window = none → t.recs.slots.get i = some { r with state := .closed, pendingEdges := [] }
      ∧ t.ev.cell .recordClosed = raisedOnce u.ev .recordClosed)
  ∧ (∀ item, r.window = some item → t.recs.slots.get i = some { r with state := .awaiting, pendingEdges := [] }
      ∧ t.ev.cell .recordClosed = u.ev.cell .recordClosed)

/-- R51: no held frame lies at or after the edge. -/
def NoFrameFrom (held : Nat) (last : Option Tick) (edge : Tick) : Prop :=
  ∀ t, last = some t → held = 0 ∨ atOrAfter t edge = false

/-- R51, R32: the number of held frames at or after the edge, counted back from the latest report in steps of Ts. -/
def framesSince (c : ConfigStore) (held : Nat) (last edge : Tick) : Nat :=
  min held ((last - edge).toNat / samplePeriod c + 1)

/-- R190, R24, R30, R92, R93, R120, R147: what LISTEN entry from INIT or HALTED makes of a state. -/
def ListenEntered (c : ConfigStore) (fromInit : Bool) (s t : State) : Prop :=
  t.ctl.state = .listen ∧ t.ctl.config = s.ctl.config ∧ t.ctl.stationId = s.ctl.stationId
  ∧ t.ctl.entry = (if fromInit = true ∨ s.ctl.entry = .fromInit then .fromInit else .fromHalted)
  ∧ t.rx.state = .recover ∧ t.rx.capture = none ∧ t.rx.lineErrors = s.rx.lineErrors
  ∧ t.filter.accepted = none ∧ t.filter.last = none ∧ t.filter.highRun = 0
  ∧ t.seqr = { divider := some 0, sweep := none, position := 0, samples := [] }
  ∧ t.tb = { s.tb with
      phase := 0, epoch := 0, sync := .seeking, mode := .held, requestMade := false, provisional := false }
  ∧ (fromInit = true → scrubInterval c ≠ 0 →
      t.mem.scrub = { s.mem.scrub with walking := true, timer := scrubInterval c })
  ∧ (fromInit = false ∨ scrubInterval c = 0 → t.mem.scrub = s.mem.scrub)
  ∧ TookHead s t
  ∧ (s.pool.free = [] → s.pool.history = [] → t.writer = overrunning s ∧ t.pool = s.pool)
  ∧ t.recs.slots = s.recs.slots ∧ t.recs.seq = s.recs.seq ∧ t.recs.missed = s.recs.missed
  ∧ t.dets = s.dets ∧ t.trig = s.trig ∧ t.tx = s.tx ∧ t.pins = s.pins
  ∧ t.mem.log = s.mem.log ∧ t.mem.errorCount = s.mem.errorCount ∧ t.mem.buffer = s.mem.buffer
  ∧ t.pending = s.pending
  ∧ (s.pool.free ≠ [] →
      t.pool.withdrawn = s.pool.withdrawn ∧ t.ret = s.ret
      ∧ OnlyEvents [.lineStuck, .overrun, .freeLow, .syncSeeking] s t)

/-- R188, R191, R15, R38: what STOP and FAULT entry do alike. -/
def AcquisitionEnded (c : ConfigStore) (s t : State) : Prop :=
  t.seqr = { divider := none, sweep := none, position := 0, samples := [] } ∧ t.writer = idleWriter s
  ∧ t.pool.history = [] ∧ t.lone = none
  ∧ ((∀ g ∈ s.pool.history ++ s.lone.toList, (s.header g).retirePending = false) →
      t.pool.free = s.pool.free ++ s.pool.history ++ s.lone.toList ∧ t.pool.withdrawn = s.pool.withdrawn
      ∧ (∀ g, t.header g = s.header g) ∧ t.ret = s.ret
      ∧ OnlyEvents [.recordClosed, .overrun, .freeLow, .syncSeeking, .lineStuck, .configFault] s t)
  ∧ (∀ i r, OnlyOpen i r s →
      ClosedWhereItStands c true i r s t ∧ t.ev.cell .recordClosed = raisedOnce s.ev .recordClosed)
  ∧ (NoneOpen s → t.recs = s.recs ∧ t.ev.cell .recordClosed = s.ev.cell .recordClosed)
  ∧ (∀ d, t.dets.get d = { state := .disabled, count := 0, prev := none })
  ∧ t.trig = State.reset.trig
  ∧ t.tb = { s.tb with mode := .localScale, requestMade := false }
  ∧ t.recs.seq = s.recs.seq ∧ t.recs.missed = s.recs.missed
  ∧ t.tx.suppressed = s.tx.suppressed ∧ t.tx.lost = s.tx.lost ∧ t.rx.lineErrors = s.rx.lineErrors
  ∧ t.mem.log = s.mem.log ∧ t.mem.errorCount = s.mem.errorCount ∧ t.mem.buffer = s.mem.buffer
  ∧ t.mem.prefetch = s.mem.prefetch ∧ t.recs.lastReport = s.recs.lastReport ∧ t.pending = s.pending

end Sys2Proof.Claims

/-! ### Station states (chapter 10) -/

/-- R189, R192, R190: START takes CONFIGURED to INIT with the fill begun, and HALTED to LISTEN with no fill when the
transmitter is QUIET and the receiver is in no pulse or window; otherwise it is refused and changes nothing. Rests on
the model's choices of log 4 and 31. -/
def Obligations.StartEntersInitOrListen : Prop :=
  ∀ s : State, InCommand s →
    (∀ c, s.ctl.config = some c → s.ctl.state = .configured →
      exec .start s = .next (answered
        { s with ctl := { s.ctl with state := .init }, mem := { s.mem with fill := some 0 } } 0x03 [] [0x00]))
    ∧ (∀ c, s.ctl.config = some c → s.ctl.state = .halted → s.tx.state = .quiet →
      s.rx.state ∉ [RxState.low, .tagWindow, .numberWindow] → ∃ t,
      exec .start s = .next (answered t 0x03 [] [0x00]) ∧ ListenEntered c false s t ∧ t.mem.array = s.mem.array)
    ∧ (s.ctl.state = .halted → s.tx.state ≠ .quiet ∨ s.rx.state ∈ [RxState.low, .tagWindow, .numberWindow] →
      exec .start s = .next (answered s 0x03 [] [0x02]))
    ∧ (s.ctl.state ∉ [StationState.configured, .halted] → exec .start s = .next (answered s 0x03 [] [0x02]))

/-- R191, R15, R65, R114: STOP in LISTEN or RUNNING ends acquisition, closes an OPEN record with STOPPED, drops what
the transmitter is not driving, and leaves the receiver, the filter and the scrubber running, a wait of the scrub timer
for the entry tick included (R24, R147); in every other state it is refused with BAD_STATE and changes nothing. Rests
on the model's choices of log 20 and 37. -/
def Obligations.StopHaltsTheStation : Prop :=
  ∀ s : State, InCommand s →
    (∀ c, s.ctl.config = some c → s.ctl.state = .listen ∨ s.ctl.state = .running → ∃ t,
      exec .stop s = .next (answered t 0x04 [] [0x00])
      ∧ t.ctl = { s.ctl with state := .halted }
      ∧ AcquisitionEnded c s t
      ∧ t.rx = s.rx ∧ t.filter = s.filter ∧ t.mem = s.mem ∧ t.pins = s.pins
      ∧ t.tx.drive = s.tx.drive ∧ t.tx.slotDuty = s.tx.slotDuty ∧ t.tx.slotDriving = s.tx.slotDriving
      ∧ t.tx.bitDuty = s.tx.bitDuty ∧ t.tx.holdoff = 0
      ∧ t.tx.request = (if s.tx.drive.any (fun d => !d.isEpoch) then s.tx.request else none)
      ∧ t.tx.epochHeld = (s.tx.epochHeld && s.tx.drive.any (·.isEpoch)))
    ∧ (s.ctl.state ∉ [StationState.listen, .running] → exec .stop s = .next (answered s 0x04 [] [0x02]))

/-- R137, R186, R189, R190: the fill's last word comes when every address has been written, 2^k words in each tick, with
the divisor k of that tick; every address then reads as 8000H encoded for it, and the station enters LISTEN. Rests on
the model's choices of log 3, 4 and 31. -/
def Obligations.FillCompleteEntersListen : Prop :=
  ∀ (c : ConfigStore) (k done : Nat) (s : State), Active s c → s.tb.prescale = some k → s.ctl.state = .init →
    s.mem.fill = some done →
    ∃ wait, (∀ n, wait ≤ n ↔ 135168 - done ≤ clocksIn k s.tb.nextPrescale n) ∧
    let u := s.elapse wait
    ∃ t, exec .fillComplete s = .next t ∧ ListenEntered c true u t ∧ t.mem.fill = none
      ∧ ∀ a, readArray t.mem.array a = encode a 0x8000

/-- R97, R190, R76, R82, R120, R112, R133: with 64T of accepted high the receiver leaves RECOVER for IDLE; in LISTEN
the station enters RUNNING on that tick: the enabled detectors are ARMED and keep their previous values, an enabled
TRIGIN unit watches, the timebase counts from 0 in LINE mode, SEEKING, and SYNC_SEEKING's condition starts. In another
station state it stays as it was. Rests on the model's choices of log 5 and 37. -/
def Obligations.RecoverCompleteEntersRunning : Prop :=
  ∀ (c : ConfigStore) (s : State), Active s c → s.ctl.state ∈ [StationState.listen, .running, .halted] →
    s.rx.state = .recover → s.tx.pulls = false → s.filter.accepted = some true → 64 * bitTime c ≤ s.filter.highRun →
    ∃ t, exec .recoverComplete s = .next t ∧ t.rx = { s.rx with state := .idle }
      ∧ t.pool = s.pool ∧ t.writer = s.writer ∧ t.seqr = s.seqr ∧ t.recs = s.recs ∧ t.filter = s.filter
      ∧ t.mem = s.mem ∧ t.ret = s.ret ∧ t.port = s.port ∧ t.pins = s.pins ∧ t.pending = s.pending
      ∧ (s.ctl.state ≠ .listen →
          t.ctl = s.ctl ∧ t.tb = s.tb ∧ t.dets = s.dets ∧ t.trig = s.trig ∧ t.tx = s.tx ∧ t.ev = s.ev)
      ∧ (s.ctl.state = .listen →
          t.ctl = { s.ctl with state := .running }
          ∧ t.tb = { s.tb with
              phase := 0, epoch := 0, sync := .seeking, mode := .line, requestMade := false, provisional := false }
          ∧ (∀ d, detEnabled c d = true → t.dets.get d = { s.dets.get d with state := .armed, count := 0 })
          ∧ (∀ d, detEnabled c d = false → t.dets.get d = s.dets.get d)
          ∧ t.trig = { State.reset.trig with watching := trigEnabled c }
          ∧ t.tx = { s.tx with holdoff := 0 }
          ∧ ((s.ev.cell .syncSeeking).state = .quiet → (t.ev.cell .syncSeeking).state = .pending)
          ∧ OnlyEvents [.syncSeeking] s t)

/-- R187, R188, R193: a field of the store that no longer matches its parity takes a checking station to FAULT, with
CONFIG_FAULT raised, the line released, acquisition ended and an OPEN record closed with STOPPED; a field that still
matches changes nothing, and neither does a store in UNCONFIGURED or FAULT. An upset of a store that an accepted block
has rewritten since is gone with it. A fill in progress is abandoned. Rests on the model's choices of log 9, 10, 11, 20,
31, 33, 37, 38 and 41. -/
def Obligations.ParityMismatchEntersFault : Prop :=
  ∀ (c : ConfigStore) (f : StoredField) (upset : BitVec 16) (s : State), Active s c →
    let d := if f.block = s.ctl.blocks then upsetField c f.index upset else c
    (mismatchAt d f.index = false ∨ s.ctl.state = .unconfigured ∨ s.ctl.state = .fault →
      exec (.parityMismatch f upset) s = .next s)
    ∧ (mismatchAt d f.index = true → s.ctl.state ≠ .unconfigured → s.ctl.state ≠ .fault → ∃ t,
      exec (.parityMismatch f upset) s = .next t
      ∧ t.ctl.state = .fault ∧ t.ctl.config = some d ∧ t.ctl.stationId = s.ctl.stationId
      ∧ AcquisitionEnded d s t
      ∧ t.ev.cell .configFault = raisedOnce s.ev .configFault ∧ t.ev.mask = s.ev.mask
      ∧ (∀ src : Source, (t.ev.cell src).level = (s.ev.cell src).level)
      ∧ t.rx.state = .idle ∧ t.rx.capture = none
      ∧ t.filter.accepted = none ∧ t.filter.last = none ∧ t.filter.highRun = 0
      ∧ t.tx = { State.reset.tx with suppressed := s.tx.suppressed, lost := s.tx.lost } ∧ t.tx.pulls = false
      ∧ t.mem.scrub = { s.mem.scrub with walking := false, timer := 0, request := false }
      ∧ t.mem.fill = none ∧ FillAbandoned s.mem t.mem.array
      ∧ t.port = s.port ∧ t.pins = s.pins ∧ t.pending = s.pending)

/-! ### The pool and retirement (chapters 1 and 8) -/

/-- R161, R162: a retire-pending segment that enters the free list while a spare is UNUSED. Its event unit changes
in FREE_LOW alone. -/
def Obligations.RetirementGivesTheLowestUnusedSpare : Prop :=
  ∀ (g : SegNo) (j : SpareNo) (s : State),
    (s.header g).retirePending = true → s.ret.spares.get j = .unused →
    (∀ i : SpareNo, i < j → s.ret.spares.get i ≠ .unused) →
    let retired : Header := { s.header g with home := .spare j, tally := 0, retirePending := false }
    let pool : Pool :=
      { s.pool with free := s.pool.free ++ [g], headers := s.pool.headers.set g retired }
    ((s.header g).home = .main →
      let entry : RemapEntry := { seg := g, spare := j, moves := 1 }
      let ret : Retirement := { spares := s.ret.spares.set j .mapped, remap := s.ret.remap ++ [entry] }
      ∃ ev, enterFree g s = { s with ret := ret, pool := pool, ev := ev }
        ∧ ∀ src : Source, src ≠ .freeLow → ev.cell src = s.ev.cell src)
    ∧ (∀ i, (s.header g).home = .spare i → s.ret.spares.get i = .mapped →
      let ret : Retirement :=
        { spares := (s.ret.spares.set i .dead).set j .mapped,
          remap := s.ret.remap.map (fun e => if e.seg = g then { e with spare := j, moves := e.moves + 1 } else e) }
      j ≠ i ∧ ∃ ev, enterFree g s = { s with ret := ret, pool := pool, ev := ev }
        ∧ ∀ src : Source, src ≠ .freeLow → ev.cell src = s.ev.cell src)

/-- R163: a retire-pending segment that reaches the check with no spare UNUSED is withdrawn: it joins the tail of the
withdrawn set and not the free list, its header stands, and SPARE_EXHAUSTED is raised once. -/
def Obligations.WithdrawalTakesASegmentOutOfService : Prop :=
  ∀ (g : SegNo) (s : State),
    (s.header g).retirePending = true → (∀ j : SpareNo, s.ret.spares.get j ≠ .unused) →
    let pool : Pool := { s.pool with withdrawn := s.pool.withdrawn ++ [g] }
    ∃ ev,
      ((s.header g).home = .main → enterFree g s = { s with pool := pool, ev := ev })
      ∧ (∀ i, (s.header g).home = .spare i →
          enterFree g s = { s with pool := pool, ev := ev, ret := {
            spares := s.ret.spares.set i .dead, remap := s.ret.remap.filter (fun e => e.seg ≠ g) } })
      ∧ ev.cell .spareExhausted = raisedOnce s.ev .spareExhausted
      ∧ (∀ src : Source, src ≠ .spareExhausted → ev.cell src = s.ev.cell src) ∧ ev.mask = s.ev.mask

/-- R8, R164, R36: the writer's take claim: the free list's head; with that list empty the oldest history segment that
passes the check, retired on its way if it is retire-pending and a spare is UNUSED, and withdrawn, the claim going on,
if none is; and with both empty OVERRUN. Rests on the model's choices of log 15. -/
def Obligations.WriterTakeIsServedFromFreeListThenHistory : Prop :=
  ∀ s : State,
    TookHead s (writerTake s)
    ∧ (∀ g rest, s.pool.free = [] → s.pool.history = g :: rest →
        ((s.header g).retirePending = false →
          (writerTake s).writer = fillingFrom g s ∧ (writerTake s).pool.history = rest
          ∧ (writerTake s).pool.free = [] ∧ (writerTake s).header g = takenHeader (s.header g)
          ∧ (∀ a, a ≠ g → (writerTake s).header a = s.header a) ∧ (writerTake s).ret = s.ret)
        ∧ (∀ j : SpareNo, (s.header g).retirePending = true → s.ret.spares.get j = .unused →
            (∀ i : SpareNo, i < j → s.ret.spares.get i ≠ .unused) →
          (writerTake s).writer = fillingFrom g s ∧ (writerTake s).pool.history = rest
          ∧ (writerTake s).header g
              = takenHeader { s.header g with home := .spare j, tally := 0, retirePending := false })
        ∧ ((s.header g).retirePending = true → (∀ j : SpareNo, s.ret.spares.get j ≠ .unused) →
          writerTake s = writerTake (withdraw g (setHistory rest s))))
    ∧ (s.pool.free = [] → s.pool.history = [] →
        (writerTake s).writer = overrunning s ∧ (writerTake s).pool = s.pool ∧ (writerTake s).ret = s.ret)

/-! ### Frames (chapter 2) -/

namespace Sys2Proof.Claims

/-- A sweep is in progress with this instant, and the block is held. -/
def Sweeping (c : ConfigStore) (k : Nat) (f : Capture) (s : State) : Prop :=
  Active s c ∧ s.tb.prescale = some k ∧ s.ctl.state ∈ [StationState.listen, .running] ∧ s.seqr.sweep = some f

/-- R25: ticks from now to the end of the sweep (the core clocks inside a tick are not stepped, log 4). -/
def sweepRemaining (c : ConfigStore) (k : Nat) (f : Capture) (s : State) : Nat :=
  48 * channels c / 2 ^ k - (s.tb.localTick - f.tick).toNat

/-- R25: the level held for channel `ch` once the tick `d` ticks after the frame's instant has begun: one sampled before
stands; a channel whose conversion begins within that tick, 48 × ch core clocks after the instant, takes its input's
level. -/
def sampledBy (c : ConfigStore) (k d : Nat) (inputs samples : List AnalogLevel) (ch : Nat) : Option AnalogLevel :=
  if ch < samples.length then samples[ch]?
  else if ch < channels c ∧ 48 * ch < (d + 1) * 2 ^ k then inputs[ch]?
  else none

/-- R25: the levels that a sweep meets whose inputs show `inputs` from now on: the sampled ones stand. -/
def levelsMet (inputs : List AnalogLevel) (s : State) : List AnalogLevel :=
  s.seqr.samples ++ inputs.drop s.seqr.samples.length

/-- R27: the result of a conversion. -/
def resultOfInput (a : AnalogLevel) : Nat :=
  if a.vin ≤ 0 then 0 else min 4095 (4096 * a.vin.toNat / a.vref)

/-- The physical word address of word `w` of the frame at the writer's position, in segment g (R1, R31). -/
def frameAddress (c : ConfigStore) (g : SegNo) (s : State) (w : Nat) : Nat :=
  s.address g (s.writer.pos * channels c + w)

end Sys2Proof.Claims

/-- R24, R25, R28: a frame instant loads the divider with Ts and begins the sweep with the instant and the timestamp
of its tick; the wait counts the entry tick of LISTEN while it is still to come. The input of each channel is sampled as
its conversion begins, in the instant's tick or in a later tick of the sweep, and its level then stands. Rests on the
model's choices of log 3 and 4. -/
def Obligations.SweepTakesInstantTimestampAndLevels : Prop :=
  ∀ (c : ConfigStore) (s : State), Active s c →
    (∀ k wait, s.ctl.state ∈ [StationState.listen, .running] → s.seqr.sweep = none → s.seqr.divider = some wait →
      let u := s.elapse (wait + if s.ctl.entry = .none then 0 else 1)
      let stamp : Timestamp := { epoch := u.tb.epoch, phase := u.tb.phase, unsynced := u.tb.sync == .seeking }
      let sweep : Capture := { tick := u.tb.localTick, stamp := stamp }
      u.tb.prescale = some k → ∃ samples : List AnalogLevel,
        exec .sweepStart s = .next { u with
          seqr := { divider := some (samplePeriod c), sweep := some sweep, position := 0, samples := samples } }
        ∧ ∀ ch : Nat, samples[ch]? = sampledBy c k 0 s.pins.analog [] ch)
    ∧ ∀ k f, Sweeping c k f s →
        let d := (s.tb.localTick + 1 - f.tick).toNat
        (tick s).seqr.sweep = some f ∧ (tick s).pins = s.pins
        ∧ ∀ ch : Nat, (tick s).seqr.samples[ch]? = sampledBy c k d s.pins.analog s.seqr.samples ch

/-- R31, R27, R25, R138, R1, R32: a frame that reaches the FILLING writer is written word by word at the frame's
position in the current segment, word c carrying channel c and the result of the level sampled for it, be it sampled
before the row or on the way to the sweep's end, each encoded for its own physical address; every other address of the
array reads as before, and the sweep is over. Rests on the model's choices of log 3, 4, 16 and 19. -/
def Obligations.FrameIsWrittenAtItsPosition : Prop :=
  ∀ (c : ConfigStore) (k : Nat) (f : Capture) (g : SegNo) (inputs : List AnalogLevel) (s : State),
    Sweeping c k f s → s.mem.array.wf = true → inputs.length = 8 →
    channels c ∈ [1, 2, 4, 8] → s.writer.state = .filling → s.writer.current = some g →
    s.writer.pos < 512 / channels c →
    ∃ t, exec (.frameComplete inputs) s = .next t
      ∧ (∀ w (h : w < (levelsMet inputs s).length), w < channels c →
          readArray t.mem.array (frameAddress c g s w)
            = encode (frameAddress c g s w) (BitVec.ofNat 16 (w * 4096 + resultOfInput (levelsMet inputs s)[w])))
      ∧ (∀ a, (∀ w, w < channels c → a ≠ frameAddress c g s w) →
          readArray t.mem.array a = readArray s.mem.array a)
      ∧ t.mem.array.wf = true
      ∧ t.recs.lastReport = some f.tick ∧ t.seqr.sweep = none ∧ t.seqr.position = 0 ∧ t.seqr.samples = []
      ∧ t.mem.log = s.mem.log ∧ t.mem.errorCount = s.mem.errorCount ∧ t.mem.buffer = s.mem.buffer

/-- R31, R33, R9, R36, R38: what a frame makes of the writer and the pool while no record is COLLECTING: in OVERRUN it
is discarded and counted; inside a segment it stamps and counts the header and moves the position on; the frame that
fills the segment hands it to history, trims the oldest past H, and takes the free list's head. Rests on the model's
choices of log 3, 4 and 16. -/
def Obligations.FrameMovesTheWriter : Prop :=
  ∀ (c : ConfigStore) (k : Nat) (f : Capture) (inputs : List AnalogLevel) (s : State),
    Sweeping c k f s → NoneCollecting s →
    ∃ t, exec (.frameComplete inputs) s = .next t
      ∧ (s.writer.state = .overrun →
          t.writer = { s.writer with discarded := min 65535 (s.writer.discarded + 1) } ∧ t.pool = s.pool
          ∧ t.mem.array = s.mem.array ∧ t.recs.lastReport = s.recs.lastReport)
      ∧ ∀ g, s.writer.state = .filling → s.writer.current = some g →
          let framed : Header := { s.header g with
            valid := (s.header g).valid + 1,
            firstStamp := if s.writer.pos = 0 then some f.stamp else (s.header g).firstStamp }
          (s.writer.pos + 1 < framesOf c →
            t.writer = { s.writer with pos := s.writer.pos + 1 } ∧ t.header g = framed
            ∧ (∀ a, a ≠ g → t.header a = s.header a)
            ∧ t.pool.free = s.pool.free ∧ t.pool.history = s.pool.history ∧ t.pool.withdrawn = s.pool.withdrawn)
          ∧ (framesOf c ≤ s.writer.pos + 1 → s.pool.history.length < c.target →
            ∀ a rest, s.pool.free = a :: rest → a ≠ g →
              t.pool.history = s.pool.history ++ [g] ∧ t.pool.free = rest ∧ t.writer = fillingFrom a s
              ∧ t.header g = framed ∧ t.header a = takenHeader (s.header a))
          ∧ (framesOf c ≤ s.writer.pos + 1 → s.pool.history.length = c.target →
            ∀ old kept a rest, s.pool.history = old :: kept → old ≠ g → (s.header old).retirePending = false →
              s.pool.free ++ [old] = a :: rest → a ≠ g →
              t.pool.history = kept ++ [g] ∧ t.pool.free = rest ∧ t.writer = fillingFrom a s
              ∧ t.header g = framed ∧ t.header a = takenHeader (s.header a))

/-! ### Records (chapter 3) -/

/-- R54, R57, R12, R35: a frame report of a placed COLLECTING record with no retrigger edge pending: it counts; at
the post end the record's data are complete, the record is AWAITING while a window is pending and otherwise CLOSED
with RECORD_CLOSED raised, its chain stands, and the writer takes a segment of its own. R59: a report settles every
pending retrigger edge at or before its instant at its frame, and the post end moves once for them. -/
def Obligations.FrameReportGrowsAPlacedRecord : Prop :=
  ∀ (c : ConfigStore) (i : SlotNo) (r : Record) (instant : Tick) (s : State),
    s.recs.slots.get i = some r → r.state = .collecting → r.placed = true →
    let t := recordReport c i instant false s
    let full := recordReport c i instant true s
    let settles := ∃ e ∈ r.pendingEdges, atOrAfter instant e = true
    let waiting := r.pendingEdges.filter (fun e => !atOrAfter instant e)
    (settles → r.total + 1 < max r.postEnd (r.total + postFrames c) →
      t = setSlot i (some { r with
        total := r.total + 1, postEnd := max r.postEnd (r.total + postFrames c), pendingEdges := waiting }) s)
    ∧ (settles → max r.postEnd (r.total + postFrames c) ≤ r.total + 1 → full = t
        ∧ DataComplete i { r with
            total := r.total + 1, postEnd := max r.postEnd (r.total + postFrames c), pendingEdges := waiting } s t)
    ∧ (¬ settles → r.total + 1 < r.postEnd → t = setSlot i (some { r with total := r.total + 1 }) s)
    ∧ (¬ settles → r.postEnd ≤ r.total + 1 → full = t ∧ DataComplete i { r with total := r.total + 1 } s t)
    ∧ (r.pendingEdges = [] →
      (r.total + 1 < r.postEnd → t = setSlot i (some { r with total := r.total + 1 }) s)
    ∧ (r.postEnd ≤ r.total + 1 → full = t ∧ TookHead s t
        ∧ (∀ j, j ≠ i → t.recs.slots.get j = s.recs.slots.get j)
        ∧ (r.window = none → t.recs.slots.get i = some { r with total := r.total + 1, state := .closed }
            ∧ t.ev.cell .recordClosed = raisedOnce s.ev .recordClosed)
        ∧ (∀ item, r.window = some item →
            t.recs.slots.get i = some { r with total := r.total + 1, state := .awaiting }
            ∧ t.ev.cell .recordClosed = s.ev.cell .recordClosed)))

/-- R55, R56, R11: the fill of a placed COLLECTING record's last segment by a frame that does not complete it: at
Lmax the data are complete, EXTEND_CAPPED set if the post end had been extended; else the free list's head joins
the chain and is filled from position 0; else the data are complete with TRUNCATED set and the writer, finding
history empty too, enters OVERRUN. R53: a record not yet placed takes another segment whatever its length, and
truncated it keeps every frame it holds, its trigger frame index just past the last. Its post end is the model's choice
of log 28. -/
def Obligations.FillOfARecordsLastSegmentClaimsAnother : Prop :=
  ∀ (c : ConfigStore) (i : SlotNo) (r : Record) (instant : Tick) (s : State),
    s.recs.slots.get i = some r → r.state = .collecting →
    let t := recordReport c i instant true s
    let done : RecState := if r.window.isSome then .awaiting else .closed
    let held := framesIn s r.chain
    (r.placed = false → NoFrameFrom held s.recs.lastReport r.edgeTick →
      (∀ a rest, s.pool.free = a :: rest →
        t.recs.slots.get i = some { r with chain := r.chain ++ [a] } ∧ TookHead s t)
      ∧ (s.pool.free = [] →
        t.recs.slots.get i = some { r with
          state := done, placed := true, firstOffset := 0, total := held, trigIndex := held, pendingEdges := [],
          flags := { r.flags with truncated := true, preShort := decide (held < preFrames c) } }
        ∧ (s.pool.history = [] → t.writer = overrunning s ∧ t.pool = s.pool)))
    ∧ (r.placed = true → r.pendingEdges = [] → r.total + 1 < r.postEnd →
    (maxChain c ≤ r.chain.length →
      t.recs.slots.get i = some { r with total := r.total + 1, state := done, flags := { r.flags with
        extendCapped := decide (r.trigIndex + postFrames c < r.postEnd) } } ∧ TookHead s t)
    ∧ (r.chain.length < maxChain c → ∀ a rest, s.pool.free = a :: rest →
      t.recs.slots.get i = some { r with total := r.total + 1, chain := r.chain ++ [a] } ∧ TookHead s t)
    ∧ (r.chain.length < maxChain c → s.pool.free = [] →
      t.recs.slots.get i
          = some { r with total := r.total + 1, state := done, flags := { r.flags with truncated := true } }
      ∧ (s.pool.history = [] → t.writer = overrunning s ∧ t.pool = s.pool)))

/-- R46, R47, R49, R51, R44, R48: a trigger event in RUNNING with no record OPEN: it opens a record in the lowest FREE
slot over the history chain and the segment being filled, with its fields as R47 sets them; where a held frame lies at
or after the edge the trigger frame is fixed and the record placed in the same event, and its data are complete at once
if the post end is reached (log 14); with no FREE slot, a sequence gap or a writer that holds no segment the event is
missed and counted; in another station state it is dropped. The post end before the placement is the model's choice of
log 28. -/
def Obligations.TriggerEventOpensARecordOrIsMissed : Prop :=
  ∀ (c : ConfigStore) (edge : Capture) (cause : Option Cause) (s : State),
    (s.ctl.state ≠ .running → triggerEvent c edge cause s = s)
    ∧ (s.ctl.state = .running → NoneOpen s →
        (∀ (i : SlotNo) (g : SegNo), s.recs.slots.get i = none → (∀ j, j < i → s.recs.slots.get j ≠ none) →
          (∀ j r, s.recs.slots.get j = some r → (s.recs.seq - r.sequence).toNat < 32768) →
          s.writer.current = some g →
          let r : Record := {
            sequence := s.recs.seq, state := .collecting, trigTime := edge.stamp, origin := none, cause := cause,
            retrigs := [], overflow := 0, chain := s.pool.history ++ [g], firstOffset := 0, trigIndex := 0, total := 0,
            flags := { preShort := false, truncated := false, stopped := false, extendCapped := false,
                       memError := false, unsynced := edge.stamp.unsynced },
            uncorrectable := 0, edgeTick := edge.tick, placed := false, postEnd := 0, pendingEdges := [],
            window := some .trigger }
          let opened : State := { s with
            pool := { s.pool with history := [] },
            recs := { s.recs with seq := s.recs.seq + 1, slots := s.recs.slots.set i (some r) } }
          let held := framesIn s (s.pool.history ++ [g])
          (NoFrameFrom held s.recs.lastReport edge.tick → triggerEvent c edge cause s = opened)
          ∧ ∀ last, s.recs.lastReport = some last → held ≠ 0 → atOrAfter last edge.tick = true →
              let m := framesSince c held last edge.tick
              (m < postFrames c → triggerEvent c edge cause s = placeRecord c i r m opened)
              ∧ (postFrames c ≤ m → ∀ q, (placeRecord c i r m opened).recs.slots.get i = some q →
                  DataComplete i q (placeRecord c i r m opened) (triggerEvent c edge cause s)))
        ∧ ((∀ j, s.recs.slots.get j ≠ none)
            ∨ (∃ j r, s.recs.slots.get j = some r ∧ 32768 ≤ (s.recs.seq - r.sequence).toNat)
            ∨ s.writer.current = none →
          ∃ ev, triggerEvent c edge cause s
              = { s with recs := { s.recs with missed := min 255 (s.recs.missed + 1) }, ev := ev }
            ∧ ev.cell .triggerMissed = raisedOnce s.ev .triggerMissed
            ∧ ∀ src : Source, src ≠ .triggerMissed → ev.cell src = s.ev.cell src))

/-- R52, R51: the placement of a record whose `m` latest held frames lie from the trigger frame on, the true trigger
frame held: A frames lie before it, pre = min(Npre, A) are kept, the chain loses exactly the segments wholly before
the first frame, and these enter the free list. With the true trigger frame not held every held frame is kept, A is 0
and PRE_SHORT is set. A frame report of a COLLECTING record not yet placed does nothing while no held frame lies at or
after the edge; the first that brings one fixes the trigger frame and places the record, settling with the same frame
the retrigger edges it reaches (R59), and at the post end the data are complete. -/
def Obligations.PlacementKeepsThePreTriggerFrames : Prop :=
  ∀ (c : ConfigStore) (i : SlotNo) (r : Record) (m : Nat) (last : Tick) (s : State),
    s.recs.lastReport = some last → 1 ≤ m → m ≤ framesIn s r.chain →
    (∀ g ∈ r.chain, (s.header g).retirePending = false) → r.chain ≠ [] →
    let missing := samplePeriod c ≤ (last - r.edgeTick).toNat - (m - 1) * samplePeriod c
    let before := framesIn s r.chain - m
    let pre := min (preFrames c) before
    let t := placeRecord c i r m s
    (missing → m = framesIn s r.chain → ∃ lead kept first,
      r.chain = lead ++ first :: kept ∧ framesIn s lead = 0
      ∧ t.recs.slots.get i = some { r with
          chain := first :: kept, firstOffset := 0, trigIndex := 0, total := m, postEnd := postFrames c, placed := true,
          flags := { r.flags with preShort := true } }
      ∧ t.pool.free = s.pool.free ++ lead ∧ (∀ g, t.header g = s.header g)
      ∧ (∀ j, j ≠ i → t.recs.slots.get j = s.recs.slots.get j) ∧ t.writer = s.writer)
    ∧ (∀ instant, s.recs.slots.get i = some r → r.placed = false →
      let u := recordReport c i instant false s
      (NoFrameFrom (framesIn s r.chain) (some last) r.edgeTick → u = s)
      ∧ (framesIn s r.chain ≠ 0 → atOrAfter last r.edgeTick = true →
          m = framesSince c (framesIn s r.chain) last r.edgeTick →
          ∀ q, t.recs.slots.get i = some q →
            let settles := ∃ e ∈ r.pendingEdges, atOrAfter instant e = true
            let settled : Record := { q with
              pendingEdges := r.pendingEdges.filter (fun e => !atOrAfter instant e),
              postEnd := if settles then max q.postEnd (q.total - 1 + postFrames c) else q.postEnd }
            (settled.total < settled.postEnd → u = setSlot i (some settled) t)
            ∧ (settled.postEnd ≤ settled.total → DataComplete i settled t u)))
    ∧ (¬ missing → ∃ lead kept first offset,
      r.chain = lead ++ first :: kept
      ∧ framesIn s lead + offset = before - pre
      ∧ (kept ≠ [] → offset < (s.header first).valid)
      ∧ t.recs.slots.get i = some { r with
          chain := first :: kept, firstOffset := offset, trigIndex := pre, total := pre + m,
          postEnd := pre + postFrames c, placed := true,
          flags := { r.flags with preShort := decide (before < preFrames c) } }
      ∧ t.pool.free = s.pool.free ++ lead ∧ (∀ g, t.header g = s.header g)
      ∧ (∀ j, j ≠ i → t.recs.slots.get j = s.recs.slots.get j) ∧ t.writer = s.writer)

/-- R58, R59, R60: a trigger event taken while a record is OPEN is its retrigger: an entry while there are fewer than
4, with its window pending, else an overflow count; nothing else of the record changes in LOG mode or while it is
AWAITING, and in EXTEND mode a COLLECTING record's retrigger whose frame is not yet held waits in the list of
pending edges. That an AWAITING record takes a trigger event as a retrigger is the model's choice of log 25. -/
def Obligations.TriggerEventOfAnOpenRecordIsARetrigger : Prop :=
  ∀ (c : ConfigStore) (edge : Capture) (cause : Option Cause) (i : SlotNo) (r : Record) (s : State),
    s.ctl.state = .running → OnlyOpen i r s →
    let entry : Retrigger := { stamp := edge.stamp, origin := none, cause := cause }
    let logged : Record := { r with retrigs := r.retrigs ++ [entry], window := some (.retrigger r.retrigs.length) }
    let counted : Record := { r with overflow := min 255 (r.overflow + 1), window := none }
    let taken : Record := if r.retrigs.length < 4 then logged else counted
    (extendMode c = false ∨ r.state = .awaiting → triggerEvent c edge cause s = setSlot i (some taken) s)
    ∧ (extendMode c = true → r.state = .collecting →
        (∀ last, s.recs.lastReport = some last → atOrAfter last edge.tick = false) →
        triggerEvent c edge cause s = setSlot i (some { taken with pendingEdges := r.pendingEdges ++ [edge.tick] }) s)
    ∧ (∀ last, extendMode c = true → r.state = .collecting → r.placed = true → s.recs.lastReport = some last →
        atOrAfter last edge.tick = true → framesIn s r.chain ≠ 0 →
        let m := min (framesIn s r.chain) ((last - edge.tick).toNat / samplePeriod c + 1)
        let frame := framesIn s r.chain - m - r.firstOffset
        triggerEvent c edge cause s
          = setSlot i (some { taken with postEnd := max r.postEnd (frame + postFrames c) }) s)

/-! ### Detectors, TRIGIN and offers (chapter 4, R104) -/

namespace Sys2Proof.Claims

/-- R77: the fire condition: mode ABOVE 0, BELOW 1, OUTSIDE 2, STEP 3. -/
def Fires (mode a b : Nat) (prev : Option (BitVec 12)) (v : BitVec 12) : Prop :=
  (mode = 0 ∧ v.toNat > a) ∨ (mode = 1 ∧ v.toNat < a) ∨ (mode = 2 ∧ (v.toNat > a ∨ v.toNat < b))
  ∨ (mode = 3 ∧ ∃ p, prev = some p ∧ ((v.toNat : Int) - p.toNat).natAbs > a)

/-- R77: the re-arm condition, judged on one frame. -/
def Rearms (mode a b h : Nat) (prev : Option (BitVec 12)) (v : BitVec 12) : Prop :=
  (mode = 0 ∧ (v.toNat : Int) ≤ (a : Int) - h) ∨ (mode = 1 ∧ v.toNat ≥ a + h)
  ∨ (mode = 2 ∧ b + h ≤ v.toNat ∧ (v.toNat : Int) ≤ (a : Int) - h)
  ∨ (mode = 3 ∧ ∃ p, prev = some p ∧ ((v.toNat : Int) - p.toNat).natAbs + (h : Int) ≤ a)

end Sys2Proof.Claims

/-- R75, R77, R78, R79, R80: one frame's judgment by an enabled detector of mode at most 3 and q at least 1. -/
def Obligations.DetectorsJudgeFramesByTheirMode : Prop :=
  ∀ (c : ConfigStore) (i : Fin 8) (v : BitVec 12) (d : Detector), detField c i 2 ≤ 3 → 1 ≤ detField c i 6 →
    let q := detField c i 6
    let fire := Fires (detField c i 2) (detField c i 3) (detField c i 4) d.prev v
    let rearm := Rearms (detField c i 2) (detField c i 3) (detField c i 4) (detField c i 5) d.prev v
    let e := d.judged c i v
    e.prev = some v
    ∧ (d.state = .disabled → e.state = .disabled ∧ e.count = d.count)
    ∧ (d.state = .armed → ¬fire → e.state = .armed ∧ e.count = 0)
    ∧ (d.state = .armed → fire → q = 1 → e.state = .fired ∧ e.count = 0)
    ∧ (d.state = .armed → fire → q ≠ 1 → e.state = .qualifying ∧ e.count = 1)
    ∧ (d.state = .qualifying → ¬fire → e.state = .armed ∧ e.count = 0)
    ∧ (d.state = .qualifying → fire → d.count + 1 < q → e.state = .qualifying ∧ e.count = d.count + 1)
    ∧ (d.state = .qualifying → fire → q ≤ d.count + 1 → e.state = .fired ∧ e.count = 0)
    ∧ (d.state = .fired → ¬rearm → e.state = .fired ∧ e.count = 0)
    ∧ (d.state = .fired → rearm → detField c i 2 ≠ 3 → e.state = .armed ∧ e.count = 0)
    ∧ (d.state = .fired → rearm → detField c i 2 = 3 → d.count + 1 < q → e.state = .fired ∧ e.count = d.count + 1)
    ∧ (d.state = .fired → rearm → detField c i 2 = 3 → q ≤ d.count + 1 → e.state = .armed ∧ e.count = 0)

/-- R75, R81, R79: a completed frame reaches every enabled detector, whatever the writer does with it, and no disabled
one; when no detector becomes FIRED nothing is offered, and when some do while the line is idle, no request held and
no holdoff running, they form one request of all of them with the frame's timestamp. Rests on the model's choices of
log 3, 4, 16 and 19. -/
def Obligations.FrameReachesEveryDetector : Prop :=
  ∀ (c : ConfigStore) (k : Nat) (f : Capture) (inputs : List AnalogLevel) (s : State), Sweeping c k f s →
    let u := ({ s with pins := { s.pins with analog := inputs } } : State).elapse (sweepRemaining c k f s)
    let value := fun d : Fin 8 =>
      (BitVec.ofNat 12 (resultOfInput ((levelsMet inputs s).getD (detField c d 1) { vin := 0, vref := 1 })))
    let newly := fun (t : State) (d : Fin 8) => (s.dets.get d).state ≠ .fired ∧ (t.dets.get d).state = .fired
    ∃ t, exec (.frameComplete inputs) s = .next t
      ∧ (∀ d, detEnabled c d = true → detField c d 1 < channels c →
          t.dets.get d = (s.dets.get d).judged c d (value d))
      ∧ (∀ d, detEnabled c d = false → t.dets.get d = s.dets.get d)
      ∧ ((∀ d, ¬ newly t d) → t.tx = u.tx)
      ∧ ((∃ d, newly t d) → s.ctl.state = .running → s.rx.state = .idle → s.tx.request = none → u.tx.holdoff = 0 →
          ∃ q, t.tx = { u.tx with request := some q } ∧ q.first = f.stamp ∧ q.retried = false
            ∧ ∀ n : Nat, q.causes.getLsbD n = true ↔ ∃ d : Fin 8, d.val = n ∧ newly t d)
      ∧ t.seqr = { u.seqr with sweep := none, position := 0, samples := [] }
      ∧ t.pins = { s.pins with analog := inputs }
      ∧ t.rx = s.rx ∧ t.filter = u.filter ∧ t.trig = u.trig ∧ t.tb = u.tb ∧ t.ctl = u.ctl ∧ t.port = s.port
      ∧ t.mem.scrub = u.mem.scrub ∧ t.mem.prefetch = s.mem.prefetch ∧ t.pending = s.pending

/-- R104, R88, R105, R112: what becomes of an offer in RUNNING, by where the line and the holdoff stand; outside
RUNNING no offer is taken. A joining cause becomes that of the pending item, the record's or a retrigger entry's, and
is dropped where none is pending. That a second offer of one opening guard is suppressed is the model's choice of log
29. -/
def Obligations.OffersAreFormedMergedJoinedOrSuppressed : Prop :=
  ∀ (c : ConfigStore) (causes : CauseSet) (time : Timestamp) (s : State),
    let formed : Cause := { causes := causes, first := time, retried := false }
    let held : State := { s with tx := { s.tx with request := some formed } }
    let suppressed : State := { s with tx := { s.tx with suppressed := min 255 (s.tx.suppressed + 1) } }
    (s.ctl.state ≠ .running → offer c causes time s = s)
    ∧ (s.ctl.state = .running →
        (∀ q, s.tx.request = some q →
          offer c causes time s
            = { s with tx := { s.tx with request := some { q with causes := q.causes ||| causes } } })
        ∧ (s.tx.request = none → 0 < s.tx.holdoff → offer c causes time s = suppressed)
        ∧ (s.tx.request = none → s.tx.holdoff = 0 →
            (s.rx.state ∈ [RxState.idle, .low, .numberWindow] → offer c causes time s = held)
            ∧ (s.rx.state ∈ [RxState.stuck, .recover] → offer c causes time s = suppressed)
            ∧ (s.rx.state = .tagWindow → bitTime c ≤ s.sinceOrigin ∨ s.tx.slotDuty = true →
                offer c causes time s = suppressed)
            ∧ (s.rx.state = .tagWindow → s.sinceOrigin < bitTime c → s.tx.slotDuty = false →
                (∀ i r, OnlyOpen i r s → r.window = some .trigger →
                  offer c causes time s
                    = setSlot i (some { r with cause := some formed }) { s with tx := { s.tx with slotDuty := true } })
                ∧ (∀ i r k, OnlyOpen i r s → r.window = some (.retrigger k) →
                  offer c causes time s
                    = setSlot i
                        (some { r with retrigs := r.retrigs.modify k (fun e => { e with cause := some formed }) })
                        { s with tx := { s.tx with slotDuty := true } })
                ∧ (NoneOpen s ∨ (∃ i r, OnlyOpen i r s ∧ r.window = none) →
                  offer c causes time s = { s with tx := { s.tx with slotDuty := true } }))))

/-- R83, R84: a TRIGIN sample: the candidate, the run count and the run start; the third equal sample accepts the
level, and a matching edge against a level accepted before offers TRIGIN with the run start's timestamp. Rests on the
model's choices of log 3. -/
def Obligations.TriginAcceptsThreeEqualSamples : Prop :=
  ∀ (c : ConfigStore) (high : Bool) (s : State), Active s c → s.trig.watching = true →
    let u := s.elapse s.trig.timer
    let stamp : Timestamp := { epoch := u.tb.epoch, phase := u.tb.phase, unsynced := u.tb.sync == .seeking }
    let begun : TrigRun := { high := high, start := { tick := u.tb.localTick, stamp := stamp }, count := 1 }
    let pins : Pins := { u.pins with trigIn := high }
    let unit : TrigIn := { u.trig with timer := trigInterval c }
    (s.trig.run = none ∨ (∃ r, s.trig.run = some r ∧ r.high ≠ high) →
      exec (.trigInSample high) s = .next { u with pins := pins, trig := { unit with run := some begun } })
    ∧ ∀ r, s.trig.run = some r → r.high = high →
        (r.count < 2 →
          exec (.trigInSample high) s
            = .next { u with pins := pins, trig := { unit with run := some { r with count := r.count + 1 } } })
        ∧ (2 ≤ r.count →
            let accepted : State :=
              { u with pins := pins, trig := { unit with run := none, accepted := some high } }
            (s.trig.accepted = some (!high) → edgeMatches c high = true →
              exec (.trigInSample high) s = .next (offer c 0x100 r.start.stamp accepted))
            ∧ (s.trig.accepted ≠ some (!high) ∨ edgeMatches c high = false →
              exec (.trigInSample high) s = .next accepted))

/-! ### The line agent (chapter 5) and the timebase (chapter 6) -/

namespace Sys2Proof.Claims

/-- The filter's last two samples agree on a level, and the present tick's sample is one of them (R92): the tick on
which that level is accepted. The run they form is `r`. -/
def Agreed (high : Bool) (r : LineRun) (s : State) : Prop :=
  s.filter.last = some r ∧ r.high = high ∧ r.agree = true ∧ s.filter.sampled = true

/-- A trailing edge is accepted on this tick: the receiver in LOW, the line released by all, two high samples. -/
def TrailingEdgeNow (c : ConfigStore) (r : LineRun) (s : State) : Prop :=
  Active s c ∧ ReceiverRuns s ∧ s.rx.state = .low ∧ s.tx.pulls = false ∧ s.pins.peersLow = false ∧ Agreed true r s

/-- R95: the pulse's width, from the edge times. -/
def pulseWidth (r : LineRun) (s : State) : Nat := (r.start.tick - s.rx.pulseStart).toNat

/-- R92: the filter with the high of run r accepted. -/
def highAccepted (r : LineRun) (s : State) : LineFilter :=
  { s.filter with accepted := some true, highRun := (s.tb.localTick - r.start.tick).toNat }

/-- The line agent after a pulse that opens no window: the receiver IDLE with no capture, no pulse awaited. -/
def pulseEnded (r : LineRun) (s : State) : State :=
  { s with
    filter := highAccepted r s,
    rx := { s.rx with state := .idle, capture := none, width := pulseWidth r s },
    tx := { s.tx with drive := none } }

end Sys2Proof.Claims

/-- R94, R97, R92: the rows that take an accepted edge. A low in IDLE enters LOW with the captures of the first low
sample; a low in RECOVER restarts the high run; a high in STUCK enters RECOVER and ends LINE_STUCK. Rests on the
model's choices of log 5 and 40. -/
def Obligations.AcceptedEdgesMoveTheReceiver : Prop :=
  ∀ (c : ConfigStore) (r : LineRun) (s : State), Active s c → ReceiverRuns s →
    (s.lineLow = true → Agreed false r s →
      (s.rx.state = .idle → exec .leadingEdge s = .next { s with
        filter := { s.filter with accepted := some false, highRun := 0 },
        rx := { s.rx with
          state := .low, pulseStart := r.start.tick, width := 0,
          capture := some { edge := r.start, epochHeld := r.epochHeld } } })
      ∧ (s.rx.state = .recover → exec .recoverCountRestart s = .next { s with
        filter := { s.filter with accepted := some false, highRun := 0 } }))
    ∧ (s.pins.peersLow = false → s.tx.pulls = false → Agreed true r s → s.rx.state = .stuck → ∃ ev,
        exec .stuckRelease s
          = .next { s with filter := highAccepted r s, rx := { s.rx with state := .recover }, ev := ev }
        ∧ (ev.cell .lineStuck).state = .quiet ∧ ∀ src : Source, src ≠ .lineStuck → ev.cell src = s.ev.cell src)

/-- R95, R100, R105, R107, R109, R114: a pulse that classifies glitch hands on nothing; a malformed one, and one
without a true leading edge whatever its width, raises the line-error count; an own TRIGGER drive is then absorbed
(retried once, lost the second time, dropped uncounted in HALTED) and an own EPOCH drive stays held but in HALTED. A
low that lasts beyond 48T is no pulse: the receiver is STUCK and the line-error count stands (R96). Rests on the
model's choices of log 5, 17, 32 and 40. -/
def Obligations.GlitchAndMalformedPulsesEndInIdle : Prop :=
  ∀ (c : ConfigStore) (r : LineRun) (w : Nat) (s : State), TrailingEdgeNow c r s →
    w ≤ (s.tb.localTick - s.rx.pulseStart).toNat →
    let T := bitTime c
    let W := pulseWidth r s
    let ended := pulseEnded r s
    let counted : State := { ended with rx := { ended.rx with lineErrors := min 255 (s.rx.lineErrors + 1) } }
    (∀ e, s.rx.capture = some e → 2 * W < 3 * T → exec (.trailingEdge w) s = .next ended)
    ∧ (48 * T < W → ∃ t, exec (.trailingEdge w) s = .next t ∧ t.rx.state = .stuck
        ∧ t.rx.lineErrors = s.rx.lineErrors)
    ∧ (W ≤ 48 * T → s.rx.capture = none ∨ (5 * T < 2 * W ∧ 2 * W < 10 * T) ∨ 14 * T < 2 * W →
        (s.tx.drive = none → exec (.trailingEdge w) s = .next counted)
        ∧ (∀ d, s.tx.drive = some d → d.isEpoch = true →
            exec (.trailingEdge w) s = .next { counted with
              tx := { counted.tx with epochHeld := s.tx.epochHeld && s.ctl.state == .running } })
        ∧ (∀ d q, s.tx.drive = some d → d.isEpoch = false → s.tx.request = some q →
            (s.ctl.state ≠ .running →
              exec (.trailingEdge w) s = .next { counted with tx := { counted.tx with request := none } })
            ∧ (s.ctl.state = .running → q.retried = false →
              exec (.trailingEdge w) s
                = .next { counted with tx := { counted.tx with request := some { q with retried := true } } })
            ∧ (s.ctl.state = .running → q.retried = true →
              exec (.trailingEdge w) s = .next (raise .originLost { counted with
                tx := { counted.tx with request := none, lost := min 255 (s.tx.lost + 1) } }))))

/-- R95, R98, R105, R107, R111, R46: a pulse that classifies TRIGGER opens the tag window at this tick; a held request
is served: given up, its cause handed on with the trigger event, the slot duty taken up. Rests on the model's choices
of log 5, 36 and 40. -/
def Obligations.TriggerPulseOpensTheTagWindow : Prop :=
  ∀ (c : ConfigStore) (r : LineRun) (w : Nat) (e : EdgeCapture) (s : State), TrailingEdgeNow c r s →
    w ≤ (s.tb.localTick - s.rx.pulseStart).toNat →
    s.rx.capture = some e → 3 * bitTime c ≤ 2 * pulseWidth r s → 2 * pulseWidth r s ≤ 5 * bitTime c →
    exec (.trailingEdge w) s = .next (triggerEvent c e.edge s.tx.request { s with
      filter := highAccepted r s,
      rx := { s.rx with
        state := .tagWindow, width := pulseWidth r s, origin := s.tb.localTick, slotPos := 0, slotsDone := false,
        idSet := 0 },
      tx := { s.tx with drive := none, request := none, slotDuty := s.tx.request.isSome || s.tx.slotDuty } })

/-- R95, R101, R109, R110, R125, R126, R127: a pulse that classifies EPOCH opens the number window; a held epoch
request is satisfied, its number-bit duty sending the epoch number plus one; an own TRIGGER drive is absorbed. In
RUNNING the phase becomes the ticks since the leading edge, the number plus one becomes provisional and the request
mark is cleared; SYNC_STEP is raised exactly when the station is LOCKED, held no request at the edge, and the captured
phase lies more than W from P. In another station state the timebase stands. Rests on the model's choices of log 5,
36 and 40. -/
def Obligations.EpochPulseAlignsTheTimebase : Prop :=
  ∀ (c : ConfigStore) (r : LineRun) (w : Nat) (e : EdgeCapture) (s : State), TrailingEdgeNow c r s →
    w ≤ (s.tb.localTick - s.rx.pulseStart).toNat →
    s.rx.capture = some e → 1 ≤ bitTime c → 10 * bitTime c ≤ 2 * pulseWidth r s →
    2 * pulseWidth r s ≤ 14 * bitTime c →
    ∃ t, exec (.trailingEdge w) s = .next t
      ∧ t.rx = { s.rx with
          state := .numberWindow, width := pulseWidth r s, origin := s.tb.localTick, slotPos := 0,
          slotsDone := false, bits := 0 }
      ∧ t.filter = highAccepted r s
      ∧ t.tx.drive = none ∧ t.tx.epochHeld = false ∧ t.tx.slotDuty = s.tx.slotDuty ∧ t.tx.holdoff = s.tx.holdoff
      ∧ t.tx.bitDuty = (if s.tx.epochHeld then some { number := s.tb.epoch + 1, next := 0, driving := false }
          else s.tx.bitDuty)
      ∧ (s.tx.drive.any (fun d => !d.isEpoch) = false → t.tx.request = s.tx.request ∧ t.tx.lost = s.tx.lost)
      ∧ (∀ q, s.tx.drive.any (fun d => !d.isEpoch) = true → s.tx.request = some q →
          (s.ctl.state ≠ .running → t.tx.request = none ∧ t.tx.lost = s.tx.lost)
          ∧ (s.ctl.state = .running → q.retried = false →
              t.tx.request = some { q with retried := true } ∧ t.tx.lost = s.tx.lost)
          ∧ (s.ctl.state = .running → q.retried = true →
              t.tx.request = none ∧ t.tx.lost = min 255 (s.tx.lost + 1)
              ∧ t.ev.cell .originLost = raisedOnce s.ev .originLost))
      ∧ (s.ctl.state ≠ .running → t.tb = s.tb ∧ t.ev = s.ev)
      ∧ (s.ctl.state = .running →
          t.tb = { s.tb with
            phase := BitVec.ofNat 16 (s.tb.localTick - e.edge.tick).toNat, epoch := s.tb.epoch + 1,
            provisional := true, requestMade := false }
          ∧ (s.tb.sync = .locked ∧ e.epochHeld = false
                ∧ (e.edge.stamp.phase.toNat + lockWindow c < period c
                  ∨ period c + lockWindow c < e.edge.stamp.phase.toNat) →
              t.ev.cell .syncStep = raisedOnce s.ev .syncStep)
          ∧ (s.tb.sync = .seeking ∨ e.epochHeld = true
                ∨ (period c ≤ e.edge.stamp.phase.toNat + lockWindow c
                  ∧ e.edge.stamp.phase.toNat ≤ period c + lockWindow c) →
              t.ev.cell .syncStep = s.ev.cell .syncStep))
      ∧ t.recs = s.recs ∧ t.pool = s.pool ∧ t.writer = s.writer ∧ t.mem = s.mem ∧ t.dets = s.dets
      ∧ t.ctl = s.ctl ∧ t.trig = s.trig ∧ t.seqr = s.seqr ∧ t.ret = s.ret ∧ t.port = s.port ∧ t.pins = s.pins
      ∧ t.tx.suppressed = s.tx.suppressed ∧ t.pending = s.pending ∧ OnlyEvents [.originLost, .syncStep] s t

/-- R98, R101: at the sampling tick of the next slot of a window the accepted level is taken: low adds the slot's
station ID to the set, or the slot's bit, most significant first, to the number; high adds nothing. The slot position
moves on and stays at the window's last slot, which is sampled once. A line held for two ticks or more up to the
sampling tick is accepted at the level it is held at. Rests on the model's choices of log 3, 5 and 36. -/
def Obligations.SlotsAreSampledAtTheirTick : Prop :=
  ∀ (c : ConfigStore) (k : Nat) (peersLow : Bool) (s : State), Active s c → s.tb.prescale = some k → ReceiverRuns s →
    let wait := bitTime c + s.rx.slotPos * bitTime c + bitTime c / 2 - (s.tb.localTick - s.rx.origin).toNat
    let u := (holdLine peersLow s).elapse wait
    (s.rx.state = .tagWindow → s.rx.slotPos < 32 → s.rx.slotsDone = false →
      exec (.tagSlotSample peersLow) s = .next { u with rx := { s.rx with
        slotPos := min 31 (s.rx.slotPos + 1), slotsDone := s.rx.slotPos == 31,
        idSet := if u.acceptedLow then s.rx.idSet ||| BitVec.twoPow 32 s.rx.slotPos else s.rx.idSet } })
    ∧ (s.rx.state = .numberWindow → s.rx.slotPos < 16 → s.rx.slotsDone = false →
      exec (.numberSlotSample peersLow) s = .next { u with rx := { s.rx with
        slotPos := min 15 (s.rx.slotPos + 1), slotsDone := s.rx.slotPos == 15,
        bits := if u.acceptedLow then s.rx.bits ||| BitVec.twoPow 16 (15 - s.rx.slotPos) else s.rx.bits } })
    ∧ (s.rx.slotsDone = true → exec (.tagSlotSample peersLow) s = .next s
        ∧ exec (.numberSlotSample peersLow) s = .next s)
    ∧ (s.rx.state ∈ [RxState.tagWindow, .numberWindow] → 2 ≤ wait →
        (peersLow = true → u.acceptedLow = true)
        ∧ (peersLow = false → s.tx.pulls = false → u.acceptedLow = false))

/-- R99, R100, R112, R62, R63, R64: the end of a tag window, 34T after its origin. With the accepted level high the
result is the window's set and the receiver is IDLE; with it low the result is "cut short" and the receiver is in LOW,
measuring from this tick, with no capture. The holdoff starts in RUNNING and is 0 elsewhere, and the slot duty is
over. The OPEN record's pending item takes the result; an AWAITING record closes; with no OPEN record, or none of its
items pending, the result is dropped. Rests on the model's choices of log 3, 5 and 40. -/
def Obligations.TagWindowEndHandsOnTheOriginSet : Prop :=
  ∀ (c : ConfigStore) (peersLow : Bool) (s : State), Active s c → s.rx.state = .tagWindow →
    let u := (holdLine peersLow s).elapse (34 * bitTime c - (s.tb.localTick - s.rx.origin).toNat)
    let low := u.acceptedLow
    ∃ t, exec (.tagWindowEnd peersLow) s = .next t
      ∧ (low = false → t.rx = { s.rx with state := .idle, capture := none })
      ∧ (low = true →
          t.rx = { s.rx with state := .low, capture := none, width := 0, pulseStart := u.tb.localTick })
      ∧ t.tx = { u.tx with
          slotDuty := false, slotDriving := false,
          holdoff := if s.ctl.state = .running then 16 * field c 11 else 0 }
      ∧ t.pool = s.pool ∧ t.writer = s.writer ∧ t.mem = u.mem ∧ t.tb = u.tb ∧ t.dets = s.dets
      ∧ t.ctl = u.ctl ∧ t.filter = u.filter ∧ t.trig = u.trig ∧ t.seqr = u.seqr ∧ t.ret = s.ret
      ∧ t.port = s.port ∧ t.pins = { s.pins with peersLow := peersLow } ∧ t.pending = s.pending
      ∧ OnlyEvents [.recordClosed] s t
      ∧ (∀ i r item, OnlyOpen i r s → r.window = some item →
          let origin := if low then none else some s.rx.idSet
          let result : Record :=
            match item with
            | .trigger => { r with origin := if low then r.origin else origin, window := none }
            | .retrigger k =>
              { r with
                window := none,
                retrigs := if low then r.retrigs else r.retrigs.modify k (fun e => { e with origin := origin }) }
          (∀ j, j ≠ i → t.recs.slots.get j = s.recs.slots.get j)
          ∧ (r.state = .collecting → t.recs.slots.get i = some result ∧ t.ev = s.ev)
          ∧ (r.state = .awaiting → t.recs.slots.get i = some { result with state := .closed }
              ∧ t.ev.cell .recordClosed = raisedOnce s.ev .recordClosed))
      ∧ (NoneOpen s ∨ (∃ i r, OnlyOpen i r s ∧ r.window = none) → t.recs = s.recs ∧ t.ev = s.ev)

/-- R102, R129, R130, R100: the end of a number window, 18T after its origin. A complete result taken in RUNNING with
the provisional mark set is adopted: a SEEKING timebase becomes LOCKED with it, a LOCKED one keeps an expected number
and otherwise takes the observed one and raises EPOCH_MISMATCH; the phase is not touched. A result cut short clears
the mark and keeps number and sync state. In every other case the result is dropped. Rests on the model's choices of
log 3, 5 and 40. -/
def Obligations.NumberWindowEndSettlesTheEpochNumber : Prop :=
  ∀ (c : ConfigStore) (peersLow : Bool) (s : State), Active s c → s.rx.state = .numberWindow →
    let u := (holdLine peersLow s).elapse (18 * bitTime c - (s.tb.localTick - s.rx.origin).toNat)
    let low := u.acceptedLow
    ∃ t, exec (.numberWindowEnd peersLow) s = .next t
      ∧ (low = false → t.rx = { s.rx with state := .idle, capture := none })
      ∧ (low = true →
          t.rx = { s.rx with state := .low, capture := none, width := 0, pulseStart := u.tb.localTick })
      ∧ t.tx = { u.tx with bitDuty := none }
      ∧ t.pool = s.pool ∧ t.writer = s.writer ∧ t.recs = s.recs ∧ t.mem = u.mem ∧ t.dets = s.dets
      ∧ t.ctl = u.ctl ∧ t.filter = u.filter ∧ t.trig = u.trig ∧ t.seqr = u.seqr ∧ t.ret = s.ret
      ∧ t.port = s.port ∧ t.pins = { s.pins with peersLow := peersLow } ∧ t.pending = s.pending
      ∧ OnlyEvents [.syncSeeking, .epochMismatch] s t
      ∧ (s.ctl.state ≠ .running ∨ s.tb.provisional = false → t.tb = u.tb ∧ t.ev = s.ev)
      ∧ (s.ctl.state = .running → s.tb.provisional = true →
          (low = true → t.tb = { u.tb with provisional := false } ∧ t.ev = s.ev)
          ∧ (low = false → s.tb.sync = .seeking →
              t.tb = { u.tb with provisional := false, epoch := s.rx.bits, sync := .locked }
              ∧ (t.ev.cell .syncSeeking).state = .quiet)
          ∧ (low = false → s.tb.sync = .locked →
              t.tb = { u.tb with provisional := false, epoch := s.rx.bits }
              ∧ (s.rx.bits = u.tb.epoch → t.ev = s.ev)
              ∧ (s.rx.bits ≠ u.tb.epoch → t.ev.cell .epochMismatch = raisedOnce s.ev .epochMismatch
                  ∧ ∀ src : Source, src ≠ .epochMismatch → t.ev.cell src = s.ev.cell src)))

/-- R96, R113, R114, R132, R67: a low still accepted after the sample of the tick 48T + 1: the receiver is STUCK and
LINE_STUCK's condition starts, a held trigger request is dropped and counted lost, the holdoff is 0 and the epoch
request kept, the timebase is SEEKING and not provisional, and an OPEN record closes where it stands, the writer
taking a segment of its own if the record was COLLECTING. The line-error count does not rise. The capture's end is
the model's choice of log 30. Rests on the model's choices of log 5 and 20. -/
def Obligations.StuckLineIsDeclared : Prop :=
  ∀ (c : ConfigStore) (s : State), Active s c → ReceiverRuns s → s.rx.state = .low →
    48 * bitTime c + 1 ≤ (s.tb.localTick - s.rx.pulseStart).toNat → s.filter.sampled = true →
    s.filter.accepted = some false → (∀ r, s.filter.last = some r → r.high = false) →
    ∃ t, exec .lineStuckDeclare s = .next t
      ∧ t.rx = { s.rx with state := .stuck, capture := none } ∧ t.filter = s.filter
      ∧ ((s.ev.cell .lineStuck).state = .quiet → (t.ev.cell .lineStuck).state = .pending)
      ∧ t.tb = { s.tb with sync := .seeking, provisional := false }
      ∧ t.tx.drive = none ∧ t.tx.holdoff = 0
      ∧ (s.ctl.state = .running → t.tx.request = none ∧ t.tx.epochHeld = s.tx.epochHeld
          ∧ (s.tx.request = none → t.tx.lost = s.tx.lost ∧ t.ev.cell .originLost = s.ev.cell .originLost)
          ∧ (∀ q, s.tx.request = some q → t.tx.lost = min 255 (s.tx.lost + 1)
              ∧ t.ev.cell .originLost = raisedOnce s.ev .originLost))
      ∧ (s.ctl.state ≠ .running → t.tx.lost = s.tx.lost ∧ t.ev.cell .originLost = s.ev.cell .originLost
          ∧ t.tx.request = (if s.tx.drive.any (fun d => !d.isEpoch) then none else s.tx.request)
          ∧ t.tx.epochHeld = (if s.tx.drive.any (·.isEpoch) then false else s.tx.epochHeld))
      ∧ (∀ i r, OnlyOpen i r s →
          ClosedWhereItStands c false i r s t ∧ t.ev.cell .recordClosed = raisedOnce s.ev .recordClosed
          ∧ (r.state = .collecting → TookHead s t) ∧ (r.state = .awaiting → t.writer = s.writer ∧ t.pool = s.pool))
      ∧ (NoneOpen s → t.recs = s.recs ∧ t.writer = s.writer ∧ t.pool = s.pool)
      ∧ t.mem = s.mem ∧ t.dets = s.dets ∧ t.ctl = s.ctl ∧ t.trig = s.trig ∧ t.seqr = s.seqr ∧ t.port = s.port
      ∧ t.pins = s.pins ∧ t.pending = s.pending ∧ t.tx.suppressed = s.tx.suppressed
      ∧ (NoneOpen s ∨ s.pool.free ≠ [] →
          OnlyEvents [.lineStuck, .originLost, .syncSeeking, .recordClosed, .overrun, .freeLow] s t)

/-- R112, R121, R123, R148: the rows of the timers. HOLDOFF_EXPIRE comes when the timer has counted to 0; LOCAL_EPOCH
on the tick that would bring the phase to P, at the next tick if it stands at P or past it; the epoch request when the
phase reaches P in RUNNING, once for an epoch, and the transmitter holds it; the scrubber presents its request when
its timer is 0, the entry tick of LISTEN after the fill counted apart. Until then only ticks pass. Rests on the
model's choices of log 3 and 4. -/
def Obligations.TimerRowsComeAtTheirTick : Prop :=
  ∀ (c : ConfigStore) (k : Nat) (s : State), Active s c → s.tb.prescale = some k →
    (0 < s.tx.holdoff → exec .holdoffExpire s = .next (s.elapse s.tx.holdoff)
      ∧ (s.elapse s.tx.holdoff).tx.holdoff = 0)
    ∧ (s.tb.mode = .localScale → 1 ≤ period c → ∃ t, exec .localEpoch s = .next t ∧ t.tb.phase = 0
        ∧ t.tb.epoch = s.tb.epoch + 1 ∧ t.tb.sync = s.tb.sync ∧ t.tb.provisional = s.tb.provisional)
    ∧ (s.ctl.state = .running → s.tb.mode = .line → s.tb.requestMade = false → period c < 65536 →
        let u := s.elapse (period c - s.tb.phase.toNat)
        exec .epochRequest s
          = .next { u with tb := { u.tb with requestMade := true }, tx := { u.tx with epochHeld := true } }
        ∧ (s.tb.phase.toNat ≤ period c → u.tb.phase.toNat = period c))
    ∧ (s.mem.scrub.walking = true → s.mem.scrub.request = false →
        let u := s.elapse (s.mem.scrub.timer + if s.ctl.entry = .fromInit then 1 else 0)
        exec .scrubRequest s
          = .next { u with mem := { u.mem with scrub := { u.mem.scrub with request := true } } }
        ∧ u.mem.scrub.timer = 0)

namespace Sys2Proof.Claims

/-- R92, R107: the filter once a drive has begun on the present tick. With this tick's sample still to come it is as it
was; a high sample already taken is a low one, the first of its run (log 39). -/
def lowOnThisTick (s : State) : LineFilter :=
  { s.filter with last := s.filter.last.map (fun r =>
      if s.filter.sampled = true ∧ r.high = true then
        { high := false, start := s.capture, epochHeld := s.tx.epochHeld, agree := false }
      else r) }

end Sys2Proof.Claims

/-- R106, R107, R108, R109, R110, R111, R91: a held request is driven at the first tick with the receiver IDLE and a
high run of 2T, an epoch request first and a trigger request only with the holdoff at 0; a TRIGGER drive is released
2T and an EPOCH drive 6T after it began, its first low sample being that tick's; the station's own slot, and each 1
bit's slot, is pulled low from the slot's start and released on the tick that ends the slot. Rests on the model's choices
of log 3 and 39. -/
def Obligations.TransmitterDrivesPulsesAndSlots : Prop :=
  ∀ (c : ConfigStore) (s : State), Active s c →
    (s.ctl.state = .running → s.rx.state = .idle → s.tx.drive = none → s.filter.accepted = some true →
      2 * bitTime c ≤ s.filter.highRun →
      (s.tx.epochHeld = true → exec .driveStart s = .next { s with
          tx := { s.tx with drive := some { isEpoch := true, begun := s.tb.localTick, pulling := true } },
          filter := lowOnThisTick s })
      ∧ (s.tx.epochHeld = false → s.tx.request.isSome = true → s.tx.holdoff = 0 →
        exec .driveStart s = .next { s with
          tx := { s.tx with drive := some { isEpoch := false, begun := s.tb.localTick, pulling := true } },
          filter := lowOnThisTick s }))
    ∧ (∀ d, s.tx.drive = some d → d.pulling = true →
        let u := s.elapse ((if d.isEpoch then 6 * bitTime c else 2 * bitTime c) - (s.tb.localTick - d.begun).toNat)
        exec .driveEnd s = .next { u with tx := { u.tx with drive := some { d with pulling := false } } })
    ∧ (s.rx.state = .tagWindow → s.tx.slotDuty = true → s.tx.slotDriving = false →
        s.sinceOrigin < 2 * bitTime c + s.ctl.stationId.toNat * bitTime c →
        let u := s.elapse (bitTime c + s.ctl.stationId.toNat * bitTime c - s.sinceOrigin)
        exec .slotDutyDrive s = .next { u with tx := { u.tx with slotDriving := true } })
    ∧ (∀ d j, s.rx.state = .numberWindow → s.tx.bitDuty = some d → j < 16 → d.next ≤ j →
        d.number.getLsbD (15 - j) = true → (∀ i, d.next ≤ i → i < j → d.number.getLsbD (15 - i) = false) →
        s.sinceOrigin ≤ bitTime c + j * bitTime c → 1 ≤ bitTime c → bitTime c ≤ 64 →
        s.tb.prescale.isSome = true →
        let u := s.elapse (bitTime c + j * bitTime c - s.sinceOrigin)
        ∃ e, u.tx.bitDuty = some e ∧ e.number = d.number
          ∧ exec .numberBitDrive s
              = .next { u with tx := { u.tx with bitDuty := some { e with next := j + 1, driving := true } } })
    ∧ (s.tb.prescale.isSome = true →
        let gone := (s.tb.localTick + 1 - s.rx.origin).toNat
        (tick s).tx.slotDriving
            = (s.tx.slotDriving && decide (gone < 2 * bitTime c + s.ctl.stationId.toNat * bitTime c))
        ∧ ∀ d, s.tx.bitDuty = some d →
            (tick s).tx.bitDuty
              = some { d with driving := d.driving && decide (gone < bitTime c + d.next * bitTime c) })

/-! ### Memory integrity (chapter 7) -/

/-- R138, R139: a word read where it was written, and one read at another address of the same parity, is clean; one
changed stored bit is correctable at its position and the word comes back; two changed bits, and a word read at an
address of the other parity, are uncorrectable. -/
def Obligations.CodewordCorrectsOneBitAndDetectsTwo : Prop :=
  ∀ (a b : Nat) (w : Word), a < 135168 → b < 135168 →
    (addressParity a = addressParity b →
      decodeWord b (encode a w) = .clean w
      ∧ (∀ p, p < 22 → decodeWord b (encode a w ^^^ BitVec.twoPow 22 p) = .correctable p w)
      ∧ (∀ p q, p < 22 → q < 22 → p ≠ q →
          ∃ v, decodeWord b (encode a w ^^^ BitVec.twoPow 22 p ^^^ BitVec.twoPow 22 q) = .uncorrectable v))
    ∧ (addressParity a ≠ addressParity b →
      decodeWord b (encode a w) = .uncorrectable w
      ∧ ∀ p, p < 22 → ∃ v, decodeWord b (encode a w ^^^ BitVec.twoPow 22 p) = .uncorrectable v)

namespace Sys2Proof.Claims

/-- R142, R143, R150, R153, R69: what a finding at word `offset` of segment g makes of `s`; `position` is the
corrected position, or none for an uncorrectable word. The write-back offer is said apart. -/
def Found (c : ConfigStore) (finder : Finder) (g : SegNo) (offset : Nat) (syn : BitVec 6) (position : Option Nat)
    (s t : State) : Prop :=
  let entry : LogEntry :=
    { kind := if position.isSome then .corrected else .uncorrectable, finder := finder, seg := g,
      home := (s.header g).home, offset := offset, syndrome := syn, bit := position,
      stamp := { epoch := s.tb.epoch, phase := s.tb.phase, unsynced := s.tb.sync == .seeking } }
  let tally := if position.isSome then min 15 ((s.header g).tally + 1) else 15
  t.mem.errorCount = min 65535 (s.mem.errorCount + 1)
  ∧ (s.mem.log.length < 4 → t.mem.log = s.mem.log ++ [entry]) ∧ (4 ≤ s.mem.log.length → t.mem.log = s.mem.log)
  ∧ (s.mem.log.length = 3 → (s.ev.cell .logFull).state = .quiet → (t.ev.cell .logFull).state = .pending)
  ∧ t.header g = { s.header g with
      tally := tally, retirePending := (s.header g).retirePending || decide (retireThreshold c ≤ tally) }
  ∧ (∀ a, a ≠ g → t.header a = s.header a)
  ∧ (position.isSome = true → t.recs = s.recs
      ∧ t.ev.cell .memCorrected = raisedOnce s.ev .memCorrected
      ∧ t.ev.cell .memUncorrectable = s.ev.cell .memUncorrectable)
  ∧ (position = none → t.ev.cell .memUncorrectable = raisedOnce s.ev .memUncorrectable
      ∧ t.ev.cell .memCorrected = s.ev.cell .memCorrected
      ∧ (∀ i r, s.recs.slots.get i = some r → g ∈ r.chain →
          (∀ j r', j ≠ i → s.recs.slots.get j = some r' → g ∉ r'.chain) →
          t.recs.slots.get i = some { r with
            flags := { r.flags with memError := true }, uncorrectable := min 255 (r.uncorrectable + 1) }
          ∧ ∀ j, j ≠ i → t.recs.slots.get j = s.recs.slots.get j)
      ∧ ((∀ i r, s.recs.slots.get i = some r → g ∉ r.chain) → t.recs = s.recs))
  ∧ t.pool.free = s.pool.free ∧ t.pool.history = s.pool.history ∧ t.pool.withdrawn = s.pool.withdrawn
  ∧ t.mem.array = s.mem.array ∧ t.ret = s.ret ∧ t.writer = s.writer ∧ t.tx = s.tx ∧ t.rx = s.rx ∧ t.tb = s.tb

/-- R144: the buffer after a correctable finding's offer: filled if EMPTY, unchanged if FULL. -/
def Offered (g : SegNo) (offset : Nat) (w : Word) (s t : State) : Prop :=
  (s.mem.buffer = none → t.mem.buffer = some
    { address := s.address g offset, word := w, seg := g, generation := (s.header g).generation })
  ∧ (s.mem.buffer ≠ none → t.mem.buffer = s.mem.buffer)

/-- What one read of word `offset` of segment g does, by its decode (R139, R140, R142). -/
def ReadDid (c : ConfigStore) (finder : Finder) (g : SegNo) (offset : Nat) (s t : State) : Prop :=
  let a := s.address g offset
  let code := readArray s.mem.array a
  (∀ w, decodeWord a code = .clean w → t.mem.log = s.mem.log ∧ t.mem.errorCount = s.mem.errorCount
    ∧ t.mem.buffer = s.mem.buffer ∧ t.mem.array = s.mem.array
    ∧ t.ev = s.ev ∧ t.pool = s.pool ∧ t.recs = s.recs ∧ t.ret = s.ret)
  ∧ (∀ p w, decodeWord a code = .correctable p w →
      Found c finder g offset (syndrome a code) (some p) s t ∧ Offered g offset w s t)
  ∧ (∀ w, decodeWord a code = .uncorrectable w →
      Found c finder g offset (syndrome a code) none s t ∧ t.mem.buffer = s.mem.buffer)

end Sys2Proof.Claims

/-- R140, R141, R142, R200: the next word of a READ DATA range, once presented, is read and decoded: the word,
corrected or raw, goes to the prefetch word and the response, the counts of the range rise by its outcome, and after
the last word the summary follows; its finding is made with finder HOST_READ. Rests on the model's choices of log 6
and 18. -/
def Obligations.PrefetchReadsTheNextWord : Prop :=
  ∀ (c : ConfigStore) (p : Prefetch) (s : State), Active s c → s.mem.prefetch = some p → p.presented = true →
    1 ≤ p.remaining →
    let outcome := decodeWord (s.address p.seg p.offset) (readArray s.mem.array (s.address p.seg p.offset))
    let corrected := p.corrected + (if outcome matches .correctable _ _ then 1 else 0)
    let uncorrectable := p.uncorrectable + (if outcome matches .uncorrectable _ then 1 else 0)
    ∃ t, exec .prefetchRead s = .next t ∧ ReadDid c .hostRead p.seg p.offset s t
      ∧ t.mem.prefetch = some { p with
          offset := p.offset + 1, remaining := p.remaining - 1, presented := false,
          corrected := corrected, uncorrectable := uncorrectable }
      ∧ t.port.prefetchWord = some outcome.word
      ∧ t.port.response = s.port.response
          ++ [BitVec.ofNat 8 (outcome.word.toNat / 256), BitVec.ofNat 8 outcome.word.toNat]
          ++ (if p.remaining = 1 then
                [BitVec.ofNat 8 (corrected / 256), BitVec.ofNat 8 corrected,
                 BitVec.ofNat 8 (uncorrectable / 256), BitVec.ofNat 8 uncorrectable]
              else [])
      ∧ t.mem.scrub = s.mem.scrub ∧ t.writer = s.writer ∧ t.tb = s.tb

/-- R148, R21, R135: at a grant the scrubber reads the word at its position, or word 0 of the next segment that is not
free, withdrawn or being filled; the position moves on past the word read, wrapping from segment 255, and the timer is
set to S; with all segments skipped no word is read and the position stands. Rests on the model's choices of log 18.
-/
def Obligations.ScrubReadWalksPastSkippedSegments : Prop :=
  ∀ (c : ConfigStore) (s : State), Active s c → s.mem.scrub.walking = true → s.mem.scrub.request = true →
    s.mem.buffer = none → (∀ p, s.mem.prefetch = some p → p.presented = false) →
    let skip := fun g : SegNo => g ∈ s.pool.free ∨ g ∈ s.pool.withdrawn ∨ s.writer.current = some g
    let after := fun (g : SegNo) (o : Fin 512) (b : Scrubber) =>
      { b with
        timer := scrubInterval c, request := false,
        seg := if o = 511 then g + 1 else g, offset := if o = 511 then 0 else o + 1 }
    (¬ skip s.mem.scrub.seg → ∃ t, exec .scrubRead s = .next t
        ∧ ReadDid c .scrub s.mem.scrub.seg s.mem.scrub.offset.val s t
        ∧ t.mem.scrub = after s.mem.scrub.seg s.mem.scrub.offset s.mem.scrub)
    ∧ (∀ n : Nat, 1 ≤ n → n < 256 → (∀ m : Nat, m < n → skip (s.mem.scrub.seg + Fin.ofNat 256 m)) →
        ¬ skip (s.mem.scrub.seg + Fin.ofNat 256 n) → ∃ t, exec .scrubRead s = .next t
        ∧ ReadDid c .scrub (s.mem.scrub.seg + Fin.ofNat 256 n) 0 s t
        ∧ t.mem.scrub = after (s.mem.scrub.seg + Fin.ofNat 256 n) 0 s.mem.scrub)
    ∧ ((∀ g, skip g) → exec .scrubRead s = .next { s with mem := { s.mem with
        scrub := { s.mem.scrub with timer := scrubInterval c, request := false } } })

/-- R145, R135: granted while the prefetch does not present, the write-back buffer's entry is encoded and written at
its address exactly when the segment's generation is the entry's and the segment is in history or in a record's chain;
otherwise it is discarded; either way the buffer is EMPTY and nothing else changes. Rests on the model's choices of
log 18. -/
def Obligations.WriteBackIsCheckedAtItsGrant : Prop :=
  ∀ (c : ConfigStore) (e : WriteBackEntry) (s : State), Active s c → s.mem.buffer = some e →
    (∀ p, s.mem.prefetch = some p → p.presented = false) →
    let stands := (s.header e.seg).generation = e.generation
      ∧ (e.seg ∈ s.pool.history ∨ ∃ i r, s.recs.slots.get i = some r ∧ e.seg ∈ r.chain)
    (stands → ∃ array,
      exec .writeBack s = .next { s with mem := { s.mem with array := array, buffer := none } }
      ∧ (s.mem.array.wf = true → e.address < 135168 →
          readArray array e.address = encode e.address e.word
          ∧ ∀ a, a ≠ e.address → readArray array a = readArray s.mem.array a))
    ∧ (¬ stands → exec .writeBack s = .next { s with mem := { s.mem with buffer := none } })
end

