-- ==== Sys2Proof/Laws/State.lean ====
section
/-! SUPPORT. What each update of the state writes and what it leaves, field by field. -/

namespace Sys2Proof.Machine

/-- What `setHeader` writes, and what it leaves. -/
@[simp] theorem setHeader_frame (g : SegNo) (h : Header) (s : State) :
    (setHeader g h s).pool = { s.pool with headers := s.pool.headers.set g h } ∧ (setHeader g h s).ctl = s.ctl
    ∧ (setHeader g h s).tb = s.tb ∧ (setHeader g h s).writer = s.writer ∧ (setHeader g h s).seqr = s.seqr
    ∧ (setHeader g h s).recs = s.recs ∧ (setHeader g h s).dets = s.dets ∧ (setHeader g h s).trig = s.trig
    ∧ (setHeader g h s).filter = s.filter ∧ (setHeader g h s).rx = s.rx ∧ (setHeader g h s).tx = s.tx
    ∧ (setHeader g h s).mem = s.mem ∧ (setHeader g h s).ret = s.ret ∧ (setHeader g h s).ev = s.ev
    ∧ (setHeader g h s).port = s.port ∧ (setHeader g h s).pins = s.pins ∧ (setHeader g h s).pending = s.pending := by
  refine ⟨rfl, rfl, rfl, rfl, rfl, rfl, rfl, rfl, rfl, rfl, rfl, rfl, rfl, rfl, rfl, rfl, rfl⟩

/-- What `takeDivisor` leaves of the timebase: a divisor comes to run or to wait, and nothing else moves. -/
@[simp] theorem takeDivisor_frame (k : Nat) (tb : Timebase) :
    (takeDivisor k tb).localTick = tb.localTick ∧ (takeDivisor k tb).phase = tb.phase
    ∧ (takeDivisor k tb).epoch = tb.epoch ∧ (takeDivisor k tb).sync = tb.sync ∧ (takeDivisor k tb).mode = tb.mode
    ∧ (takeDivisor k tb).requestMade = tb.requestMade ∧ (takeDivisor k tb).provisional = tb.provisional
    ∧ (takeDivisor k tb).prescale.isSome = true := by
  unfold takeDivisor
  split <;> rename_i h <;> simp [h]

/-- A stopped prescaler starts with the divisor (R117). -/
theorem takeDivisor_stopped {k : Nat} {tb : Timebase} (h : tb.prescale = none) :
    takeDivisor k tb = { tb with prescale := some k } := by
  unfold takeDivisor
  rw [h]

/-- A running prescaler has the divisor wait for its next tick boundary (R186). -/
theorem takeDivisor_running {k : Nat} {tb : Timebase} (h : tb.prescale ≠ none) :
    takeDivisor k tb = { tb with nextPrescale := some k } := by
  unfold takeDivisor
  split
  · rename_i h'
    exact absurd h' h
  · rfl

/-- What `setSlot` writes, and what it leaves. -/
@[simp] theorem setSlot_frame (i : SlotNo) (r : Option Record) (s : State) :
    (setSlot i r s).recs = { s.recs with slots := s.recs.slots.set i r } ∧ (setSlot i r s).ctl = s.ctl
    ∧ (setSlot i r s).tb = s.tb ∧ (setSlot i r s).pool = s.pool ∧ (setSlot i r s).writer = s.writer
    ∧ (setSlot i r s).seqr = s.seqr ∧ (setSlot i r s).dets = s.dets ∧ (setSlot i r s).trig = s.trig
    ∧ (setSlot i r s).filter = s.filter ∧ (setSlot i r s).rx = s.rx ∧ (setSlot i r s).tx = s.tx
    ∧ (setSlot i r s).mem = s.mem ∧ (setSlot i r s).ret = s.ret ∧ (setSlot i r s).ev = s.ev
    ∧ (setSlot i r s).port = s.port ∧ (setSlot i r s).pins = s.pins ∧ (setSlot i r s).pending = s.pending := by
  refine ⟨rfl, rfl, rfl, rfl, rfl, rfl, rfl, rfl, rfl, rfl, rfl, rfl, rfl, rfl, rfl, rfl, rfl⟩

/-- What `setHistory` writes, and what it leaves. -/
@[simp] theorem setHistory_frame (h : List SegNo) (s : State) :
    (setHistory h s).pool = { s.pool with history := h } ∧ (setHistory h s).ctl = s.ctl
    ∧ (setHistory h s).tb = s.tb ∧ (setHistory h s).writer = s.writer ∧ (setHistory h s).seqr = s.seqr
    ∧ (setHistory h s).recs = s.recs ∧ (setHistory h s).dets = s.dets ∧ (setHistory h s).trig = s.trig
    ∧ (setHistory h s).filter = s.filter ∧ (setHistory h s).rx = s.rx ∧ (setHistory h s).tx = s.tx
    ∧ (setHistory h s).mem = s.mem ∧ (setHistory h s).ret = s.ret ∧ (setHistory h s).ev = s.ev
    ∧ (setHistory h s).port = s.port ∧ (setHistory h s).pins = s.pins ∧ (setHistory h s).pending = s.pending := by
  refine ⟨rfl, rfl, rfl, rfl, rfl, rfl, rfl, rfl, rfl, rfl, rfl, rfl, rfl, rfl, rfl, rfl, rfl⟩

/-- What `holdInputs` writes, and what it leaves. -/
@[simp] theorem holdInputs_frame (inputs : List AnalogLevel) (s : State) :
    (holdInputs inputs s).pins = { s.pins with analog := inputs } ∧ (holdInputs inputs s).ctl = s.ctl
    ∧ (holdInputs inputs s).tb = s.tb ∧ (holdInputs inputs s).pool = s.pool ∧ (holdInputs inputs s).writer = s.writer
    ∧ (holdInputs inputs s).seqr = s.seqr ∧ (holdInputs inputs s).recs = s.recs ∧ (holdInputs inputs s).dets = s.dets
    ∧ (holdInputs inputs s).trig = s.trig ∧ (holdInputs inputs s).filter = s.filter
    ∧ (holdInputs inputs s).rx = s.rx ∧ (holdInputs inputs s).tx = s.tx ∧ (holdInputs inputs s).mem = s.mem
    ∧ (holdInputs inputs s).ret = s.ret ∧ (holdInputs inputs s).ev = s.ev ∧ (holdInputs inputs s).port = s.port
    ∧ (holdInputs inputs s).pending = s.pending := by
  refine ⟨rfl, rfl, rfl, rfl, rfl, rfl, rfl, rfl, rfl, rfl, rfl, rfl, rfl, rfl, rfl, rfl, rfl⟩

/-- What `holdLine` writes, and what it leaves. -/
@[simp] theorem holdLine_frame (low : Bool) (s : State) :
    (holdLine low s).pins = { s.pins with peersLow := low } ∧ (holdLine low s).ctl = s.ctl
    ∧ (holdLine low s).tb = s.tb ∧ (holdLine low s).pool = s.pool ∧ (holdLine low s).writer = s.writer
    ∧ (holdLine low s).seqr = s.seqr ∧ (holdLine low s).recs = s.recs ∧ (holdLine low s).dets = s.dets
    ∧ (holdLine low s).trig = s.trig ∧ (holdLine low s).filter = s.filter ∧ (holdLine low s).rx = s.rx
    ∧ (holdLine low s).tx = s.tx ∧ (holdLine low s).mem = s.mem ∧ (holdLine low s).ret = s.ret
    ∧ (holdLine low s).ev = s.ev ∧ (holdLine low s).port = s.port ∧ (holdLine low s).pending = s.pending := by
  refine ⟨rfl, rfl, rfl, rfl, rfl, rfl, rfl, rfl, rfl, rfl, rfl, rfl, rfl, rfl, rfl, rfl, rfl⟩

/-- What `raise` writes, and what it leaves. -/
@[simp] theorem raise_frame (src : Source) (s : State) :
    (raise src s).ev = s.ev.update src.place SourceCell.raised ∧ (raise src s).ctl = s.ctl
    ∧ (raise src s).tb = s.tb ∧ (raise src s).pool = s.pool ∧ (raise src s).writer = s.writer
    ∧ (raise src s).seqr = s.seqr ∧ (raise src s).recs = s.recs ∧ (raise src s).dets = s.dets
    ∧ (raise src s).trig = s.trig ∧ (raise src s).filter = s.filter ∧ (raise src s).rx = s.rx
    ∧ (raise src s).tx = s.tx ∧ (raise src s).mem = s.mem ∧ (raise src s).ret = s.ret ∧ (raise src s).port = s.port
    ∧ (raise src s).pins = s.pins ∧ (raise src s).pending = s.pending := by
  refine ⟨rfl, rfl, rfl, rfl, rfl, rfl, rfl, rfl, rfl, rfl, rfl, rfl, rfl, rfl, rfl, rfl, rfl⟩

/-- What `handLevel` writes, and what it leaves. -/
@[simp] theorem handLevel_frame (src : Source) (b a : Bool) (s : State) :
    (handLevel src b a s).ctl = s.ctl ∧ (handLevel src b a s).tb = s.tb ∧ (handLevel src b a s).pool = s.pool
    ∧ (handLevel src b a s).writer = s.writer ∧ (handLevel src b a s).seqr = s.seqr
    ∧ (handLevel src b a s).recs = s.recs ∧ (handLevel src b a s).dets = s.dets
    ∧ (handLevel src b a s).trig = s.trig ∧ (handLevel src b a s).filter = s.filter
    ∧ (handLevel src b a s).rx = s.rx ∧ (handLevel src b a s).tx = s.tx ∧ (handLevel src b a s).mem = s.mem
    ∧ (handLevel src b a s).ret = s.ret ∧ (handLevel src b a s).port = s.port ∧ (handLevel src b a s).pins = s.pins
    ∧ (handLevel src b a s).pending = s.pending := by
  unfold handLevel
  repeat' split
  all_goals simp

/-- What `setStation` writes, and what it leaves. -/
@[simp] theorem setStation_frame (st : StationState) (s : State) :
    (setStation st s).ctl = { s.ctl with state := st } ∧ (setStation st s).tb = s.tb
    ∧ (setStation st s).pool = s.pool ∧ (setStation st s).writer = s.writer ∧ (setStation st s).seqr = s.seqr
    ∧ (setStation st s).recs = s.recs ∧ (setStation st s).dets = s.dets ∧ (setStation st s).trig = s.trig
    ∧ (setStation st s).filter = s.filter ∧ (setStation st s).rx = s.rx ∧ (setStation st s).tx = s.tx
    ∧ (setStation st s).mem = s.mem ∧ (setStation st s).ret = s.ret ∧ (setStation st s).port = s.port
    ∧ (setStation st s).pins = s.pins ∧ (setStation st s).pending = s.pending := by
  simp [setStation]

/-- What `setSync` writes, and what it leaves. -/
@[simp] theorem setSync_frame (y : Sync) (s : State) :
    (setSync y s).tb = { s.tb with sync := y } ∧ (setSync y s).ctl = s.ctl ∧ (setSync y s).pool = s.pool
    ∧ (setSync y s).writer = s.writer ∧ (setSync y s).seqr = s.seqr ∧ (setSync y s).recs = s.recs
    ∧ (setSync y s).dets = s.dets ∧ (setSync y s).trig = s.trig ∧ (setSync y s).filter = s.filter
    ∧ (setSync y s).rx = s.rx ∧ (setSync y s).tx = s.tx ∧ (setSync y s).mem = s.mem ∧ (setSync y s).ret = s.ret
    ∧ (setSync y s).port = s.port ∧ (setSync y s).pins = s.pins ∧ (setSync y s).pending = s.pending := by
  simp [setSync]

/-- What `setRx` writes, and what it leaves. -/
@[simp] theorem setRx_frame (x : RxState) (s : State) :
    (setRx x s).rx = { s.rx with state := x } ∧ (setRx x s).ctl = s.ctl ∧ (setRx x s).tb = s.tb
    ∧ (setRx x s).pool = s.pool ∧ (setRx x s).writer = s.writer ∧ (setRx x s).seqr = s.seqr
    ∧ (setRx x s).recs = s.recs ∧ (setRx x s).dets = s.dets ∧ (setRx x s).trig = s.trig
    ∧ (setRx x s).filter = s.filter ∧ (setRx x s).tx = s.tx ∧ (setRx x s).mem = s.mem ∧ (setRx x s).ret = s.ret
    ∧ (setRx x s).port = s.port ∧ (setRx x s).pins = s.pins ∧ (setRx x s).pending = s.pending := by
  simp [setRx]

/-- What `setWriter` writes, and what it leaves. -/
@[simp] theorem setWriter_frame (w : Writer) (s : State) :
    (setWriter w s).writer = w ∧ (setWriter w s).ctl = s.ctl ∧ (setWriter w s).tb = s.tb
    ∧ (setWriter w s).pool = s.pool ∧ (setWriter w s).seqr = s.seqr ∧ (setWriter w s).recs = s.recs
    ∧ (setWriter w s).dets = s.dets ∧ (setWriter w s).trig = s.trig ∧ (setWriter w s).filter = s.filter
    ∧ (setWriter w s).rx = s.rx ∧ (setWriter w s).tx = s.tx ∧ (setWriter w s).mem = s.mem
    ∧ (setWriter w s).ret = s.ret ∧ (setWriter w s).port = s.port ∧ (setWriter w s).pins = s.pins
    ∧ (setWriter w s).pending = s.pending := by
  simp [setWriter]

/-- What `setLog` writes, and what it leaves. -/
@[simp] theorem setLog_frame (l : List LogEntry) (s : State) :
    (setLog l s).mem = { s.mem with log := l } ∧ (setLog l s).ctl = s.ctl ∧ (setLog l s).tb = s.tb
    ∧ (setLog l s).pool = s.pool ∧ (setLog l s).writer = s.writer ∧ (setLog l s).seqr = s.seqr
    ∧ (setLog l s).recs = s.recs ∧ (setLog l s).dets = s.dets ∧ (setLog l s).trig = s.trig
    ∧ (setLog l s).filter = s.filter ∧ (setLog l s).rx = s.rx ∧ (setLog l s).tx = s.tx ∧ (setLog l s).ret = s.ret
    ∧ (setLog l s).port = s.port ∧ (setLog l s).pins = s.pins ∧ (setLog l s).pending = s.pending := by
  simp [setLog]

/-- What `setFree` writes, and what it leaves. -/
@[simp] theorem setFree_frame (f : List SegNo) (s : State) :
    (setFree f s).pool = { s.pool with free := f } ∧ (setFree f s).ctl = s.ctl ∧ (setFree f s).tb = s.tb
    ∧ (setFree f s).writer = s.writer ∧ (setFree f s).seqr = s.seqr ∧ (setFree f s).recs = s.recs
    ∧ (setFree f s).dets = s.dets ∧ (setFree f s).trig = s.trig ∧ (setFree f s).filter = s.filter
    ∧ (setFree f s).rx = s.rx ∧ (setFree f s).tx = s.tx ∧ (setFree f s).mem = s.mem ∧ (setFree f s).ret = s.ret
    ∧ (setFree f s).port = s.port ∧ (setFree f s).pins = s.pins ∧ (setFree f s).pending = s.pending := by
  simp [setFree]

/-! ### Reading vectors -/

/-- Reading a vector built place by place. -/
@[simp] theorem get_ofFn {α : Type} {n : Nat} (f : Fin n → α) (i : Fin n) : (Vector.ofFn f).get i = f i := by
  simp [Vector.get, Vector.ofFn]
  rfl

/-- Reading a vector of one value. -/
@[simp] theorem get_replicate {α : Type} {n : Nat} (a : α) (i : Fin n) : (Vector.replicate n a).get i = a := by
  simp [Vector.get]

/-! ### The segments -/

/-- `allSegments` has all 256 segments. -/
@[simp] theorem length_allSegments : allSegments.length = 256 := by
  unfold allSegments
  exact List.length_ofFn

/-- Segment n stands at place n of `allSegments`. -/
theorem getElem?_allSegments (n : Nat) (h : n < 256) : allSegments[n]? = some ⟨n, h⟩ := by
  unfold allSegments
  rw [List.getElem?_ofFn, dif_pos h]

/-- Every segment is in `allSegments`. -/
@[simp] theorem mem_allSegments (g : SegNo) : g ∈ allSegments :=
  List.mem_of_getElem? (getElem?_allSegments g.val g.isLt)

/-- `allSegments` rises. -/
theorem allSegments_rises : allSegments.Pairwise (· < ·) := by
  unfold allSegments
  decide +kernel

/-- No segment stands twice in `allSegments`. -/
theorem allSegments_nodup : allSegments.Nodup := allSegments_rises.imp (fun h => Fin.ne_of_lt h)

end Sys2Proof.Machine
end

