-- ==== Sys2Proof/Laws/Array.lean ====
section
/-! SUPPORT. The sample array: every write keeps its canonical form, and what reads see after a write. -/

namespace Sys2Proof.Machine

theorem wfFrom_mono {lo lo' : Nat} : ∀ {m : Memory}, wfFrom lo m = true → lo' ≤ lo → wfFrom lo' m = true
  | [], _, _ => rfl
  | (_, _) :: _, h, hl => by
    simp only [wfFrom, Bool.and_eq_true, decide_eq_true_eq] at h ⊢
    exact ⟨⟨⟨Nat.le_trans hl h.1.1.1, h.1.1.2⟩, h.1.2⟩, h.2⟩

theorem wfFrom_putEntry {lo a : Nat} {c : Codeword} {m : Memory} (hm : wfFrom (a + 1) m = true) (hl : lo ≤ a)
    (ha : a < arrayWords) : wfFrom lo (putEntry a c m) = true := by
  unfold putEntry
  split
  · exact wfFrom_mono hm (by omega)
  · simp_all [wfFrom]

/-- A write keeps the canonical form. -/
theorem wfFrom_writeArray {a : Nat} {c : Codeword} (ha : a < arrayWords) :
    ∀ {lo : Nat} {m : Memory}, wfFrom lo m = true → lo ≤ a → wfFrom lo (writeArray m a c) = true
  | _, [], _, hl => wfFrom_putEntry rfl hl ha
  | lo, (b, d) :: r, h, hl => by
    have h' := h
    simp only [wfFrom, Bool.and_eq_true, decide_eq_true_eq] at h'
    unfold writeArray
    split
    · rename_i hab
      refine wfFrom_putEntry ?_ hl ha
      simp only [wfFrom, Bool.and_eq_true, decide_eq_true_eq]
      exact ⟨⟨⟨by omega, h'.1.1.2⟩, h'.1.2⟩, h'.2⟩
    · split
      · rename_i hab
        subst hab
        exact wfFrom_putEntry h'.2 hl ha
      · simp only [wfFrom, Bool.and_eq_true, decide_eq_true_eq]
        exact ⟨h'.1, wfFrom_writeArray ha h'.2 (by omega)⟩

theorem wf_writeArray {m : Memory} {a : Nat} {c : Codeword} (h : m.wf = true) (ha : a < arrayWords) :
    Memory.wf (writeArray m a c) = true := wfFrom_writeArray ha h (Nat.zero_le _)

theorem readArray_below {a : Nat} : ∀ {lo : Nat} {m : Memory}, wfFrom lo m = true → a < lo → readArray m a = fillWord a
  | _, [], _, _ => rfl
  | _, (b, _) :: _, h, hl => by
    simp only [wfFrom, Bool.and_eq_true, decide_eq_true_eq] at h
    unfold readArray
    rw [if_neg (by omega), if_pos (by omega)]

theorem readArray_putEntry {a b : Nat} {c : Codeword} {m : Memory} (hm : wfFrom (a + 1) m = true) :
    readArray (putEntry a c m) b = if b = a then c else readArray m b := by
  unfold putEntry
  split
  · rename_i hc
    split
    · rename_i hb
      rw [hb, readArray_below hm (by omega), hc]
    · rfl
  · rw [readArray]
    split
    · rfl
    · split
      · rw [readArray_below hm (by omega)]
      · rfl

/-- What a write leaves: the address written reads as the word written, every other as before. -/
theorem readArray_writeArray {a b : Nat} {c : Codeword} :
    ∀ {lo : Nat} {m : Memory}, wfFrom lo m = true →
      readArray (writeArray m a c) b = if b = a then c else readArray m b
  | _, [], _ => readArray_putEntry rfl
  | lo, (x, d) :: r, h => by
    have h' := h
    simp only [wfFrom, Bool.and_eq_true, decide_eq_true_eq] at h'
    unfold writeArray
    split
    · rename_i hax
      refine readArray_putEntry ?_
      simp only [wfFrom, Bool.and_eq_true, decide_eq_true_eq]
      exact ⟨⟨⟨by omega, h'.1.1.2⟩, h'.1.2⟩, h'.2⟩
    · split
      · rename_i hax
        subst hax
        rw [readArray_putEntry h'.2]
        by_cases hb : b = a
        · simp [hb]
        · rw [if_neg hb, if_neg hb, readArray, if_neg hb]
          split
          · exact readArray_below h'.2 (by omega)
          · rfl
      · rename_i hax hne
        rw [readArray, readArray, readArray_writeArray h'.2]
        by_cases hbx : b = x
        · rw [if_pos hbx, if_pos hbx, if_neg (by omega)]
        · by_cases hlt : b < x
          · rw [if_neg hbx, if_pos hlt, if_neg (by omega), if_neg hbx, if_pos hlt]
          · rw [if_neg hbx, if_neg hlt, if_neg hbx, if_neg hlt]

theorem wfFrom_fillBelow {n : Nat} : ∀ {lo : Nat} {m : Memory}, wfFrom lo m = true → wfFrom lo (fillBelow n m) = true
  | _, [], _ => rfl
  | lo, (b, d) :: r, h => by
    have h' := h
    simp only [wfFrom, Bool.and_eq_true, decide_eq_true_eq] at h'
    have hr := wfFrom_fillBelow (n := n) h'.2
    unfold fillBelow at hr ⊢
    rw [List.filter_cons]
    split
    · simp only [wfFrom, Bool.and_eq_true, decide_eq_true_eq]
      exact ⟨h'.1, hr⟩
    · exact wfFrom_mono hr (by omega)

/-- R137: below the progress an abandoned fill has written its word; from there on the array reads as before. -/
theorem readArray_fillBelow {n a : Nat} : ∀ {lo : Nat} {m : Memory}, wfFrom lo m = true →
    readArray (fillBelow n m) a = if a < n then fillWord a else readArray m a
  | _, [], _ => by
    unfold fillBelow
    rw [List.filter_nil, readArray, ite_self]
  | lo, (b, d) :: r, h => by
    simp only [wfFrom, Bool.and_eq_true, decide_eq_true_eq] at h
    have hr := readArray_fillBelow (n := n) (a := a) h.2
    unfold fillBelow at hr ⊢
    rw [List.filter_cons]
    by_cases hb : n ≤ b
    · rw [if_pos (by simpa using hb), readArray, readArray]
      by_cases hab : a = b
      · rw [if_pos hab, if_pos hab, if_neg (by omega)]
      · by_cases hlt : a < b
        · rw [if_neg hab, if_pos hlt, if_neg hab, if_pos hlt, ite_self]
        · rw [if_neg hab, if_neg hlt, if_neg hab, if_neg hlt, hr]
    · rw [if_neg (by simpa using hb), hr, readArray]
      by_cases han : a < n
      · rw [if_pos han, if_pos han]
      · rw [if_neg han, if_neg han, if_neg (by omega), if_neg (by omega)]

/-- Every address formed from a segment and an offset lies in the array (R1). -/
theorem address_lt (s : State) (g : SegNo) (o : Nat) : s.address g o < arrayWords := by
  unfold State.address
  have h1 : physicalNumber g (s.header g).home ≤ 263 := by
    unfold physicalNumber
    split <;> omega
  have h2 : o % segmentWords < segmentWords := Nat.mod_lt _ (by decide)
  simp only [segmentWords, arrayWords] at *
  omega

theorem storeWord_wf (g : SegNo) (o : Nat) (w : Word) (s : State) (h : s.mem.array.wf = true) :
    Memory.wf (storeWord g o w s).mem.array = true := wf_writeArray h (address_lt s g o)

/-- `storeWord` writes the array and nothing else. -/
theorem storeWord_frame (g : SegNo) (o : Nat) (w : Word) (s : State) :
    storeWord g o w s = { s with mem := { s.mem with array := (storeWord g o w s).mem.array } } := rfl

/-- `storeWords` writes the array and nothing else. -/
theorem storeWords_frame (g : SegNo) : ∀ (ws : List Word) (o : Nat) (s : State),
    storeWords g o ws s = { s with mem := { s.mem with array := (storeWords g o ws s).mem.array } }
  | [], _, _ => rfl
  | w :: ws, o, s => by
    have h := storeWords_frame g ws (o + 1) (storeWord g o w s)
    rw [storeWords, h]
    rfl

theorem storeWords_wf (g : SegNo) : ∀ (ws : List Word) (o : Nat) (s : State), s.mem.array.wf = true →
    Memory.wf (storeWords g o ws s).mem.array = true
  | [], _, _, h => h
  | w :: ws, o, s, h => storeWords_wf g ws (o + 1) _ (storeWord_wf g o w s h)

end Sys2Proof.Machine
end

