-- ==== Sys2Proof/Laws/Frames.lean ====
section
/-! SUPPORT. The frame of each shared operation: the blocks it leaves as they were. -/

namespace Sys2Proof.Machine

theorem popFree_eq_some {s : State} {g : SegNo} {t : State} (h : popFree s = some (g, t)) :
    ∃ r, s.pool.free = g :: r ∧ t = takeHeader g (setFree r s) := by
  unfold popFree at h
  split at h
  · exact absurd h (by simp)
  · rename_i g' r hf
    simp only [Option.some.injEq, Prod.mk.injEq] at h
    exact ⟨r, by rw [hf, h.1], by rw [← h.2, h.1]⟩

theorem popFree_eq_none {s : State} (h : popFree s = none) : s.pool.free = [] := by
  unfold popFree at h
  split at h
  · assumption
  · exact absurd h (by simp)

/-- What `takeHeader` writes, and what it leaves. -/
@[simp] theorem takeHeader_frame (g : SegNo) (s : State) :
    (takeHeader g s).ctl = s.ctl ∧ (takeHeader g s).tb = s.tb ∧ (takeHeader g s).writer = s.writer
    ∧ (takeHeader g s).seqr = s.seqr ∧ (takeHeader g s).recs = s.recs ∧ (takeHeader g s).dets = s.dets
    ∧ (takeHeader g s).trig = s.trig ∧ (takeHeader g s).filter = s.filter ∧ (takeHeader g s).rx = s.rx
    ∧ (takeHeader g s).tx = s.tx ∧ (takeHeader g s).mem = s.mem ∧ (takeHeader g s).ret = s.ret
    ∧ (takeHeader g s).ev = s.ev ∧ (takeHeader g s).port = s.port ∧ (takeHeader g s).pins = s.pins
    ∧ (takeHeader g s).pending = s.pending := by
  refine ⟨?_, ?_, ?_, ?_, ?_, ?_, ?_, ?_, ?_, ?_, ?_, ?_, ?_, ?_, ?_, ?_⟩
  all_goals
    unfold takeHeader
    try dsimp only
    all_goals simp

/-- What `retireTo` writes, and what it leaves. -/
@[simp] theorem retireTo_frame (g : SegNo) (j : SpareNo) (s : State) :
    (retireTo g j s).ctl = s.ctl ∧ (retireTo g j s).tb = s.tb ∧ (retireTo g j s).writer = s.writer
    ∧ (retireTo g j s).seqr = s.seqr ∧ (retireTo g j s).recs = s.recs ∧ (retireTo g j s).dets = s.dets
    ∧ (retireTo g j s).trig = s.trig ∧ (retireTo g j s).filter = s.filter ∧ (retireTo g j s).rx = s.rx
    ∧ (retireTo g j s).tx = s.tx ∧ (retireTo g j s).mem = s.mem ∧ (retireTo g j s).ev = s.ev
    ∧ (retireTo g j s).port = s.port ∧ (retireTo g j s).pins = s.pins ∧ (retireTo g j s).pending = s.pending := by
  refine ⟨?_, ?_, ?_, ?_, ?_, ?_, ?_, ?_, ?_, ?_, ?_, ?_, ?_, ?_, ?_⟩
  all_goals
    unfold retireTo
    try dsimp only
    repeat' split
    all_goals simp

/-- What `withdraw` writes, and what it leaves. -/
@[simp] theorem withdraw_frame (g : SegNo) (s : State) :
    (withdraw g s).ctl = s.ctl ∧ (withdraw g s).tb = s.tb ∧ (withdraw g s).writer = s.writer
    ∧ (withdraw g s).seqr = s.seqr ∧ (withdraw g s).recs = s.recs ∧ (withdraw g s).dets = s.dets
    ∧ (withdraw g s).trig = s.trig ∧ (withdraw g s).filter = s.filter ∧ (withdraw g s).rx = s.rx
    ∧ (withdraw g s).tx = s.tx ∧ (withdraw g s).mem = s.mem ∧ (withdraw g s).port = s.port
    ∧ (withdraw g s).pins = s.pins ∧ (withdraw g s).pending = s.pending := by
  refine ⟨?_, ?_, ?_, ?_, ?_, ?_, ?_, ?_, ?_, ?_, ?_, ?_, ?_, ?_⟩
  all_goals
    unfold withdraw
    try dsimp only
    repeat' split
    all_goals simp

/-- What `retireCheck` writes, and what it leaves. -/
@[simp] theorem retireCheck_frame (g : SegNo) (s : State) :
    ((retireCheck g s).1).ctl = s.ctl ∧ ((retireCheck g s).1).tb = s.tb ∧ ((retireCheck g s).1).writer = s.writer
    ∧ ((retireCheck g s).1).seqr = s.seqr ∧ ((retireCheck g s).1).recs = s.recs
    ∧ ((retireCheck g s).1).dets = s.dets ∧ ((retireCheck g s).1).trig = s.trig
    ∧ ((retireCheck g s).1).filter = s.filter ∧ ((retireCheck g s).1).rx = s.rx ∧ ((retireCheck g s).1).tx = s.tx
    ∧ ((retireCheck g s).1).mem = s.mem ∧ ((retireCheck g s).1).port = s.port ∧ ((retireCheck g s).1).pins = s.pins
    ∧ ((retireCheck g s).1).pending = s.pending := by
  refine ⟨?_, ?_, ?_, ?_, ?_, ?_, ?_, ?_, ?_, ?_, ?_, ?_, ?_, ?_⟩
  all_goals
    unfold retireCheck
    try dsimp only
    repeat' split
    all_goals simp

/-- What `enterFree` writes, and what it leaves. -/
@[simp] theorem enterFree_frame (g : SegNo) (s : State) :
    (enterFree g s).ctl = s.ctl ∧ (enterFree g s).tb = s.tb ∧ (enterFree g s).writer = s.writer
    ∧ (enterFree g s).seqr = s.seqr ∧ (enterFree g s).recs = s.recs ∧ (enterFree g s).dets = s.dets
    ∧ (enterFree g s).trig = s.trig ∧ (enterFree g s).filter = s.filter ∧ (enterFree g s).rx = s.rx
    ∧ (enterFree g s).tx = s.tx ∧ (enterFree g s).mem = s.mem ∧ (enterFree g s).port = s.port
    ∧ (enterFree g s).pins = s.pins ∧ (enterFree g s).pending = s.pending := by
  refine ⟨?_, ?_, ?_, ?_, ?_, ?_, ?_, ?_, ?_, ?_, ?_, ?_, ?_, ?_⟩
  all_goals
    unfold enterFree
    try dsimp only
    repeat' split
    all_goals simp

/-- What `returnAll` writes, and what it leaves. -/
@[simp] theorem returnAll_frame (gs : List SegNo) (s : State) :
    (returnAll gs s).ctl = s.ctl ∧ (returnAll gs s).tb = s.tb ∧ (returnAll gs s).writer = s.writer
    ∧ (returnAll gs s).seqr = s.seqr ∧ (returnAll gs s).recs = s.recs ∧ (returnAll gs s).dets = s.dets
    ∧ (returnAll gs s).trig = s.trig ∧ (returnAll gs s).filter = s.filter ∧ (returnAll gs s).rx = s.rx
    ∧ (returnAll gs s).tx = s.tx ∧ (returnAll gs s).mem = s.mem ∧ (returnAll gs s).port = s.port
    ∧ (returnAll gs s).pins = s.pins ∧ (returnAll gs s).pending = s.pending := by
  induction gs generalizing s with
  | nil => simp [returnAll]
  | cons g gs ih => simp [returnAll, ih]

/-- What `beginSegment` writes, and what it leaves. -/
@[simp] theorem beginSegment_frame (g : SegNo) (s : State) :
    (beginSegment g s).writer = { s.writer with state := .filling, current := some g, pos := 0 }
    ∧ (beginSegment g s).ctl = s.ctl ∧ (beginSegment g s).tb = s.tb ∧ (beginSegment g s).pool = s.pool
    ∧ (beginSegment g s).seqr = s.seqr ∧ (beginSegment g s).recs = s.recs ∧ (beginSegment g s).dets = s.dets
    ∧ (beginSegment g s).trig = s.trig ∧ (beginSegment g s).filter = s.filter ∧ (beginSegment g s).rx = s.rx
    ∧ (beginSegment g s).tx = s.tx ∧ (beginSegment g s).mem = s.mem ∧ (beginSegment g s).ret = s.ret
    ∧ (beginSegment g s).port = s.port ∧ (beginSegment g s).pins = s.pins ∧ (beginSegment g s).pending = s.pending := by
  refine ⟨?_, ?_, ?_, ?_, ?_, ?_, ?_, ?_, ?_, ?_, ?_, ?_, ?_, ?_, ?_, ?_⟩
  all_goals
    unfold beginSegment
    try dsimp only
    all_goals simp

/-- What `enterOverrun` writes, and what it leaves. -/
@[simp] theorem enterOverrun_frame (s : State) :
    (enterOverrun s).writer = { s.writer with state := .overrun, current := none, pos := 0 }
    ∧ (enterOverrun s).ctl = s.ctl ∧ (enterOverrun s).tb = s.tb ∧ (enterOverrun s).pool = s.pool
    ∧ (enterOverrun s).seqr = s.seqr ∧ (enterOverrun s).recs = s.recs ∧ (enterOverrun s).dets = s.dets
    ∧ (enterOverrun s).trig = s.trig ∧ (enterOverrun s).filter = s.filter ∧ (enterOverrun s).rx = s.rx
    ∧ (enterOverrun s).tx = s.tx ∧ (enterOverrun s).mem = s.mem ∧ (enterOverrun s).ret = s.ret
    ∧ (enterOverrun s).port = s.port ∧ (enterOverrun s).pins = s.pins ∧ (enterOverrun s).pending = s.pending := by
  refine ⟨?_, ?_, ?_, ?_, ?_, ?_, ?_, ?_, ?_, ?_, ?_, ?_, ?_, ?_, ?_, ?_⟩
  all_goals
    unfold enterOverrun
    try dsimp only
    all_goals simp

/-- What `writerIdle` writes, and what it leaves. -/
@[simp] theorem writerIdle_frame (s : State) :
    (writerIdle s).writer = { s.writer with state := .idle, current := none, pos := 0 }
    ∧ (writerIdle s).ctl = s.ctl ∧ (writerIdle s).tb = s.tb ∧ (writerIdle s).pool = s.pool
    ∧ (writerIdle s).seqr = s.seqr ∧ (writerIdle s).recs = s.recs ∧ (writerIdle s).dets = s.dets
    ∧ (writerIdle s).trig = s.trig ∧ (writerIdle s).filter = s.filter ∧ (writerIdle s).rx = s.rx
    ∧ (writerIdle s).tx = s.tx ∧ (writerIdle s).mem = s.mem ∧ (writerIdle s).ret = s.ret
    ∧ (writerIdle s).port = s.port ∧ (writerIdle s).pins = s.pins ∧ (writerIdle s).pending = s.pending := by
  refine ⟨?_, ?_, ?_, ?_, ?_, ?_, ?_, ?_, ?_, ?_, ?_, ?_, ?_, ?_, ?_, ?_⟩
  all_goals
    unfold writerIdle
    try dsimp only
    all_goals simp

/-- What `takeHistory` writes, and what it leaves. -/
@[simp] theorem takeHistory_frame (gs : List SegNo) (s : State) :
    (takeHistory gs s).ctl = s.ctl ∧ (takeHistory gs s).tb = s.tb ∧ (takeHistory gs s).seqr = s.seqr
    ∧ (takeHistory gs s).recs = s.recs ∧ (takeHistory gs s).dets = s.dets ∧ (takeHistory gs s).trig = s.trig
    ∧ (takeHistory gs s).filter = s.filter ∧ (takeHistory gs s).rx = s.rx ∧ (takeHistory gs s).tx = s.tx
    ∧ (takeHistory gs s).mem = s.mem ∧ (takeHistory gs s).port = s.port ∧ (takeHistory gs s).pins = s.pins
    ∧ (takeHistory gs s).pending = s.pending := by
  induction gs generalizing s with
  | nil => simp [takeHistory]
  | cons g gs ih =>
    simp only [takeHistory]
    split
    · simp
    · simp [ih]

/-- What `writerTake` writes, and what it leaves. -/
@[simp] theorem writerTake_frame (s : State) :
    (writerTake s).ctl = s.ctl ∧ (writerTake s).tb = s.tb ∧ (writerTake s).seqr = s.seqr
    ∧ (writerTake s).recs = s.recs ∧ (writerTake s).dets = s.dets ∧ (writerTake s).trig = s.trig
    ∧ (writerTake s).filter = s.filter ∧ (writerTake s).rx = s.rx ∧ (writerTake s).tx = s.tx
    ∧ (writerTake s).mem = s.mem ∧ (writerTake s).port = s.port ∧ (writerTake s).pins = s.pins
    ∧ (writerTake s).pending = s.pending := by
  unfold writerTake
  split
  · rename_i h
    obtain ⟨r, _, rfl⟩ := popFree_eq_some h
    simp
  · simp

/-- What `serveOutstanding` writes, and what it leaves. -/
@[simp] theorem serveOutstanding_frame (s : State) :
    (serveOutstanding s).ctl = s.ctl ∧ (serveOutstanding s).tb = s.tb ∧ (serveOutstanding s).seqr = s.seqr
    ∧ (serveOutstanding s).recs = s.recs ∧ (serveOutstanding s).dets = s.dets ∧ (serveOutstanding s).trig = s.trig
    ∧ (serveOutstanding s).filter = s.filter ∧ (serveOutstanding s).rx = s.rx ∧ (serveOutstanding s).tx = s.tx
    ∧ (serveOutstanding s).mem = s.mem ∧ (serveOutstanding s).port = s.port ∧ (serveOutstanding s).pins = s.pins
    ∧ (serveOutstanding s).pending = s.pending := by
  unfold serveOutstanding
  split
  · split
    · rename_i h
      obtain ⟨r, _, rfl⟩ := popFree_eq_some h
      simp
    · simp
  · simp

/-- What `segmentFull` writes, and what it leaves. -/
@[simp] theorem segmentFull_frame (c : ConfigStore) (g : SegNo) (s : State) :
    (segmentFull c g s).ctl = s.ctl ∧ (segmentFull c g s).tb = s.tb ∧ (segmentFull c g s).seqr = s.seqr
    ∧ (segmentFull c g s).recs = s.recs ∧ (segmentFull c g s).dets = s.dets ∧ (segmentFull c g s).trig = s.trig
    ∧ (segmentFull c g s).filter = s.filter ∧ (segmentFull c g s).rx = s.rx ∧ (segmentFull c g s).tx = s.tx
    ∧ (segmentFull c g s).mem = s.mem ∧ (segmentFull c g s).port = s.port ∧ (segmentFull c g s).pins = s.pins
    ∧ (segmentFull c g s).pending = s.pending := by
  refine ⟨?_, ?_, ?_, ?_, ?_, ?_, ?_, ?_, ?_, ?_, ?_, ?_, ?_⟩
  all_goals
    unfold segmentFull
    try dsimp only
    repeat' split
    all_goals simp

/-- What `missTrigger` writes, and what it leaves. -/
@[simp] theorem missTrigger_frame (s : State) :
    (missTrigger s).ctl = s.ctl ∧ (missTrigger s).tb = s.tb ∧ (missTrigger s).pool = s.pool
    ∧ (missTrigger s).writer = s.writer ∧ (missTrigger s).seqr = s.seqr ∧ (missTrigger s).dets = s.dets
    ∧ (missTrigger s).trig = s.trig ∧ (missTrigger s).filter = s.filter ∧ (missTrigger s).rx = s.rx
    ∧ (missTrigger s).tx = s.tx ∧ (missTrigger s).mem = s.mem ∧ (missTrigger s).ret = s.ret
    ∧ (missTrigger s).port = s.port ∧ (missTrigger s).pins = s.pins ∧ (missTrigger s).pending = s.pending := by
  refine ⟨?_, ?_, ?_, ?_, ?_, ?_, ?_, ?_, ?_, ?_, ?_, ?_, ?_, ?_, ?_⟩
  all_goals
    unfold missTrigger
    try dsimp only
    all_goals simp

/-- What `raiseClosed` writes, and what it leaves. -/
@[simp] theorem raiseClosed_frame (s : State) :
    (raiseClosed s).ctl = s.ctl ∧ (raiseClosed s).tb = s.tb ∧ (raiseClosed s).pool = s.pool
    ∧ (raiseClosed s).writer = s.writer ∧ (raiseClosed s).seqr = s.seqr ∧ (raiseClosed s).recs = s.recs
    ∧ (raiseClosed s).dets = s.dets ∧ (raiseClosed s).trig = s.trig ∧ (raiseClosed s).filter = s.filter
    ∧ (raiseClosed s).rx = s.rx ∧ (raiseClosed s).tx = s.tx ∧ (raiseClosed s).mem = s.mem
    ∧ (raiseClosed s).ret = s.ret ∧ (raiseClosed s).port = s.port ∧ (raiseClosed s).pins = s.pins
    ∧ (raiseClosed s).pending = s.pending := by
  refine ⟨?_, ?_, ?_, ?_, ?_, ?_, ?_, ?_, ?_, ?_, ?_, ?_, ?_, ?_, ?_, ?_⟩
  all_goals
    unfold raiseClosed
    try dsimp only
    all_goals simp

/-- What `completeData` writes, and what it leaves. -/
@[simp] theorem completeData_frame (i : SlotNo) (s : State) :
    (completeData i s).ctl = s.ctl ∧ (completeData i s).tb = s.tb ∧ (completeData i s).seqr = s.seqr
    ∧ (completeData i s).dets = s.dets ∧ (completeData i s).trig = s.trig ∧ (completeData i s).filter = s.filter
    ∧ (completeData i s).rx = s.rx ∧ (completeData i s).tx = s.tx ∧ (completeData i s).mem = s.mem
    ∧ (completeData i s).port = s.port ∧ (completeData i s).pins = s.pins ∧ (completeData i s).pending = s.pending := by
  refine ⟨?_, ?_, ?_, ?_, ?_, ?_, ?_, ?_, ?_, ?_, ?_, ?_⟩
  all_goals
    unfold completeData
    try dsimp only
    repeat' split
    all_goals simp

/-- What `completeAtEnd` writes, and what it leaves. -/
@[simp] theorem completeAtEnd_frame (i : SlotNo) (s : State) :
    (completeAtEnd i s).ctl = s.ctl ∧ (completeAtEnd i s).tb = s.tb ∧ (completeAtEnd i s).seqr = s.seqr
    ∧ (completeAtEnd i s).dets = s.dets ∧ (completeAtEnd i s).trig = s.trig ∧ (completeAtEnd i s).filter = s.filter
    ∧ (completeAtEnd i s).rx = s.rx ∧ (completeAtEnd i s).tx = s.tx ∧ (completeAtEnd i s).mem = s.mem
    ∧ (completeAtEnd i s).port = s.port ∧ (completeAtEnd i s).pins = s.pins
    ∧ (completeAtEnd i s).pending = s.pending := by
  refine ⟨?_, ?_, ?_, ?_, ?_, ?_, ?_, ?_, ?_, ?_, ?_, ?_⟩
  all_goals
    unfold completeAtEnd
    try dsimp only
    repeat' split
    all_goals simp

/-- What `placeRecord` writes, and what it leaves. -/
@[simp] theorem placeRecord_frame (c : ConfigStore) (i : SlotNo) (r : Record) (m : Nat) (s : State) :
    (placeRecord c i r m s).ctl = s.ctl ∧ (placeRecord c i r m s).tb = s.tb
    ∧ (placeRecord c i r m s).writer = s.writer ∧ (placeRecord c i r m s).seqr = s.seqr
    ∧ (placeRecord c i r m s).dets = s.dets ∧ (placeRecord c i r m s).trig = s.trig
    ∧ (placeRecord c i r m s).filter = s.filter ∧ (placeRecord c i r m s).rx = s.rx
    ∧ (placeRecord c i r m s).tx = s.tx ∧ (placeRecord c i r m s).mem = s.mem
    ∧ (placeRecord c i r m s).port = s.port ∧ (placeRecord c i r m s).pins = s.pins
    ∧ (placeRecord c i r m s).pending = s.pending := by
  refine ⟨?_, ?_, ?_, ?_, ?_, ?_, ?_, ?_, ?_, ?_, ?_, ?_, ?_⟩
  all_goals
    unfold placeRecord
    try dsimp only
    repeat' split
    all_goals simp

/-- What `fixTrigger` writes, and what it leaves. -/
@[simp] theorem fixTrigger_frame (c : ConfigStore) (i : SlotNo) (s : State) :
    (fixTrigger c i s).ctl = s.ctl ∧ (fixTrigger c i s).tb = s.tb ∧ (fixTrigger c i s).writer = s.writer
    ∧ (fixTrigger c i s).seqr = s.seqr ∧ (fixTrigger c i s).dets = s.dets ∧ (fixTrigger c i s).trig = s.trig
    ∧ (fixTrigger c i s).filter = s.filter ∧ (fixTrigger c i s).rx = s.rx ∧ (fixTrigger c i s).tx = s.tx
    ∧ (fixTrigger c i s).mem = s.mem ∧ (fixTrigger c i s).port = s.port ∧ (fixTrigger c i s).pins = s.pins
    ∧ (fixTrigger c i s).pending = s.pending := by
  refine ⟨?_, ?_, ?_, ?_, ?_, ?_, ?_, ?_, ?_, ?_, ?_, ?_, ?_⟩
  all_goals
    unfold fixTrigger
    try dsimp only
    repeat' split
    all_goals simp

/-- What `collectClaim` writes, and what it leaves. -/
@[simp] theorem collectClaim_frame (c : ConfigStore) (i : SlotNo) (s : State) :
    (collectClaim c i s).ctl = s.ctl ∧ (collectClaim c i s).tb = s.tb ∧ (collectClaim c i s).seqr = s.seqr
    ∧ (collectClaim c i s).dets = s.dets ∧ (collectClaim c i s).trig = s.trig
    ∧ (collectClaim c i s).filter = s.filter ∧ (collectClaim c i s).rx = s.rx ∧ (collectClaim c i s).tx = s.tx
    ∧ (collectClaim c i s).mem = s.mem ∧ (collectClaim c i s).port = s.port ∧ (collectClaim c i s).pins = s.pins
    ∧ (collectClaim c i s).pending = s.pending := by
  unfold collectClaim
  split
  · simp
  · split
    · simp
    · split
      · rename_i h
        obtain ⟨r, _, rfl⟩ := popFree_eq_some h
        simp
      · simp

/-- What `countReport` writes, and what it leaves. -/
@[simp] theorem countReport_frame (c : ConfigStore) (i : SlotNo) (t : Tick) (s : State) :
    (countReport c i t s).ctl = s.ctl ∧ (countReport c i t s).tb = s.tb ∧ (countReport c i t s).writer = s.writer
    ∧ (countReport c i t s).seqr = s.seqr ∧ (countReport c i t s).dets = s.dets
    ∧ (countReport c i t s).trig = s.trig ∧ (countReport c i t s).filter = s.filter
    ∧ (countReport c i t s).rx = s.rx ∧ (countReport c i t s).tx = s.tx ∧ (countReport c i t s).mem = s.mem
    ∧ (countReport c i t s).port = s.port ∧ (countReport c i t s).pins = s.pins
    ∧ (countReport c i t s).pending = s.pending := by
  refine ⟨?_, ?_, ?_, ?_, ?_, ?_, ?_, ?_, ?_, ?_, ?_, ?_, ?_⟩
  all_goals
    unfold countReport
    try dsimp only
    repeat' split
    all_goals simp

/-- What `endReport` writes, and what it leaves. -/
@[simp] theorem endReport_frame (c : ConfigStore) (i : SlotNo) (f : Bool) (s : State) :
    (endReport c i f s).ctl = s.ctl ∧ (endReport c i f s).tb = s.tb ∧ (endReport c i f s).seqr = s.seqr
    ∧ (endReport c i f s).dets = s.dets ∧ (endReport c i f s).trig = s.trig ∧ (endReport c i f s).filter = s.filter
    ∧ (endReport c i f s).rx = s.rx ∧ (endReport c i f s).tx = s.tx ∧ (endReport c i f s).mem = s.mem
    ∧ (endReport c i f s).port = s.port ∧ (endReport c i f s).pins = s.pins
    ∧ (endReport c i f s).pending = s.pending := by
  refine ⟨?_, ?_, ?_, ?_, ?_, ?_, ?_, ?_, ?_, ?_, ?_, ?_⟩
  all_goals
    unfold endReport
    try dsimp only
    repeat' split
    all_goals simp

/-- What `recordReport` writes, and what it leaves. -/
@[simp] theorem recordReport_frame (c : ConfigStore) (i : SlotNo) (t : Tick) (f : Bool) (s : State) :
    (recordReport c i t f s).ctl = s.ctl ∧ (recordReport c i t f s).tb = s.tb
    ∧ (recordReport c i t f s).seqr = s.seqr ∧ (recordReport c i t f s).dets = s.dets
    ∧ (recordReport c i t f s).trig = s.trig ∧ (recordReport c i t f s).filter = s.filter
    ∧ (recordReport c i t f s).rx = s.rx ∧ (recordReport c i t f s).tx = s.tx
    ∧ (recordReport c i t f s).mem = s.mem ∧ (recordReport c i t f s).port = s.port
    ∧ (recordReport c i t f s).pins = s.pins ∧ (recordReport c i t f s).pending = s.pending := by
  refine ⟨?_, ?_, ?_, ?_, ?_, ?_, ?_, ?_, ?_, ?_, ?_, ?_⟩
  all_goals
    unfold recordReport
    try dsimp only
    all_goals simp

/-- What `openRecord` writes, and what it leaves. -/
@[simp] theorem openRecord_frame (c : ConfigStore) (e : Capture) (q : Option Cause) (s : State) :
    (openRecord c e q s).ctl = s.ctl ∧ (openRecord c e q s).tb = s.tb ∧ (openRecord c e q s).seqr = s.seqr
    ∧ (openRecord c e q s).dets = s.dets ∧ (openRecord c e q s).trig = s.trig
    ∧ (openRecord c e q s).filter = s.filter ∧ (openRecord c e q s).rx = s.rx ∧ (openRecord c e q s).tx = s.tx
    ∧ (openRecord c e q s).mem = s.mem ∧ (openRecord c e q s).port = s.port ∧ (openRecord c e q s).pins = s.pins
    ∧ (openRecord c e q s).pending = s.pending := by
  refine ⟨?_, ?_, ?_, ?_, ?_, ?_, ?_, ?_, ?_, ?_, ?_, ?_⟩
  all_goals
    unfold openRecord
    try dsimp only
    repeat' split
    all_goals simp

/-- What `triggerEvent` writes, and what it leaves. -/
@[simp] theorem triggerEvent_frame (c : ConfigStore) (e : Capture) (q : Option Cause) (s : State) :
    (triggerEvent c e q s).ctl = s.ctl ∧ (triggerEvent c e q s).tb = s.tb ∧ (triggerEvent c e q s).seqr = s.seqr
    ∧ (triggerEvent c e q s).dets = s.dets ∧ (triggerEvent c e q s).trig = s.trig
    ∧ (triggerEvent c e q s).filter = s.filter ∧ (triggerEvent c e q s).rx = s.rx
    ∧ (triggerEvent c e q s).tx = s.tx ∧ (triggerEvent c e q s).mem = s.mem ∧ (triggerEvent c e q s).port = s.port
    ∧ (triggerEvent c e q s).pins = s.pins ∧ (triggerEvent c e q s).pending = s.pending := by
  refine ⟨?_, ?_, ?_, ?_, ?_, ?_, ?_, ?_, ?_, ?_, ?_, ?_⟩
  all_goals
    unfold triggerEvent
    try dsimp only
    repeat' split
    all_goals simp

/-- What `attachCause` writes, and what it leaves. -/
@[simp] theorem attachCause_frame (q : Cause) (s : State) :
    (attachCause q s).ctl = s.ctl ∧ (attachCause q s).tb = s.tb ∧ (attachCause q s).pool = s.pool
    ∧ (attachCause q s).writer = s.writer ∧ (attachCause q s).seqr = s.seqr ∧ (attachCause q s).dets = s.dets
    ∧ (attachCause q s).trig = s.trig ∧ (attachCause q s).filter = s.filter ∧ (attachCause q s).rx = s.rx
    ∧ (attachCause q s).tx = s.tx ∧ (attachCause q s).mem = s.mem ∧ (attachCause q s).ret = s.ret
    ∧ (attachCause q s).ev = s.ev ∧ (attachCause q s).port = s.port ∧ (attachCause q s).pins = s.pins
    ∧ (attachCause q s).pending = s.pending := by
  refine ⟨?_, ?_, ?_, ?_, ?_, ?_, ?_, ?_, ?_, ?_, ?_, ?_, ?_, ?_, ?_, ?_⟩
  all_goals
    unfold attachCause
    try dsimp only
    repeat' split
    all_goals simp

/-- What `windowResult` writes, and what it leaves. -/
@[simp] theorem windowResult_frame (r : Option IdSet) (s : State) :
    (windowResult r s).ctl = s.ctl ∧ (windowResult r s).tb = s.tb ∧ (windowResult r s).pool = s.pool
    ∧ (windowResult r s).writer = s.writer ∧ (windowResult r s).seqr = s.seqr ∧ (windowResult r s).dets = s.dets
    ∧ (windowResult r s).trig = s.trig ∧ (windowResult r s).filter = s.filter ∧ (windowResult r s).rx = s.rx
    ∧ (windowResult r s).tx = s.tx ∧ (windowResult r s).mem = s.mem ∧ (windowResult r s).ret = s.ret
    ∧ (windowResult r s).port = s.port ∧ (windowResult r s).pins = s.pins ∧ (windowResult r s).pending = s.pending := by
  refine ⟨?_, ?_, ?_, ?_, ?_, ?_, ?_, ?_, ?_, ?_, ?_, ?_, ?_, ?_, ?_⟩
  all_goals
    unfold windowResult
    try dsimp only
    repeat' split
    all_goals simp

/-- What `closeOpen` writes, and what it leaves. -/
@[simp] theorem closeOpen_frame (c : ConfigStore) (b : Bool) (s : State) :
    (closeOpen c b s).ctl = s.ctl ∧ (closeOpen c b s).tb = s.tb ∧ (closeOpen c b s).pool = s.pool
    ∧ (closeOpen c b s).writer = s.writer ∧ (closeOpen c b s).seqr = s.seqr ∧ (closeOpen c b s).dets = s.dets
    ∧ (closeOpen c b s).trig = s.trig ∧ (closeOpen c b s).filter = s.filter ∧ (closeOpen c b s).rx = s.rx
    ∧ (closeOpen c b s).tx = s.tx ∧ (closeOpen c b s).mem = s.mem ∧ (closeOpen c b s).ret = s.ret
    ∧ (closeOpen c b s).port = s.port ∧ (closeOpen c b s).pins = s.pins ∧ (closeOpen c b s).pending = s.pending := by
  refine ⟨?_, ?_, ?_, ?_, ?_, ?_, ?_, ?_, ?_, ?_, ?_, ?_, ?_, ?_, ?_⟩
  all_goals
    unfold closeOpen
    try dsimp only
    repeat' split
    all_goals simp

/-- What `markRecord` writes, and what it leaves. -/
@[simp] theorem markRecord_frame (g : SegNo) (s : State) :
    (markRecord g s).ctl = s.ctl ∧ (markRecord g s).tb = s.tb ∧ (markRecord g s).pool = s.pool
    ∧ (markRecord g s).writer = s.writer ∧ (markRecord g s).seqr = s.seqr ∧ (markRecord g s).dets = s.dets
    ∧ (markRecord g s).trig = s.trig ∧ (markRecord g s).filter = s.filter ∧ (markRecord g s).rx = s.rx
    ∧ (markRecord g s).tx = s.tx ∧ (markRecord g s).mem = s.mem ∧ (markRecord g s).ret = s.ret
    ∧ (markRecord g s).ev = s.ev ∧ (markRecord g s).port = s.port ∧ (markRecord g s).pins = s.pins
    ∧ (markRecord g s).pending = s.pending := by
  refine ⟨?_, ?_, ?_, ?_, ?_, ?_, ?_, ?_, ?_, ?_, ?_, ?_, ?_, ?_, ?_, ?_⟩
  all_goals
    unfold markRecord
    try dsimp only
    repeat' split
    all_goals simp

/-- What `suppress` writes, and what it leaves. -/
@[simp] theorem suppress_frame (s : State) :
    (suppress s).ctl = s.ctl ∧ (suppress s).tb = s.tb ∧ (suppress s).pool = s.pool ∧ (suppress s).writer = s.writer
    ∧ (suppress s).seqr = s.seqr ∧ (suppress s).recs = s.recs ∧ (suppress s).dets = s.dets
    ∧ (suppress s).trig = s.trig ∧ (suppress s).filter = s.filter ∧ (suppress s).rx = s.rx
    ∧ (suppress s).mem = s.mem ∧ (suppress s).ret = s.ret ∧ (suppress s).ev = s.ev ∧ (suppress s).port = s.port
    ∧ (suppress s).pins = s.pins ∧ (suppress s).pending = s.pending := by
  refine ⟨?_, ?_, ?_, ?_, ?_, ?_, ?_, ?_, ?_, ?_, ?_, ?_, ?_, ?_, ?_, ?_⟩
  all_goals
    unfold suppress
    try dsimp only

/-- What `holdRequest` writes, and what it leaves. -/
@[simp] theorem holdRequest_frame (q : CauseSet) (t : Timestamp) (s : State) :
    (holdRequest q t s).ctl = s.ctl ∧ (holdRequest q t s).tb = s.tb ∧ (holdRequest q t s).pool = s.pool
    ∧ (holdRequest q t s).writer = s.writer ∧ (holdRequest q t s).seqr = s.seqr ∧ (holdRequest q t s).recs = s.recs
    ∧ (holdRequest q t s).dets = s.dets ∧ (holdRequest q t s).trig = s.trig ∧ (holdRequest q t s).filter = s.filter
    ∧ (holdRequest q t s).rx = s.rx ∧ (holdRequest q t s).mem = s.mem ∧ (holdRequest q t s).ret = s.ret
    ∧ (holdRequest q t s).ev = s.ev ∧ (holdRequest q t s).port = s.port ∧ (holdRequest q t s).pins = s.pins
    ∧ (holdRequest q t s).pending = s.pending := by
  refine ⟨?_, ?_, ?_, ?_, ?_, ?_, ?_, ?_, ?_, ?_, ?_, ?_, ?_, ?_, ?_, ?_⟩
  all_goals
    unfold holdRequest
    try dsimp only

/-- What `joinTrigger` writes, and what it leaves. -/
@[simp] theorem joinTrigger_frame (q : CauseSet) (t : Timestamp) (s : State) :
    (joinTrigger q t s).ctl = s.ctl ∧ (joinTrigger q t s).tb = s.tb ∧ (joinTrigger q t s).pool = s.pool
    ∧ (joinTrigger q t s).writer = s.writer ∧ (joinTrigger q t s).seqr = s.seqr ∧ (joinTrigger q t s).dets = s.dets
    ∧ (joinTrigger q t s).trig = s.trig ∧ (joinTrigger q t s).filter = s.filter ∧ (joinTrigger q t s).rx = s.rx
    ∧ (joinTrigger q t s).mem = s.mem ∧ (joinTrigger q t s).ret = s.ret ∧ (joinTrigger q t s).ev = s.ev
    ∧ (joinTrigger q t s).port = s.port ∧ (joinTrigger q t s).pins = s.pins
    ∧ (joinTrigger q t s).pending = s.pending := by
  refine ⟨?_, ?_, ?_, ?_, ?_, ?_, ?_, ?_, ?_, ?_, ?_, ?_, ?_, ?_, ?_⟩
  all_goals
    unfold joinTrigger
    try dsimp only
    all_goals simp

/-- What `offer` writes, and what it leaves. -/
@[simp] theorem offer_frame (c : ConfigStore) (q : CauseSet) (t : Timestamp) (s : State) :
    (offer c q t s).ctl = s.ctl ∧ (offer c q t s).tb = s.tb ∧ (offer c q t s).pool = s.pool
    ∧ (offer c q t s).writer = s.writer ∧ (offer c q t s).seqr = s.seqr ∧ (offer c q t s).dets = s.dets
    ∧ (offer c q t s).trig = s.trig ∧ (offer c q t s).filter = s.filter ∧ (offer c q t s).rx = s.rx
    ∧ (offer c q t s).mem = s.mem ∧ (offer c q t s).ret = s.ret ∧ (offer c q t s).ev = s.ev
    ∧ (offer c q t s).port = s.port ∧ (offer c q t s).pins = s.pins ∧ (offer c q t s).pending = s.pending := by
  refine ⟨?_, ?_, ?_, ?_, ?_, ?_, ?_, ?_, ?_, ?_, ?_, ?_, ?_, ?_, ?_⟩
  all_goals
    unfold offer
    try dsimp only
    repeat' split
    all_goals simp

/-- What `absorb` writes, and what it leaves. -/
@[simp] theorem absorb_frame (s : State) :
    (absorb s).ctl = s.ctl ∧ (absorb s).tb = s.tb ∧ (absorb s).pool = s.pool ∧ (absorb s).writer = s.writer
    ∧ (absorb s).seqr = s.seqr ∧ (absorb s).recs = s.recs ∧ (absorb s).dets = s.dets ∧ (absorb s).trig = s.trig
    ∧ (absorb s).filter = s.filter ∧ (absorb s).rx = s.rx ∧ (absorb s).mem = s.mem ∧ (absorb s).ret = s.ret
    ∧ (absorb s).port = s.port ∧ (absorb s).pins = s.pins ∧ (absorb s).pending = s.pending := by
  refine ⟨?_, ?_, ?_, ?_, ?_, ?_, ?_, ?_, ?_, ?_, ?_, ?_, ?_, ?_, ?_⟩
  all_goals
    unfold absorb
    try dsimp only
    repeat' split
    all_goals simp

/-- What `absorbOwn` writes, and what it leaves. -/
@[simp] theorem absorbOwn_frame (s : State) :
    (absorbOwn s).ctl = s.ctl ∧ (absorbOwn s).tb = s.tb ∧ (absorbOwn s).pool = s.pool
    ∧ (absorbOwn s).writer = s.writer ∧ (absorbOwn s).seqr = s.seqr ∧ (absorbOwn s).recs = s.recs
    ∧ (absorbOwn s).dets = s.dets ∧ (absorbOwn s).trig = s.trig ∧ (absorbOwn s).filter = s.filter
    ∧ (absorbOwn s).rx = s.rx ∧ (absorbOwn s).mem = s.mem ∧ (absorbOwn s).ret = s.ret ∧ (absorbOwn s).port = s.port
    ∧ (absorbOwn s).pins = s.pins ∧ (absorbOwn s).pending = s.pending := by
  refine ⟨?_, ?_, ?_, ?_, ?_, ?_, ?_, ?_, ?_, ?_, ?_, ?_, ?_, ?_, ?_⟩
  all_goals
    unfold absorbOwn
    try dsimp only
    repeat' split
    all_goals simp

/-- What `dropOwnEpoch` writes, and what it leaves. -/
@[simp] theorem dropOwnEpoch_frame (s : State) :
    (dropOwnEpoch s).ctl = s.ctl ∧ (dropOwnEpoch s).tb = s.tb ∧ (dropOwnEpoch s).pool = s.pool
    ∧ (dropOwnEpoch s).writer = s.writer ∧ (dropOwnEpoch s).seqr = s.seqr ∧ (dropOwnEpoch s).recs = s.recs
    ∧ (dropOwnEpoch s).dets = s.dets ∧ (dropOwnEpoch s).trig = s.trig ∧ (dropOwnEpoch s).filter = s.filter
    ∧ (dropOwnEpoch s).rx = s.rx ∧ (dropOwnEpoch s).mem = s.mem ∧ (dropOwnEpoch s).ret = s.ret
    ∧ (dropOwnEpoch s).ev = s.ev ∧ (dropOwnEpoch s).port = s.port ∧ (dropOwnEpoch s).pins = s.pins
    ∧ (dropOwnEpoch s).pending = s.pending := by
  refine ⟨?_, ?_, ?_, ?_, ?_, ?_, ?_, ?_, ?_, ?_, ?_, ?_, ?_, ?_, ?_, ?_⟩
  all_goals
    unfold dropOwnEpoch
    try dsimp only
    repeat' split
    all_goals simp

/-- What `endDrive` writes, and what it leaves. -/
@[simp] theorem endDrive_frame (s : State) :
    (endDrive s).ctl = s.ctl ∧ (endDrive s).tb = s.tb ∧ (endDrive s).pool = s.pool ∧ (endDrive s).writer = s.writer
    ∧ (endDrive s).seqr = s.seqr ∧ (endDrive s).recs = s.recs ∧ (endDrive s).dets = s.dets
    ∧ (endDrive s).trig = s.trig ∧ (endDrive s).filter = s.filter ∧ (endDrive s).rx = s.rx
    ∧ (endDrive s).mem = s.mem ∧ (endDrive s).ret = s.ret ∧ (endDrive s).ev = s.ev ∧ (endDrive s).port = s.port
    ∧ (endDrive s).pins = s.pins ∧ (endDrive s).pending = s.pending := by
  refine ⟨?_, ?_, ?_, ?_, ?_, ?_, ?_, ?_, ?_, ?_, ?_, ?_, ?_, ?_, ?_, ?_⟩
  all_goals
    unfold endDrive
    try dsimp only

/-- What `serveRequest` writes, and what it leaves. -/
@[simp] theorem serveRequest_frame (s : State) :
    (serveRequest s).ctl = s.ctl ∧ (serveRequest s).tb = s.tb ∧ (serveRequest s).pool = s.pool
    ∧ (serveRequest s).writer = s.writer ∧ (serveRequest s).seqr = s.seqr ∧ (serveRequest s).recs = s.recs
    ∧ (serveRequest s).dets = s.dets ∧ (serveRequest s).trig = s.trig ∧ (serveRequest s).filter = s.filter
    ∧ (serveRequest s).rx = s.rx ∧ (serveRequest s).mem = s.mem ∧ (serveRequest s).ret = s.ret
    ∧ (serveRequest s).ev = s.ev ∧ (serveRequest s).port = s.port ∧ (serveRequest s).pins = s.pins
    ∧ (serveRequest s).pending = s.pending := by
  refine ⟨?_, ?_, ?_, ?_, ?_, ?_, ?_, ?_, ?_, ?_, ?_, ?_, ?_, ?_, ?_, ?_⟩
  all_goals
    unfold serveRequest
    try dsimp only
    repeat' split
    all_goals simp

/-- What `satisfyEpoch` writes, and what it leaves. -/
@[simp] theorem satisfyEpoch_frame (s : State) :
    (satisfyEpoch s).ctl = s.ctl ∧ (satisfyEpoch s).tb = s.tb ∧ (satisfyEpoch s).pool = s.pool
    ∧ (satisfyEpoch s).writer = s.writer ∧ (satisfyEpoch s).seqr = s.seqr ∧ (satisfyEpoch s).recs = s.recs
    ∧ (satisfyEpoch s).dets = s.dets ∧ (satisfyEpoch s).trig = s.trig ∧ (satisfyEpoch s).filter = s.filter
    ∧ (satisfyEpoch s).rx = s.rx ∧ (satisfyEpoch s).mem = s.mem ∧ (satisfyEpoch s).ret = s.ret
    ∧ (satisfyEpoch s).ev = s.ev ∧ (satisfyEpoch s).port = s.port ∧ (satisfyEpoch s).pins = s.pins
    ∧ (satisfyEpoch s).pending = s.pending := by
  refine ⟨?_, ?_, ?_, ?_, ?_, ?_, ?_, ?_, ?_, ?_, ?_, ?_, ?_, ?_, ?_, ?_⟩
  all_goals
    unfold satisfyEpoch
    try dsimp only
    repeat' split
    all_goals simp

/-- What `align` writes, and what it leaves. -/
@[simp] theorem align_frame (c : ConfigStore) (e : EdgeCapture) (s : State) :
    (align c e s).ctl = s.ctl ∧ (align c e s).pool = s.pool ∧ (align c e s).writer = s.writer
    ∧ (align c e s).seqr = s.seqr ∧ (align c e s).recs = s.recs ∧ (align c e s).dets = s.dets
    ∧ (align c e s).trig = s.trig ∧ (align c e s).filter = s.filter ∧ (align c e s).rx = s.rx
    ∧ (align c e s).tx = s.tx ∧ (align c e s).mem = s.mem ∧ (align c e s).ret = s.ret ∧ (align c e s).port = s.port
    ∧ (align c e s).pins = s.pins ∧ (align c e s).pending = s.pending := by
  refine ⟨?_, ?_, ?_, ?_, ?_, ?_, ?_, ?_, ?_, ?_, ?_, ?_, ?_, ?_, ?_⟩
  all_goals
    unfold align
    try dsimp only
    repeat' split
    all_goals simp

/-- What `onTrigger` writes, and what it leaves. -/
@[simp] theorem onTrigger_frame (c : ConfigStore) (e : EdgeCapture) (s : State) :
    (onTrigger c e s).ctl = s.ctl ∧ (onTrigger c e s).tb = s.tb ∧ (onTrigger c e s).seqr = s.seqr
    ∧ (onTrigger c e s).dets = s.dets ∧ (onTrigger c e s).trig = s.trig ∧ (onTrigger c e s).filter = s.filter
    ∧ (onTrigger c e s).mem = s.mem ∧ (onTrigger c e s).port = s.port ∧ (onTrigger c e s).pins = s.pins
    ∧ (onTrigger c e s).pending = s.pending := by
  refine ⟨?_, ?_, ?_, ?_, ?_, ?_, ?_, ?_, ?_, ?_⟩
  all_goals
    unfold onTrigger
    try dsimp only
    all_goals simp

/-- What `onEpoch` writes, and what it leaves. -/
@[simp] theorem onEpoch_frame (c : ConfigStore) (e : EdgeCapture) (s : State) :
    (onEpoch c e s).ctl = s.ctl ∧ (onEpoch c e s).pool = s.pool ∧ (onEpoch c e s).writer = s.writer
    ∧ (onEpoch c e s).seqr = s.seqr ∧ (onEpoch c e s).recs = s.recs ∧ (onEpoch c e s).dets = s.dets
    ∧ (onEpoch c e s).trig = s.trig ∧ (onEpoch c e s).filter = s.filter ∧ (onEpoch c e s).mem = s.mem
    ∧ (onEpoch c e s).ret = s.ret ∧ (onEpoch c e s).port = s.port ∧ (onEpoch c e s).pins = s.pins
    ∧ (onEpoch c e s).pending = s.pending := by
  refine ⟨?_, ?_, ?_, ?_, ?_, ?_, ?_, ?_, ?_, ?_, ?_, ?_, ?_⟩
  all_goals
    unfold onEpoch
    try dsimp only
    all_goals simp

/-- What `onMalformed` writes, and what it leaves. -/
@[simp] theorem onMalformed_frame (s : State) :
    (onMalformed s).ctl = s.ctl ∧ (onMalformed s).tb = s.tb ∧ (onMalformed s).pool = s.pool
    ∧ (onMalformed s).writer = s.writer ∧ (onMalformed s).seqr = s.seqr ∧ (onMalformed s).recs = s.recs
    ∧ (onMalformed s).dets = s.dets ∧ (onMalformed s).trig = s.trig ∧ (onMalformed s).filter = s.filter
    ∧ (onMalformed s).mem = s.mem ∧ (onMalformed s).ret = s.ret ∧ (onMalformed s).port = s.port
    ∧ (onMalformed s).pins = s.pins ∧ (onMalformed s).pending = s.pending := by
  refine ⟨?_, ?_, ?_, ?_, ?_, ?_, ?_, ?_, ?_, ?_, ?_, ?_, ?_, ?_⟩
  all_goals
    unfold onMalformed
    try dsimp only
    all_goals simp

/-- What `onGlitch` writes, and what it leaves. -/
@[simp] theorem onGlitch_frame (s : State) :
    (onGlitch s).ctl = s.ctl ∧ (onGlitch s).tb = s.tb ∧ (onGlitch s).pool = s.pool ∧ (onGlitch s).writer = s.writer
    ∧ (onGlitch s).seqr = s.seqr ∧ (onGlitch s).recs = s.recs ∧ (onGlitch s).dets = s.dets
    ∧ (onGlitch s).trig = s.trig ∧ (onGlitch s).filter = s.filter ∧ (onGlitch s).mem = s.mem
    ∧ (onGlitch s).ret = s.ret ∧ (onGlitch s).port = s.port ∧ (onGlitch s).pins = s.pins
    ∧ (onGlitch s).pending = s.pending := by
  refine ⟨?_, ?_, ?_, ?_, ?_, ?_, ?_, ?_, ?_, ?_, ?_, ?_, ?_, ?_⟩
  all_goals
    unfold onGlitch
    try dsimp only
    all_goals simp

/-- What `classifyPulse` writes, and what it leaves. -/
@[simp] theorem classifyPulse_frame (c : ConfigStore) (w : Nat) (s : State) :
    (classifyPulse c w s).ctl = s.ctl ∧ (classifyPulse c w s).seqr = s.seqr ∧ (classifyPulse c w s).dets = s.dets
    ∧ (classifyPulse c w s).trig = s.trig ∧ (classifyPulse c w s).filter = s.filter
    ∧ (classifyPulse c w s).mem = s.mem ∧ (classifyPulse c w s).port = s.port ∧ (classifyPulse c w s).pins = s.pins
    ∧ (classifyPulse c w s).pending = s.pending := by
  refine ⟨?_, ?_, ?_, ?_, ?_, ?_, ?_, ?_, ?_⟩
  all_goals
    unfold classifyPulse
    try dsimp only
    repeat' split
    all_goals simp

/-- What `acceptLevel` writes, and what it leaves. -/
@[simp] theorem acceptLevel_frame (s : State) :
    (acceptLevel s).ctl = s.ctl ∧ (acceptLevel s).tb = s.tb ∧ (acceptLevel s).pool = s.pool
    ∧ (acceptLevel s).writer = s.writer ∧ (acceptLevel s).seqr = s.seqr ∧ (acceptLevel s).recs = s.recs
    ∧ (acceptLevel s).dets = s.dets ∧ (acceptLevel s).trig = s.trig ∧ (acceptLevel s).rx = s.rx
    ∧ (acceptLevel s).tx = s.tx ∧ (acceptLevel s).mem = s.mem ∧ (acceptLevel s).ret = s.ret
    ∧ (acceptLevel s).ev = s.ev ∧ (acceptLevel s).port = s.port ∧ (acceptLevel s).pins = s.pins
    ∧ (acceptLevel s).pending = s.pending := by
  refine ⟨?_, ?_, ?_, ?_, ?_, ?_, ?_, ?_, ?_, ?_, ?_, ?_, ?_, ?_, ?_, ?_⟩
  all_goals
    unfold acceptLevel
    try dsimp only
    repeat' split
    all_goals simp

/-- What `sampleLine` writes, and what it leaves. -/
@[simp] theorem sampleLine_frame (s : State) :
    (sampleLine s).ctl = s.ctl ∧ (sampleLine s).tb = s.tb ∧ (sampleLine s).pool = s.pool
    ∧ (sampleLine s).writer = s.writer ∧ (sampleLine s).seqr = s.seqr ∧ (sampleLine s).recs = s.recs
    ∧ (sampleLine s).dets = s.dets ∧ (sampleLine s).trig = s.trig ∧ (sampleLine s).rx = s.rx
    ∧ (sampleLine s).tx = s.tx ∧ (sampleLine s).mem = s.mem ∧ (sampleLine s).ret = s.ret ∧ (sampleLine s).ev = s.ev
    ∧ (sampleLine s).port = s.port ∧ (sampleLine s).pins = s.pins ∧ (sampleLine s).pending = s.pending := by
  refine ⟨?_, ?_, ?_, ?_, ?_, ?_, ?_, ?_, ?_, ?_, ?_, ?_, ?_, ?_, ?_, ?_⟩
  all_goals
    unfold sampleLine
    try dsimp only
    repeat' split
    all_goals simp

/-- What `countTick` writes, and what it leaves. -/
@[simp] theorem countTick_frame (s : State) :
    (countTick s).pool = s.pool ∧ (countTick s).writer = s.writer ∧ (countTick s).recs = s.recs
    ∧ (countTick s).dets = s.dets ∧ (countTick s).rx = s.rx ∧ (countTick s).ret = s.ret ∧ (countTick s).ev = s.ev
    ∧ (countTick s).port = s.port ∧ (countTick s).pins = s.pins ∧ (countTick s).pending = s.pending := by
  refine ⟨?_, ?_, ?_, ?_, ?_, ?_, ?_, ?_, ?_, ?_⟩
  all_goals
    unfold countTick
    try dsimp only
    repeat' split
    all_goals simp

/-- What `tick` writes, and what it leaves. -/
@[simp] theorem tick_frame (s : State) :
    (tick s).pool = s.pool ∧ (tick s).writer = s.writer ∧ (tick s).recs = s.recs ∧ (tick s).dets = s.dets
    ∧ (tick s).rx = s.rx ∧ (tick s).ret = s.ret ∧ (tick s).ev = s.ev ∧ (tick s).port = s.port
    ∧ (tick s).pins = s.pins ∧ (tick s).pending = s.pending := by
  refine ⟨?_, ?_, ?_, ?_, ?_, ?_, ?_, ?_, ?_, ?_⟩
  all_goals
    unfold tick
    try dsimp only
    all_goals simp

/-- What `elapse` writes, and what it leaves. -/
@[simp] theorem elapse_frame (n : Nat) (s : State) :
    (s.elapse n).pool = s.pool ∧ (s.elapse n).writer = s.writer ∧ (s.elapse n).recs = s.recs
    ∧ (s.elapse n).dets = s.dets ∧ (s.elapse n).rx = s.rx ∧ (s.elapse n).ret = s.ret ∧ (s.elapse n).ev = s.ev
    ∧ (s.elapse n).port = s.port ∧ (s.elapse n).pins = s.pins ∧ (s.elapse n).pending = s.pending := by
  induction n generalizing s with
  | zero => simp [State.elapse]
  | succ n ih => simp [State.elapse, ih]

/-- What `settle` writes, and what it leaves. -/
@[simp] theorem settle_frame (b : Bool) (s : State) :
    (settle b s).pool = s.pool ∧ (settle b s).writer = s.writer ∧ (settle b s).recs = s.recs
    ∧ (settle b s).dets = s.dets ∧ (settle b s).rx = s.rx ∧ (settle b s).ret = s.ret ∧ (settle b s).ev = s.ev
    ∧ (settle b s).port = s.port ∧ (settle b s).pins = s.pins ∧ (settle b s).pending = s.pending := by
  refine ⟨?_, ?_, ?_, ?_, ?_, ?_, ?_, ?_, ?_, ?_⟩
  all_goals
    unfold settle
    try dsimp only
    repeat' split
    all_goals simp

/-- What `pullLine` writes, and what it leaves. -/
@[simp] theorem pullLine_frame (s : State) :
    (pullLine s).ctl = s.ctl ∧ (pullLine s).tb = s.tb ∧ (pullLine s).pool = s.pool ∧ (pullLine s).writer = s.writer
    ∧ (pullLine s).seqr = s.seqr ∧ (pullLine s).recs = s.recs ∧ (pullLine s).dets = s.dets
    ∧ (pullLine s).trig = s.trig ∧ (pullLine s).filter = s.filter ∧ (pullLine s).rx = s.rx ∧ (pullLine s).tx = s.tx
    ∧ (pullLine s).mem = s.mem ∧ (pullLine s).ret = s.ret ∧ (pullLine s).ev = s.ev ∧ (pullLine s).port = s.port
    ∧ (pullLine s).pending = s.pending := by
  refine ⟨?_, ?_, ?_, ?_, ?_, ?_, ?_, ?_, ?_, ?_, ?_, ?_, ?_, ?_, ?_, ?_⟩
  all_goals
    unfold pullLine
    try dsimp only
    repeat' split
    all_goals simp

/-- What `releaseWhile` writes, and what it leaves. -/
@[simp] theorem releaseWhile_frame (n : Nat) (s : State) :
    (releaseWhile n s).ctl = s.ctl ∧ (releaseWhile n s).tb = s.tb ∧ (releaseWhile n s).pool = s.pool
    ∧ (releaseWhile n s).writer = s.writer ∧ (releaseWhile n s).seqr = s.seqr ∧ (releaseWhile n s).recs = s.recs
    ∧ (releaseWhile n s).dets = s.dets ∧ (releaseWhile n s).trig = s.trig ∧ (releaseWhile n s).filter = s.filter
    ∧ (releaseWhile n s).rx = s.rx ∧ (releaseWhile n s).tx = s.tx ∧ (releaseWhile n s).mem = s.mem
    ∧ (releaseWhile n s).ret = s.ret ∧ (releaseWhile n s).ev = s.ev ∧ (releaseWhile n s).port = s.port
    ∧ (releaseWhile n s).pending = s.pending := by
  refine ⟨?_, ?_, ?_, ?_, ?_, ?_, ?_, ?_, ?_, ?_, ?_, ?_, ?_, ?_, ?_, ?_⟩
  all_goals
    unfold releaseWhile
    try dsimp only
    repeat' split
    all_goals simp

/-- What `cutShort` writes, and what it leaves. -/
@[simp] theorem cutShort_frame (s : State) :
    (cutShort s).ctl = s.ctl ∧ (cutShort s).tb = s.tb ∧ (cutShort s).pool = s.pool ∧ (cutShort s).writer = s.writer
    ∧ (cutShort s).seqr = s.seqr ∧ (cutShort s).recs = s.recs ∧ (cutShort s).dets = s.dets
    ∧ (cutShort s).trig = s.trig ∧ (cutShort s).filter = s.filter ∧ (cutShort s).tx = s.tx
    ∧ (cutShort s).mem = s.mem ∧ (cutShort s).ret = s.ret ∧ (cutShort s).port = s.port ∧ (cutShort s).pins = s.pins
    ∧ (cutShort s).pending = s.pending := by
  refine ⟨?_, ?_, ?_, ?_, ?_, ?_, ?_, ?_, ?_, ?_, ?_, ?_, ?_, ?_, ?_⟩
  all_goals
    unfold cutShort
    try dsimp only
    all_goals simp

/-- What `numberResult` writes, and what it leaves. -/
@[simp] theorem numberResult_frame (r : Option (BitVec 16)) (s : State) :
    (numberResult r s).ctl = s.ctl ∧ (numberResult r s).pool = s.pool ∧ (numberResult r s).writer = s.writer
    ∧ (numberResult r s).seqr = s.seqr ∧ (numberResult r s).recs = s.recs ∧ (numberResult r s).dets = s.dets
    ∧ (numberResult r s).trig = s.trig ∧ (numberResult r s).filter = s.filter ∧ (numberResult r s).rx = s.rx
    ∧ (numberResult r s).tx = s.tx ∧ (numberResult r s).mem = s.mem ∧ (numberResult r s).ret = s.ret
    ∧ (numberResult r s).port = s.port ∧ (numberResult r s).pins = s.pins ∧ (numberResult r s).pending = s.pending := by
  refine ⟨?_, ?_, ?_, ?_, ?_, ?_, ?_, ?_, ?_, ?_, ?_, ?_, ?_, ?_, ?_⟩
  all_goals
    unfold numberResult
    try dsimp only
    repeat' split
    all_goals simp

/-- What `endTagWindow` writes, and what it leaves. -/
@[simp] theorem endTagWindow_frame (c : ConfigStore) (s : State) :
    (endTagWindow c s).ctl = s.ctl ∧ (endTagWindow c s).tb = s.tb ∧ (endTagWindow c s).pool = s.pool
    ∧ (endTagWindow c s).writer = s.writer ∧ (endTagWindow c s).seqr = s.seqr ∧ (endTagWindow c s).dets = s.dets
    ∧ (endTagWindow c s).trig = s.trig ∧ (endTagWindow c s).filter = s.filter ∧ (endTagWindow c s).mem = s.mem
    ∧ (endTagWindow c s).ret = s.ret ∧ (endTagWindow c s).port = s.port ∧ (endTagWindow c s).pins = s.pins
    ∧ (endTagWindow c s).pending = s.pending := by
  refine ⟨?_, ?_, ?_, ?_, ?_, ?_, ?_, ?_, ?_, ?_, ?_, ?_, ?_⟩
  all_goals
    unfold endTagWindow
    try dsimp only
    repeat' split
    all_goals simp

/-- What `endNumberWindow` writes, and what it leaves. -/
@[simp] theorem endNumberWindow_frame (s : State) :
    (endNumberWindow s).ctl = s.ctl ∧ (endNumberWindow s).pool = s.pool ∧ (endNumberWindow s).writer = s.writer
    ∧ (endNumberWindow s).seqr = s.seqr ∧ (endNumberWindow s).recs = s.recs ∧ (endNumberWindow s).dets = s.dets
    ∧ (endNumberWindow s).trig = s.trig ∧ (endNumberWindow s).filter = s.filter ∧ (endNumberWindow s).mem = s.mem
    ∧ (endNumberWindow s).ret = s.ret ∧ (endNumberWindow s).port = s.port ∧ (endNumberWindow s).pins = s.pins
    ∧ (endNumberWindow s).pending = s.pending := by
  refine ⟨?_, ?_, ?_, ?_, ?_, ?_, ?_, ?_, ?_, ?_, ?_, ?_, ?_⟩
  all_goals
    unfold endNumberWindow
    try dsimp only
    repeat' split
    all_goals simp

/-- What `txStuck` writes, and what it leaves. -/
@[simp] theorem txStuck_frame (s : State) :
    (txStuck s).ctl = s.ctl ∧ (txStuck s).tb = s.tb ∧ (txStuck s).pool = s.pool ∧ (txStuck s).writer = s.writer
    ∧ (txStuck s).seqr = s.seqr ∧ (txStuck s).recs = s.recs ∧ (txStuck s).dets = s.dets ∧ (txStuck s).trig = s.trig
    ∧ (txStuck s).filter = s.filter ∧ (txStuck s).rx = s.rx ∧ (txStuck s).mem = s.mem ∧ (txStuck s).ret = s.ret
    ∧ (txStuck s).port = s.port ∧ (txStuck s).pins = s.pins ∧ (txStuck s).pending = s.pending := by
  refine ⟨?_, ?_, ?_, ?_, ?_, ?_, ?_, ?_, ?_, ?_, ?_, ?_, ?_, ?_, ?_⟩
  all_goals
    unfold txStuck
    try dsimp only
    repeat' split
    all_goals simp

/-- What `declareStuck` writes, and what it leaves. -/
@[simp] theorem declareStuck_frame (c : ConfigStore) (s : State) :
    (declareStuck c s).ctl = s.ctl ∧ (declareStuck c s).seqr = s.seqr ∧ (declareStuck c s).dets = s.dets
    ∧ (declareStuck c s).trig = s.trig ∧ (declareStuck c s).filter = s.filter ∧ (declareStuck c s).mem = s.mem
    ∧ (declareStuck c s).port = s.port ∧ (declareStuck c s).pins = s.pins ∧ (declareStuck c s).pending = s.pending := by
  refine ⟨?_, ?_, ?_, ?_, ?_, ?_, ?_, ?_, ?_⟩
  all_goals
    unfold declareStuck
    try dsimp only
    repeat' split
    all_goals simp

/-- What `offerWriteBack` writes, and what it leaves. -/
@[simp] theorem offerWriteBack_frame (g : SegNo) (a : Nat) (w : Word) (s : State) :
    (offerWriteBack g a w s).ctl = s.ctl ∧ (offerWriteBack g a w s).tb = s.tb
    ∧ (offerWriteBack g a w s).pool = s.pool ∧ (offerWriteBack g a w s).writer = s.writer
    ∧ (offerWriteBack g a w s).seqr = s.seqr ∧ (offerWriteBack g a w s).recs = s.recs
    ∧ (offerWriteBack g a w s).dets = s.dets ∧ (offerWriteBack g a w s).trig = s.trig
    ∧ (offerWriteBack g a w s).filter = s.filter ∧ (offerWriteBack g a w s).rx = s.rx
    ∧ (offerWriteBack g a w s).tx = s.tx ∧ (offerWriteBack g a w s).ret = s.ret
    ∧ (offerWriteBack g a w s).ev = s.ev ∧ (offerWriteBack g a w s).port = s.port
    ∧ (offerWriteBack g a w s).pins = s.pins ∧ (offerWriteBack g a w s).pending = s.pending := by
  refine ⟨?_, ?_, ?_, ?_, ?_, ?_, ?_, ?_, ?_, ?_, ?_, ?_, ?_, ?_, ?_, ?_⟩
  all_goals
    unfold offerWriteBack
    try dsimp only
    repeat' split
    all_goals simp

/-- What `finding` writes, and what it leaves. -/
@[simp] theorem finding_frame (c : ConfigStore) (f : Finder) (g : SegNo) (o : Nat) (y : BitVec 6) (p : Option Nat) (s : State) :
    (finding c f g o y p s).ctl = s.ctl ∧ (finding c f g o y p s).tb = s.tb
    ∧ (finding c f g o y p s).writer = s.writer ∧ (finding c f g o y p s).seqr = s.seqr
    ∧ (finding c f g o y p s).dets = s.dets ∧ (finding c f g o y p s).trig = s.trig
    ∧ (finding c f g o y p s).filter = s.filter ∧ (finding c f g o y p s).rx = s.rx
    ∧ (finding c f g o y p s).tx = s.tx ∧ (finding c f g o y p s).ret = s.ret
    ∧ (finding c f g o y p s).port = s.port ∧ (finding c f g o y p s).pins = s.pins
    ∧ (finding c f g o y p s).pending = s.pending := by
  refine ⟨?_, ?_, ?_, ?_, ?_, ?_, ?_, ?_, ?_, ?_, ?_, ?_, ?_⟩
  all_goals
    unfold finding
    try dsimp only
    repeat' split
    all_goals simp

/-- What `readWord` writes, and what it leaves. -/
@[simp] theorem readWord_frame (c : ConfigStore) (f : Finder) (g : SegNo) (o : Nat) (s : State) :
    (readWord c f g o s).ctl = s.ctl ∧ (readWord c f g o s).tb = s.tb ∧ (readWord c f g o s).writer = s.writer
    ∧ (readWord c f g o s).seqr = s.seqr ∧ (readWord c f g o s).dets = s.dets ∧ (readWord c f g o s).trig = s.trig
    ∧ (readWord c f g o s).filter = s.filter ∧ (readWord c f g o s).rx = s.rx ∧ (readWord c f g o s).tx = s.tx
    ∧ (readWord c f g o s).ret = s.ret ∧ (readWord c f g o s).port = s.port ∧ (readWord c f g o s).pins = s.pins
    ∧ (readWord c f g o s).pending = s.pending := by
  refine ⟨?_, ?_, ?_, ?_, ?_, ?_, ?_, ?_, ?_, ?_, ?_, ?_, ?_⟩
  all_goals
    unfold readWord
    try dsimp only
    repeat' split
    all_goals simp

end Sys2Proof.Machine
end

