-- ==== Sys2Proof/Laws/Clock.lean ====
section
/-! SUPPORT. What the passing of ticks keeps beyond the blocks of `elapse_frame`, and what it counts. -/

namespace Sys2Proof.Machine

/-- The counting of the phase touches phase and epoch number alone. -/
@[simp] theorem countPhase_keeps (p : Option Nat) (tb : Timebase) :
    (countPhase p tb).prescale = tb.prescale ∧ (countPhase p tb).nextPrescale = tb.nextPrescale
    ∧ (countPhase p tb).localTick = tb.localTick
    ∧ (countPhase p tb).sync = tb.sync ∧ (countPhase p tb).mode = tb.mode
    ∧ (countPhase p tb).requestMade = tb.requestMade ∧ (countPhase p tb).provisional = tb.provisional := by
  unfold countPhase
  repeat' split
  all_goals simp

/-- What one tick keeps inside the blocks that count. -/
@[simp] theorem tick_keeps (s : State) :
    (tick s).ctl.state = s.ctl.state ∧ (tick s).ctl.config = s.ctl.config ∧ (tick s).ctl.stationId = s.ctl.stationId
    ∧ (tick s).mem.array = s.mem.array ∧ (tick s).mem.log = s.mem.log ∧ (tick s).mem.errorCount = s.mem.errorCount
    ∧ (tick s).mem.buffer = s.mem.buffer ∧ (tick s).mem.prefetch = s.mem.prefetch
    ∧ (tick s).mem.scrub.walking = s.mem.scrub.walking ∧ (tick s).mem.scrub.request = s.mem.scrub.request
    ∧ (tick s).mem.scrub.seg = s.mem.scrub.seg ∧ (tick s).mem.scrub.offset = s.mem.scrub.offset
    ∧ (tick s).tx.drive = s.tx.drive ∧ (tick s).tx.request = s.tx.request ∧ (tick s).tx.epochHeld = s.tx.epochHeld
    ∧ (tick s).tx.suppressed = s.tx.suppressed ∧ (tick s).tx.lost = s.tx.lost ∧ (tick s).tx.slotDuty = s.tx.slotDuty
    ∧ (tick s).tb.prescale.isSome = s.tb.prescale.isSome ∧ (tick s).tb.sync = s.tb.sync ∧ (tick s).tb.mode = s.tb.mode
    ∧ (tick s).tb.requestMade = s.tb.requestMade ∧ (tick s).tb.provisional = s.tb.provisional
    ∧ (tick s).seqr.sweep = s.seqr.sweep ∧ (tick s).trig.watching = s.trig.watching
    ∧ (tick s).trig.accepted = s.trig.accepted ∧ (tick s).trig.run = s.trig.run ∧ (tick s).ctl.blocks = s.ctl.blocks := by
  unfold tick countTick
  split
  · rename_i hk _
    rw [(sampleLine_frame s).2.1] at hk
    simp [countTimebase, countTransmitter, countSequencer, countScrubber, hk]
    split <;> simp
  · simp

/-- What the passing of ticks keeps inside the blocks that count. -/
@[simp] theorem elapse_keeps (n : Nat) (s : State) :
    (s.elapse n).ctl.state = s.ctl.state ∧ (s.elapse n).ctl.config = s.ctl.config
    ∧ (s.elapse n).ctl.stationId = s.ctl.stationId
    ∧ (s.elapse n).mem.array = s.mem.array ∧ (s.elapse n).mem.log = s.mem.log
    ∧ (s.elapse n).mem.errorCount = s.mem.errorCount ∧ (s.elapse n).mem.buffer = s.mem.buffer
    ∧ (s.elapse n).mem.prefetch = s.mem.prefetch
    ∧ (s.elapse n).mem.scrub.walking = s.mem.scrub.walking ∧ (s.elapse n).mem.scrub.request = s.mem.scrub.request
    ∧ (s.elapse n).mem.scrub.seg = s.mem.scrub.seg ∧ (s.elapse n).mem.scrub.offset = s.mem.scrub.offset
    ∧ (s.elapse n).tx.drive = s.tx.drive ∧ (s.elapse n).tx.request = s.tx.request
    ∧ (s.elapse n).tx.epochHeld = s.tx.epochHeld ∧ (s.elapse n).tx.suppressed = s.tx.suppressed
    ∧ (s.elapse n).tx.lost = s.tx.lost ∧ (s.elapse n).tx.slotDuty = s.tx.slotDuty
    ∧ (s.elapse n).tb.prescale.isSome = s.tb.prescale.isSome ∧ (s.elapse n).tb.sync = s.tb.sync
    ∧ (s.elapse n).tb.mode = s.tb.mode ∧ (s.elapse n).tb.requestMade = s.tb.requestMade
    ∧ (s.elapse n).tb.provisional = s.tb.provisional ∧ (s.elapse n).seqr.sweep = s.seqr.sweep
    ∧ (s.elapse n).trig.watching = s.trig.watching ∧ (s.elapse n).trig.accepted = s.trig.accepted
    ∧ (s.elapse n).trig.run = s.trig.run ∧ (s.elapse n).ctl.blocks = s.ctl.blocks := by
  induction n generalizing s with
  | zero => simp [State.elapse]
  | succ n ih => simp [State.elapse, ih]

/-- One tick with the prescaler running and a block held, as one update of what the sample left. -/
theorem tick_running {s : State} {c : ConfigStore} {k : Nat} (hc : s.ctl.config = some c) (hk : s.tb.prescale = some k) :
    (tick s).tb = countTimebase (period c) k s.tb
    ∧ (tick s).tx
        = countTransmitter (bitTime c) s.ctl.stationId.toNat (ticksSince (s.tb.localTick + 1) s.rx.origin) s.tx
    ∧ (tick s).mem.fill = s.mem.fill.map (fun d => min arrayWords (d + 2 ^ k))
    ∧ (tick s).mem.scrub = countScrubber (s.ctl.entry == .fromInit) s.mem.scrub
    ∧ (tick s).ctl.entry = .none ∧ (tick s).filter.sampled = false := by
  unfold tick countTick
  simp [hc, hk]

/-- A tick boundary takes the divisor that waits, and none waits after it (R186). -/
theorem tick_prescale {s : State} {c : ConfigStore} {k : Nat} (hc : s.ctl.config = some c)
    (hk : s.tb.prescale = some k) :
    (tick s).tb.prescale = some (s.tb.nextPrescale.getD k) ∧ (tick s).tb.nextPrescale = none := by
  rw [(tick_running hc hk).1]
  exact ⟨rfl, rfl⟩

/-- While no divisor waits the running one stands (R117). -/
theorem elapse_prescale : ∀ (n : Nat) {s : State} {c : ConfigStore} {k : Nat}, s.ctl.config = some c →
    s.tb.prescale = some k → s.tb.nextPrescale = none →
    (s.elapse n).tb.prescale = some k ∧ (s.elapse n).tb.nextPrescale = none
  | 0, _, _, _, _, hk, hn => ⟨hk, hn⟩
  | n + 1, s, c, k, hc, hk, hn => by
    have h := tick_prescale hc hk
    rw [hn] at h
    exact elapse_prescale n (s := tick s) (c := c) (by simpa using hc) h.1 h.2

/-- The prescaler runs on through the passing of ticks, at some divisor. -/
theorem tick_runs {s : State} {k : Nat} (hk : s.tb.prescale = some k) : ∃ j, (tick s).tb.prescale = some j :=
  Option.isSome_iff_exists.1 (by simp [hk])

/-- n ticks bring the fill on by their core clocks: the tick in progress at the running divisor, those after it at the
one that waits, where one does (R137, R186). -/
theorem elapse_fill : ∀ (n : Nat) {s : State} {c : ConfigStore} {k d : Nat}, s.ctl.config = some c →
    s.tb.prescale = some k → d ≤ arrayWords → s.mem.fill = some d →
    (s.elapse n).mem.fill
      = some (min arrayWords (d + if n = 0 then 0 else 2 ^ k + (n - 1) * 2 ^ s.tb.nextPrescale.getD k))
  | 0, s, _, _, d, _, _, hd, hf => by
    rw [if_pos rfl, Nat.add_zero, Nat.min_eq_right hd]
    exact hf
  | n + 1, s, c, k, d, hc, hk, hd, hf => by
    have h := tick_prescale hc hk
    have ht : (tick s).mem.fill = some (min arrayWords (d + 2 ^ k)) := by rw [(tick_running hc hk).2.2.1, hf]; rfl
    have hi := elapse_fill n (s := tick s) (by simpa using hc) h.1 (Nat.min_le_left _ _) ht
    have hs : ∀ y : Nat, (if n = 0 then 0 else y + (n - 1) * y) = n * y := by
      intro y
      cases n with
      | zero => simp
      | succ m => rw [if_neg (Nat.succ_ne_zero m), Nat.succ_mul, Nat.add_comm]; rfl
    rw [h.2] at hi
    rw [State.elapse, hi, Option.getD_none, hs, if_neg (Nat.succ_ne_zero n), Nat.add_sub_cancel]
    generalize n * 2 ^ s.tb.nextPrescale.getD k = x
    generalize 2 ^ k = y
    congr 1
    omega

/-- `a / 2 ^ j` rounded up is the least m with a ≤ m × 2^j. -/
theorem divUp_pow_le {a j m : Nat} : divUp a (2 ^ j) ≤ m ↔ a ≤ m * 2 ^ j := by
  have h : 0 < 2 ^ j := Nat.pow_pos (by decide)
  unfold divUp
  rw [← Nat.lt_succ_iff, Nat.div_lt_iff_lt_mul h, Nat.succ_mul]
  omega

/-- `ticksFor` is the least number of ticks that have so many core clocks (R117, R186). -/
theorem ticksFor_le {k clocks n : Nat} {next : Option Nat} :
    ticksFor k next clocks ≤ n ↔ clocks ≤ if n = 0 then 0 else 2 ^ k + (n - 1) * 2 ^ next.getD k := by
  unfold ticksFor
  cases next with
  | none =>
    dsimp only
    rw [divUp_pow_le]
    cases n with
    | zero => simp
    | succ m => simp [Nat.succ_mul, Nat.add_comm]
  | some j =>
    dsimp only
    have hk : 0 < 2 ^ k := Nat.pow_pos (by decide)
    by_cases hr : clocks = 0
    · simp [hr]
    · rw [if_neg hr]
      cases n with
      | zero => simp; omega
      | succ m =>
        rw [Nat.add_comm 1, Nat.succ_le_succ_iff, divUp_pow_le]
        simp
        omega

/-- n ticks raise the local tick count by n. -/
theorem elapse_localTick : ∀ (n : Nat) {s : State} {c : ConfigStore} {k : Nat}, s.ctl.config = some c →
    s.tb.prescale = some k → (s.elapse n).tb.localTick = s.tb.localTick + BitVec.ofNat 32 n
  | 0, _, _, _, _, _ => by simp [State.elapse]
  | n + 1, s, c, k, hc, hk => by
    obtain ⟨j, hj⟩ := tick_runs hk
    have h := elapse_localTick n (s := tick s) (c := c) (k := j) (by simpa using hc) hj
    have ht : (tick s).tb.localTick = s.tb.localTick + 1 := by rw [(tick_running hc hk).1]; rfl
    simp only [State.elapse]
    rw [h, ht]
    apply BitVec.eq_of_toNat_eq
    simp
    omega

/-- n ticks count the holdoff down. -/
theorem elapse_holdoff : ∀ (n : Nat) {s : State} {c : ConfigStore} {k : Nat}, s.ctl.config = some c →
    s.tb.prescale = some k → (s.elapse n).tx.holdoff = s.tx.holdoff - n
  | 0, _, _, _, _, _ => rfl
  | n + 1, s, c, k, hc, hk => by
    obtain ⟨j, hj⟩ := tick_runs hk
    have h := elapse_holdoff n (s := tick s) (c := c) (k := j) (by simpa using hc) hj
    have ht : (tick s).tx.holdoff = s.tx.holdoff - 1 := by rw [(tick_running hc hk).2.1]; rfl
    simp only [State.elapse]
    rw [h, ht]
    omega

/-- A row of the clock runs to its time and then has its effect. -/
theorem atTime_some {wait : Nat} {f : State → State} {s : State} {due : Option Nat} (h : due = some wait) :
    atTime due f s = f (s.elapse wait) := by
  rw [h]
  rfl

/-- Sampling a channel now and meeting its input later come to the same levels: what is sampled stands in front of
what the inputs show behind it. -/
theorem latchInputs_met (m : Nat) (inputs samples : List AnalogLevel) :
    latchInputs m inputs samples ++ inputs.drop (latchInputs m inputs samples).length
      = samples ++ inputs.drop samples.length := by
  unfold latchInputs
  rw [List.append_assoc, List.length_append, ← List.drop_drop, List.length_take]
  congr 1
  generalize inputs.drop samples.length = l
  rcases Nat.le_total (m - samples.length) l.length with h | h
  · rw [Nat.min_eq_left h, List.take_append_drop]
  · rw [Nat.min_eq_right h, List.take_of_length_le h, List.drop_length, List.append_nil]

/-- A conversion has begun by the end of a tick just where its 48 × ch core clocks lie before that end (R25). -/
theorem lt_begunConversions {k n d ch : Nat} :
    ch < begunConversions k n d ↔ ch < n ∧ 48 * ch < (d + 1) * 2 ^ k := by
  unfold begunConversions divUp conversionClocks
  generalize (d + 1) * 2 ^ k = x
  omega

/-- The level that `latchInputs` leaves for a channel: a sampled one stands, and one that has begun is its input's. -/
theorem latchInputs_get (m ch : Nat) (inputs samples : List AnalogLevel) :
    (latchInputs m inputs samples)[ch]?
      = if ch < samples.length then samples[ch]? else if ch < m then inputs[ch]? else none := by
  unfold latchInputs
  rw [List.getElem?_append]
  split
  · rfl
  · rename_i h
    rw [List.getElem?_take]
    have e : samples.length + (ch - samples.length) = ch := by omega
    by_cases hm : ch < m
    · rw [if_pos (by omega), if_pos hm, List.getElem?_drop, e]
    · rw [if_neg (by omega), if_neg hm]

/-- One tick samples no channel but those of the sweep, and no sampled level changes (R25). -/
theorem tick_met (s : State) :
    (tick s).seqr.samples ++ s.pins.analog.drop (tick s).seqr.samples.length
      = s.seqr.samples ++ s.pins.analog.drop s.seqr.samples.length := by
  unfold tick countTick
  split
  · simp only [countSequencer, sampleLine_frame]
    split
    · rfl
    · exact latchInputs_met _ _ _
  · rw [(sampleLine_frame s).2.2.2.2.1]

/-- The passing of ticks samples no channel but those of the sweep, and no sampled level changes (R25). -/
theorem elapse_met : ∀ (n : Nat) (s : State),
    (s.elapse n).seqr.samples ++ s.pins.analog.drop (s.elapse n).seqr.samples.length
      = s.seqr.samples ++ s.pins.analog.drop s.seqr.samples.length
  | 0, _ => rfl
  | n + 1, s => by
    have h := elapse_met n (tick s)
    have hp : (tick s).pins = s.pins := by simp [tick]
    rw [hp] at h
    rw [State.elapse, h, tick_met]

/-- No ticks pass where the wait is 0. -/
@[simp] theorem elapse_zero (s : State) : s.elapse 0 = s := rfl

/-- A row that needs a configuration, where no reset is held and a block is held. -/
theorem whenConfigured_held {s : State} {c : ConfigStore} (hr : s.pins.rstnLow = false) (hc : s.ctl.config = some c)
    (f : ConfigStore → State) : whenConfigured s f = f c := by
  simp [whenConfigured, State.live, hr, hc]

end Sys2Proof.Machine
end

