-- ==== Sys2Proof/Laws/Config.lean ====
section
/-! SUPPORT. The configuration block: what its check has shown of every field, and what the store then holds. -/

namespace Sys2Proof.Machine

/-- R185: a block with no failing field passes the range check and the cross-checks of each. -/
theorem passes_of_firstFailing {vals : List (BitVec 16)} (h : firstFailing vals = none) {i : Nat} (h1 : 1 ≤ i)
    (h2 : i ≤ 86) : inRange i (fieldAt vals i) = true ∧ crossCheck vals i = true := by
  unfold firstFailing at h
  rw [List.find?_eq_none] at h
  have hi := h i (by rw [List.mem_range'_1]; simp only [fieldCount]; omega)
  simpa using hi

/-- Place i of a vector built place by place, read through its list. -/
theorem getD_toList_ofFn {α : Type} {n : Nat} (f : Fin n → α) (d : α) {i : Nat} (h : i < n) :
    (Vector.ofFn f).toList.getD i d = f ⟨i, h⟩ := by
  rw [Vector.toList_ofFn, List.getD_eq_getElem?_getD, List.getElem?_ofFn, dif_pos h, Option.getD_some]

/-- R186: the store holds the block's values. -/
theorem field_storeOf (vals : List (BitVec 16)) {i : Nat} (h1 : 1 ≤ i) (h2 : i ≤ 86) :
    field (storeOf vals) i = fieldAt vals i := by
  unfold field fieldAt storeOf
  dsimp only
  rw [getD_toList_ofFn _ _ (by omega : i - 1 < 86)]

/-- R187: every field of a store just written matches its parity bit. -/
theorem mismatchAt_storeOf (vals : List (BitVec 16)) {i : Nat} (h1 : 1 ≤ i) (h2 : i ≤ 86) :
    mismatchAt (storeOf vals) i = false := by
  unfold mismatchAt storeOf
  dsimp only
  rw [getD_toList_ofFn _ _ (by omega : i - 1 < 86), getD_toList_ofFn _ _ (by omega : i - 1 < 86), bne_self_eq_false]

/-- An upset of stored bits keeps a field within the bits stored of it (log 41). -/
theorem field_upsetField_lt (c : ConfigStore) (i j : Nat) (bits : BitVec 16) (h1 : 1 ≤ j) (h2 : j ≤ 86)
    (hb : fieldBits j ≤ 16) (h : field c j < 2 ^ fieldBits j) : field (upsetField c i bits) j < 2 ^ fieldBits j := by
  unfold field upsetField at *
  dsimp only
  rw [getD_toList_ofFn _ _ (by omega : j - 1 < 86)]
  have hg : c.fields.toList.getD (j - 1) 0 = c.fields.get ⟨j - 1, by omega⟩ := by
    simp [List.getD_eq_getElem?_getD, Vector.get, show j - 1 < 86 by omega]
  rw [hg] at h
  split
  · rename_i e
    have e' : j = i := by
      have e2 : j - 1 + 1 = i := e
      omega
    subst e'
    rw [BitVec.toNat_xor]
    refine Nat.xor_lt_two_pow h ?_
    unfold struckBits
    rw [BitVec.toNat_and, BitVec.toNat_ofNat]
    have hp : 2 ^ fieldBits j ≤ 2 ^ 16 := Nat.pow_le_pow_right (by decide) hb
    have hq : 0 < 2 ^ fieldBits j := Nat.pow_pos (by decide)
    rw [Nat.mod_eq_of_lt (by omega)]
    exact Nat.lt_of_le_of_lt Nat.and_le_right (by omega)
  · exact h

/-- R143, R156: no upset lifts the retire threshold above the tally's top, so an uncorrectable finding always sets the
flag. -/
theorem retireThreshold_upsetField {c : ConfigStore} (i : Nat) (bits : BitVec 16) (h : retireThreshold c ≤ 15) :
    retireThreshold (upsetField c i bits) ≤ 15 :=
  Nat.le_of_lt_succ (field_upsetField_lt c i 85 bits (by decide) (by decide) (by decide)
    (Nat.lt_succ_of_le h))

end Sys2Proof.Machine
end

