-- ==== Sys2Proof/Laws/Events.lean ====
section
/-! SUPPORT. What a raise and a handed condition do to the event unit. -/

namespace Sys2Proof.Machine

/-- A vector read after a write. -/
theorem get_set {α : Type} {n : Nat} (v : Vector α n) (i j : Fin n) (x : α) :
    (v.set i x).get j = if i = j then x else v.get j := by
  show (v.set i.val x)[j.val] = if i = j then x else v[j.val]
  rw [Vector.getElem_set]
  simp [Fin.ext_iff]

theorem cell_update (e : EventUnit) (i j : Fin 14) (f : SourceCell → SourceCell) :
    (e.update i f).cells.get j = if i = j then f (e.cells.get i) else e.cells.get j := get_set _ _ _ _

theorem mask_update (e : EventUnit) (i : Fin 14) (f : SourceCell → SourceCell) : (e.update i f).mask = e.mask := rfl

/-- Updates of one source leave the others' cells. -/
theorem levelAgrees_update_other (e : EventUnit) (i : Fin 14) (f : SourceCell → SourceCell) (l : Source) (h : Bool)
    (hi : i ≠ l.place) : levelAgrees (e.update i f) l h ↔ levelAgrees e l h := by
  simp [levelAgrees, EventUnit.cell, cell_update, hi]

theorem eventsSafe_update (e : EventUnit) (i : Fin 14) (f : SourceCell → SourceCell)
    (hf : ∀ c : SourceCell, c.count ≤ 255 → (f c).count ≤ 255) (h : eventsSafe e) : eventsSafe (e.update i f) := by
  refine ⟨h.1, fun j => ?_⟩
  rw [cell_update]
  split
  · exact hf _ (h.2 _)
  · exact h.2 j

theorem raised_count (c : SourceCell) (_ : c.count ≤ 255) : c.raised.count ≤ 255 := Nat.min_le_left _ _

theorem started_count (c : SourceCell) (h : c.count ≤ 255) : c.started.count ≤ 255 := by
  unfold SourceCell.started; split <;> simp_all

theorem ended_count (c : SourceCell) (_ : c.count ≤ 255) : c.ended.count ≤ 255 := Nat.zero_le _

theorem taken_count (b : Bool) (c : SourceCell) (_ : c.count ≤ 255) : (c.taken b).count ≤ 255 := Nat.zero_le _

/-- A raise of an edge source leaves every level source. -/
theorem levelAgrees_raise (src l : Source) (h : Bool) (s : State) (hne : src.place ≠ l.place) :
    levelAgrees (raise src s).ev l h ↔ levelAgrees s.ev l h := levelAgrees_update_other _ _ _ _ _ hne

theorem eventsSafe_raise (src : Source) (s : State) (h : eventsSafe s.ev) : eventsSafe (raise src s).ev :=
  eventsSafe_update _ _ _ raised_count h

/-- R171: after its owner has handed it, a level source agrees with the condition as it is now. -/
theorem levelAgrees_handLevel (src : Source) (b a : Bool) (s : State) (h : levelAgrees s.ev src b) :
    levelAgrees (handLevel src b a s).ev src a := by
  unfold handLevel
  simp only [levelAgrees, EventUnit.cell] at h ⊢
  split
  · rename_i hba
    simp only [Bool.and_eq_true, Bool.not_eq_true'] at hba
    simp only [cell_update, if_true, SourceCell.started, hba.2]
    split <;> simp_all
  · split
    · rename_i hba
      simp only [Bool.and_eq_true, Bool.not_eq_true'] at hba
      simp [cell_update, SourceCell.ended, hba.2]
    · cases b <;> cases a <;> simp_all

theorem levelAgrees_handLevel_other (src l : Source) (b a h : Bool) (s : State) (hne : src.place ≠ l.place) :
    levelAgrees (handLevel src b a s).ev l h ↔ levelAgrees s.ev l h := by
  unfold handLevel
  split
  · exact levelAgrees_update_other _ _ _ _ _ hne
  · split
    · exact levelAgrees_update_other _ _ _ _ _ hne
    · exact Iff.rfl

theorem eventsSafe_handLevel (src : Source) (b a : Bool) (s : State) (h : eventsSafe s.ev) :
    eventsSafe (handLevel src b a s).ev := by
  unfold handLevel
  split
  · exact eventsSafe_update _ _ _ started_count h
  · split
    · exact eventsSafe_update _ _ _ ended_count h
    · exact h

theorem moreUrgent_trans {e : EventUnit} {i j k : Fin 14} (h1 : moreUrgent e i j = false)
    (h2 : moreUrgent e j k = false) : moreUrgent e i k = false := by
  simp only [moreUrgent, Bool.or_eq_false_iff, decide_eq_false_iff_not, Bool.and_eq_false_imp, beq_iff_eq,
    Nat.not_lt, Fin.not_lt] at *
  refine ⟨by omega, fun h => ?_⟩
  have hij : (e.cells.get i).level = (e.cells.get j).level := by omega
  have hjk : (e.cells.get j).level = (e.cells.get k).level := by omega
  exact Fin.le_trans (h2.2 hjk.symm) (h1.2 hij.symm)

/-- What the choice over a list of places answers: no worse than the best before it, and PENDING. -/
theorem prefer_foldl (e : EventUnit) : ∀ (l : List (Fin 14)) (b : Option (Fin 14)),
    (∀ k, b = some k → (e.cells.get k).state = .pending) →
    (∀ k, l.foldl e.prefer b = some k →
      (e.cells.get k).state = .pending ∧ (∀ j, (j ∈ l ∧ (e.cells.get j).state = .pending) ∨ b = some j →
        moreUrgent e j k = false)) ∧
    (l.foldl e.prefer b = none → b = none ∧ ∀ j ∈ l, (e.cells.get j).state ≠ .pending)
  | [], b, hb => by
    refine ⟨fun k hk => ⟨hb k hk, fun j hj => ?_⟩, fun h => ⟨h, by simp⟩⟩
    rcases hj with hj | hj
    · simp at hj
    · simp only [List.foldl_nil] at hk
      rw [hk] at hj
      cases hj
      simp [moreUrgent]
  | a :: l, b, hb => by
    have hb' : ∀ k, e.prefer b a = some k → (e.cells.get k).state = .pending := by
      intro k hk
      unfold EventUnit.prefer at hk
      split at hk
      · rename_i ha
        split at hk
        · cases hk; exact ha
        · split at hk
          · cases hk; exact ha
          · cases hk; exact hb _ rfl
      · exact hb _ hk
    have hbetter : ∀ k, e.prefer b a = some k →
        ((e.cells.get a).state = .pending → moreUrgent e a k = false) ∧ (∀ j, b = some j → moreUrgent e j k = false) := by
      intro k hk
      unfold EventUnit.prefer at hk
      split at hk
      · split at hk
        · cases hk
          exact ⟨fun _ => by simp [moreUrgent], fun j hj => by cases hj⟩
        · rename_i b0 _
          split at hk
          · rename_i hm
            cases hk
            refine ⟨fun _ => by simp [moreUrgent], fun j hj => ?_⟩
            cases hj
            simp only [moreUrgent, Bool.or_eq_true, decide_eq_true_eq, Bool.and_eq_true, beq_iff_eq] at hm
            simp only [moreUrgent, Bool.or_eq_false_iff, decide_eq_false_iff_not, Bool.and_eq_false_imp, beq_iff_eq]
            omega
          · rename_i hm
            cases hk
            refine ⟨fun _ => by simpa using hm, fun j hj => ?_⟩
            cases hj
            simp [moreUrgent]
      · rename_i ha
        refine ⟨fun h => absurd h ha, fun j hj => ?_⟩
        rw [hk] at hj
        cases hj
        simp [moreUrgent]
    have ih := prefer_foldl e l (e.prefer b a) hb'
    refine ⟨fun k hk => ?_, fun hn => ?_⟩
    · obtain ⟨hp, hall⟩ := ih.1 k hk
      have hstep : ∀ j, e.prefer b a = some j → moreUrgent e j k = false := fun j hj => hall j (Or.inr hj)
      refine ⟨hp, fun j hj => ?_⟩
      have hsome : ∀ j, (j = a ∧ (e.cells.get a).state = .pending) ∨ b = some j → moreUrgent e j k = false := by
        intro j hj
        cases hpa : e.prefer b a with
        | none =>
          unfold EventUnit.prefer at hpa
          rcases hj with ⟨rfl, hja⟩ | rfl
          · rw [if_pos hja] at hpa
            split at hpa
            · cases hpa
            · split at hpa <;> cases hpa
          · split at hpa
            · simp only at hpa
              split at hpa <;> cases hpa
            · cases hpa
        | some m =>
          have hm := hbetter m hpa
          rcases hj with ⟨rfl, hja⟩ | rfl
          · exact moreUrgent_trans (hm.1 hja) (hstep m hpa)
          · exact moreUrgent_trans (hm.2 _ rfl) (hstep m hpa)
      rcases hj with ⟨hmem, hpj⟩ | hb0
      · rcases List.mem_cons.1 hmem with rfl | hmem
        · exact hsome _ (Or.inl ⟨rfl, hpj⟩)
        · exact hall j (Or.inl ⟨hmem, hpj⟩)
      · exact hsome _ (Or.inr hb0)
    · obtain ⟨hpn, hl⟩ := ih.2 hn
      unfold EventUnit.prefer at hpn
      split at hpn
      · split at hpn
        · cases hpn
        · split at hpn <;> cases hpn
      · rename_i ha
        refine ⟨hpn, fun j hj => ?_⟩
        rcases List.mem_cons.1 hj with rfl | hj
        · exact ha
        · exact hl j hj

/-- R176: the source selected is PENDING, and none that is PENDING goes before it. -/
theorem mostUrgent_some {e : EventUnit} {i : Fin 14} (h : e.mostUrgent = some i) :
    (e.cells.get i).state = .pending ∧ ∀ j, (e.cells.get j).state = .pending → moreUrgent e j i = false := by
  have hp := (prefer_foldl e (List.finRange 14) none (by simp)).1 i h
  exact ⟨hp.1, fun j hj => hp.2 j (Or.inl ⟨List.mem_finRange j, hj⟩)⟩

/-- R176: none is selected exactly when none is PENDING. -/
theorem mostUrgent_none {e : EventUnit} (h : e.mostUrgent = none) (j : Fin 14) : (e.cells.get j).state ≠ .pending :=
  ((prefer_foldl e (List.finRange 14) none (by simp)).2 h).2 j (List.mem_finRange j)

end Sys2Proof.Machine
end

