-- ==== Sys2Proof/Laws/PerInstr.lean ====
section
/-! SUPPORT. One lemma per constructor, about the command as syntax: the bytes a host sends for it (R194, R198). -/

namespace Sys2Proof.Laws.HostPort

/-- R194, R198: the bytes of a well-formed host command hold a command byte and at most 116 argument bytes. -/
def Statement (i : Instr) : Prop :=
  i.wf = true → ∀ bytes, hostBytes i = some bytes → 1 ≤ bytes.length ∧ bytes.length ≤ 1 + configBytes

/-- A row that is no host command has no bytes. -/
theorem of_none {i : Instr} (h : hostBytes i = none) : Statement i := by
  intro _ bytes hb
  rw [h] at hb
  cases hb

/-- Bytes of a length the port takes. -/
theorem of_bytes {i : Instr} {sent : List Byte} (h : hostBytes i = some sent) (h1 : 1 ≤ sent.length)
    (h2 : sent.length ≤ 1 + configBytes) : Statement i := by
  intro _ bytes hb
  rw [h] at hb
  cases hb
  exact ⟨h1, h2⟩

theorem status : Statement .status :=
  of_bytes rfl (by simp) (by simp [configBytes])
theorem configure (block : List Byte) : Statement (.configure block) := by
  intro hw bytes hb
  simp only [Instr.wf, beq_iff_eq] at hw
  simp only [hostBytes, Option.some.injEq] at hb
  subst hb
  rw [List.length_cons, hw]
  decide
theorem start : Statement .start :=
  of_bytes rfl (by simp) (by simp [configBytes])
theorem stop : Statement .stop :=
  of_bytes rfl (by simp) (by simp [configBytes])
theorem reset : Statement .reset :=
  of_bytes rfl (by simp) (by simp [configBytes])
theorem listRecords : Statement .listRecords :=
  of_bytes rfl (by simp) (by simp [configBytes])
theorem readRecord (slot : Byte) : Statement (.readRecord slot) :=
  of_bytes rfl (by simp) (by simp [configBytes])
theorem readData (slot chainIndex : Byte) (offset count : BitVec 16) : Statement (.readData slot chainIndex offset count) :=
  of_bytes rfl (by simp) (by simp [configBytes])
theorem release (slot : Byte) : Statement (.release slot) :=
  of_bytes rfl (by simp) (by simp [configBytes])
theorem softTrigger : Statement .softTrigger :=
  of_bytes rfl (by simp) (by simp [configBytes])
theorem peekLog : Statement .peekLog :=
  of_bytes rfl (by simp) (by simp [configBytes])
theorem takeLog : Statement .takeLog :=
  of_bytes rfl (by simp) (by simp [configBytes])
theorem readErrorCount : Statement .readErrorCount :=
  of_bytes rfl (by simp) (by simp [configBytes])
theorem readRemap : Statement .readRemap :=
  of_bytes rfl (by simp) (by simp [configBytes])
theorem nextEvent : Statement .nextEvent :=
  of_bytes rfl (by simp) (by simp [configBytes])
theorem setMask (level : Byte) : Statement (.setMask level) :=
  of_bytes rfl (by simp) (by simp [configBytes])
theorem badCommand (code : Byte) : Statement (.badCommand code) :=
  of_bytes rfl (by simp) (by simp [configBytes])
theorem csnRise : Statement .csnRise := of_none rfl
theorem powerOnReset (straps : BitVec 5) : Statement (.powerOnReset straps) := of_none rfl
theorem pinReset (straps : BitVec 5) : Statement (.pinReset straps) := of_none rfl
theorem parityMismatch (field : StoredField) (upset : BitVec 16) : Statement (.parityMismatch field upset) := of_none rfl
theorem fillComplete : Statement .fillComplete := of_none rfl
theorem sweepStart : Statement .sweepStart := of_none rfl
theorem frameComplete (inputs : List AnalogLevel) : Statement (.frameComplete inputs) := of_none rfl
theorem trigInSample (high : Bool) : Statement (.trigInSample high) := of_none rfl
theorem leadingEdge : Statement .leadingEdge := of_none rfl
theorem trailingEdge (width : Nat) : Statement (.trailingEdge width) := of_none rfl
theorem tagSlotSample (peersLow : Bool) : Statement (.tagSlotSample peersLow) := of_none rfl
theorem tagWindowEnd (peersLow : Bool) : Statement (.tagWindowEnd peersLow) := of_none rfl
theorem holdoffExpire : Statement .holdoffExpire := of_none rfl
theorem numberSlotSample (peersLow : Bool) : Statement (.numberSlotSample peersLow) := of_none rfl
theorem numberWindowEnd (peersLow : Bool) : Statement (.numberWindowEnd peersLow) := of_none rfl
theorem lineStuckDeclare : Statement .lineStuckDeclare := of_none rfl
theorem stuckRelease : Statement .stuckRelease := of_none rfl
theorem recoverComplete : Statement .recoverComplete := of_none rfl
theorem driveStart : Statement .driveStart := of_none rfl
theorem driveEnd : Statement .driveEnd := of_none rfl
theorem slotDutyDrive : Statement .slotDutyDrive := of_none rfl
theorem numberBitDrive : Statement .numberBitDrive := of_none rfl
theorem epochRequest : Statement .epochRequest := of_none rfl
theorem localEpoch : Statement .localEpoch := of_none rfl
theorem prefetchRead : Statement .prefetchRead := of_none rfl
theorem scrubRequest : Statement .scrubRequest := of_none rfl
theorem scrubRead : Statement .scrubRead := of_none rfl
theorem writeBack : Statement .writeBack := of_none rfl
theorem csnFall : Statement .csnFall := of_none rfl
theorem rstnLow : Statement .rstnLow := of_none rfl
theorem recoverCountRestart : Statement .recoverCountRestart := of_none rfl

end Sys2Proof.Laws.HostPort
end

