-- ==== Sys2Proof/Laws/Pool.lean ====
section
/-! SUPPORT. What returns and takes do to the pool, said once, and the form of a host command. -/

namespace Sys2Proof.Machine

/-- Different sources stand at different places. -/
theorem place_inj {a b : Source} (h : a ≠ b) : a.place ≠ b.place := by
  revert h
  cases a <;> cases b <;> decide

/-- A change of one source's cell leaves the others. -/
theorem cell_update_other {e : EventUnit} {src other : Source} {f : SourceCell → SourceCell} (h : other ≠ src) :
    (e.update src.place f).cell other = e.cell other := by
  unfold EventUnit.cell
  rw [cell_update, if_neg (place_inj h.symm)]

/-- A condition handed over touches its own source's cell alone. -/
theorem handLevel_ev (src : Source) (before after : Bool) (s : State) :
    ∃ ev, handLevel src before after s = { s with ev := ev } ∧ ev.mask = s.ev.mask
      ∧ (∀ other : Source, other ≠ src → ev.cell other = s.ev.cell other)
      ∧ (before = after → ev = s.ev) := by
  unfold handLevel
  cases before <;> cases after
  · exact ⟨s.ev, rfl, rfl, fun _ _ => rfl, fun _ => rfl⟩
  · exact ⟨_, rfl, rfl, fun _ h => cell_update_other h, fun h => nomatch h⟩
  · exact ⟨_, rfl, rfl, fun _ h => cell_update_other h, fun h => nomatch h⟩
  · exact ⟨s.ev, rfl, rfl, fun _ _ => rfl, fun _ => rfl⟩

/-- R160: a segment whose flag is clear passes the check unchanged. -/
theorem retireCheck_clear {g : SegNo} {s : State} (h : (s.header g).retirePending = false) :
    retireCheck g s = (s, true) := by
  unfold retireCheck
  rw [if_neg (by simp [h])]

/-- R13, R21: a segment whose flag is clear enters the free list tail; FREE_LOW follows. -/
theorem enterFree_clear {g : SegNo} {s : State} (h : (s.header g).retirePending = false) :
    ∃ ev, enterFree g s = { s with pool := { s.pool with free := s.pool.free ++ [g] }, ev := ev }
      ∧ ∀ src : Source, src ≠ .freeLow → ev.cell src = s.ev.cell src := by
  unfold enterFree
  rw [retireCheck_clear h]
  simp only [if_true]
  unfold setFree
  obtain ⟨ev, he, _, hc, _⟩ := handLevel_ev .freeLow (freeLowHolds s.ctl.config s.pool.free)
    (freeLowHolds s.ctl.config (s.pool.free ++ [g])) { s with pool := { s.pool with free := s.pool.free ++ [g] } }
  exact ⟨ev, he, hc⟩

/-- R13: a return of segments with no flag set puts them at the free list tail in order. -/
theorem returnAll_clear : ∀ (l : List SegNo) (s : State), (∀ g ∈ l, (s.header g).retirePending = false) →
    ∃ ev, returnAll l s = { s with pool := { s.pool with free := s.pool.free ++ l }, ev := ev }
      ∧ ∀ src : Source, src ≠ .freeLow → ev.cell src = s.ev.cell src
  | [], s, _ => ⟨s.ev, by simp [returnAll], fun _ _ => rfl⟩
  | g :: l, s, h => by
    obtain ⟨ev', he', hc'⟩ := enterFree_clear (h g (by simp))
    obtain ⟨ev, he, hc⟩ := returnAll_clear l (enterFree g s)
      (by rw [he']; intro a ha; exact h a (by simp [ha]))
    refine ⟨ev, ?_, ?_⟩
    · simp only [returnAll]
      rw [he, he']
      simp
    · intro src hs
      rw [hc src hs, he']
      exact hc' src hs

/-- R195, R196: a host command in the command phase: its effect, and its response in the port. -/
theorem hostCommand_in_command {s : State} (hr : s.pins.rstnLow = false) (hp : s.port.phase = .command) (code : Byte)
    (args : List Byte) (f : State → State × List Byte) :
    hostCommand code args f s
      = { (f s).1 with port :=
          { phase := .response, bitCount := 0, shiftIn := 0, byteCount := 1 + args.length, command := some code,
            args := args, response := (f s).2, prefetchWord := none } } := by
  simp [hostCommand, State.live, hr, hp]

/-- R194: outside the command phase the bytes are no command. -/
theorem hostCommand_elsewhere {s : State} (hp : s.port.phase ≠ .command) (code : Byte) (args : List Byte)
    (f : State → State × List Byte) : hostCommand code args f s = s := by
  have hb : (s.port.phase == PortPhase.command) = false := by simpa using hp
  simp [hostCommand, hb]

end Sys2Proof.Machine
end

