-- ==== Sys2Proof/Laws/Records.lean ====
section
/-! SUPPORT. The writer's take, the returns' effect on headers, and which record the record controller finds. -/

namespace Sys2Proof.Machine

/-! ### Headers and takes -/

/-- A segment's header written: its own, and the others' as before. -/
theorem header_setHeader (g a : SegNo) (h : Header) (s : State) :
    (setHeader g h s).header a = if g = a then h else s.header a := get_set _ _ _ _

/-- R8 with the free list not empty: the head is taken, as one update of the state. -/
theorem writerTake_head {s : State} {g : SegNo} {rest : List SegNo} (h : s.pool.free = g :: rest) :
    ∃ ev, writerTake s = { s with
        pool := { s.pool with free := rest, headers := s.pool.headers.set g (s.header g).taken },
        writer := { s.writer with state := .filling, current := some g, pos := 0 }, ev := ev }
      ∧ ∀ src : Source, src ≠ .freeLow → src ≠ .overrun → ev.cell src = s.ev.cell src := by
  unfold writerTake popFree
  rw [h]
  simp only [setFree]
  obtain ⟨ev, he, _, hc, _⟩ := handLevel_ev .freeLow (freeLowHolds s.ctl.config s.pool.free)
    (freeLowHolds s.ctl.config rest) { s with pool := { s.pool with free := rest } }
  rw [he]
  unfold beginSegment setWriter takeHeader setHeader
  dsimp only
  obtain ⟨ev', he', _, hc', _⟩ := handLevel_ev .overrun (s.writer.state == .overrun) (WriterState.filling == .overrun)
    { s with
      pool := { s.pool with free := rest, headers := s.pool.headers.set g (s.header g).taken },
      writer := { s.writer with state := .filling, current := some g, pos := 0 }, ev := ev }
  refine ⟨ev', he', ?_⟩
  intro src h1 h2
  rw [hc' src h2]
  exact hc src h1

/-- R36: with both lists empty the claim is refused. -/
theorem writerTake_refused {s : State} (hf : s.pool.free = []) (hh : s.pool.history = []) :
    ∃ ev, writerTake s
        = { s with writer := { s.writer with state := .overrun, current := none, pos := 0 }, ev := ev }
      ∧ ∀ src : Source, src ≠ .overrun → ev.cell src = s.ev.cell src := by
  unfold writerTake popFree
  rw [hf]
  simp only [hh, takeHistory, enterOverrun, setWriter]
  have hs : setHistory [] s = s := by
    unfold setHistory
    rw [← hh]
  rw [hs]
  obtain ⟨ev, he, _, hc, _⟩ := handLevel_ev .overrun (s.writer.state == .overrun) (WriterState.overrun == .overrun)
    { s with writer := { s.writer with state := .overrun, current := none, pos := 0 } }
  exact ⟨ev, he, hc⟩

/-- What retirement and withdrawal keep of every header: the timestamp, the valid frames and the generation. -/
theorem retireCheck_header (g a : SegNo) (s : State) :
    ((retireCheck g s).1.header a).valid = (s.header a).valid
    ∧ ((retireCheck g s).1.header a).firstStamp = (s.header a).firstStamp
    ∧ ((retireCheck g s).1.header a).generation = (s.header a).generation := by
  unfold retireCheck
  split
  · split
    · unfold retireTo
      dsimp only
      rw [header_setHeader]
      split
      · rename_i h
        subst h
        exact ⟨rfl, rfl, rfl⟩
      · exact ⟨rfl, rfl, rfl⟩
    · exact ⟨rfl, rfl, rfl⟩
  · exact ⟨rfl, rfl, rfl⟩

/-- The lists and the headers after FREE_LOW has been judged again. -/
theorem header_setFree (f : List SegNo) (a : SegNo) (s : State) : (setFree f s).header a = s.header a := by
  unfold State.header
  simp

theorem enterFree_header (g a : SegNo) (s : State) :
    ((enterFree g s).header a).valid = (s.header a).valid
    ∧ ((enterFree g s).header a).firstStamp = (s.header a).firstStamp
    ∧ ((enterFree g s).header a).generation = (s.header a).generation := by
  unfold enterFree
  dsimp only
  split
  · rw [header_setFree]
    exact retireCheck_header g a s
  · exact retireCheck_header g a s

/-- A return leaves every segment's valid frames. -/
theorem returnAll_header (a : SegNo) : ∀ (l : List SegNo) (s : State),
    ((returnAll l s).header a).valid = (s.header a).valid
    ∧ ((returnAll l s).header a).firstStamp = (s.header a).firstStamp
    ∧ ((returnAll l s).header a).generation = (s.header a).generation
  | [], _ => ⟨rfl, rfl, rfl⟩
  | g :: l, s => by
    have h := returnAll_header a l (enterFree g s)
    have h' := enterFree_header g a s
    exact ⟨h.1.trans h'.1, h.2.1.trans h'.2.1, h.2.2.trans h'.2.2⟩

/-- The frames held in a chain follow the valid frames of the headers. -/
theorem heldFrames_congr {s t : State} (h : ∀ a, (t.header a).valid = (s.header a).valid) (l : List SegNo) :
    heldFrames t l = heldFrames s l := by
  unfold heldFrames
  simp [h]

/-- A return keeps the history chain. -/
theorem returnAll_history : ∀ (l : List SegNo) (s : State), (returnAll l s).pool.history = s.pool.history
  | [], _ => rfl
  | g :: l, s => by
    have h : (enterFree g s).pool.history = s.pool.history := by
      unfold enterFree retireCheck withdraw retireTo
      dsimp only
      repeat' split
      all_goals simp
    exact (returnAll_history l (enterFree g s)).trans h

/-! ### Which record is found -/

/-- The slot found is the one slot whose record meets the condition. -/
theorem findRecord_only {p : Record → Bool} {s : State} {i : SlotNo} {r : Record} (hi : s.recs.slots.get i = some r)
    (hp : p r = true) (ho : ∀ j r', j ≠ i → s.recs.slots.get j = some r' → p r' = false) :
    findRecord p s = some i := by
  unfold findRecord
  cases hf : (List.finRange 16).find? (fun i => (s.recs.slots.get i).any p) with
  | none =>
    have h := List.find?_eq_none.1 hf i (List.mem_finRange i)
    simp [hi, hp] at h
  | some j =>
    have h := List.find?_some hf
    cases hj : s.recs.slots.get j with
    | none => simp [hj] at h
    | some r' =>
      by_cases hij : j = i
      · rw [hij]
      · simp [hj, ho j r' hij hj] at h

/-- No slot is found where no record meets the condition. -/
theorem findRecord_none {p : Record → Bool} {s : State}
    (h : ∀ j r, s.recs.slots.get j = some r → p r = false) : findRecord p s = none := by
  unfold findRecord
  rw [List.find?_eq_none]
  intro j _
  cases hj : s.recs.slots.get j with
  | none => simp
  | some r => simp [h j r hj]

/-- The condition is looked up in the slots alone. -/
theorem findRecord_congr (p : Record → Bool) {s t : State} (h : t.recs.slots = s.recs.slots) :
    findRecord p t = findRecord p s := by
  unfold findRecord
  rw [h]

/-- A slot read after a slot was written. -/
theorem slot_setSlot (i j : SlotNo) (r : Option Record) (s : State) :
    (setSlot i r s).recs.slots.get j = if i = j then r else s.recs.slots.get j := get_set _ _ _ _

/-- A raise of an edge source: its own cell, and the others' as before. -/
theorem cell_raise (src other : Source) (s : State) :
    (raise src s).ev.cell other = if other = src then (s.ev.cell src).raised else s.ev.cell other := by
  by_cases h : other = src
  · subst h
    rw [if_pos rfl]
    show (s.ev.update other.place SourceCell.raised).cells.get other.place = _
    rw [cell_update, if_pos rfl]
    rfl
  · rw [if_neg h]
    exact cell_update_other h

/-- R65 to R67: the one OPEN record closes as it stands. -/
theorem closeOpen_only {c : ConfigStore} {stopped : Bool} {s : State} {i : SlotNo} {r : Record}
    (hi : s.recs.slots.get i = some r) (hp : r.isOpen = true)
    (ho : ∀ j r', j ≠ i → s.recs.slots.get j = some r' → r'.isOpen = false) :
    closeOpen c stopped s = raiseClosed (setSlot i (some (r.closedAs c stopped (heldFrames s r.chain))) s) := by
  unfold closeOpen openSlot
  rw [findRecord_only hi hp ho]
  simp only [hi]

/-- With no OPEN record nothing closes. -/
theorem closeOpen_none {c : ConfigStore} {stopped : Bool} {s : State}
    (h : ∀ j r, s.recs.slots.get j = some r → r.isOpen = false) : closeOpen c stopped s = s := by
  unfold closeOpen openSlot
  rw [findRecord_none h]

end Sys2Proof.Machine
end

