-- ==== Sys2Proof/Laws/Safe.lean ====
section
/-! SUPPORT. Each shared operation keeps the invariant `Safe`. -/

namespace Sys2Proof.Machine

/-! ### Setters and raises -/

theorem raise_safe (src : Source) (s : State) (hsrc : levelPlace src.place = false) (h : Safe s) :
    Safe (raise src s) := by
  obtain ⟨hm, hf, hc, hl, he⟩ := h
  have hne : ∀ l : Source, levelPlace l.place = true → src.place ≠ l.place := by
    intro l hl' heq
    rw [heq, hl'] at hsrc
    exact absurd hsrc (by decide)
  refine ⟨hm, hf, hc, ⟨?_, ?_, ?_, ?_, ?_⟩, eventsSafe_raise _ _ he⟩
  · exact (levelAgrees_raise _ _ _ _ (hne _ rfl)).2 hl.1
  · exact (levelAgrees_raise _ _ _ _ (hne _ rfl)).2 hl.2.1
  · exact (levelAgrees_raise _ _ _ _ (hne _ rfl)).2 hl.2.2.1
  · exact (levelAgrees_raise _ _ _ _ (hne _ rfl)).2 hl.2.2.2.1
  · exact (levelAgrees_raise _ _ _ _ (hne _ rfl)).2 hl.2.2.2.2

theorem setFree_safe (f : List SegNo) (s : State) (h : Safe s) : Safe (setFree f s) := by
  obtain ⟨hm, hf, hc, hl, he⟩ := h
  refine ⟨by simpa using hm, by simpa using hf, by simpa [countsSafe] using hc, ⟨?_, ?_, ?_, ?_, ?_⟩,
    eventsSafe_handLevel _ _ _ _ he⟩
  all_goals simp only [setFree_frame]
  · exact (levelAgrees_handLevel_other _ _ _ _ _ _ (by decide)).2 hl.1
  · exact (levelAgrees_handLevel_other _ _ _ _ _ _ (by decide)).2 hl.2.1
  · exact levelAgrees_handLevel _ _ _ _ hl.2.2.1
  · exact (levelAgrees_handLevel_other _ _ _ _ _ _ (by decide)).2 hl.2.2.2.1
  · exact (levelAgrees_handLevel_other _ _ _ _ _ _ (by decide)).2 hl.2.2.2.2

theorem setStation_safe (st : StationState) (s : State) (h : Safe s) : Safe (setStation st s) := by
  obtain ⟨hm, hf, hc, hl, he⟩ := h
  refine ⟨by simpa using hm, by simpa using hf, by simpa [countsSafe] using hc, ⟨?_, ?_, ?_, ?_, ?_⟩,
    eventsSafe_handLevel _ _ _ _ he⟩
  all_goals simp only [setStation_frame]
  · exact (levelAgrees_handLevel_other _ _ _ _ _ _ (by decide)).2 hl.1
  · exact (levelAgrees_handLevel_other _ _ _ _ _ _ (by decide)).2 hl.2.1
  · exact (levelAgrees_handLevel_other _ _ _ _ _ _ (by decide)).2 hl.2.2.1
  · exact levelAgrees_handLevel _ _ _ _ hl.2.2.2.1
  · exact (levelAgrees_handLevel_other _ _ _ _ _ _ (by decide)).2 hl.2.2.2.2

theorem setSync_safe (y : Sync) (s : State) (h : Safe s) : Safe (setSync y s) := by
  obtain ⟨hm, hf, hc, hl, he⟩ := h
  refine ⟨by simpa using hm, by simpa using hf, by simpa [countsSafe] using hc, ⟨?_, ?_, ?_, ?_, ?_⟩,
    eventsSafe_handLevel _ _ _ _ he⟩
  all_goals simp only [setSync_frame]
  · exact (levelAgrees_handLevel_other _ _ _ _ _ _ (by decide)).2 hl.1
  · exact (levelAgrees_handLevel_other _ _ _ _ _ _ (by decide)).2 hl.2.1
  · exact (levelAgrees_handLevel_other _ _ _ _ _ _ (by decide)).2 hl.2.2.1
  · exact levelAgrees_handLevel _ _ _ _ hl.2.2.2.1
  · exact (levelAgrees_handLevel_other _ _ _ _ _ _ (by decide)).2 hl.2.2.2.2

theorem setRx_safe (x : RxState) (s : State) (h : Safe s) : Safe (setRx x s) := by
  obtain ⟨hm, hf, hc, hl, he⟩ := h
  refine ⟨by simpa using hm, by simpa using hf, by simpa [countsSafe] using hc, ⟨?_, ?_, ?_, ?_, ?_⟩,
    eventsSafe_handLevel _ _ _ _ he⟩
  all_goals simp only [setRx_frame]
  · exact levelAgrees_handLevel _ _ _ _ hl.1
  · exact (levelAgrees_handLevel_other _ _ _ _ _ _ (by decide)).2 hl.2.1
  · exact (levelAgrees_handLevel_other _ _ _ _ _ _ (by decide)).2 hl.2.2.1
  · exact (levelAgrees_handLevel_other _ _ _ _ _ _ (by decide)).2 hl.2.2.2.1
  · exact (levelAgrees_handLevel_other _ _ _ _ _ _ (by decide)).2 hl.2.2.2.2

theorem setWriter_safe (w : Writer) (s : State) (hw : w.discarded ≤ 65535) (h : Safe s) : Safe (setWriter w s) := by
  obtain ⟨hm, hf, hc, hl, he⟩ := h
  refine ⟨by simpa using hm, by simpa using hf, by simpa [countsSafe] using ⟨hw, hc.2⟩, ⟨?_, ?_, ?_, ?_, ?_⟩,
    eventsSafe_handLevel _ _ _ _ he⟩
  all_goals simp only [setWriter_frame]
  · exact (levelAgrees_handLevel_other _ _ _ _ _ _ (by decide)).2 hl.1
  · exact levelAgrees_handLevel _ _ _ _ hl.2.1
  · exact (levelAgrees_handLevel_other _ _ _ _ _ _ (by decide)).2 hl.2.2.1
  · exact (levelAgrees_handLevel_other _ _ _ _ _ _ (by decide)).2 hl.2.2.2.1
  · exact (levelAgrees_handLevel_other _ _ _ _ _ _ (by decide)).2 hl.2.2.2.2

theorem setLog_safe (l : List LogEntry) (s : State) (hlen : l.length ≤ logRoom) (h : Safe s) : Safe (setLog l s) := by
  obtain ⟨hm, hf, hc, hl, he⟩ := h
  refine ⟨by simpa [memorySafe] using hm, by simpa [findingsSafe] using ⟨hlen, hf.2⟩, by simpa [countsSafe] using hc,
    ⟨?_, ?_, ?_, ?_, ?_⟩, eventsSafe_handLevel _ _ _ _ he⟩
  all_goals simp only [setLog_frame]
  · exact (levelAgrees_handLevel_other _ _ _ _ _ _ (by decide)).2 hl.1
  · exact (levelAgrees_handLevel_other _ _ _ _ _ _ (by decide)).2 hl.2.1
  · exact (levelAgrees_handLevel_other _ _ _ _ _ _ (by decide)).2 hl.2.2.1
  · exact (levelAgrees_handLevel_other _ _ _ _ _ _ (by decide)).2 hl.2.2.2.1
  · exact levelAgrees_handLevel _ _ _ _ hl.2.2.2.2

theorem setHeader_safe (g : SegNo) (x : Header) (s : State) (h : Safe s) : Safe (setHeader g x s) := h
theorem setHistory_safe (x : List SegNo) (s : State) (h : Safe s) : Safe (setHistory x s) := h
theorem setSlot_safe (i : SlotNo) (r : Option Record) (s : State) (h : Safe s) : Safe (setSlot i r s) := h
theorem takeHeader_safe (g : SegNo) (s : State) (h : Safe s) : Safe (takeHeader g s) := h
theorem holdInputs_safe (i : List AnalogLevel) (s : State) (h : Safe s) : Safe (holdInputs i s) := h
theorem holdLine_safe (b : Bool) (s : State) (h : Safe s) : Safe (holdLine b s) := h

theorem satSucc_le {cap n : Nat} : satSucc cap n ≤ cap := Nat.min_le_left _ _

/-! ### The pool -/

theorem popFree_safe {s t : State} {g : SegNo} (hp : popFree s = some (g, t)) (h : Safe s) : Safe t := by
  obtain ⟨r, _, rfl⟩ := popFree_eq_some hp
  exact takeHeader_safe _ _ (setFree_safe _ _ h)

theorem retireTo_safe (g : SegNo) (j : SpareNo) (s : State) (h : Safe s) : Safe (retireTo g j s) := h

theorem withdraw_safe (g : SegNo) (s : State) (h : Safe s) : Safe (withdraw g s) :=
  raise_safe _ _ rfl h

theorem retireCheck_safe (g : SegNo) (s : State) (h : Safe s) : Safe (retireCheck g s).1 := by
  unfold retireCheck
  repeat' split
  · exact retireTo_safe _ _ _ h
  · exact withdraw_safe _ _ h
  · exact h

theorem enterFree_safe (g : SegNo) (s : State) (h : Safe s) : Safe (enterFree g s) := by
  unfold enterFree
  dsimp only
  split
  · exact setFree_safe _ _ (retireCheck_safe _ _ h)
  · exact retireCheck_safe _ _ h

theorem returnAll_safe : ∀ (gs : List SegNo) (s : State), Safe s → Safe (returnAll gs s)
  | [], _, h => h
  | g :: gs, s, h => returnAll_safe gs _ (enterFree_safe g s h)

theorem beginSegment_safe (g : SegNo) (s : State) (h : Safe s) : Safe (beginSegment g s) :=
  setWriter_safe _ _ h.2.2.1.1 h

theorem enterOverrun_safe (s : State) (h : Safe s) : Safe (enterOverrun s) := setWriter_safe _ _ h.2.2.1.1 h

theorem writerIdle_safe (s : State) (h : Safe s) : Safe (writerIdle s) := setWriter_safe _ _ h.2.2.1.1 h

theorem takeHistory_safe : ∀ (gs : List SegNo) (s : State), Safe s → Safe (takeHistory gs s)
  | [], s, h => enterOverrun_safe _ (setHistory_safe _ s h)
  | g :: r, s, h => by
    have hq := retireCheck_safe g _ (setHistory_safe r s h)
    unfold takeHistory
    dsimp only
    split
    · exact beginSegment_safe _ _ (takeHeader_safe _ _ hq)
    · exact takeHistory_safe r _ hq

theorem writerTake_safe (s : State) (h : Safe s) : Safe (writerTake s) := by
  unfold writerTake
  split
  · rename_i hp
    exact beginSegment_safe _ _ (popFree_safe hp h)
  · exact takeHistory_safe _ _ h

theorem serveOutstanding_safe (s : State) (h : Safe s) : Safe (serveOutstanding s) := by
  unfold serveOutstanding
  split
  · split
    · rename_i hp
      exact beginSegment_safe _ _ (popFree_safe hp h)
    · exact h
  · exact h

/-- Giving up the current segment leaves the writer's state. -/
theorem dropCurrent_safe (s : State) (h : Safe s) : Safe { s with writer := { s.writer with current := none } } := h

theorem segmentFull_safe (c : ConfigStore) (g : SegNo) (s : State) (h : Safe s) : Safe (segmentFull c g s) := by
  unfold segmentFull
  dsimp only
  apply writerTake_safe
  split
  · split
    · exact enterFree_safe _ _ h
    · exact h
  · exact h

/-! ### Records -/

theorem raiseClosed_safe (s : State) (h : Safe s) : Safe (raiseClosed s) := raise_safe _ _ rfl h

theorem missTrigger_safe (s : State) (h : Safe s) : Safe (missTrigger s) :=
  raise_safe _ _ rfl ⟨h.1, h.2.1, ⟨h.2.2.1.1, satSucc_le, h.2.2.1.2.2⟩, h.2.2.2⟩

theorem completeData_safe (i : SlotNo) (s : State) (h : Safe s) : Safe (completeData i s) := by
  unfold completeData
  split
  · exact h
  · dsimp only
    apply writerTake_safe
    apply dropCurrent_safe
    split
    · exact h
    · exact raiseClosed_safe _ h

theorem completeAtEnd_safe (i : SlotNo) (s : State) (h : Safe s) : Safe (completeAtEnd i s) := by
  unfold completeAtEnd
  split
  · exact h
  · split
    · exact completeData_safe _ _ h
    · exact h

theorem placeRecord_safe (c : ConfigStore) (i : SlotNo) (r : Record) (m : Nat) (s : State) (h : Safe s) :
    Safe (placeRecord c i r m s) := returnAll_safe _ _ h

theorem fixTrigger_safe (c : ConfigStore) (i : SlotNo) (s : State) (h : Safe s) : Safe (fixTrigger c i s) := by
  unfold fixTrigger
  repeat' split
  all_goals first | exact h | exact placeRecord_safe _ _ _ _ _ h

theorem collectClaim_safe (c : ConfigStore) (i : SlotNo) (s : State) (h : Safe s) : Safe (collectClaim c i s) := by
  unfold collectClaim
  split
  · exact h
  · split
    · exact completeData_safe _ _ h
    · split
      · rename_i hp
        exact beginSegment_safe _ _ (setSlot_safe _ _ _ (popFree_safe hp h))
      · exact completeData_safe _ _ h

theorem countReport_safe (c : ConfigStore) (i : SlotNo) (t : Tick) (s : State) (h : Safe s) :
    Safe (countReport c i t s) := by
  unfold countReport
  repeat' split
  all_goals first | exact h | exact setSlot_safe _ _ _ (fixTrigger_safe _ _ _ h)

theorem endReport_safe (c : ConfigStore) (i : SlotNo) (f : Bool) (s : State) (h : Safe s) : Safe (endReport c i f s) := by
  unfold endReport
  repeat' split
  all_goals first | exact h | exact completeData_safe _ _ h | exact collectClaim_safe _ _ _ h

theorem recordReport_safe (c : ConfigStore) (i : SlotNo) (t : Tick) (f : Bool) (s : State) (h : Safe s) :
    Safe (recordReport c i t f s) := endReport_safe _ _ _ _ (countReport_safe _ _ _ _ h)

theorem openRecord_safe (c : ConfigStore) (e : Capture) (q : Option Cause) (s : State) (h : Safe s) :
    Safe (openRecord c e q s) := by
  unfold openRecord
  split
  · exact completeAtEnd_safe _ _ (fixTrigger_safe _ _ _ h)
  · exact missTrigger_safe _ h

theorem triggerEvent_safe (c : ConfigStore) (e : Capture) (q : Option Cause) (s : State) (h : Safe s) :
    Safe (triggerEvent c e q s) := by
  unfold triggerEvent
  repeat' split
  all_goals first | exact h | exact openRecord_safe _ _ _ _ h

theorem attachCause_safe (q : Cause) (s : State) (h : Safe s) : Safe (attachCause q s) := by
  unfold attachCause
  repeat' split
  all_goals exact h

theorem windowResult_safe (r : Option IdSet) (s : State) (h : Safe s) : Safe (windowResult r s) := by
  unfold windowResult
  dsimp only
  repeat' split
  all_goals first | exact h | exact raiseClosed_safe _ h

theorem closeOpen_safe (c : ConfigStore) (b : Bool) (s : State) (h : Safe s) : Safe (closeOpen c b s) := by
  unfold closeOpen
  repeat' split
  all_goals first | exact h | exact raiseClosed_safe _ h

theorem markRecord_safe (g : SegNo) (s : State) (h : Safe s) : Safe (markRecord g s) := by
  unfold markRecord
  repeat' split
  all_goals exact h

/-! ### The line agent and the timebase -/

theorem suppress_safe (s : State) (h : Safe s) : Safe (suppress s) :=
  ⟨h.1, h.2.1, ⟨h.2.2.1.1, h.2.2.1.2.1, satSucc_le, h.2.2.1.2.2.2⟩, h.2.2.2⟩

theorem lostRaised_safe (s : State) (h : Safe s) (x : Transmitter) (hs : x.suppressed = s.tx.suppressed)
    (hl : x.lost ≤ 255) : Safe (raise .originLost { s with tx := x }) :=
  raise_safe _ _ rfl ⟨h.1, h.2.1, ⟨h.2.2.1.1, h.2.2.1.2.1, hs ▸ h.2.2.1.2.2.1, hl, h.2.2.1.2.2.2.2⟩, h.2.2.2⟩

theorem offer_safe (c : ConfigStore) (q : CauseSet) (t : Timestamp) (s : State) (h : Safe s) : Safe (offer c q t s) := by
  unfold offer
  repeat' split
  all_goals first | exact h | exact suppress_safe _ h | exact attachCause_safe _ _ h

theorem absorb_safe (s : State) (h : Safe s) : Safe (absorb s) := by
  unfold absorb
  repeat' split
  all_goals first | exact h | exact lostRaised_safe _ h _ rfl satSucc_le

theorem endDrive_safe (s : State) (h : Safe s) : Safe (endDrive s) := h

theorem serveRequest_safe (s : State) (h : Safe s) : Safe (serveRequest s) := by
  unfold serveRequest
  split <;> exact h

theorem satisfyEpoch_safe (s : State) (h : Safe s) : Safe (satisfyEpoch s) := by
  unfold satisfyEpoch
  split <;> exact h

theorem align_safe (c : ConfigStore) (e : EdgeCapture) (s : State) (h : Safe s) : Safe (align c e s) := by
  unfold align
  dsimp only
  repeat' split
  all_goals first | exact h | exact raise_safe _ _ rfl h

theorem onTrigger_safe (c : ConfigStore) (e : EdgeCapture) (s : State) (h : Safe s) : Safe (onTrigger c e s) := by
  unfold onTrigger
  dsimp only
  exact triggerEvent_safe _ _ _ _ (serveRequest_safe _ (endDrive_safe _ (setRx_safe _ _ h)))

theorem absorbOwn_safe (s : State) (h : Safe s) : Safe (absorbOwn s) := by
  unfold absorbOwn
  split
  · exact absorb_safe _ h
  · exact h

theorem onEpoch_safe (c : ConfigStore) (e : EdgeCapture) (s : State) (h : Safe s) : Safe (onEpoch c e s) :=
  align_safe _ _ _ (satisfyEpoch_safe _ (endDrive_safe _ (setRx_safe _ _ (absorbOwn_safe _ h))))

theorem lineErrors_safe (s : State) (h : Safe s) (x : Receiver) (hx : x.state = s.rx.state) (hl : x.lineErrors ≤ 255) :
    Safe { s with rx := x } := by
  obtain ⟨hm, hf, hc, hv, he⟩ := h
  refine ⟨hm, hf, ⟨hc.1, hc.2.1, hc.2.2.1, hc.2.2.2.1, hl⟩, ⟨?_, hv.2⟩, he⟩
  show levelAgrees s.ev .lineStuck (x.state == .stuck)
  rw [hx]
  exact hv.1

theorem dropOwnEpoch_safe (s : State) (h : Safe s) : Safe (dropOwnEpoch s) := by
  unfold dropOwnEpoch
  split <;> exact h

theorem onMalformed_safe (s : State) (h : Safe s) : Safe (onMalformed s) :=
  endDrive_safe _ (setRx_safe _ _
    (lineErrors_safe _ (dropOwnEpoch_safe _ (absorbOwn_safe _ h)) _ rfl satSucc_le))

theorem onGlitch_safe (s : State) (h : Safe s) : Safe (onGlitch s) := endDrive_safe _ (setRx_safe _ _ h)

theorem classifyPulse_safe (c : ConfigStore) (w : Nat) (s : State) (h : Safe s) : Safe (classifyPulse c w s) := by
  unfold classifyPulse
  dsimp only
  have h' : Safe { s with rx := { s.rx with width := w } } := h
  repeat' split
  · exact onMalformed_safe _ h'
  · exact onGlitch_safe _ h'
  · exact onTrigger_safe _ _ _ h'
  · exact onEpoch_safe _ _ _ h'
  · exact onMalformed_safe _ h'

theorem cutShort_safe (s : State) (h : Safe s) : Safe (cutShort s) := setRx_safe _ _ h

theorem endTagWindow_safe (c : ConfigStore) (s : State) (h : Safe s) : Safe (endTagWindow c s) := by
  unfold endTagWindow
  dsimp only
  split
  · exact cutShort_safe _ (windowResult_safe _ _ h)
  · exact setRx_safe _ _ (windowResult_safe _ _ h)

theorem numberResult_safe (r : Option (BitVec 16)) (s : State) (h : Safe s) : Safe (numberResult r s) := by
  unfold numberResult
  dsimp only
  repeat' split
  all_goals first | exact h | exact setSync_safe _ _ h | exact raise_safe _ _ rfl h

theorem endNumberWindow_safe (s : State) (h : Safe s) : Safe (endNumberWindow s) := by
  unfold endNumberWindow
  dsimp only
  split
  · exact cutShort_safe _ (numberResult_safe _ _ h)
  · exact setRx_safe _ _ (numberResult_safe _ _ h)

theorem txStuck_safe (s : State) (h : Safe s) : Safe (txStuck s) := by
  unfold txStuck
  dsimp only
  repeat' split
  all_goals first | exact h | exact lostRaised_safe _ h _ rfl satSucc_le

theorem declareStuck_safe (c : ConfigStore) (s : State) (h : Safe s) : Safe (declareStuck c s) := by
  unfold declareStuck
  dsimp only
  have h1 : Safe (txStuck (setRx .stuck { s with rx := { s.rx with capture := none } })) :=
    txStuck_safe _ (setRx_safe _ _ h)
  have h2 := closeOpen_safe c false _ (setSync_safe .seeking _ (show Safe { txStuck (setRx .stuck
    { s with rx := { s.rx with capture := none } }) with tb := { (txStuck (setRx .stuck
    { s with rx := { s.rx with capture := none } })).tb with provisional := false } } from h1))
  split
  · exact writerTake_safe _ (dropCurrent_safe _ h2)
  · exact h2

/-! ### Sampling and the clock -/

theorem acceptLevel_safe (s : State) (h : Safe s) : Safe (acceptLevel s) := by
  unfold acceptLevel
  split <;> exact h

theorem sampleLine_safe (s : State) (h : Safe s) : Safe (sampleLine s) := by
  unfold sampleLine
  dsimp only
  repeat' split
  all_goals exact h

theorem countPhase_sync (p : Option Nat) (tb : Timebase) : (countPhase p tb).sync = tb.sync := by
  unfold countPhase
  repeat' split
  all_goals rfl

theorem countTick_safe (s : State) (h : Safe s) : Safe (countTick s) := by
  unfold countTick
  dsimp only
  split
  · obtain ⟨hm, hf, hc, hl, he⟩ := h
    refine ⟨hm, hf, hc, ⟨hl.1, hl.2.1, hl.2.2.1, ?_, hl.2.2.2.2⟩, he⟩
    dsimp only [countTimebase]
    rw [countPhase_sync]
    exact hl.2.2.2.1
  · exact h

theorem tick_safe (s : State) (h : Safe s) : Safe (tick s) := countTick_safe _ (sampleLine_safe _ h)

theorem elapse_safe : ∀ (n : Nat) (s : State), Safe s → Safe (s.elapse n)
  | 0, _, h => h
  | n + 1, s, h => elapse_safe n _ (tick_safe s h)

theorem settle_safe (b : Bool) (s : State) (h : Safe s) : Safe (settle b s) := by
  have t := sampleLine_safe _ h
  unfold settle
  dsimp only
  repeat' split
  · exact t
  · exact sampleLine_safe _ (tick_safe _ t)
  · exact sampleLine_safe _ (tick_safe _ (sampleLine_safe _ (tick_safe _ t)))
  · exact sampleLine_safe _ (tick_safe _ (sampleLine_safe _ (tick_safe _ t)))

/-- A row of the clock keeps what its effect keeps. -/
theorem atTime_safe (due : Option Nat) (f : State → State) (s : State) (hf : ∀ u, Safe u → Safe (f u)) (h : Safe s) :
    Safe (atTime due f s) := by
  unfold atTime
  split
  · exact h
  · exact hf _ (elapse_safe _ _ h)

theorem whenConfigured_safe (s : State) (f : ConfigStore → State)
    (hf : ∀ c, s.live = true → s.ctl.config = some c → Safe (f c)) (h : Safe s) : Safe (whenConfigured s f) := by
  unfold whenConfigured
  split
  · split
    · exact h
    · rename_i hc
      exact hf _ (by assumption) hc
  · exact h

/-! ### Memory -/

theorem found_safe (s : State) (h : Safe s) : Safe { s with mem := { s.mem with
    errorCount := satSucc 65535 s.mem.errorCount } } :=
  ⟨h.1, ⟨h.2.1.1, satSucc_le⟩, h.2.2⟩

theorem finding_safe (c : ConfigStore) (f : Finder) (g : SegNo) (o : Nat) (y : BitVec 6) (p : Option Nat) (s : State)
    (h : Safe s) : Safe (finding c f g o y p s) := by
  unfold finding
  dsimp only
  have key : ∀ u : State, Safe u → Safe (match p with
      | some _ => raise .memCorrected (setHeader g ((u.header g).found (retireThreshold c) .corrected) u)
      | none => raise .memUncorrectable
          (markRecord g (setHeader g ((u.header g).found (retireThreshold c) .uncorrectable) u))) := by
    intro u hu
    split
    · exact raise_safe _ _ rfl hu
    · exact raise_safe _ _ rfl (markRecord_safe _ _ hu)
  apply key
  split
  · rename_i hlt
    refine setLog_safe _ _ ?_ (found_safe _ h)
    simp only [List.length_append, List.length_singleton]
    exact hlt
  · exact found_safe _ h

theorem finding_mem (c : ConfigStore) (f : Finder) (g : SegNo) (o : Nat) (y : BitVec 6) (p : Option Nat) (s : State) :
    (finding c f g o y p s).mem.array = s.mem.array ∧ (finding c f g o y p s).mem.buffer = s.mem.buffer := by
  unfold finding
  dsimp only
  constructor
  all_goals
    repeat' split
    all_goals simp

theorem offerWriteBack_safe (g : SegNo) (a : Nat) (w : Word) (s : State) (ha : a < arrayWords) (h : Safe s) :
    Safe (offerWriteBack g a w s) := by
  unfold offerWriteBack
  split
  · exact h
  · obtain ⟨hm, hf, hc, hl, he⟩ := h
    refine ⟨⟨hm.1, fun e hb => ?_⟩, hf, hc, hl, he⟩
    simp only [Option.some.injEq] at hb
    rw [← hb]
    exact ha

theorem readWord_safe (c : ConfigStore) (f : Finder) (g : SegNo) (o : Nat) (s : State) (h : Safe s) :
    Safe (readWord c f g o s) := by
  unfold readWord
  dsimp only
  split
  · exact h
  · exact offerWriteBack_safe _ _ _ _ (address_lt _ _ _) (finding_safe _ _ _ _ _ _ _ h)
  · exact finding_safe _ _ _ _ _ _ _ h

end Sys2Proof.Machine
end

