-- ==== Sys2Proof/Laws/Station.lean ====
section
/-! SUPPORT. What the station controller's operations keep and leave: LISTEN entry, RUNNING entry, STOP, FAULT
entry and the resets. -/

namespace Sys2Proof.Machine

theorem seekingHolds_of_ne {st : StationState} {y : Sync} (h : st ≠ .running) : seekingHolds st y = false := by
  simp [seekingHolds, h]

/-- While the station is not RUNNING the timebase may be rewritten freely. -/
theorem timebase_safe (s : State) (x : Timebase) (hst : s.ctl.state ≠ .running) (h : Safe s) :
    Safe { s with tb := x } := by
  obtain ⟨hm, hf, hc, hl, he⟩ := h
  refine ⟨hm, hf, hc, ⟨hl.1, hl.2.1, hl.2.2.1, ?_, hl.2.2.2.2⟩, he⟩
  have h4 := hl.2.2.2.1
  rw [seekingHolds_of_ne hst] at h4
  show levelAgrees s.ev .syncSeeking (seekingHolds s.ctl.state x.sync)
  rwa [seekingHolds_of_ne hst]

theorem timebaseSync_safe (s : State) (x : Timebase) (hx : x.sync = s.tb.sync) (h : Safe s) :
    Safe { s with tb := x } := by
  obtain ⟨hm, hf, hc, hl, he⟩ := h
  refine ⟨hm, hf, hc, ⟨hl.1, hl.2.1, hl.2.2.1, ?_, hl.2.2.2.2⟩, he⟩
  show levelAgrees s.ev .syncSeeking (seekingHolds s.ctl.state x.sync)
  rw [hx]
  exact hl.2.2.2.1

theorem transmitter_safe (s : State) (x : Transmitter) (hs : x.suppressed ≤ 255) (hl : x.lost ≤ 255) (h : Safe s) :
    Safe { s with tx := x } :=
  ⟨h.1, h.2.1, ⟨h.2.2.1.1, h.2.2.1.2.1, hs, hl, h.2.2.1.2.2.2.2⟩, h.2.2.2⟩

theorem enterListen_safe (c : ConfigStore) (b : Bool) (s : State) (hst : s.ctl.state ≠ .running) (h : Safe s) :
    Safe (enterListen c b s) := by
  unfold enterListen
  dsimp only
  apply writerTake_safe
  apply setStation_safe
  have h1 := timebase_safe (setRx .recover s)
    { (setRx .recover s).tb with
      phase := 0, epoch := 0, sync := .seeking, mode := .held, requestMade := false, provisional := false }
    (by simpa using hst) (setRx_safe _ _ h)
  exact h1

theorem enterRunning_safe (c : ConfigStore) (s : State) (hst : s.ctl.state ≠ .running) (h : Safe s) :
    Safe (enterRunning c s) := by
  unfold enterRunning
  dsimp only
  apply setStation_safe
  have h1 := timebase_safe s
    { s.tb with
      phase := 0, epoch := 0, sync := .seeking, mode := .line, requestMade := false, provisional := false } hst h
  exact h1

theorem returnPool_safe (s : State) (h : Safe s) : Safe (returnPool s) :=
  returnAll_safe _ _ (setHistory_safe _ _ (writerIdle_safe _ h))

theorem stopSequencer_safe (s : State) (h : Safe s) : Safe (stopSequencer s) := h

theorem disableRequesters_safe (s : State) (h : Safe s) : Safe (disableRequesters s) := h

theorem enterHalted_safe (c : ConfigStore) (s : State) (h : Safe s) : Safe (enterHalted c s) := by
  unfold enterHalted
  exact setStation_safe _ _
    (disableRequesters_safe _ (closeOpen_safe c true _ (returnPool_safe _ (stopSequencer_safe _ h))))

theorem abandonFill_safe (m : Integrity) (h : memorySafe m) : memorySafe (abandonFill m) := by
  unfold abandonFill
  split
  · exact h
  · exact ⟨wfFrom_fillBelow h.1, h.2⟩

theorem abandonFill_log (m : Integrity) :
    (abandonFill m).log = m.log ∧ (abandonFill m).errorCount = m.errorCount ∧ (abandonFill m).buffer = m.buffer := by
  unfold abandonFill
  split <;> simp

theorem enterFault_safe (c : ConfigStore) (s : State) (h : Safe s) : Safe (enterFault c s) := by
  unfold enterFault
  dsimp only
  refine raise_safe _ _ rfl (setStation_safe _ _ ?_)
  have h1 := setRx_safe .idle _
    (disableRequesters_safe _ (closeOpen_safe c true _ (returnPool_safe _ (stopSequencer_safe _ h))))
  have hrx : (setRx .idle (disableRequesters (closeOpen c true (returnPool (stopSequencer s))))).rx.state = .idle := by
    simp
  generalize setRx .idle (disableRequesters (closeOpen c true (returnPool (stopSequencer s)))) = u at h1 hrx ⊢
  obtain ⟨hm, hf, hc, hl, he⟩ := h1
  have hk := abandonFill_log u.mem
  refine ⟨abandonFill_safe _ hm, ?_, ⟨hc.1, hc.2.1, hc.2.2.1, hc.2.2.2.1, hc.2.2.2.2⟩,
    ⟨?_, hl.2.1, hl.2.2.1, hl.2.2.2.1, ?_⟩, he⟩
  · unfold findingsSafe at hf ⊢
    dsimp only
    rw [hk.1, hk.2.1]
    exact hf
  · have h2 := hl.1
    rw [hrx] at h2
    exact h2
  · dsimp only
    rw [hk.1]
    exact hl.2.2.2.2

theorem resetEvents_safe : eventsSafe EventUnit.reset := by
  refine ⟨by decide, ?_⟩
  decide

theorem resetEvents_quiet (l : Source) : levelAgrees EventUnit.reset l false := by
  cases l <;> rfl

theorem powerOn_safe (pins : Pins) (id : BitVec 5) (s : State) (h : Safe s) : Safe (powerOn pins id s) :=
  ⟨⟨(abandonFill_safe _ h.1).1, fun e he => by cases he⟩, ⟨Nat.zero_le _, Nat.zero_le _⟩,
    ⟨Nat.zero_le _, Nat.zero_le _, Nat.zero_le _, Nat.zero_le _, Nat.zero_le _⟩,
    ⟨resetEvents_quiet _, resetEvents_quiet _, resetEvents_quiet _, resetEvents_quiet _, resetEvents_quiet _⟩,
    resetEvents_safe⟩

theorem softReset_safe (s : State) (h : Safe s) : Safe (softReset s) := by
  unfold softReset
  dsimp only
  have hk := abandonFill_log s.mem
  have hf := h.2.1
  unfold findingsSafe at hf
  refine ⟨?_, ?_, ?_, ⟨?_, ?_, ?_, ?_, ?_⟩, eventsSafe_handLevel _ _ _ _ resetEvents_safe⟩
  · simp only [handLevel_frame]
    exact ⟨(abandonFill_safe _ h.1).1, fun e he => by cases he⟩
  · simp only [handLevel_frame, findingsSafe, hk.1, hk.2.1]
    exact hf
  · simp only [countsSafe, handLevel_frame]
    exact ⟨Nat.zero_le _, Nat.zero_le _, Nat.zero_le _, Nat.zero_le _, Nat.zero_le _⟩
  all_goals simp only [handLevel_frame]
  · exact (levelAgrees_handLevel_other _ _ _ _ _ _ (by decide)).2 (resetEvents_quiet _)
  · exact (levelAgrees_handLevel_other _ _ _ _ _ _ (by decide)).2 (resetEvents_quiet _)
  · exact (levelAgrees_handLevel_other _ _ _ _ _ _ (by decide)).2 (resetEvents_quiet _)
  · exact (levelAgrees_handLevel_other _ _ _ _ _ _ (by decide)).2 (resetEvents_quiet _)
  · exact levelAgrees_handLevel _ _ _ _ (resetEvents_quiet _)

/-! ### What the resets leave -/

/-- Abandoning a fill touches the array and the fill alone. -/
@[simp] theorem abandonFill_frame (m : Integrity) :
    (abandonFill m).log = m.log ∧ (abandonFill m).errorCount = m.errorCount ∧ (abandonFill m).buffer = m.buffer
    ∧ (abandonFill m).scrub = m.scrub ∧ (abandonFill m).prefetch = m.prefetch ∧ (abandonFill m).fill = none := by
  unfold abandonFill
  split
  · exact ⟨rfl, rfl, rfl, rfl, rfl, by assumption⟩
  · exact ⟨rfl, rfl, rfl, rfl, rfl, rfl⟩

/-- With no fill in progress there is nothing to abandon. -/
theorem abandonFill_none {m : Integrity} (h : m.fill = none) : abandonFill m = m := by
  unfold abandonFill
  rw [h]

/-- R137: what an abandoned fill leaves of the array: its words below the progress, the rest as they stood. -/
theorem readArray_abandonFill {m : Integrity} {done : Nat} (h : m.fill = some done)
    (hw : Memory.wf m.array = true) (a : Nat) :
    readArray (abandonFill m).array a = if a < done then fillWord a else readArray m.array a := by
  unfold abandonFill
  rw [h]
  exact readArray_fillBelow hw

/-- R23, R183: every block after a soft reset, the event unit apart. -/
theorem softReset_frame (s : State) :
    (softReset s).ctl = { Controller.reset with stationId := s.ctl.stationId, blocks := s.ctl.blocks }
    ∧ (softReset s).pool =
        { free := rebuiltFree s.pool.withdrawn, history := [], withdrawn := s.pool.withdrawn,
          headers := Vector.ofFn (fun g : SegNo => (s.header g).softReset) }
    ∧ (softReset s).mem =
        { Integrity.reset with array := (abandonFill s.mem).array, log := s.mem.log, errorCount := s.mem.errorCount }
    ∧ (softReset s).ret = s.ret ∧ (softReset s).port = s.port ∧ (softReset s).pins = s.pins
    ∧ (softReset s).pending = s.pending ∧ (softReset s).tb = .reset ∧ (softReset s).writer = .reset
    ∧ (softReset s).seqr = .reset ∧ (softReset s).recs = .reset
    ∧ (softReset s).dets = Vector.replicate 8 Detector.reset ∧ (softReset s).trig = .reset
    ∧ (softReset s).filter = .reset ∧ (softReset s).rx = .reset ∧ (softReset s).tx = .reset := by
  unfold softReset
  simp only [handLevel_frame, abandonFill_frame]
  repeat' apply And.intro
  all_goals trivial

/-- R172: LOG_FULL is PENDING at once when the kept log is full; no other source is. -/
theorem softReset_ev (s : State) :
    (softReset s).ev
      = if s.mem.log.length = logRoom then EventUnit.reset.update Source.logFull.place SourceCell.started
        else EventUnit.reset := by
  unfold softReset handLevel
  by_cases h : s.mem.log.length = logRoom
  · simp [h, State.reset]
  · simp [h, State.reset]

/-- R23: the free list holds the segments that are not withdrawn. -/
theorem mem_rebuiltFree (w : List SegNo) (g : SegNo) : g ∈ rebuiltFree w ↔ g ∉ w := by
  unfold rebuiltFree
  rw [List.mem_filter]
  simp

end Sys2Proof.Machine
end

