-- ==== Sys2Proof/Laws/Places.lean ====
section
/-! SUPPORT. How takes, returns and writes of a slot move segments between the five places of R3. -/

namespace Sys2Proof.Machine

/-! ### The pool's three lists -/

/-- How often a segment stands in the pool's lists. -/
def stock (s : State) (a : SegNo) : Nat :=
  s.pool.free.count a + s.pool.history.count a + s.pool.withdrawn.count a

/-- The stock follows the lists alone. -/
theorem stock_congr {s t : State} (h : t.pool = s.pool) (a : SegNo) : stock t a = stock s a := by
  unfold stock
  rw [h]

theorem stock_setFree (f : List SegNo) (s : State) (a : SegNo) :
    stock (setFree f s) a = f.count a + s.pool.history.count a + s.pool.withdrawn.count a := by
  simp [stock]

theorem stock_setHeader (g : SegNo) (h : Header) (s : State) (a : SegNo) : stock (setHeader g h s) a = stock s a := rfl

theorem stock_takeHeader (g : SegNo) (s : State) (a : SegNo) : stock (takeHeader g s) a = stock s a := rfl

theorem stock_setHistory (l : List SegNo) (s : State) (a : SegNo) :
    stock (setHistory l s) a = s.pool.free.count a + l.count a + s.pool.withdrawn.count a := rfl

theorem stock_withdraw (g : SegNo) (s : State) (a : SegNo) :
    stock (withdraw g s) a = stock s a + [g].count a := by
  simp only [stock, withdraw, raise, List.count_append]
  omega

/-- R160: a segment that may not enter the free list is withdrawn; otherwise the lists stand. -/
theorem stock_retireCheck (g : SegNo) (s : State) (a : SegNo) :
    ((retireCheck g s).2 = true → stock (retireCheck g s).1 a = stock s a)
    ∧ ((retireCheck g s).2 = false → stock (retireCheck g s).1 a = stock s a + [g].count a) := by
  unfold retireCheck
  split
  · split
    · exact ⟨fun _ => rfl, fun h => nomatch h⟩
    · exact ⟨fun h => (nomatch h), fun _ => stock_withdraw g s a⟩
  · exact ⟨fun _ => rfl, fun h => nomatch h⟩

/-- A return puts its segment into the lists. -/
theorem stock_enterFree (g : SegNo) (s : State) (a : SegNo) : stock (enterFree g s) a = stock s a + [g].count a := by
  have h := stock_retireCheck g s a
  unfold enterFree
  dsimp only
  split
  · rename_i hq
    rw [stock_setFree, ← h.1 hq, List.count_append]
    unfold stock
    omega
  · rename_i hq
    exact h.2 (by simpa using hq)

theorem stock_returnAll (a : SegNo) : ∀ (l : List SegNo) (s : State), stock (returnAll l s) a = stock s a + l.count a
  | [], _ => rfl
  | g :: l, s => by
    rw [returnAll, stock_returnAll a l, stock_enterFree, List.count_cons, List.count_cons, List.count_nil]
    omega

/-- A take removes its segment from the lists. -/
theorem stock_popFree {s t : State} {g : SegNo} (h : popFree s = some (g, t)) (a : SegNo) :
    stock t a + [g].count a = stock s a := by
  obtain ⟨r, hf, rfl⟩ := popFree_eq_some h
  rw [stock_takeHeader, stock_setFree]
  unfold stock
  rw [hf, List.count_cons, List.count_cons, List.count_nil]
  omega

/-- What a claim of the writer leaves: it fills a segment taken from the lists, or it is in OVERRUN. -/
def Claimed (s t : State) : Prop :=
  (t.writer.state = .filling ∧ ∃ g, t.writer.current = some g ∧ ∀ a, stock t a + [g].count a = stock s a)
  ∨ (t.writer.state = .overrun ∧ t.writer.current = none ∧ ∀ a, stock t a = stock s a)

theorem stock_setWriter (w : Writer) (s : State) (a : SegNo) : stock (setWriter w s) a = stock s a :=
  stock_congr (by simp) a

theorem claimed_begin {s u : State} {g : SegNo} (h : ∀ a, stock u a + [g].count a = stock s a) :
    Claimed s (beginSegment g u) := by
  refine Or.inl ⟨by simp, g, by simp, fun a => ?_⟩
  rw [← h a]
  unfold beginSegment
  rw [stock_setWriter]

theorem claimed_history : ∀ (l : List SegNo) (s : State), Claimed (setHistory l s) (takeHistory l s)
  | [], s => by
    refine Or.inr ⟨by simp [takeHistory], by simp [takeHistory], fun a => ?_⟩
    unfold takeHistory enterOverrun
    rw [stock_setWriter]
  | g :: r, s => by
    unfold takeHistory
    dsimp only
    have hq := stock_retireCheck g (setHistory r s)
    have hg : ∀ a, stock (setHistory (g :: r) s) a = stock (setHistory r s) a + [g].count a := by
      intro a
      simp only [stock_setHistory, List.count_cons, List.count_nil]
      omega
    split
    · rename_i hp
      apply claimed_begin
      intro a
      rw [stock_takeHeader, (hq a).1 hp, hg]
    · rename_i hp
      have ih := claimed_history r (retireCheck g (setHistory r s)).1
      have hh : ∀ a, stock (setHistory r (retireCheck g (setHistory r s)).1) a = stock (setHistory (g :: r) s) a := by
        intro a
        rw [hg, ← (hq a).2 (by simpa using hp)]
        have hist : (retireCheck g (setHistory r s)).1.pool.history = r := by
          unfold retireCheck withdraw retireTo
          dsimp only
          repeat' split
          all_goals simp
        simp only [stock_setHistory]
        unfold stock
        rw [hist]
      rcases ih with ⟨h1, x, h2, h3⟩ | ⟨h1, h2, h3⟩
      · exact Or.inl ⟨h1, x, h2, fun a => (h3 a).trans (hh a)⟩
      · exact Or.inr ⟨h1, h2, fun a => (h3 a).trans (hh a)⟩

/-- R8: the writer's take claim. -/
theorem claimed_writerTake (s : State) : Claimed s (writerTake s) := by
  unfold writerTake
  split
  · rename_i g t h
    exact claimed_begin (stock_popFree h)
  · have h := claimed_history s.pool.history s
    have hs : setHistory s.pool.history s = s := rfl
    rwa [hs] at h

/-- R20: an outstanding claim served, or left as it was. -/
theorem claimed_serveOutstanding {s : State} (hw : s.writer.state = .overrun) (hc : s.writer.current = none) :
    Claimed s (serveOutstanding s) := by
  unfold serveOutstanding
  rw [if_pos hw]
  split
  · rename_i g t h
    exact claimed_begin (stock_popFree h)
  · exact Or.inr ⟨hw, hc, fun _ => rfl⟩

/-- R9: a full lone segment joins the lists and the writer claims another. -/
theorem claimed_segmentFull (c : ConfigStore) (g : SegNo) (s : State) :
    ∃ u : State, Claimed u (segmentFull c g s) ∧ ∀ a, stock u a = stock s a + [g].count a := by
  unfold segmentFull
  dsimp only
  refine ⟨_, claimed_writerTake _, fun a => ?_⟩
  have hfull : ∀ l : List SegNo, l = s.pool.history ++ [g] →
      s.pool.free.count a + l.count a + s.pool.withdrawn.count a = stock s a + [g].count a := by
    intro l hl
    subst hl
    rw [List.count_append]
    unfold stock
    omega
  split
  · split
    · rename_i old rest hh
      rw [stock_enterFree, stock_setHistory]
      show s.pool.free.count a + rest.count a + s.pool.withdrawn.count a + [old].count a = _
      rw [← hfull _ rfl, hh, List.count_cons, List.count_cons, List.count_nil]
      omega
    · exact hfull _ rfl
  · exact hfull _ rfl

/-! ### The chains of the slots -/

theorem sum_map_update {n : Nat} (f f' : Fin n → Nat) (i : Fin n) (h : ∀ j, j ≠ i → f' j = f j) :
    ∀ l : List (Fin n), l.Nodup → i ∈ l → (l.map f').sum + f i = (l.map f).sum + f' i
  | [], _, hi => absurd hi (List.not_mem_nil)
  | a :: l, hn, hi => by
    rw [List.nodup_cons] at hn
    simp only [List.map_cons, List.sum_cons]
    by_cases ha : a = i
    · subst ha
      have hl : l.map f' = l.map f := List.map_congr_left (fun j hj => h j (fun e => hn.1 (e ▸ hj)))
      rw [hl]
      omega
    · have hi' : i ∈ l := by
        rcases List.mem_cons.1 hi with e | e
        · exact absurd e.symm ha
        · exact e
      have ih := sum_map_update f f' i h l hn.2 hi'
      rw [h a ha]
      omega

theorem chainCount_of_update {v w : Vector (Option Record) 16} (i : SlotNo) (h : ∀ j, j ≠ i → w.get j = v.get j)
    (a : SegNo) :
    chainCount w a + (chainOf (v.get i)).count a = chainCount v a + (chainOf (w.get i)).count a := by
  unfold chainCount
  exact sum_map_update (fun j => (chainOf (v.get j)).count a) (fun j => (chainOf (w.get j)).count a) i
    (fun j hj => by simp only [h j hj]) (List.finRange 16) (List.nodup_finRange 16) (List.mem_finRange i)

/-- A slot written: its old chain out, its new chain in. -/
theorem chainCount_setSlot (i : SlotNo) (x : Option Record) (s : State) (a : SegNo) :
    chainCount (setSlot i x s).recs.slots a + (chainOf (s.recs.slots.get i)).count a
      = chainCount s.recs.slots a + (chainOf x).count a := by
  have h := chainCount_of_update (v := s.recs.slots) (w := (setSlot i x s).recs.slots) i
    (fun j hj => by rw [slot_setSlot, if_neg (fun e => hj e.symm)]) a
  rwa [slot_setSlot, if_pos rfl] at h

/-- A slot written with a record of the same chain. -/
theorem chainCount_same {i : SlotNo} {r q : Record} {s : State} (hi : s.recs.slots.get i = some r)
    (hc : q.chain = r.chain) (a : SegNo) :
    chainCount (setSlot i (some q) s).recs.slots a = chainCount s.recs.slots a := by
  have h := chainCount_setSlot i (some q) s a
  rw [hi] at h
  simp only [chainOf, Option.map_some, Option.getD_some, hc] at h
  omega

/-! ### The lone current segment -/

/-- While a record is COLLECTING there is no lone current segment. -/
theorem lone_collecting {s : State} {i : SlotNo} {r : Record} (hi : s.recs.slots.get i = some r)
    (hr : r.state = .collecting) : s.lone = none := by
  unfold State.lone collectingSlot
  cases h : findRecord (fun r => r.state == .collecting) s with
  | some j => rfl
  | none =>
    unfold findRecord at h
    have h' := List.find?_eq_none.1 h i (List.mem_finRange i)
    simp [hi, hr] at h'

/-- With no record COLLECTING the writer's segment is the lone one. -/
theorem lone_none {s : State} (h : ∀ i r, s.recs.slots.get i = some r → r.state ≠ .collecting) :
    s.lone = s.writer.current := by
  unfold State.lone collectingSlot
  rw [findRecord_none (fun j r hj => by simpa using h j r hj)]

end Sys2Proof.Machine
end

