-- ==== Sys2Proof/Laws/Placed.lean ====
section
/-! SUPPORT. Every shared operation of the block keeps each segment in exactly one place (R3). -/

namespace Sys2Proof.Machine


/-- The five clauses read only the pool's lists, the slots, the writer's place and the station's state. -/
theorem placed_congr {s t : State} (hp : t.pool.free = s.pool.free ∧ t.pool.history = s.pool.history ∧
    t.pool.withdrawn = s.pool.withdrawn) (hs : t.recs.slots = s.recs.slots)
    (hw : t.writer.state = s.writer.state ∧ t.writer.current = s.writer.current)
    (hc : t.ctl.state ≠ .listen → t.ctl.state ≠ .running → (s.ctl.state ≠ .listen ∧ s.ctl.state ≠ .running) ∨
        s.writer.state = .idle)
    (h : Placed s) : Placed t := by
  have hl : t.lone = s.lone := by
    unfold State.lone collectingSlot; rw [findRecord_congr _ hs, hw.2]
  refine ⟨?_, ?_, ?_, ?_, ?_⟩
  · intro g; have := h.onePlace g; unfold placeCount at *; rw [hp.1, hp.2.1, hp.2.2, hs, hl]; exact this
  · rw [hs]; exact h.oneOpen
  · rw [hs, hw.1, hw.2]; exact h.collecting
  · rw [hw.1, hw.2]; exact h.holds
  · intro h1 h2; rw [hw.1]
    rcases hc h1 h2 with h3 | h3
    · exact h.idle h3.1 h3.2
    · exact h3

/-- With no record COLLECTING, what a claim of the writer leaves. -/
theorem placed_claimed {u t : State} (h : Claimed u t) (hr : t.recs.slots = u.recs.slots)
   (hn : ∀ i r, u.recs.slots.get i = some r → r.state ≠ .collecting)
   (ho : ∀ (i j : SlotNo) (r q : Record), u.recs.slots.get i = some r → u.recs.slots.get j = some q → r.isOpen = true
       → q.isOpen = true → i = j)
   (hst : t.ctl.state = .listen ∨ t.ctl.state = .running)
   (hc : ∀ a, stock u a + chainCount u.recs.slots a = 1) : Placed t := by
  have hl : t.lone = t.writer.current := lone_none (by rw [hr]; exact hn)
  refine ⟨?_, ?_, ?_, ?_, ?_⟩
  · intro a
    unfold placeCount; rw [hl, hr]
    have := hc a
    rcases h with ⟨h1, g, h2, h3⟩ | ⟨h1, h2, h3⟩
    · rw [h2]; have := h3 a; unfold stock at *; simp only [Option.toList]; omega
    · rw [h2]; have := h3 a; unfold stock at *; simp; omega
  · rw [hr]; exact ho
  · rw [hr]; intro i r hi hcol; exact absurd hcol (hn i r hi)
  · rcases h with ⟨h1, g, h2, h3⟩ | ⟨h1, h2, h3⟩ <;> rw [h1, h2] <;> rfl
  · intro h1 h2; rcases hst with h | h
    · exact absurd h h1
    · exact absurd h h2

/-- A writer that is not idle runs in an acquisition state. -/
theorem placed_acquiring {s : State} (h : Placed s)
    (hw : s.writer.state ≠ .idle) : s.ctl.state = .listen ∨ s.ctl.state = .running := by
  by_cases h1 : s.ctl.state = .listen
  · exact Or.inl h1
  · by_cases h2 : s.ctl.state = .running
    · exact Or.inr h2
    · exact absurd (h.idle h1 h2) hw

/-- A slot rewritten with a record of the same chain and state. -/
theorem placed_slot {s : State} {i r q} (h : Placed s) (hi : s.recs.slots.get i = some r) (hc : q.chain = r.chain)
    (hst : q.state = r.state) : Placed (setSlot i (some q) s) := by
  have hg : ∀ j, (setSlot i (some q) s).recs.slots.get j = if i = j then some q else s.recs.slots.get j := fun j =>
      slot_setSlot _ _ _ _
  have hopen : q.isOpen = r.isOpen := by unfold Record.isOpen; rw [hst]
  have hl : (setSlot i (some q) s).lone = s.lone := by
    by_cases hcol : ∃ j r, s.recs.slots.get j = some r ∧ r.state = .collecting
    · obtain ⟨j, p, hj, hp⟩ := hcol
      rw [lone_collecting hj hp]
      by_cases hij : i = j
      · subst hij; rw [hi] at hj; cases hj
        exact lone_collecting (i := i) (r := q) (by rw [hg, if_pos rfl]) (by rw [hst]; exact hp)
      · exact lone_collecting (i := j) (r := p) (by rw [hg, if_neg hij]; exact hj) hp
    · rw [lone_none, lone_none]
      · rfl
      · intro j p hj hp; exact hcol ⟨j, p, hj, hp⟩
      · intro j p hj hp; rw [hg] at hj; split at hj
        · cases hj; exact hcol ⟨i, r, hi, by rw [← hst]; exact hp⟩
        · exact hcol ⟨j, p, hj, hp⟩
  refine ⟨?_, ?_, ?_, h.holds, h.idle⟩
  · intro g; have := h.onePlace g; unfold placeCount at *
    rw [chainCount_same hi hc, hl]; exact this
  · intro j k a b hj hk ha hb
    rw [hg] at hj hk
    split at hj <;> split at hk
    · rename_i h1 h2; rw [← h1, ← h2]
    · rename_i h1 h2; cases hj; rw [← h1]; exact h.oneOpen i k r b hi hk (by rw [← hopen]; exact ha) hb
    · rename_i h1 h2; cases hk; rw [← h2]; exact h.oneOpen j i a r hj hi ha (by rw [← hopen]; exact hb)
    · exact h.oneOpen j k a b hj hk ha hb
  · intro j a hj ha
    rw [hg] at hj; split at hj
    · cases hj; rw [hc]; exact h.collecting i r hi (by rw [← hst]; exact ha)
    · exact h.collecting j a hj ha

/-- An open record that is not COLLECTING closes. -/
theorem placed_close {s : State} {i r q} (h : Placed s) (hi : s.recs.slots.get i = some r) (hc : q.chain = r.chain)
    (hr : r.state ≠ .collecting) (hq : q.state = .closed) : Placed (setSlot i (some q) s) := by
  have hg : ∀ j, (setSlot i (some q) s).recs.slots.get j = if i = j then some q else s.recs.slots.get j := fun j =>
      slot_setSlot _ _ _ _
  have hl : (setSlot i (some q) s).lone = s.lone := by
    by_cases hcol : ∃ j r, s.recs.slots.get j = some r ∧ r.state = .collecting
    · obtain ⟨j, p, hj, hp⟩ := hcol
      rw [lone_collecting hj hp]
      by_cases hij : i = j
      · subst hij; rw [hi] at hj; cases hj; exact absurd hp hr
      · exact lone_collecting (i := j) (r := p) (by rw [hg, if_neg hij]; exact hj) hp
    · rw [lone_none, lone_none]
      · rfl
      · intro j p hj hp; exact hcol ⟨j, p, hj, hp⟩
      · intro j p hj hp; rw [hg] at hj; split at hj
        · cases hj; rw [hq] at hp; cases hp
        · exact hcol ⟨j, p, hj, hp⟩
  refine ⟨?_, ?_, ?_, h.holds, h.idle⟩
  · intro g; have := h.onePlace g; unfold placeCount at *
    rw [chainCount_same hi hc, hl]; exact this
  · intro j k a b hj hk ha hb
    rw [hg] at hj hk
    split at hj <;> split at hk
    · rename_i h1 h2; rw [← h1, ← h2]
    · cases hj; simp [Record.isOpen, hq] at ha
    · cases hk; simp [Record.isOpen, hq] at hb
    · exact h.oneOpen j k a b hj hk ha hb
  · intro j a hj ha
    rw [hg] at hj; split at hj
    · cases hj; rw [hq] at ha; cases ha
    · exact h.collecting j a hj ha

/-- R12, R35: the COLLECTING record leaves that state and the writer claims. -/
theorem placed_complete {s : State} {i r q} (h : Placed s) (hi : s.recs.slots.get i = some r)
    (hr : r.state = .collecting) (hc : q.chain = r.chain) (hq : q.state ≠ .collecting)
   {v : State} (hv : v.pool = s.pool) (hvr : v.recs.slots = (setSlot i (some q) s).recs.slots) (hvc : v.ctl = s.ctl)
       : Placed (writerTake v) := by
  have hg : ∀ j, v.recs.slots.get j = if i = j then some q else s.recs.slots.get j := fun j => by
    rw [hvr]
    exact slot_setSlot _ _ _ _
  have hopen : r.isOpen = true := by simp [Record.isOpen, hr]
  have hact := placed_acquiring h (by rw [(h.collecting i r hi hr).1]; decide)
  refine placed_claimed (claimed_writerTake v) (by simp) ?_ ?_ (by simpa [hvc] using hact) ?_
  · intro j p hj hp; rw [hg] at hj; split at hj
    · cases hj; exact hq hp
    · rename_i hij
      exact hij (h.oneOpen i j r p hi hj hopen (by simp [Record.isOpen, hp]))
  · intro j k a b hj hk ha hb
    rw [hg] at hj hk
    split at hj <;> split at hk
    · rename_i h1 h2; rw [← h1, ← h2]
    · rename_i h1 h2; cases hj; rw [← h1]; exact h.oneOpen i k r b hi hk hopen hb
    · rename_i h1 h2; cases hk; rw [← h2]; exact h.oneOpen j i a r hj hi ha hopen
    · exact h.oneOpen j k a b hj hk ha hb
  · intro a; have := h.onePlace a; unfold placeCount at this
    rw [lone_collecting hi hr] at this
    rw [hvr, chainCount_same hi hc, stock_congr hv]; unfold stock; simpa using this

/-- Raising an event source moves no segment. -/
theorem raise_placed (src s)
    (h : Placed s) : Placed (raise src s) := placed_congr (s := s) ⟨rfl, rfl, rfl⟩ rfl ⟨rfl, rfl⟩ (fun h1 h2 =>
    Or.inl ⟨h1, h2⟩) h

/-- R12: data complete; the record leaves COLLECTING and the writer claims a segment of its own. -/
theorem completeData_placed {s i r} (h : Placed s) (hi : s.recs.slots.get i = some r)
    (hr : r.state = .collecting) : Placed (completeData i s) := by
  unfold completeData; simp only [hi]
  split
  · exact placed_complete h hi hr (q := { r with pendingEdges := [], state := .awaiting }) rfl (fun e => nomatch e)
        rfl rfl rfl
  · exact placed_complete h hi hr (q := { r with pendingEdges := [], state := .closed }) rfl (fun e => nomatch e) rfl
        rfl rfl

/-- A header write moves no segment. -/
theorem setHeader_placed (g x s)
    (h : Placed s) : Placed (setHeader g x s) := placed_congr (s := s) ⟨rfl, rfl, rfl⟩ rfl ⟨rfl, rfl⟩ (fun h1 h2 =>
    Or.inl ⟨h1, h2⟩) h

/-- R52: the split of a chain loses no segment and keeps its last one. -/
theorem splitLead_last (valid : SegNo → Nat) : ∀ (l : List SegNo) (n : Nat), l ≠ [] →
   (splitLead valid l n).1 ++ (splitLead valid l n).2.1 = l ∧ (splitLead valid l n).2.1.getLast? = l.getLast?
  | [], _, h => absurd rfl h
  | [g], n, _ => ⟨rfl, rfl⟩
  | g :: h :: r, n, _ => by
    by_cases hv : valid g ≤ n
    · obtain ⟨h1, h2⟩ := splitLead_last valid (h :: r) (n - valid g) (by simp)
      simp only [splitLead, hv, if_true]
      exact ⟨by rw [List.cons_append, h1], by rw [h2]; simp⟩
    · simp [splitLead, hv]

/-- R52: placement returns the leading segments and keeps the chain's last one. -/
theorem placeRecord_placed {c i r m s} (h : Placed s) (hi : s.recs.slots.get i = some r)
    (hr : r.state = .collecting) : Placed (placeRecord c i r m s) ∧ ∃ q, (placeRecord c i r m s).recs.slots.get i =
    some q ∧ q.state = .collecting := by
  have hcol := h.collecting i r hi hr
  have hne : r.chain ≠ [] := by
    intro e; have := h.holds; rw [hcol.1, hcol.2, e] at this; cases this
  unfold placeRecord
  dsimp only
  generalize hk : (heldFrames s r.chain) = K
  generalize hN : (if frameMissing (samplePeriod c) m s.recs.lastReport r.edgeTick = true then 0 else K - m) - min
      (preFrames c) (if frameMissing (samplePeriod c) m s.recs.lastReport r.edgeTick = true then 0 else K - m) = N
  obtain ⟨h1, h2⟩ := splitLead_last (fun g => (s.header g).valid) r.chain N hne
  generalize splitLead (fun g => (s.header g).valid) r.chain N = S at h1 h2
  generalize hq : ({ r with chain := S.2.1, firstOffset := S.2.2, trigIndex := _, total := _,
                            postEnd := _, placed := true, flags := _ } : Record) = q
  have hqc : q.chain = S.2.1 := by rw [← hq]
  have hqs : q.state = .collecting := by rw [← hq]; exact hr
  have hg : ∀ j, (returnAll S.1 (setSlot i (some q) s)).recs.slots.get j = if i = j then some q else s.recs.slots.get
      j := fun j => by
    rw [show (returnAll S.1 (setSlot i (some q) s)).recs = (setSlot i (some q) s).recs by simp]; exact slot_setSlot _
        _ _ _
  refine ⟨⟨?_, ?_, ?_, ?_, ?_⟩, q, by rw [hg, if_pos rfl], hqs⟩
  · intro a
    have := h.onePlace a
    unfold placeCount at *
    rw [lone_collecting (i := i) (r := q) (by rw [hg, if_pos rfl]) hqs]
    rw [lone_collecting hi hr] at this
    have e1 := stock_returnAll a S.1 (setSlot i (some q) s)
    have e2 := chainCount_setSlot i (some q) s a
    rw [hi] at e2; simp only [chainOf, Option.map_some, Option.getD_some, hqc] at e2
    rw [← h1, List.count_append] at e2
    rw [show (returnAll S.1 (setSlot i (some q) s)).recs = (setSlot i (some q) s).recs by simp]
    have e3 : stock (setSlot i (some q) s) a = stock s a := rfl
    unfold stock at *
    simp only [Option.toList_none, List.count_nil] at this ⊢; omega
  · intro j k a b hj hk ha hb
    rw [hg] at hj hk
    have hro : r.isOpen = true := by simp [Record.isOpen, hr]
    split at hj <;> split at hk
    · rename_i h1 h2; rw [← h1, ← h2]
    · rename_i h1 h2; cases hj; rw [← h1]; exact h.oneOpen i k r b hi hk hro hb
    · rename_i h1 h2; cases hk; rw [← h2]; exact h.oneOpen j i a r hj hi ha hro
    · exact h.oneOpen j k a b hj hk ha hb
  · intro j a hj ha
    rw [hg] at hj
    simp only [returnAll_frame, setSlot_frame]
    split at hj
    · cases hj; rw [hqc, h2]; exact hcol
    · exact h.collecting j a hj ha
  · simp only [returnAll_frame, setSlot_frame]; exact h.holds
  · simp only [returnAll_frame, setSlot_frame]; exact h.idle

/-- R51: fixing the trigger keeps every segment in its one place. -/
theorem fixTrigger_placed {c i s} {r} (h : Placed s) (hi : s.recs.slots.get i = some r)
    (hr : r.state = .collecting) : Placed (fixTrigger c i s) ∧ ∃ q, (fixTrigger c i s).recs.slots.get i = some q ∧
    q.state = .collecting := by
  unfold fixTrigger; simp only [hi]
  split
  · exact ⟨h, r, hi, hr⟩
  · split
    · exact ⟨h, r, hi, hr⟩
    · exact placeRecord_placed h hi hr

/-- A record placed at its post end completes. -/
theorem completeAtEnd_placed {i s} {r} (h : Placed s) (hi : s.recs.slots.get i = some r)
    (hr : r.state = .collecting) : Placed (completeAtEnd i s) := by
  unfold completeAtEnd; simp only [hi]; split
  · exact completeData_placed h hi hr
  · exact h

/-- A report counted for a record changes no chain. -/
theorem countReport_placed {c i t s} {r} (h : Placed s) (hi : s.recs.slots.get i = some r)
    (hr : r.state = .collecting) : Placed (countReport c i t s) ∧ ∃ q, (countReport c i t s).recs.slots.get i = some
    q ∧ q.state = .collecting := by
  unfold countReport; simp only [hi]
  split
  · have hc : (r.counted c t).chain = r.chain ∧ (r.counted c t).state = r.state := by
      unfold Record.counted Record.extended; dsimp only; split <;> exact ⟨rfl, rfl⟩
    exact ⟨placed_slot h hi hc.1 hc.2, _, by rw [slot_setSlot, if_pos rfl], by rw [hc.2]; exact hr⟩
  · obtain ⟨h', q, hq, hqs⟩ := fixTrigger_placed (c := c) h hi hr
    rw [hq]
    have hc : (q.settled c t).chain = q.chain ∧ (q.settled c t).state = q.state := by
      unfold Record.settled Record.extended; dsimp only; split <;> exact ⟨rfl, rfl⟩
    exact ⟨placed_slot h' hq hc.1 hc.2, q.settled c t, by rw [slot_setSlot, if_pos rfl]; rfl, by rw [hc.2]; exact hqs⟩

/-- R11: the record's next segment comes from the free list, or the record completes. -/
theorem collectClaim_placed {c i s} {r} (h : Placed s) (hi : s.recs.slots.get i = some r)
    (hr : r.state = .collecting) : Placed (collectClaim c i s) := by
  unfold collectClaim; simp only [hi]
  split
  · exact completeData_placed (placed_slot h hi rfl rfl)
      (r := { r with flags := { r.flags with extendCapped := r.wasExtended c } }) (by rw [slot_setSlot, if_pos rfl]) hr
  · split
    · rename_i g t hp
      have hst := stock_popFree hp
      obtain ⟨rest, hf, rfl⟩ := popFree_eq_some hp
      generalize hq : ({ r with chain := r.chain ++ [g] } : Record) = q
      have hqc : q.chain = r.chain ++ [g] := by rw [← hq]
      have hqs : q.state = .collecting := by rw [← hq]; exact hr
      generalize ht : takeHeader g (setFree rest s) = t at hst
      have htr : t.recs = s.recs ∧ t.ctl = s.ctl ∧ t.writer = s.writer := by rw [← ht]; simp
      have hg : ∀ j, (beginSegment g (setSlot i (some q) t)).recs.slots.get j = if i = j then some q else
          s.recs.slots.get j := fun j => by
        rw [show (beginSegment g (setSlot i (some q) t)).recs = (setSlot i (some q) t).recs by simp, slot_setSlot,
            htr.1]
      have hro : r.isOpen = true := by simp [Record.isOpen, hr]
      refine ⟨?_, ?_, ?_, by simp, ?_⟩
      · intro a
        have := h.onePlace a
        unfold placeCount at *
        rw [lone_collecting (i := i) (r := q) (by rw [hg, if_pos rfl]) hqs]
        rw [lone_collecting hi hr] at this
        have e2 := chainCount_setSlot i (some q) t a
        rw [htr.1, hi] at e2; simp only [chainOf, Option.map_some, Option.getD_some, hqc, List.count_append] at e2
        have e1 := hst a
        rw [show (beginSegment g (setSlot i (some q) t)).recs = (setSlot i (some q) t).recs by simp, show
            (beginSegment g (setSlot i (some q) t)).pool = t.pool by simp]
        unfold stock at *
        simp only [Option.toList_none, List.count_nil] at this ⊢
        omega
      · intro j k a b hj hk ha hb
        rw [hg] at hj hk
        split at hj <;> split at hk
        · rename_i h1 h2; rw [← h1, ← h2]
        · rename_i h1 h2; cases hj; rw [← h1]; exact h.oneOpen i k r b hi hk hro hb
        · rename_i h1 h2; cases hk; rw [← h2]; exact h.oneOpen j i a r hj hi ha hro
        · exact h.oneOpen j k a b hj hk ha hb
      · intro j a hj ha
        rw [hg] at hj
        simp only [beginSegment_frame]
        split at hj
        · cases hj; rw [hqc]; simp
        · rename_i hij
          exact absurd (h.oneOpen i j r a hi hj hro (by simp [Record.isOpen, ha])) hij
      · intro h1 h2
        simp only [beginSegment_frame, setSlot_frame, htr.2.1] at h1 h2
        have := h.idle h1 h2; rw [(h.collecting i r hi hr).1] at this; cases this
    · have hc : (r.placedWithout c (heldFrames s r.chain)).chain = r.chain ∧ (r.placedWithout c (heldFrames s
          r.chain)).state = r.state := by
        unfold Record.placedWithout; split <;> exact ⟨rfl, rfl⟩
      generalize r.placedWithout c (heldFrames s r.chain) = p at hc
      exact completeData_placed (placed_slot (q := { p with flags := { p.flags with truncated := true } }) h hi hc.1
          hc.2) (r := { p with flags := { p.flags with truncated := true } }) (by rw [slot_setSlot, if_pos rfl])
          (hc.2.trans hr)

/-- One report of the COLLECTING record. -/
theorem recordReport_placed {c i t b s} {r} (h : Placed s) (hi : s.recs.slots.get i = some r)
    (hr : r.state = .collecting) : Placed (recordReport c i t b s) := by
  obtain ⟨h', q, hq, hqs⟩ := countReport_placed (c := c) (t := t) h hi hr
  unfold recordReport endReport; simp only [hq]
  split
  · exact completeData_placed h' hq hqs
  · split
    · exact collectClaim_placed h' hq hqs
    · exact h'

/-- A found slot holds a record of the wanted kind. -/
theorem findRecord_some {p : Record → Bool} {s : State} {i : SlotNo} (h : findRecord p s = some i) :
    ∃ r, s.recs.slots.get i = some r ∧ p r = true := by
  unfold findRecord at h
  have := List.find?_some h
  cases hj : s.recs.slots.get i with
  | none => simp [hj] at this
  | some r => exact ⟨r, rfl, by simpa [hj] using this⟩

/-- No slot found: no record is of the wanted kind. -/
theorem findRecord_isNone {p : Record → Bool} {s : State} (h : findRecord p s = none) :
    ∀ j r, s.recs.slots.get j = some r → p r = false := by
  intro j r hj
  unfold findRecord at h
  have := List.find?_eq_none.1 h j (List.mem_finRange j)
  simpa [hj] using this

/-- R48: a missed trigger moves no segment. -/
theorem missTrigger_placed {s} (h : Placed s) :
    Placed (missTrigger s) := placed_congr (s := s) ⟨rfl, rfl, rfl⟩ rfl ⟨rfl, rfl⟩ (fun h1 h2 => Or.inl ⟨h1, h2⟩) h

/-- R10, R47: opening a record moves the history and the lone segment into its chain. -/
theorem openRecord_placed {c e q s} (h : Placed s) (hno : ∀ j r, s.recs.slots.get j = some r → r.isOpen = false) :
    Placed (openRecord c e q s) := by
  unfold openRecord
  split
  · rename_i i g hfree hgap hcur
    have hi : s.recs.slots.get i = none := by
      have := List.find?_some hfree; simpa using this
    dsimp only
    generalize hr : Record.opened s.recs.seq e q (s.pool.history ++ [g]) = r
    have hrs : r.state = .collecting := by rw [← hr]; rfl
    have hrc : r.chain = s.pool.history ++ [g] := by rw [← hr]; rfl
    generalize ht : setHistory [] (setSlot i (some r) { s with recs := { s.recs with seq := s.recs.seq + 1 } }) = t
    have hg : ∀ j, t.recs.slots.get j = if i = j then some r else s.recs.slots.get j := fun j => by
      rw [← ht]; exact slot_setSlot i j _ _
    have ht1 : t.writer = s.writer ∧ t.ctl = s.ctl ∧ t.pool = { s.pool with history := [] } := by
      rw [← ht]
      exact ⟨rfl, rfl, rfl⟩
    have hncol : ∀ j r, s.recs.slots.get j = some r → r.state ≠ .collecting := fun j r hj hc => by
      have := hno j r hj; simp [Record.isOpen, hc] at this
    have hp : Placed t := by
      refine ⟨?_, ?_, ?_, ?_, ?_⟩
      · intro a
        have := h.onePlace a
        unfold placeCount at *
        rw [lone_none hncol, hcur] at this
        rw [lone_collecting (i := i) (r := r) (by rw [hg, if_pos rfl]) hrs]
        have e2 := chainCount_setSlot i (some r) { s with recs := { s.recs with seq := s.recs.seq + 1 } } a
        have e3 : t.recs.slots = (setSlot i (some r) { s with recs := { s.recs with seq := s.recs.seq + 1 }
            }).recs.slots := by rw [← ht]; rfl
        rw [← e3] at e2
        simp only [hi, chainOf, Option.map_some, Option.map_none, Option.getD_some, Option.getD_none, List.count_nil,
            hrc, List.count_append] at e2
        rw [ht1.2.2]
        simp only [Option.toList, List.count_nil] at this ⊢
        omega
      · intro j k a b hj hk ha hb
        rw [hg] at hj hk
        split at hj <;> split at hk
        · rename_i h1 h2; rw [← h1, ← h2]
        · rw [hno k b hk] at hb; cases hb
        · rw [hno j a hj] at ha; cases ha
        · rw [hno k b hk] at hb; cases hb
      · intro j a hj ha
        rw [hg] at hj; split at hj
        · cases hj; rw [ht1.1, hrc, hcur]
          refine ⟨?_, by simp⟩
          have := h.holds; rw [hcur] at this; simpa using this.symm
        · exact absurd ha (hncol j a hj)
      · rw [ht1.1]; exact h.holds
      · rw [ht1.1, ht1.2.1]; exact h.idle
    obtain ⟨h', q, hq, hqs⟩ := fixTrigger_placed (c := c) hp (i := i) (r := r) (by rw [hg, if_pos rfl]) hrs
    exact completeAtEnd_placed h' hq hqs
  · exact missTrigger_placed h

/-- R46: a trigger event opens a record, counts as missed or extends the open one. -/
theorem triggerEvent_placed {c e q s} (h : Placed s) : Placed (triggerEvent c e q s) := by
  unfold triggerEvent
  split
  · split
    · rename_i hno; exact openRecord_placed h (findRecord_isNone hno)
    · split
      · exact h
      · rename_i i _ r hi
        apply placed_slot h hi
        · unfold Record.retriggerEnd Record.logged Record.extended; repeat' split
          all_goals rfl
        · unfold Record.retriggerEnd Record.logged Record.extended; repeat' split
          all_goals rfl
  · exact h

/-- An origin set joined to a record changes no chain. -/
theorem attachCause_placed {q s} (h : Placed s) : Placed (attachCause q s) := by
  unfold attachCause; repeat' split
  · exact h
  · exact h
  · exact h
  · rename_i hi _ item _
    refine placed_slot h hi ?_ ?_ <;> cases item <;> rfl

/-- A window's result changes no chain; it may close an AWAITING record. -/
theorem windowResult_placed {o s} (h : Placed s) : Placed (windowResult o s) := by
  unfold windowResult
  split
  · exact h
  · rename_i i ho
    split
    · exact h
    · rename_i r hi
      split
      · exact h
      · rename_i item hw
        dsimp only
        have key : ∀ p : Record, p.chain = r.chain → p.state = r.state → Placed (if p.state = .awaiting then
            raiseClosed (setSlot i (some { p with window := none, state := .closed }) s) else setSlot i (some { p
            with window := none }) s) := by
          intro p h1 h2
          split
          · rename_i ha
            exact raise_placed _ _ (placed_close h hi h1 (by rw [← h2, ha]; exact fun e => nomatch e) rfl)
          · exact placed_slot h hi h1 h2
        cases o with
        | none => exact key r rfl rfl
        | some ids => exact key (r.withOrigin item ids) (by cases item <;> rfl) (by cases item <;> rfl)

/-- A damage mark changes no chain. -/
theorem markRecord_placed {g s} (h : Placed s) : Placed (markRecord g s) := by
  unfold markRecord; repeat' split
  · exact h
  · exact h
  · rename_i hi; exact placed_slot h hi rfl rfl

/-- What keeps the pool, the records, the writer and the station's state keeps the places. -/
theorem placed_frame {s t : State} (hp : t.pool = s.pool) (hr : t.recs = s.recs) (hw : t.writer = s.writer)
    (hc : t.ctl.state = s.ctl.state) (h : Placed s) : Placed t :=
  placed_congr (by rw [hp]; exact ⟨rfl, rfl, rfl⟩) (by rw [hr]) (by rw [hw]; exact ⟨rfl, rfl⟩)
    (by rw [hc]; exact fun h1 h2 => Or.inl ⟨h1, h2⟩) h

/-- An offer moves no segment. -/
theorem offer_placed {c q t s} (h : Placed s) : Placed (offer c q t s) := by
  unfold offer
  repeat' split
  all_goals first
    | exact h
    | exact placed_frame (s := s) rfl rfl rfl rfl h
    | (unfold joinTrigger; exact attachCause_placed (placed_frame (s := s) rfl rfl rfl rfl h))

/-- R9: a full lone segment joins the history and the writer claims another. -/
theorem segmentFull_placed {c g s} (h : Placed s) (hn : ∀ i r, s.recs.slots.get i = some r → r.state ≠ .collecting)
    (hg : s.writer.current = some g) : Placed (segmentFull c g s) := by
  obtain ⟨u, hu, hs⟩ := claimed_segmentFull c g s
  have hact := placed_acquiring h (by have := h.holds; rw [hg] at this; intro e; rw [e] at this; cases this)
  have hcl : Claimed { s with pool := u.pool } (segmentFull c g s) := hu
  refine placed_claimed hcl (by simp) hn h.oneOpen (by simpa using hact) ?_
  intro a
  have := h.onePlace a; unfold placeCount at this; rw [lone_none hn, hg] at this
  have e := hs a
  have e2 : stock { s with pool := u.pool } a = stock u a := rfl
  show stock { s with pool := u.pool } a + chainCount s.recs.slots a = 1
  rw [e2, e]; unfold stock; simp only [Option.toList] at this; omega

/-- R31: a frame banked by the writer keeps every segment in its one place. -/
theorem writerFrame_placed {c f w s} (h : Placed s) : Placed (writerFrame c f w s) := by
  unfold writerFrame
  split
  · rename_i g hf hg
    unfold frameFilling
    dsimp only
    generalize ht : writeFrame (channels c) g f w s = t
    have h' : Placed t ∧ t.writer.current = some g := by
      subst ht; unfold writeFrame; dsimp only; rw [storeWords_frame]
      exact ⟨placed_congr (s := s) ⟨rfl, rfl, rfl⟩ rfl ⟨rfl, rfl⟩ (fun h1 h2 => Or.inl ⟨h1, h2⟩) h, hg⟩
    split
    · rename_i i hi
      obtain ⟨r, hr, hc⟩ := findRecord_some hi
      exact recordReport_placed h'.1 hr (by simpa using hc)
    · rename_i hno
      split
      · exact segmentFull_placed h'.1 (fun i r hi hc => by have := findRecord_isNone hno i r hi; simp [hc] at this)
            h'.2
      · exact h'.1
  · exact h
  · exact placed_congr (s := s) ⟨rfl, rfl, rfl⟩ rfl ⟨rfl, rfl⟩ (fun h1 h2 => Or.inl ⟨h1, h2⟩) h
  · exact h

/-- R14: releasing a CLOSED record returns its chain. -/
theorem releaseRecord_placed {i r s} (h : Placed s) (hi : s.recs.slots.get i = some r)
    (hr : r.state = .closed) : Placed (releaseRecord i r s) := by
  unfold releaseRecord
  have hg : ∀ j, (returnAll r.chain (setSlot i none s)).recs.slots.get j = if i = j then none else s.recs.slots.get j
      := fun j => by
    rw [show (returnAll r.chain (setSlot i none s)).recs = (setSlot i none s).recs by simp]; exact slot_setSlot _ _ _
        _
  generalize ht : returnAll r.chain (setSlot i none s) = t at hg
  have htw : t.writer = s.writer ∧ t.ctl = s.ctl := by rw [← ht]; simp
  have hsub : ∀ j p, t.recs.slots.get j = some p → s.recs.slots.get j = some p := by
    intro j p hj; rw [hg] at hj; split at hj
    · cases hj
    · exact hj
  have hsup : ∀ j p, s.recs.slots.get j = some p → p.state = .collecting → t.recs.slots.get j = some p := by
    intro j p hj hp; rw [hg, if_neg]; exact hj
    intro e; subst e; rw [hi] at hj; cases hj; rw [hr] at hp; cases hp
  have hcount : ∀ a, stock t a + chainCount t.recs.slots a = stock s a + chainCount s.recs.slots a := by
    intro a
    have e1 := stock_returnAll a r.chain (setSlot i none s)
    have e2 := chainCount_setSlot i none s a
    rw [hi] at e2
    simp only [chainOf, Option.map_some, Option.map_none, Option.getD_some, Option.getD_none, List.count_nil] at e2
    rw [ht] at e1
    have e3 : t.recs = (setSlot i none s).recs := by rw [← ht]; simp
    rw [e3]
    have e4 : stock (setSlot i none s) a = stock s a := rfl
    omega
  have hlone : t.lone = s.lone := by
    by_cases hcol : ∃ j r, s.recs.slots.get j = some r ∧ r.state = .collecting
    · obtain ⟨j, p, hj, hp⟩ := hcol
      rw [lone_collecting hj hp, lone_collecting (hsup j p hj hp) hp]
    · rw [lone_none, lone_none, htw.1]
      · intro j p hj hp; exact hcol ⟨j, p, hj, hp⟩
      · intro j p hj hp; exact hcol ⟨j, p, hsub j p hj, hp⟩
  have hp : Placed t := by
    refine ⟨?_, ?_, ?_, ?_, ?_⟩
    · intro a; have := h.onePlace a; have e := hcount a; unfold placeCount stock at *; rw [hlone]; omega
    · intro j k a b hj hk; exact h.oneOpen j k a b (hsub j a hj) (hsub k b hk)
    · intro j a hj ha; rw [htw.1]; exact h.collecting j a (hsub j a hj) ha
    · rw [htw.1]; exact h.holds
    · rw [htw.1, htw.2]; exact h.idle
  by_cases hov : t.writer.state = .overrun
  · have hcur : t.writer.current = none := by
      have := hp.holds; rw [hov] at this; cases hh : t.writer.current with
      | none => rfl
      | some g => rw [hh] at this; cases this
    have hncol : ∀ i r, t.recs.slots.get i = some r → r.state ≠ .collecting := fun j p hj hc => by
      have := (hp.collecting j p hj hc).1; rw [hov] at this; cases this
    refine placed_claimed (claimed_serveOutstanding hov hcur) (by simp) hncol hp.oneOpen ?_ ?_
    · have := placed_acquiring hp (by rw [hov]; decide); simpa using this
    · intro a; have := hp.onePlace a; unfold placeCount at this; rw [lone_none hncol, hcur] at this
      unfold stock; simpa using this
  · have : serveOutstanding t = t := by unfold serveOutstanding; rw [if_neg hov]
    rw [this]; exact hp

/-- R15, R66: what STOP and FAULT share: the pool returned, the open record closed, the writer idle. -/
theorem ended_placed {c b s} (h : Placed s) : ∀ t :
    State, t.pool = (closeOpen c b (returnPool (stopSequencer s))).pool →
    t.recs = (closeOpen c b (returnPool (stopSequencer s))).recs →
    t.writer = (closeOpen c b (returnPool (stopSequencer s))).writer → Placed t := by
  intro t h1 h2 h3
  have hv : ∀ j p, t.recs.slots.get j = some p → ∃ q, s.recs.slots.get j = some q ∧ p.chain = q.chain ∧ p.isOpen =
      false := by
    intro j p hj
    rw [h2] at hj
    unfold closeOpen at hj
    have hr : (returnPool (stopSequencer s)).recs = s.recs := by
      unfold returnPool stopSequencer; simp
    split at hj
    · rename_i ho
      rw [hr] at hj
      refine ⟨p, hj, rfl, findRecord_isNone ho j p (by rw [hr]; exact hj)⟩
    · rename_i i ho
      obtain ⟨r, hri, hro⟩ := findRecord_some ho
      simp only [hri] at hj
      simp only [raiseClosed_frame] at hj
      rw [slot_setSlot] at hj
      rw [hr] at hri hj
      split at hj
      · rename_i hij
        cases hj
        refine ⟨r, by rw [← hij]; exact hri, ?_, rfl⟩
        unfold Record.closedAs Record.placedWithout; dsimp only; repeat' split
        all_goals rfl
      · rename_i hij
        refine ⟨p, hj, rfl, ?_⟩
        cases hp : p.isOpen with
        | false => rfl
        | true => exact absurd (h.oneOpen i j r p hri hj hro hp) hij
  have hv2 : ∀ j, (chainOf (t.recs.slots.get j)) = chainOf (s.recs.slots.get j) := by
    intro j
    cases hj : t.recs.slots.get j with
    | some p => obtain ⟨q, h1, h2, _⟩ := hv j p hj; rw [h1]; simp [chainOf, h2]
    | none =>
      have : s.recs.slots.get j = none := by
        rw [h2] at hj; unfold closeOpen at hj
        have hr : (returnPool (stopSequencer s)).recs = s.recs := by
          unfold returnPool stopSequencer; simp
        split at hj
        · rw [hr] at hj; exact hj
        · split at hj
          · rw [hr] at hj; exact hj
          · simp only [raiseClosed_frame] at hj
            rw [slot_setSlot] at hj; split at hj
            · cases hj
            · rw [hr] at hj; exact hj
      rw [this]
  have hw : t.writer.state = .idle ∧ t.writer.current = none := by
    rw [h3]; unfold returnPool; simp
  have hncol : ∀ i r, t.recs.slots.get i = some r → r.state ≠ .collecting := fun j p hj hc => by
    obtain ⟨_, _, _, h⟩ := hv j p hj; simp [Record.isOpen, hc] at h
  refine ⟨?_, ?_, ?_, ?_, ?_⟩
  · intro a
    have := h.onePlace a
    have hs : stock t a = stock (returnPool (stopSequencer s)) a := stock_congr (by rw [h1]; simp) a
    have hs2 : stock (returnPool (stopSequencer s)) a = stock s a + s.lone.toList.count a := by
      unfold returnPool; dsimp only
      rw [stock_returnAll, stock_setHistory, List.count_append]
      have : (stopSequencer s).lone = s.lone := rfl
      have e : (writerIdle (stopSequencer s)).pool = s.pool := by simp [stopSequencer]
      rw [e]; show _ + (s.pool.history.count a + s.lone.toList.count a) = _
      unfold stock; simp; omega
    have hc : chainCount t.recs.slots a = chainCount s.recs.slots a := by
      unfold chainCount; congr 1; apply List.map_congr_left; intro j _; rw [hv2 j]
    unfold placeCount at *
    rw [lone_none hncol, hw.2, hc]
    unfold stock at *; simp at *; omega
  · intro j k a b hj hk ha; obtain ⟨_, _, _, h⟩ := hv j a hj; rw [h] at ha; cases ha
  · intro j a hj ha; exact absurd ha (hncol j a hj)
  · rw [hw.1, hw.2]; rfl
  · intro _ _; exact hw.1

/-- R67: a stuck line closes the open record and, were it COLLECTING, the writer claims. -/
theorem declareStuck_placed {c s} (h : Placed s) : Placed (declareStuck c s) := by
  unfold declareStuck
  dsimp only
  generalize hB : setSync .seeking { txStuck (setRx .stuck { s with rx := { s.rx with capture := none } }) with tb :=
      { (txStuck (setRx .stuck { s with rx := { s.rx with capture := none } })).tb with provisional := false } } = B
  have hb : B.pool = s.pool ∧ B.recs = s.recs ∧ B.writer = s.writer ∧ B.ctl = s.ctl := by rw [← hB]; simp
  have hB' : Placed B := placed_frame hb.1 hb.2.1 hb.2.2.1 (by rw [hb.2.2.2]) h
  have hcs : collectingSlot s = collectingSlot B := by
    unfold collectingSlot
    exact (findRecord_congr _ (by rw [hb.2.1])).symm
  rw [hcs]
  cases ho : openSlot B with
  | none =>
    have hn := findRecord_isNone ho
    have hc : collectingSlot B = none := findRecord_none (fun j r hj => by
      have := hn j r hj
      unfold Record.isOpen at this
      cases hr : r.state <;> simp [hr] at this ⊢)
    rw [hc, closeOpen_none hn]; exact hB'
  | some i =>
    obtain ⟨r, hi, hro⟩ := findRecord_some ho
    have honly : ∀ j r', j ≠ i → B.recs.slots.get j = some r' → r'.isOpen = false := by
      intro j r' hj hg; cases hp : r'.isOpen with
      | false => rfl
      | true => exact absurd (hB'.oneOpen j i r' r hg hi hp hro) hj
    rw [closeOpen_only hi hro honly]
    have hq : (r.closedAs c false (heldFrames B r.chain)).chain = r.chain ∧ (r.closedAs c false (heldFrames B
        r.chain)).state = .closed := by
      refine ⟨?_, rfl⟩
      unfold Record.closedAs Record.placedWithout; dsimp only; repeat' split
      all_goals rfl
    cases hr : r.state with
    | collecting =>
      have hc : collectingSlot B = some i := findRecord_only hi (by simp [hr]) (fun j r' hj hg => by
        have := honly j r' hj hg
        unfold Record.isOpen at this
        cases hr : r'.state <;> simp [hr] at this ⊢)
      rw [hc]
      exact placed_complete hB' hi hr hq.1 (by rw [hq.2]; exact fun e => nomatch e) rfl rfl rfl
    | awaiting =>
      have hc : collectingSlot B = none := findRecord_none (fun j r' hg => by
        by_cases hj : j = i
        · subst hj; rw [hi] at hg; cases hg; simp [hr]
        · have := honly j r' hj hg; unfold Record.isOpen at this; cases hr : r'.state <;> simp [hr] at this ⊢)
      rw [hc]
      exact raise_placed _ _ (placed_close hB' hi hq.1 (by rw [hr]; exact fun e => nomatch e) hq.2)
    | closed => simp [Record.isOpen, hr] at hro

/-- R30: LISTEN entry lets the idle writer claim its first segment. -/
theorem enterListen_placed {c b s} (h : Placed s) (h1 : s.ctl.state ≠ .listen)
    (h2 : s.ctl.state ≠ .running) : Placed (enterListen c b s) := by
  have hw := h.idle h1 h2
  have hncol : ∀ i r, s.recs.slots.get i = some r → r.state ≠ .collecting := fun j p hj hc => by
    have := (h.collecting j p hj hc).1; rw [hw] at this; cases this
  have hcur : s.writer.current = none := by
    have := h.holds; rw [hw] at this; cases hh : s.writer.current with
    | none => rfl
    | some g => rw [hh] at this; cases this
  unfold enterListen
  dsimp only
  refine placed_claimed (claimed_writerTake _) (by simp) ?_ ?_ (Or.inl (by simp)) ?_
  · simpa using hncol
  · simpa using h.oneOpen
  · intro a; have := h.onePlace a; unfold placeCount at this; rw [lone_none hncol, hcur] at this
    unfold stock; simpa using this

/-- What keeps the pool, the slots, the writer's place and the station's state keeps the places. -/
theorem placed_parts {s : State} (h : Placed s) : ∀ t : State, t.pool = s.pool → t.recs.slots = s.recs.slots →
    t.writer.state = s.writer.state → t.writer.current = s.writer.current → t.ctl.state = s.ctl.state → Placed t :=
  fun t hp hr hw hw' hc => placed_congr (by rw [hp]; exact ⟨rfl, rfl, rfl⟩) hr ⟨hw, hw'⟩
    (by rw [hc]; exact fun h1 h2 => Or.inl ⟨h1, h2⟩) h

/-! ### Operations that move no segment -/

theorem elapse_placed {n s} (h : Placed s) : Placed (State.elapse n s) := placed_frame (by simp) (by simp) (by simp)
    (by simp) h

theorem sample_placed {s} (h : Placed s) : Placed (sampleLine s) := placed_frame (by simp) (by simp) (by simp)
    (by simp) h

theorem accept_placed {s} (h : Placed s) : Placed (acceptLevel s) := placed_frame (by simp) (by simp) (by simp)
    (by simp) h
/-- An edge held on the pin leaves the station's state. -/
theorem settle_state (b s) : (settle b s).ctl.state = s.ctl.state := by
  unfold settle; dsimp only; repeat' split
  all_goals simp

theorem settle_placed {b s} (h : Placed s) : Placed (settle b s) := placed_frame (by simp) (by simp) (by simp)
    (settle_state _ _) h

theorem setRx_placed {x s} (h : Placed s) : Placed (setRx x s) := placed_frame (by simp) (by simp) (by simp)
    (by simp) h

theorem pull_placed {s} (h : Placed s) : Placed (pullLine s) := by
  unfold pullLine; split
  · exact h
  · exact placed_frame (s := s) rfl rfl rfl rfl h

theorem rel_placed {n s} (h : Placed s) : Placed (releaseWhile n s) := by
  unfold releaseWhile; split
  · exact h
  · exact placed_frame (s := s) rfl rfl rfl rfl h

theorem holdInputs_placed {i s} (h : Placed s) : Placed (holdInputs i s) := placed_frame (s := s) rfl rfl rfl rfl h

theorem hold_placed {b s} (h : Placed s) : Placed (holdLine b s) := placed_frame (s := s) rfl rfl rfl rfl h

theorem handLevel_placed {a b c s} (h : Placed s) : Placed (handLevel a b c s) := placed_frame (by simp) (by simp)
    (by simp) (by simp) h

/-- A change of the station's state that leaves acquisition only with an idle writer. -/
theorem setStation_placed {st s} (h : Placed s)
    (hs : st ≠ .listen → st ≠ .running → (s.ctl.state ≠ .listen ∧ s.ctl.state ≠ .running) ∨ s.writer.state = .idle) :
    Placed (setStation st s) :=
  placed_congr (by simp) (by simp) (by simp) (by simpa using hs) h

/-- A host command keeps the places when its effect does. -/
theorem host_placed {code args f s} (hf : Placed (f s).1) (h : Placed s) : Placed (hostCommand code args f s) := by
  unfold hostCommand; split
  · exact placed_frame (s := (f s).1) rfl rfl rfl rfl hf
  · exact h
/-- A row that needs a configuration keeps the places when its effect does. -/
theorem wc_placed {s f} (hf : ∀ c, Placed (f c)) (h : Placed s) : Placed (whenConfigured s f) := by
  unfold whenConfigured; repeat' split
  · exact h
  · exact hf _
  · exact h
/-- A row at its time keeps the places when its effect does. -/
theorem at_placed {due f s} (hf : ∀ u, Placed u → Placed (f u)) (h : Placed s) : Placed (atTime due f s) := by
  unfold atTime; split
  · exact h
  · exact hf _ (elapse_placed h)
/-- A command on a slot keeps the places when its effect does. -/
theorem withSlot_placed {slot s f} (hf : ∀ i r, s.recs.slots.get i = r → Placed (f i r).1)
    (h : Placed s) : Placed (withSlot slot s f).1 := by
  unfold withSlot; split
  · exact hf _ _ rfl
  · exact h

/-- R22: after power-on every segment is in the free list. -/
theorem powerOn_placed (p id s) : Placed (powerOn p id s) := by
  refine ⟨?_, ?_, ?_, rfl, fun _ _ => rfl⟩
  · intro g
    unfold placeCount
    have h1 : (powerOn p id s).lone = none := by unfold State.lone; split <;> rfl
    have h2 : chainCount (powerOn p id s).recs.slots g = 0 := by
      unfold chainCount
      have : ∀ i : SlotNo, chainOf ((powerOn p id s).recs.slots.get i) = [] := fun i => by
        show chainOf ((Vector.replicate 16 none).get i) = []; simp [chainOf]
      simp only [this, List.count_nil]
      rfl
    rw [h1, h2]
    show allSegments.count g + 0 + 0 + 0 + 0 = 1
    simp [allSegments_nodup.count]
  · intro i j r q hi; exfalso; have : (Vector.replicate 16 (none : Option Record)).get i = some r := hi; simp at this
  · intro i r hi; exfalso; have : (Vector.replicate 16 (none : Option Record)).get i = some r := hi; simp at this

/-- R23: after RESET every segment is in the free list or withdrawn. -/
theorem softReset_placed {s} (h : Placed s) : Placed (softReset s) := by
  have f := softReset_frame s
  have hs : ∀ i, (softReset s).recs.slots.get i = none := fun i => by
    rw [f.2.2.2.2.2.2.2.2.2.2.1]
    simp [RecordUnit.reset]
  refine ⟨?_, ?_, ?_, ?_, ?_⟩
  · intro g
    unfold placeCount
    have h1 : (softReset s).lone = none := by
      rw [lone_none (by intro i r hi; rw [hs] at hi; cases hi), f.2.2.2.2.2.2.2.2.1]; rfl
    have h2 : chainCount (softReset s).recs.slots g = 0 := by
      unfold chainCount
      simp only [hs, chainOf, Option.map_none, Option.getD_none, List.count_nil]
      rfl
    rw [h1, h2, f.2.1]
    have hw : s.pool.withdrawn.count g ≤ 1 := by have := h.onePlace g; unfold placeCount at this; omega
    show (rebuiltFree s.pool.withdrawn).count g + 0 + s.pool.withdrawn.count g + 0 + 0 = 1
    have hn : (rebuiltFree s.pool.withdrawn).Nodup := allSegments_nodup.filter _
    by_cases hg : g ∈ s.pool.withdrawn
    · have : (rebuiltFree s.pool.withdrawn).count g = 0 := List.count_eq_zero.2 (fun hm => (mem_rebuiltFree _ _).1 hm
          hg)
      have h3 := List.count_pos_iff.2 hg
      omega
    · have : (rebuiltFree s.pool.withdrawn).count g = 1 := by rw [hn.count, if_pos ((mem_rebuiltFree _ _).2 hg)]
      have h3 := List.count_eq_zero.2 hg
      omega
  · intro i j r q hi; rw [hs] at hi; cases hi
  · intro i r hi; rw [hs] at hi; cases hi
  · rw [f.2.2.2.2.2.2.2.2.1]; rfl
  · intro _ _; rw [f.2.2.2.2.2.2.2.2.1]; rfl

/-- A finding in the array moves no segment. -/
theorem finding_placed {c f g o y p s} (h : Placed s) : Placed (finding c f g o y p s) := by
  unfold finding
  dsimp only
  generalize hu : (if s.mem.log.length < logRoom then
    setLog (s.mem.log ++ [logEntry f g o y p s])
      { s with mem := { s.mem with errorCount := satSucc 65535 s.mem.errorCount } }
    else { s with mem := { s.mem with errorCount := satSucc 65535 s.mem.errorCount } }) = u
  have : Placed u ∧ u.pool = s.pool := by
    rw [← hu]; split
    · exact ⟨placed_frame (s := s) (by simp) (by simp) (by simp) (by simp) h, by simp⟩
    · exact ⟨placed_frame (s := s) rfl rfl rfl rfl h, rfl⟩
  split
  · exact raise_placed _ _ (setHeader_placed _ _ _ this.1)
  · exact raise_placed _ _ (markRecord_placed (setHeader_placed _ _ _ this.1))

/-- A guarded read moves no segment. -/
theorem readWord_placed {c f g o s} (h : Placed s) : Placed (readWord c f g o s) := by
  unfold readWord; dsimp only; split
  · exact h
  · unfold offerWriteBack; split
    · exact finding_placed h
    · exact placed_parts (finding_placed h) _ rfl rfl rfl rfl rfl
  · exact finding_placed h

/-- A TRIGGER pulse: its trigger event alone touches the pool. -/
theorem onTrigger_placed {c e s} (h : Placed s) : Placed (onTrigger c e s) := by
  unfold onTrigger; dsimp only
  apply triggerEvent_placed
  exact placed_frame (s := s) (by simp) (by simp) (by simp) (by simp) h

theorem onEpoch_placed {c e s} (h : Placed s) : Placed (onEpoch c e s) := placed_frame (s := s) (by simp) (by simp)
    (by simp) (by simp) h

theorem onMalformed_placed {s} (h : Placed s) : Placed (onMalformed s) := placed_frame (s := s) (by simp) (by simp)
    (by simp) (by simp) h
/-- A classified pulse keeps every segment in its one place. -/
theorem classify_placed {c w s} (h : Placed s) : Placed (classifyPulse c w s) := by
  have h' : Placed { s with rx := { s.rx with width := w } } := placed_frame (s := s) rfl rfl rfl rfl h
  unfold classifyPulse; dsimp only; split
  · exact onMalformed_placed h'
  · split
    · exact placed_frame (by simp) (by simp) (by simp) (by simp) h'
    · exact onTrigger_placed h'
    · exact onEpoch_placed h'
    · exact onMalformed_placed h'

/-- FAULT entry returns the pool, closes the open record and idles the writer. -/
theorem enterFault_placed {d U} (hU : Placed U) : Placed (enterFault d U) := by
  have hE := ended_placed (c := d) (b := true) hU _ rfl rfl rfl
  have hw : (closeOpen d true (returnPool (stopSequencer U))).writer.state = .idle := by simp [returnPool]
  unfold enterFault; dsimp only
  refine raise_placed _ _ ?_
  generalize closeOpen d true (returnPool (stopSequencer U)) = V at hE hw
  refine placed_congr (s := V) ?_ ?_ ?_ ?_ hE
  · simp [disableRequesters]
  · simp [disableRequesters]
  · simp [disableRequesters]
  · intro _ _; right; exact hw

end Sys2Proof.Machine
end

