-- ==== Sys2Proof/Laws/Port.lean ====
section
/-! SUPPORT. What one clocked bit of the host port can do: it writes the port, whether the prefetch presents, and the
queue alone. -/

namespace Sys2Proof.Machine

/-- What `clockBit` leaves: every block but the port, the prefetch and the queue. -/
@[simp] theorem clockBit_frame (bit : Bool) (s : State) :
    (clockBit bit s).ctl = s.ctl ∧ (clockBit bit s).tb = s.tb ∧ (clockBit bit s).pool = s.pool
    ∧ (clockBit bit s).writer = s.writer ∧ (clockBit bit s).seqr = s.seqr ∧ (clockBit bit s).recs = s.recs
    ∧ (clockBit bit s).dets = s.dets ∧ (clockBit bit s).trig = s.trig ∧ (clockBit bit s).filter = s.filter
    ∧ (clockBit bit s).rx = s.rx ∧ (clockBit bit s).tx = s.tx ∧ (clockBit bit s).ret = s.ret
    ∧ (clockBit bit s).ev = s.ev ∧ (clockBit bit s).pins = s.pins
    ∧ (clockBit bit s).mem.array = s.mem.array ∧ (clockBit bit s).mem.fill = s.mem.fill
    ∧ (clockBit bit s).mem.log = s.mem.log ∧ (clockBit bit s).mem.errorCount = s.mem.errorCount
    ∧ (clockBit bit s).mem.buffer = s.mem.buffer ∧ (clockBit bit s).mem.scrub = s.mem.scrub := by
  unfold clockBit takeByte sendByte shiftWord
  dsimp only
  repeat' split
  all_goals simp

/-- A bit that no transaction takes changes nothing (R194). -/
theorem clockBit_ignored {s : State} (bit : Bool) (h : s.shifting = false) : clockBit bit s = s := by
  unfold clockBit
  rw [h]
  rfl

/-- The shifting of a bit keeps `Safe`. -/
theorem clockBit_safe (bit : Bool) (s : State) (h : Safe s) : Safe (clockBit bit s) := by
  have f := clockBit_frame bit s
  unfold Safe memorySafe findingsSafe countsSafe levelsAgree at h ⊢
  simp only [f]
  exact h

/-- The shifting of a bit keeps `Placed`. -/
theorem clockBit_placed (bit : Bool) (s : State) (h : Placed s) : Placed (clockBit bit s) :=
  placed_frame (by simp) (by simp) (by simp) (by simp) h

end Sys2Proof.Machine
end

