-- ==== Sys2Proof/Tests/Slice0.lean ====
section
/-! SUPPORT. The model's own tests: ill-formed commands, decoded bytes, the spec's worked numbers, and for each
statement with hypotheses a state and operands that meet them. -/

open Sys2Proof Sys2Proof.Machine Sys2Proof.Claims

namespace Sys2Proof.Tests

/- Each test is checked before the next begins: many kernel evaluations at once would each hold a thread. -/
set_option Elab.async false

/-! ### Ill-formed commands are refused by the well-formedness check -/

theorem test_configure_of_115_bytes_is_ill_formed : (Instr.configure (List.replicate 115 0)).wf = false := by decide

theorem test_listed_byte_is_no_bad_command : (Instr.badCommand 0x41).wf = false := by decide

theorem test_mismatch_names_a_field_of_the_block :
    (Instr.parityMismatch { block := 1, index := 0 } 1).wf = false
      ∧ (Instr.parityMismatch { block := 1, index := 87 } 1).wf = false
      ∧ (Instr.parityMismatch { block := 1, index := 1 } 1).wf = true
      ∧ (Instr.parityMismatch { block := 1, index := 86 } 1).wf = true := by decide

theorem test_sweep_meets_eight_inputs_and_a_reference :
    (Instr.frameComplete (List.replicate 7 { vin := 1, vref := 5 })).wf = false
      ∧ (Instr.frameComplete (List.replicate 8 { vin := 1, vref := 0 })).wf = false := by decide

/-! ### Command bytes (R198, R195) -/

theorem test_read_data_bytes_decode :
    decodeCommand [0x12, 4, 1, 0, 32, 0, 16] = some (.readData 4 1 32 16) := by decide

theorem test_read_data_cut_short_is_no_command : decodeCommand [0x12, 4, 1, 0, 32, 0] = none := by decide

theorem test_unlisted_byte_is_bad_command : decodeCommand [0x42, 1] = some (.badCommand 0x42) := by decide

theorem test_no_word_spells_a_command : decodeTableWord 8 0x01 = none := rfl

/-! ### The block of section 10.7 -/

/-- The example parameters with Lmax, and with detector 1 OUTSIDE on channel 2 with these B and h. -/
def exampleVals (lmax b h : BitVec 16) : List (BitVec 16) :=
  [5, 8, 10000, 20, 4, 10, 300, 500, lmax, 1, 0]
    ++ [0, 0, 0, 0, 0, 0, 1] ++ [1, 2, 2, 1000, b, h, 4]
    ++ (List.replicate 6 [0, 0, 0, 0, 0, 0, 1]).flatten
    ++ [0, 0, 1] ++ List.replicate 12 1 ++ [1, 4, 3, 8]

theorem test_example_attempt_1_fails_at_9 : firstFailing (exampleVals 8 1200 150) = some 9 := by decide +kernel
theorem test_example_attempt_2_fails_at_23 : firstFailing (exampleVals 16 1200 150) = some 23 := by decide +kernel
theorem test_example_attempt_3_fails_at_24 : firstFailing (exampleVals 16 800 150) = some 24 := by decide +kernel
theorem test_example_attempt_4_passes : firstFailing (exampleVals 16 800 100) = none := by decide +kernel

/-- The store that attempt 4 leaves. -/
def exampleStore : ConfigStore := storeOf (exampleVals 16 800 100)

theorem test_example_store :
    exampleStore.target = 4 ∧ bitTime exampleStore = 8 ∧ framesOf exampleStore = 128
      ∧ firstMismatch exampleStore = none := by decide +kernel

/-! ### Codewords: the findings of section 7.11 -/

theorem test_syndrome_1C_is_data_bit_9 :
    decodeWord 6184 (Machine.encode 6184 0x0123 ^^^ BitVec.twoPow 22 9) = .correctable 9 0x0123
      ∧ syndrome 6184 (Machine.encode 6184 0x0123 ^^^ BitVec.twoPow 22 9) = 0x1C := by decide +kernel

theorem test_syndrome_10_is_check_bit_4 :
    decodeWord 6185 (Machine.encode 6185 7 ^^^ BitVec.twoPow 22 20) = .correctable 20 7 := by decide +kernel

theorem test_syndrome_06_is_no_column :
    decodeWord 6188 (Machine.encode 6188 7 ^^^ BitVec.twoPow 22 17 ^^^ BitVec.twoPow 22 18) = .uncorrectable 7 := by
  decide +kernel

/-! ### Small states -/

/-- A station in a state with the example block held and the prescaler running. -/
def station (st : StationState) : State :=
  { State.reset with
    ctl := { state := st, config := some exampleStore, stationId := 3, entry := .none, blocks := 1 },
    tb := { Timebase.reset with prescale := some 5 } }

/-- A transaction in its command phase. -/
def commanding (s : State) : State := { s with port := { s.port with phase := .command } }

/-- A station with one record, in slot 2. -/
def withRecord (r : Record) (s : State) : State :=
  setSlot 2 (some r) { s with recs := RecordUnit.reset }

/-- An accepted edge at tick 100 and the timestamp it carries. -/
def edgeAt100 : Capture := { tick := 100, stamp := { epoch := 7, phase := 20, unsynced := true } }

/-- A record just opened over the segments 5 and 6. -/
def openedRecord : Record := Record.opened 0 edgeAt100 none [5, 6]

/-- A run of two samples that begins at tick 100. -/
def agreedRun (high : Bool) : LineRun := { high := high, start := edgeAt100, epochHeld := false, agree := true }

/-- A cause held by the transmitter. -/
def detectorCause : Cause := { causes := 1, first := edgeAt100.stamp, retried := false }

theorem inCommand_commanding {s : State} (h : s.pins.rstnLow = false) : InCommand (commanding s) := ⟨h, rfl⟩

theorem slots_of_record {r : Record} {s : State} {j : SlotNo} {r' : Record}
    (h : (withRecord r s).recs.slots.get j = some r') : j = 2 ∧ r' = r := by
  unfold withRecord at h
  rw [slot_setSlot] at h
  by_cases hj : (2 : SlotNo) = j
  · rw [if_pos hj] at h
    exact ⟨hj.symm, (Option.some.inj h).symm⟩
  · rw [if_neg hj] at h
    simp [RecordUnit.reset] at h

theorem record_in_slot_2 (r : Record) (s : State) : (withRecord r s).recs.slots.get 2 = some r := by
  unfold withRecord
  rw [slot_setSlot, if_pos rfl]

theorem onlyOpen_withRecord {r : Record} {s : State} (h : r.state ≠ .closed) : OnlyOpen 2 r (withRecord r s) :=
  ⟨record_in_slot_2 r s, h, fun _ _ hj hg => absurd (slots_of_record hg).1 hj⟩

theorem noneOpen_of_reset {s : State} (h : s.recs = RecordUnit.reset) : NoneOpen s := by
  intro j r hj
  rw [h] at hj
  simp [RecordUnit.reset] at hj

theorem active_station (st : StationState) : Active (station st) exampleStore := ⟨rfl, rfl⟩

/-! ### Witnesses: for each statement with hypotheses, states and operands that meet them -/

/-- A station whose next frame instant is this tick. -/
def atInstant : State :=
  { station .running with seqr := { divider := some 0, sweep := none, position := 0, samples := [] } }

/-- A reset station with this bit waiting on MOSI. -/
def bitWaiting (bit : Bool) : State := { State.reset with pins := { Pins.reset with mosi := [bit] } }

theorem test_meets_idle :
    State.reset.pending = [] ∧ rowNow State.reset = none ∧ State.reset.pins.mosi = []
      ∧ atInstant.pending = [] ∧ rowNow atInstant = some .sweepStart
      ∧ (bitWaiting true).pending = [] ∧ rowNow (bitWaiting true) = none
      ∧ (bitWaiting true).pins.mosi = true :: [] := by
  refine ⟨rfl, rfl, rfl, rfl, ?_, rfl, rfl, rfl⟩
  decide +kernel

/-- A station whose timebase counts in this mode from this phase. -/
def counting (mode : Counting) (phase : BitVec 16) : State :=
  { station .running with tb := { Timebase.reset with prescale := some 5, mode := mode, phase := phase } }

theorem test_meets_ticks :
    (counting .line 0).ctl.config = some exampleStore ∧ (counting .line 0).tb.prescale = some 5
      ∧ (counting .held 9).tb.mode = .held ∧ (counting .line 65535).tb.phase = 65535
      ∧ (counting .line 65534).tb.phase ≠ 65535 ∧ (counting .localScale 9998).tb.phase.toNat + 1 < period exampleStore
      ∧ period exampleStore ≤ (counting .localScale 9999).tb.phase.toNat + 1 ∧ 135168 ≤ arrayWords := by
  refine ⟨rfl, rfl, rfl, rfl, ?_, ?_, ?_, ?_⟩
  all_goals decide +kernel

/-- A RUNNING station whose line is high, with this tick's sample still to be taken. -/
def sampling (x : RxState) (accepted : Option Bool) (last : Option LineRun) : State :=
  { station .running with
    rx := { Receiver.reset with state := x },
    filter := { accepted := accepted, last := last, highRun := 0, sampled := false } }

theorem test_meets_line_samples :
    ¬ ReceiverRuns (station .configured) ∧ (station .running).filter.sampled = LineFilter.reset.sampled
      ∧ ({ LineFilter.reset with sampled := true } : LineFilter).sampled = true
      ∧ ReceiverRuns (sampling .idle none none) ∧ (sampling .idle none none).filter.sampled = false
      ∧ (sampling .idle none none).filter.last = none
      ∧ (sampling .idle none (some (agreedRun false))).filter.last = some (agreedRun false)
      ∧ (agreedRun false).high = (sampling .idle none none).lineLow
      ∧ (agreedRun true).high = !(sampling .idle none none).lineLow
      ∧ (sampling .idle (some true) (some (agreedRun true))).filter.accepted = some (agreedRun true).high
      ∧ (sampling .idle none (some (agreedRun true))).filter.accepted = none
      ∧ (sampling .tagWindow (some false) (some (agreedRun true))).filter.accepted = some (!(agreedRun true).high)
      ∧ (sampling .tagWindow (some false) none).rx.state ∈ [RxState.tagWindow, .numberWindow] := by
  refine ⟨?_, rfl, rfl, ?_, rfl, rfl, rfl, rfl, rfl, rfl, rfl, rfl, ?_⟩
  all_goals simp [ReceiverRuns, station, sampling]

theorem test_meets_decoder : (Instr.setMask 3).wf = true ∧ hostBytes (.setMask 3) = some [0x41, 3] := by decide

theorem test_meets_every_step :
    Safe { State.reset with pending := [.csnFall] }
      ∧ step { State.reset with pending := [.csnFall] }
          = .next { State.reset with
              pins := { Pins.reset with csnLow := true }, port := { Port.reset with phase := .command } } := by
  refine ⟨⟨⟨rfl, fun e he => by cases he⟩, ⟨Nat.zero_le _, Nat.zero_le _⟩,
    ⟨Nat.zero_le _, Nat.zero_le _, Nat.zero_le _, Nat.zero_le _, Nat.zero_le _⟩,
    ⟨resetEvents_quiet _, resetEvents_quiet _, resetEvents_quiet _, resetEvents_quiet _, resetEvents_quiet _⟩,
    resetEvents_safe⟩, rfl⟩

theorem test_meets_held_reset :
    ({ State.reset with pins := { Pins.reset with rstnLow := true } } : State).pins.rstnLow = true
      ∧ outlastsReset .status = false ∧ outlastsReset .recoverCountRestart = false := by decide

/-- A memory unit whose fill has written three words. -/
def fillingThree : Integrity := { Integrity.reset with fill := some 3 }

theorem test_meets_abandoned_fill :
    fillingThree.fill = some 3 ∧ fillingThree.array.wf = true ∧ Integrity.reset.fill = none
      ∧ InCommand (commanding { station .init with mem := fillingThree }) := ⟨rfl, rfl, rfl, rfl, rfl⟩

/-- An entry of the error log. -/
def logged : LogEntry :=
  { kind := .corrected, finder := .scrub, seg := 12, home := .main, offset := 40, syndrome := 0x1C, bit := some 9,
    stamp := edgeAt100.stamp }

/-- A station in its command phase with this error log. -/
def withLog (l : List LogEntry) : State :=
  commanding { State.reset with mem := { Integrity.reset with log := l } }

theorem test_meets_soft_reset :
    InCommand (withLog []) ∧ (withLog []).pool.withdrawn.Nodup ∧ (withLog []).mem.fill = none
      ∧ (withLog [logged]).mem.log.length ≠ logRoom
      ∧ InCommand (withLog [logged, logged, logged, logged])
      ∧ (withLog [logged, logged, logged, logged]).mem.log.length = logRoom :=
  ⟨⟨rfl, rfl⟩, List.nodup_nil, rfl, by decide, ⟨rfl, rfl⟩, rfl⟩

theorem test_meets_host_rows :
    ((hostBytes .status).isSome = true ∧ State.reset.port.phase ≠ .command)
      ∧ (List.replicate 115 (0 : Byte)).length < 116
      ∧ InCommand (commanding State.reset)
      ∧ (0x42 : Byte).toNat ∉
          [0x01, 0x02, 0x03, 0x04, 0x05, 0x10, 0x11, 0x12, 0x13, 0x20, 0x30, 0x31, 0x32, 0x33, 0x40, 0x41] :=
  ⟨by decide, by decide, ⟨rfl, rfl⟩, by decide⟩

theorem test_meets_csn :
    (State.reset.pins.csnLow = false ∧ State.reset.pins.rstnLow = false ∧ State.reset.port.phase = .idle)
      ∧ ({ Pins.reset with rstnLow := true } : Pins).csnLow = false
      ∧ (commanding State.reset).port.phase ≠ .idle ∧ (commanding State.reset).pins.csnLow = false
      ∧ ({ Pins.reset with csnLow := true } : Pins).csnLow = true := by decide

/-- A transaction whose port stands so, with this prefetch request. -/
def transacting (p : Port) (read : Option Prefetch) : State :=
  { State.reset with
    port := p, pins := { Pins.reset with csnLow := true }, mem := { Integrity.reset with prefetch := read } }

/-- The port at the start of the first byte after OK of a response of three bytes. -/
def responding : Port :=
  { Port.reset with phase := .response, byteCount := 1, command := some 1, response := [0, 7, 8] }

/-- A read of segment 5 that has one word left. -/
def lastWord : Prefetch :=
  { seg := 5, offset := 511, remaining := 1, corrected := 0, uncorrectable := 0, presented := true }

theorem test_meets_bits :
    (transacting { Port.reset with phase := .command } none).pins.csnLow = true
      ∧ Port.reset.bitCount = 0 ∧ Port.reset.shiftIn = 0
      ∧ Port.reset.command.toList ++ Port.reset.args ++ [(1 : Byte)] = 1 :: [] ∧ decodeCommand [1] = some .status
      ∧ decodeCommand [0x11] = none
      ∧ (transacting { Port.reset with phase := .waitRise } none).port.phase ∈ [PortPhase.idle, .waitRise]
      ∧ responding.phase = .response ∧ 1 + responding.args.length ≤ responding.byteCount
      ∧ responding.response[place (transacting responding none)]? = some 0
      ∧ responding.prefetchWord = none ∧ (transacting responding none).mem.prefetch = none
      ∧ (place (transacting responding none) + 1) % 2 = 1
      ∧ place (transacting responding none) + 1 < responding.response.length
      ∧ (place (transacting { responding with byteCount := 2 } none) + 1) % 2 = 0
      ∧ responding.response.length ≤ place (transacting { responding with byteCount := 3 } none) + 1
      ∧ (transacting { responding with prefetchWord := some 7 } (some lastWord)).mem.prefetch = some lastWord
      ∧ ({ Port.reset with phase := .trailing } : Port).prefetchWord = none := by decide +kernel

theorem test_byte_01_puts_status_in_the_queue :
    (clockByte 0x01 (transacting { Port.reset with phase := .command } none)).pending = [.status] := by decide +kernel

theorem test_idle_step_clocks_a_bit_in :
    (idle { transacting { Port.reset with phase := .command } none with
      pins := { Pins.reset with csnLow := true, mosi := [true] } }).port.bitCount = 1 := by decide +kernel

theorem test_miso_sends_the_most_significant_bit_first :
    (transacting { responding with response := [0x80] } none).miso = some true ∧ State.reset.miso = none := by
  decide +kernel

/-- A CLOSED record over the segments 5 and 6, with its origin set and a cause. -/
def closedRecord : Record :=
  { openedRecord with state := .closed, window := none, origin := some 8, cause := some detectorCause }

/-- A station in its command phase that holds the CLOSED record in slot 2. -/
def holding : State := commanding (withRecord closedRecord State.reset)

theorem test_meets_record_reads :
    InCommand holding ∧ holding.recs.slots.get 2 = some closedRecord ∧ holding.recs.slots.get 15 = none
      ∧ 15 < (16 : Byte).toNat ∧ (15 : Byte).toNat < 16 ∧ (2 : Byte).toNat < 16
      ∧ openedRecord.origin = none ∧ openedRecord.cause = none
      ∧ closedRecord.origin = some 8 ∧ closedRecord.cause = some detectorCause :=
  ⟨⟨rfl, rfl⟩, record_in_slot_2 _ _, by decide +kernel, by decide, by decide, by decide, rfl, rfl, rfl, rfl⟩

theorem test_meets_read_data :
    InCommand holding ∧ (∀ r, holding.recs.slots.get ⟨(15 : Byte).toNat, by decide⟩ = some r → r.state ≠ .closed)
      ∧ holding.recs.slots.get ⟨(2 : Byte).toNat, by decide⟩ = some closedRecord ∧ closedRecord.state = .closed
      ∧ closedRecord.chain.length ≤ (2 : Byte).toNat ∧ (0 : BitVec 16).toNat = 0 ∧ 512 < (513 : BitVec 16).toNat
      ∧ 512 < (1 : BitVec 16).toNat + (512 : BitVec 16).toNat
      ∧ closedRecord.chain[(1 : Byte).toNat]? = some 6 ∧ 1 ≤ (512 : BitVec 16).toNat
      ∧ (0 : BitVec 16).toNat + (512 : BitVec 16).toNat ≤ 512 :=
  ⟨⟨rfl, rfl⟩, fun _ h => absurd (slots_of_record h).1 (by decide), record_in_slot_2 _ _, rfl, by decide, by decide,
    by decide, by decide, by decide, by decide, by decide⟩

/-- The same station with the writer in OVERRUN and the free list empty. -/
def holdingInOverrun : State :=
  { holding with
    writer := { Writer.reset with state := .overrun, discarded := 3 }, pool := { Pool.reset with free := [] } }

theorem test_meets_release :
    InCommand holding ∧ (∀ g ∈ closedRecord.chain, (holding.header g).retirePending = false)
      ∧ holding.writer.state ≠ .overrun
      ∧ InCommand holdingInOverrun ∧ holdingInOverrun.recs.slots.get 2 = some closedRecord
      ∧ (∀ g ∈ closedRecord.chain, (holdingInOverrun.header g).retirePending = false)
      ∧ holdingInOverrun.writer.state = .overrun ∧ holdingInOverrun.pool.free = []
      ∧ closedRecord.chain = 5 :: [6] := by
  refine ⟨⟨rfl, rfl⟩, ?_, by decide, ⟨rfl, rfl⟩, record_in_slot_2 _ _, ?_, rfl, rfl, rfl⟩
  all_goals decide +kernel

theorem test_meets_log_commands :
    InCommand (withLog []) ∧ (withLog []).mem.log = []
      ∧ (withLog [logged, logged, logged, logged]).mem.log = logged :: [logged, logged, logged]
      ∧ [logged, logged, logged].length = 3 := ⟨⟨rfl, rfl⟩, rfl, rfl, rfl⟩

theorem test_meets_next_event :
    (∀ i : Fin 14, ((commanding State.reset).ev.cells.get i).state ≠ .pending)
      ∧ ∃ i : Fin 14, ((commanding (raise .recordClosed State.reset)).ev.cells.get i).state = .pending := by
  decide +kernel

theorem test_meets_set_mask : (3 : Byte).toNat ≤ 3 ∧ 3 < (4 : Byte).toNat := by decide

theorem test_meets_soft_trigger :
    InCommand (commanding (station .running)) ∧ (commanding (station .running)).ctl.config = some exampleStore
      ∧ (commanding (station .running)).ctl.state = .running ∧ (commanding (station .running)).tx.holdoff = 0
      ∧ (commanding (station .running)).rx.state = .idle ∧ (commanding (station .running)).tx.request = none
      ∧ (commanding (station .halted)).ctl.state ≠ .running :=
  ⟨⟨rfl, rfl⟩, rfl, rfl, rfl, rfl, rfl, by decide⟩

/-- The bytes of a block, field by field. -/
def blockOf (vals : List (BitVec 16)) : List Byte :=
  ((fieldWidths.zip vals).map (fun p => if p.1 = 1 then [byte p.2.toNat] else bytes2 p.2.toNat)).flatten

theorem test_meets_configure :
    InCommand (commanding State.reset) ∧ (commanding State.reset).ctl.state = .unconfigured
      ∧ (blockOf (exampleVals 16 800 100)).length = 116
      ∧ splitFields fieldWidths (blockOf (exampleVals 16 800 100)) = exampleVals 16 800 100
      ∧ (∀ i, i < 87 → 1 ≤ i →
          (!(inRange i (fieldAt (exampleVals 16 800 100) i) && crossCheck (exampleVals 16 800 100) i)) = false)
      ∧ (!(inRange 9 (fieldAt (exampleVals 8 800 100) 9) && crossCheck (exampleVals 8 800 100) 9)) = true
      ∧ (∀ j, j < 9 → 1 ≤ j →
          (!(inRange j (fieldAt (exampleVals 8 800 100) j) && crossCheck (exampleVals 8 800 100) j)) = false)
      ∧ (station .init).ctl.state ≠ .unconfigured ∧ (station .init).ctl.state ≠ .configured
      ∧ State.reset.tb.prescale = none ∧ (station .configured).tb.prescale ≠ none := by
  refine ⟨⟨rfl, rfl⟩, rfl, ?_, ?_, ?_, ?_, ?_, ?_, ?_, ?_, ?_⟩
  all_goals decide +kernel

/-- A station in INIT at the start of its fill, a divisor 2^8 waiting for the next tick boundary. -/
def divisorWaiting : State :=
  { station .init with
    tb := takeDivisor 8 (station .init).tb, mem := { Integrity.reset with fill := some 0 } }

theorem test_running_tick_keeps_its_divisor :
    divisorWaiting.tb.prescale = some 5 ∧ (divisorWaiting.elapse 1).mem.fill = some 32
      ∧ (divisorWaiting.elapse 1).tb.prescale = some 8 ∧ (divisorWaiting.elapse 2).mem.fill = some (32 + 256)
      ∧ fillDue divisorWaiting = some 529 ∧ clocksIn 5 (some 8) 528 < 135168 ∧ 135168 ≤ clocksIn 5 (some 8) 529 := by
  decide +kernel

/-- A pool with these lists and reset headers. -/
def poolOf (free history : List SegNo) : Pool := { Pool.reset with free := free, history := history }

/-- A station in LISTEN or RUNNING with these lists, filling this segment at this position. -/
def filling (free history : List SegNo) (current : Option SegNo) (pos : Nat) : State :=
  { station .running with
    pool := poolOf free history, writer := { state := .filling, current := current, pos := pos, discarded := 0 } }

/-- A RUNNING station whose record of segments 5 and 6 is COLLECTING, with every other segment free. -/
def collectingSix : State :=
  withRecord openedRecord (filling (allSegments.filter (fun g => g != 5 && g != 6)) [] (some 6) 3)

theorem test_meets_one_place :
    Placed { State.reset with pending := [.csnFall] } ∧ (∃ t, step { State.reset with pending := [.csnFall] } = .next t)
      ∧ Placed { collectingSix with pending := [.stop] }
      ∧ ∃ t, step { collectingSix with pending := [.stop] } = .next t := by
  refine ⟨placed_frame (s := powerOn Pins.reset 0 State.reset) rfl rfl rfl rfl (powerOn_placed _ _ _),
    ⟨_, rfl⟩, ⟨?_, ?_, ?_, rfl, ?_⟩, ⟨_, rfl⟩⟩
  · decide +kernel
  · intro i j r q hi hj _ _
    rw [(slots_of_record hi).1, (slots_of_record hj).1]
  · intro i r hi _
    rw [(slots_of_record hi).2]
    exact ⟨rfl, rfl⟩
  · intro _ h
    exact absurd rfl h

theorem test_meets_start :
    InCommand (commanding (station .configured)) ∧ (commanding (station .configured)).ctl.config = some exampleStore
      ∧ (commanding (station .halted)).ctl.state = .halted ∧ (station .halted).tx.state = .quiet
      ∧ (station .halted).rx.state ∉ [RxState.low, .tagWindow, .numberWindow]
      ∧ (setRx .low (station .halted)).rx.state ∈ [RxState.low, .tagWindow, .numberWindow]
      ∧ (station .running).ctl.state ∉ [StationState.configured, .halted]
      ∧ scrubInterval exampleStore ≠ 0
      ∧ (filling [7] [] none 0).pool.free = 7 :: [] ∧ (poolOf [] []).free = [] ∧ (poolOf [] []).history = [] := by
  refine ⟨⟨rfl, rfl⟩, rfl, rfl, ?_, ?_, ?_, ?_, ?_, rfl, rfl, rfl⟩
  all_goals decide +kernel

theorem test_meets_stop :
    (InCommand (commanding (filling [7] [4] (some 5) 9)) ∧ (filling [7] [4] (some 5) 9).ctl.config = some exampleStore
      ∧ (filling [7] [4] (some 5) 9).ctl.state = .running)
      ∧ (station .listen).ctl.state = .listen ∧ (station .fault).ctl.state ∉ [StationState.listen, .running]
      ∧ (∀ g ∈ (filling [7] [4] (some 5) 9).pool.history ++ (filling [7] [4] (some 5) 9).lone.toList,
          ((filling [7] [4] (some 5) 9).header g).retirePending = false)
      ∧ NoneOpen (filling [7] [4] (some 5) 9)
      ∧ OnlyOpen 2 openedRecord (withRecord openedRecord (filling [7] [4] (some 5) 9))
      ∧ openedRecord.state = .collecting ∧ openedRecord.placed = false
      ∧ ({ openedRecord with placed := true } : Record).placed = true := by
  refine ⟨⟨⟨rfl, rfl⟩, rfl, rfl⟩, rfl, ?_, ?_, noneOpen_of_reset rfl, onlyOpen_withRecord ?_, rfl, rfl, rfl⟩
  all_goals decide +kernel

theorem test_meets_fill_complete :
    Active (station .init) exampleStore ∧ (station .init).tb.prescale = some 5 ∧ (station .init).ctl.state = .init
      ∧ ({ station .init with mem := { Integrity.reset with fill := some 0 } } : State).mem.fill = some 0
      ∧ divisorWaiting.tb.nextPrescale = some 8 ∧ divisorWaiting.mem.fill = some 0 :=
  ⟨active_station _, rfl, rfl, rfl, rfl, rfl⟩

/-- A station whose line has been high for `run` ticks, with the receiver in this state. -/
def quietLine (st : StationState) (x : RxState) (run : Nat) : State :=
  { station st with
    rx := { Receiver.reset with state := x }, filter := { LineFilter.reset with accepted := some true, highRun := run } }

theorem test_meets_recover_complete :
    Active (quietLine .listen .recover 512) exampleStore
      ∧ (quietLine .listen .recover 512).ctl.state ∈ [StationState.listen, .running, .halted]
      ∧ (quietLine .halted .recover 512).ctl.state ∈ [StationState.listen, .running, .halted]
      ∧ (quietLine .listen .recover 512).rx.state = .recover ∧ (quietLine .listen .recover 512).tx.pulls = false
      ∧ (quietLine .listen .recover 512).filter.accepted = some true ∧ 64 * bitTime exampleStore ≤ 512
      ∧ detEnabled exampleStore 1 = true ∧ detEnabled exampleStore 0 = false := by
  refine ⟨⟨rfl, rfl⟩, ?_, ?_, rfl, ?_, rfl, ?_, ?_, ?_⟩
  all_goals decide +kernel

theorem test_timer_waits_on_through_stop_and_start :
    (enterListen exampleStore false
      (enterHalted exampleStore (enterListen exampleStore true (station .init)))).ctl.entry = .fromInit := by
  decide +kernel

theorem test_upset_of_a_rewritten_store_is_gone :
    struckStore (station .configured).ctl.blocks { block := 0, index := 1 } 1 exampleStore = exampleStore := rfl

theorem test_meets_parity_mismatch :
    ({ block := 1, index := 1 } : StoredField).block = (station .configured).ctl.blocks
      ∧ ({ block := 0, index := 1 } : StoredField).block ≠ (station .configured).ctl.blocks
      ∧ mismatchAt exampleStore 1 = false
      ∧ Active (station .configured) exampleStore ∧ mismatchAt (upsetField exampleStore 1 3) 1 = false
      ∧ mismatchAt (upsetField exampleStore 1 1) 1 = true ∧ mismatchAt (upsetField exampleStore 85 0x10) 85 = false
      ∧ mismatchAt (upsetField exampleStore 86 0x80) 86 = true
      ∧ (station .configured).ctl.state ≠ .unconfigured ∧ (station .configured).ctl.state ≠ .fault
      ∧ (station .fault).ctl.state = .fault ∧ (station .configured).mem.fill = none := by
  refine ⟨rfl, by decide, by decide +kernel, active_station _, ?_, ?_, ?_, ?_, ?_, ?_, rfl, rfl⟩
  all_goals decide +kernel

/-- A station where segment 5, at this home, is retire-pending, with these spares. -/
def retiring (home : Home) (spares : Vector SpareState 8) (free history : List SegNo) : State :=
  { station .running with
    pool := { poolOf free history with
      headers := Pool.reset.headers.set (5 : SegNo) { Header.reset with home := home, tally := 15, retirePending := true } },
    ret := { spares := spares, remap := [] } }

/-- Spare 0 is MAPPED and the others are UNUSED. -/
def oneMapped : Vector SpareState 8 := (Vector.replicate 8 SpareState.unused).set (0 : SpareNo) .mapped

theorem test_meets_retirement :
    (∀ home, ((retiring home oneMapped [] []).header 5).retirePending = true)
      ∧ (retiring .main oneMapped [] []).ret.spares.get 1 = .unused
      ∧ (∀ i : SpareNo, i < 1 → (retiring .main oneMapped [] []).ret.spares.get i ≠ .unused)
      ∧ ((retiring .main oneMapped [] []).header 5).home = .main
      ∧ ((retiring (.spare 0) oneMapped [] []).header 5).home = .spare 0
      ∧ (retiring (.spare 0) oneMapped [] []).ret.spares.get 0 = .mapped
      ∧ (∀ j : SpareNo, (retiring .main (Vector.replicate 8 .dead) [] []).ret.spares.get j ≠ .unused) := by
  refine ⟨fun home => ?_, ?_, ?_, ?_, ?_, ?_, ?_⟩
  · rw [show (retiring home oneMapped [] []).header 5 = _ from get_set _ (5 : SegNo) 5 _, if_pos rfl]
  all_goals decide +kernel

theorem test_meets_writer_take :
    (filling [7] [] none 0).pool.free = 7 :: [] ∧ (filling [] [4] none 0).pool.free = []
      ∧ (filling [] [4] none 0).pool.history = 4 :: [] ∧ ((filling [] [4] none 0).header 4).retirePending = false
      ∧ (retiring .main oneMapped [] [5]).pool.history = 5 :: []
      ∧ ((retiring .main oneMapped [] [5]).header 5).retirePending = true
      ∧ (filling [] [] none 0).pool.free = [] ∧ (filling [] [] none 0).pool.history = [] := by decide +kernel

/-- An input at this many fifths of VREF. -/
def fifths (v : Int) : AnalogLevel := { vin := v, vref := 5 }

/-- A station with a sweep in progress, its instant at tick 100, and two channels sampled. -/
def sweeping (s : State) : State :=
  { s with seqr := { divider := some 9, sweep := some edgeAt100, position := 0, samples := [fifths 2, fifths 3] } }

/-- A station `d` ticks into a sweep, with these levels sampled and every input at 4/5 of VREF. -/
def sweepAt (d : Nat) (samples : List AnalogLevel) : State :=
  { station .running with
    tb := { (station .running).tb with localTick := 100 + BitVec.ofNat 32 d },
    pins := { Pins.reset with analog := List.replicate 8 (fifths 4) },
    seqr := { divider := some 9, sweep := some edgeAt100, position := 0, samples := samples } }

theorem test_first_channel_is_sampled_at_the_instant :
    (startSweep exampleStore (sweepAt 0 [])).seqr.samples = [fifths 4] := by decide +kernel

theorem test_second_channel_is_sampled_in_the_tick_of_its_conversion :
    (tick (sweepAt 0 [fifths 1])).seqr.samples = [fifths 1, fifths 4]
      ∧ (tick (sweepAt 1 [fifths 1, fifths 2])).seqr.samples = [fifths 1, fifths 2] := by decide +kernel

theorem test_frame_keeps_levels_already_sampled :
    levelsMet (List.replicate 8 (fifths 4)) (sweeping (station .running))
      = [fifths 2, fifths 3] ++ List.replicate 6 (fifths 4) := by decide

/-- The sequencer waiting for its next instant. -/
def awaitingInstant : State :=
  { station .running with seqr := { divider := some 9, sweep := none, position := 0, samples := [] } }

theorem test_meets_sweep_start :
    Active awaitingInstant exampleStore ∧ awaitingInstant.ctl.state ∈ [StationState.listen, .running]
      ∧ awaitingInstant.seqr.sweep = none ∧ awaitingInstant.seqr.divider = some 9 ∧ awaitingInstant.ctl.entry = .none
      ∧ (awaitingInstant.elapse 9).tb.prescale = some 5 ∧ Sweeping exampleStore 5 edgeAt100 (sweepAt 0 [fifths 1]) :=
  ⟨⟨rfl, rfl⟩, by decide, rfl, rfl, rfl, (elapse_prescale 9 (c := exampleStore) rfl rfl rfl).1,
    ⟨⟨rfl, rfl⟩, rfl, by simp [sweepAt, station], rfl⟩⟩

theorem test_meets_channel_times :
    sampledBy exampleStore 5 1 [fifths 4, fifths 4, fifths 4] [fifths 1] 0 = some (fifths 1)
      ∧ sampledBy exampleStore 5 1 [fifths 4, fifths 4, fifths 4] [fifths 1] 1 = some (fifths 4)
      ∧ sampledBy exampleStore 5 1 [fifths 4, fifths 4, fifths 4] [fifths 1] 2 = none := by decide +kernel

theorem sweeping_filling (free history : List SegNo) (current : Option SegNo) (pos : Nat) :
    Sweeping exampleStore 5 edgeAt100 (sweeping (filling free history current pos)) :=
  ⟨⟨rfl, rfl⟩, rfl, by simp [sweeping, filling, station], rfl⟩

theorem noneCollecting_of_reset {s : State} (h : s.recs = RecordUnit.reset) : NoneCollecting s := by
  intro j r hj
  rw [h] at hj
  simp [RecordUnit.reset] at hj

theorem test_meets_frame_is_written :
    Sweeping exampleStore 5 edgeAt100 (sweeping (filling [7] [] (some 5) 127))
      ∧ (sweeping (filling [7] [] (some 5) 127)).mem.array.wf = true
      ∧ (List.replicate 8 (fifths 1)).length = 8
      ∧ 3 < (levelsMet (List.replicate 8 (fifths 1)) (sweeping (filling [7] [] (some 5) 127))).length
      ∧ channels exampleStore ∈ [1, 2, 4, 8] ∧ (filling [7] [] (some 5) 127).writer.state = .filling
      ∧ (filling [7] [] (some 5) 127).writer.current = some 5
      ∧ (filling [7] [] (some 5) 127).writer.pos < 512 / channels exampleStore := by
  refine ⟨sweeping_filling _ _ _ _, rfl, rfl, by decide, ?_, rfl, rfl, ?_⟩
  all_goals decide +kernel

theorem test_meets_frame_moves_the_writer :
    NoneCollecting (filling [7] [1, 2, 3, 4] (some 5) 127)
      ∧ (holdingInOverrun).writer.state = .overrun
      ∧ (filling [7] [] (some 5) 126).writer.pos + 1 < framesOf exampleStore
      ∧ framesOf exampleStore ≤ (filling [7] [1, 2, 3] (some 5) 127).writer.pos + 1
      ∧ (filling [7] [1, 2, 3] (some 5) 127).pool.history.length < exampleStore.target
      ∧ (filling [7] [1, 2, 3] (some 5) 127).pool.free = 7 :: [] ∧ (7 : SegNo) ≠ 5
      ∧ (filling [7] [1, 2, 3, 4] (some 5) 127).pool.history.length = exampleStore.target
      ∧ (filling [7] [1, 2, 3, 4] (some 5) 127).pool.history = 1 :: [2, 3, 4] ∧ (1 : SegNo) ≠ 5
      ∧ ((filling [7] [1, 2, 3, 4] (some 5) 127).header 1).retirePending = false
      ∧ (filling [7] [1, 2, 3, 4] (some 5) 127).pool.free ++ [1] = 7 :: [1] := by
  refine ⟨noneCollecting_of_reset rfl, ?_, ?_, ?_, ?_, ?_, ?_, ?_, ?_, ?_, ?_, ?_⟩
  all_goals decide +kernel

/-- A placed COLLECTING record with post end 10. -/
def placedRecord (total : Nat) : Record :=
  { openedRecord with placed := true, total := total, postEnd := 10, trigIndex := 2, window := none }

/-- A store with every field 1: one frame per report, one frame of post-trigger data. -/
def onesStore : ConfigStore := storeOf (List.replicate 86 1)

/-- A station filling segment 6 of this record, whose segments 5 and 6 hold these frames, with this latest report. -/
def reportedAt (last : Tick) (in5 in6 : Nat) (r : Record) : State :=
  let s := withRecord r (filling [7] [] (some 6) in6)
  { setHeader 5 { Header.reset with valid := in5 } (setHeader 6 { Header.reset with valid := in6 } s) with
    recs := { s.recs with lastReport := some last } }

/-- A placed record that waits for the frames of these retrigger edges. -/
def pendingRecord (edges : List Tick) (total : Nat) : Record := { placedRecord total with pendingEdges := edges }

theorem test_meets_pending_edges :
    (∃ e ∈ (pendingRecord [135] 8).pendingEdges, atOrAfter 135 e = true)
      ∧ ¬ (∃ e ∈ (pendingRecord [136] 8).pendingEdges, atOrAfter 135 e = true)
      ∧ (pendingRecord [135] 8).total + 1
          < max (pendingRecord [135] 8).postEnd ((pendingRecord [135] 8).total + postFrames exampleStore)
      ∧ max (pendingRecord [135] 9).postEnd ((pendingRecord [135] 9).total + postFrames onesStore)
          ≤ (pendingRecord [135] 9).total + 1
      ∧ (pendingRecord [136] 8).total + 1 < (pendingRecord [136] 8).postEnd
      ∧ (pendingRecord [136] 9).postEnd ≤ (pendingRecord [136] 9).total + 1 := by
  refine ⟨⟨135, List.mem_singleton.2 rfl, by decide⟩, ?_, ?_, ?_, ?_, ?_⟩
  · rintro ⟨e, he, h⟩
    rw [List.mem_singleton.1 he] at h
    revert h
    decide
  all_goals decide +kernel

theorem test_meets_unplaced_fill :
    openedRecord.placed = false ∧ openedRecord.state = .collecting
      ∧ (reportedAt 99 100 20 openedRecord).recs.lastReport = some 99 ∧ atOrAfter 99 openedRecord.edgeTick = false
      ∧ (reportedAt 99 100 20 openedRecord).pool.free = 7 :: []
      ∧ (reportedAt 99 100 20 openedRecord).pool.history = [] ∧ (filling [] [] (some 6) 3).pool.free = [] := by
  decide +kernel

theorem test_meets_frame_reports :
    (withRecord (placedRecord 8) (filling [7] [] (some 6) 3)).recs.slots.get 2 = some (placedRecord 8)
      ∧ (placedRecord 8).state = .collecting ∧ (placedRecord 8).placed = true ∧ (placedRecord 8).pendingEdges = []
      ∧ (placedRecord 8).total + 1 < (placedRecord 8).postEnd
      ∧ (placedRecord 9).postEnd ≤ (placedRecord 9).total + 1 ∧ (placedRecord 9).window = none
      ∧ ({ placedRecord 9 with window := some .trigger } : Record).window = some .trigger
      ∧ (placedRecord 8).chain.length < maxChain exampleStore
      ∧ maxChain exampleStore ≤ ({ placedRecord 8 with chain := List.replicate 16 6 } : Record).chain.length
      ∧ (filling [7] [] (some 6) 3).pool.free = 7 :: [] ∧ (filling [] [] (some 6) 3).pool.free = [] := by
  refine ⟨record_in_slot_2 _ _, rfl, rfl, rfl, ?_, ?_, rfl, rfl, ?_, ?_, rfl, rfl⟩
  all_goals decide +kernel

theorem test_meets_trigger_event_opens :
    (station .halted).ctl.state ≠ .running ∧ (filling [7] [4] (some 5) 9).ctl.state = .running
      ∧ NoneOpen (filling [7] [4] (some 5) 9) ∧ (filling [7] [4] (some 5) 9).recs.slots.get 0 = none
      ∧ (∀ j : SlotNo, j < 0 → (filling [7] [4] (some 5) 9).recs.slots.get j ≠ none)
      ∧ (∀ j r, (filling [7] [4] (some 5) 9).recs.slots.get j = some r →
          ((filling [7] [4] (some 5) 9).recs.seq - r.sequence).toNat < 32768)
      ∧ (filling [7] [4] (some 5) 9).writer.current = some 5
      ∧ (∀ last, (filling [7] [4] (some 5) 9).recs.lastReport = some last →
          framesIn (filling [7] [4] (some 5) 9) [4, 5] = 0 ∨ atOrAfter last 100 = false)
      ∧ (filling [7] [4] none 9).writer.current = none
      ∧ (∀ j, ({ RecordUnit.reset with slots := Vector.replicate 16 (some closedRecord) } : RecordUnit).slots.get j ≠ none)
      ∧ 32768 ≤ ((0x8000 : BitVec 16) - closedRecord.sequence).toNat := by
  refine ⟨by decide, rfl, noneOpen_of_reset rfl, by decide +kernel, fun j hj => absurd hj (Fin.not_lt_zero j), ?_, rfl,
    ?_, rfl, by decide +kernel, by decide +kernel⟩
  · intro j r h
    simp [filling, station, State.reset, RecordUnit.reset] at h
  · intro last h
    cases h

/-- A station with segment 4 in history and segment 5 filling, that hold 12 frames, the latest reported at tick 135. -/
def openable : State :=
  setHeader 4 { Header.reset with valid := 12 }
    { filling [7] [4] (some 5) 9 with recs := { RecordUnit.reset with lastReport := some 135 } }

theorem test_meets_trigger_frame_held_at_open :
    openable.recs.lastReport = some 135 ∧ framesIn openable (openable.pool.history ++ [5]) ≠ 0
      ∧ atOrAfter 135 100 = true
      ∧ framesSince exampleStore (framesIn openable (openable.pool.history ++ [5])) 135 100 < postFrames exampleStore
      ∧ postFrames onesStore ≤ framesSince onesStore (framesIn openable (openable.pool.history ++ [5])) 135 100 := by
  decide +kernel

/-- A station filling segment 6 of an opened record whose segments hold 100 and 20 frames; the latest report is 35
ticks after the leading edge. -/
def reported (r : Record) : State := reportedAt 135 100 20 r

theorem test_meets_missing_trigger_frame :
    samplePeriod exampleStore ≤ ((135 : Tick) - openedRecord.edgeTick).toNat - (2 - 1) * samplePeriod exampleStore
      ∧ 2 = framesIn (reportedAt 135 0 2 openedRecord) openedRecord.chain := by decide +kernel

/-- Whether the record that this placement leaves in slot 2 has reached its post end. -/
def placedComplete (c : ConfigStore) (m : Nat) (s : State) : Option Bool :=
  ((placeRecord c 2 openedRecord m s).recs.slots.get 2).map (fun q => decide (q.postEnd ≤ q.total))

theorem test_meets_report_that_places :
    openedRecord.placed = false ∧ atOrAfter 135 openedRecord.edgeTick = true
      ∧ framesIn (reported openedRecord) openedRecord.chain ≠ 0
      ∧ 4 = framesSince exampleStore (framesIn (reported openedRecord) openedRecord.chain) 135 openedRecord.edgeTick
      ∧ 36 = framesSince onesStore (framesIn (reported openedRecord) openedRecord.chain) 135 openedRecord.edgeTick
      ∧ placedComplete exampleStore 4 (reported openedRecord) = some false
      ∧ placedComplete onesStore 36 (reported openedRecord) = some true := by decide +kernel

theorem test_meets_placement :
    (reported openedRecord).recs.lastReport = some 135 ∧ framesIn (reported openedRecord) openedRecord.chain = 120
      ∧ 1 ≤ 4 ∧ 4 ≤ framesIn (reported openedRecord) openedRecord.chain
      ∧ ((135 : Tick) - openedRecord.edgeTick).toNat - (4 - 1) * samplePeriod exampleStore < samplePeriod exampleStore
      ∧ (∀ g ∈ openedRecord.chain, ((reported openedRecord).header g).retirePending = false)
      ∧ openedRecord.chain ≠ [] := by decide +kernel

theorem test_meets_retrigger :
    (filling [7] [] (some 6) 3).ctl.state = .running
      ∧ OnlyOpen 2 openedRecord (withRecord openedRecord (filling [7] [] (some 6) 3))
      ∧ OnlyOpen 2 { openedRecord with state := .awaiting }
          (withRecord { openedRecord with state := .awaiting } (filling [7] [] (some 6) 3))
      ∧ extendMode (storeOf (List.replicate 86 0)) = false ∧ extendMode exampleStore = true
      ∧ openedRecord.state = .collecting
      ∧ (∀ last, (withRecord openedRecord (filling [7] [] (some 6) 3)).recs.lastReport = some last →
          atOrAfter last 100 = false)
      ∧ (placedRecord 8).placed = true ∧ (reported (placedRecord 8)).recs.lastReport = some 135
      ∧ atOrAfter 135 100 = true ∧ framesIn (reported (placedRecord 8)) (placedRecord 8).chain ≠ 0 := by
  refine ⟨rfl, onlyOpen_withRecord (by decide), onlyOpen_withRecord (by decide), by decide +kernel, by decide +kernel, rfl,
    ?_, rfl, rfl, by decide, by decide +kernel⟩
  intro last h
  cases h

theorem test_meets_detectors :
    detField exampleStore 1 2 ≤ 3 ∧ 1 ≤ detField exampleStore 1 6
      ∧ Fires (detField exampleStore 1 2) (detField exampleStore 1 3) (detField exampleStore 1 4) none 1001
      ∧ ¬ Fires (detField exampleStore 1 2) (detField exampleStore 1 3) (detField exampleStore 1 4) none 1000
      ∧ Rearms (detField exampleStore 1 2) (detField exampleStore 1 3) (detField exampleStore 1 4)
          (detField exampleStore 1 5) none 900
      ∧ ¬ Rearms (detField exampleStore 1 2) (detField exampleStore 1 3) (detField exampleStore 1 4)
          (detField exampleStore 1 5) none 901
      ∧ Fires 3 100 0 (some 500) 399 ∧ Rearms 3 100 0 10 (some 500) 590 ∧ ¬ Fires 3 100 0 none 4095 := by
  have h2 : detField exampleStore 1 2 = 2 := by decide +kernel
  have h3 : detField exampleStore 1 3 = 1000 := by decide +kernel
  have h4 : detField exampleStore 1 4 = 800 := by decide +kernel
  have h5 : detField exampleStore 1 5 = 100 := by decide +kernel
  have h6 : detField exampleStore 1 6 = 4 := by decide +kernel
  rw [h2, h3, h4, h5, h6]
  simp [Fires, Rearms]

theorem test_meets_frame_reaches_detectors :
    Sweeping exampleStore 5 edgeAt100 (sweeping (filling [7] [] (some 5) 127))
      ∧ detEnabled exampleStore 1 = true ∧ detField exampleStore 1 1 < channels exampleStore
      ∧ detEnabled exampleStore 7 = false
      ∧ (sweeping (filling [7] [] (some 5) 127)).rx.state = .idle
      ∧ (sweeping (filling [7] [] (some 5) 127)).tx.request = none
      ∧ ((sweeping (filling [7] [] (some 5) 127)).elapse 0).tx.holdoff = 0 := by
  refine ⟨sweeping_filling _ _ _ _, ?_, ?_, ?_, rfl, rfl, rfl⟩
  all_goals decide +kernel

/-- A station RUNNING with the receiver in this state since tick 200, `now` ticks counted, and this transmitter. -/
def onLine (x : RxState) (now : Tick) (tx : Transmitter) : State :=
  { station .running with
    tb := { (station .running).tb with localTick := now, mode := .line },
    rx := { Receiver.reset with state := x, pulseStart := 200, origin := 200 }, tx := tx }

theorem test_meets_offers :
    (station .halted).ctl.state ≠ .running ∧ (onLine .idle 200 Transmitter.reset).ctl.state = .running
      ∧ ({ Transmitter.reset with request := some detectorCause } : Transmitter).request = some detectorCause
      ∧ Transmitter.reset.request = none ∧ Transmitter.reset.holdoff = 0
      ∧ 0 < ({ Transmitter.reset with holdoff := 1 } : Transmitter).holdoff
      ∧ (onLine .stuck 200 Transmitter.reset).rx.state ∈ [RxState.stuck, .recover]
      ∧ bitTime exampleStore ≤ (onLine .tagWindow 208 Transmitter.reset).sinceOrigin
      ∧ (onLine .tagWindow 207 Transmitter.reset).sinceOrigin < bitTime exampleStore
      ∧ OnlyOpen 2 openedRecord (withRecord openedRecord (onLine .tagWindow 207 Transmitter.reset))
      ∧ openedRecord.window = some .trigger ∧ NoneOpen (onLine .tagWindow 207 Transmitter.reset)
      ∧ OnlyOpen 2 { openedRecord with window := some (.retrigger 0) }
          (withRecord { openedRecord with window := some (.retrigger 0) } (onLine .tagWindow 207 Transmitter.reset))
      ∧ OnlyOpen 2 (placedRecord 8) (withRecord (placedRecord 8) (onLine .tagWindow 207 Transmitter.reset))
      ∧ (placedRecord 8).window = none := by
  refine ⟨by decide, rfl, rfl, rfl, rfl, by decide, by decide, by decide +kernel, by decide +kernel,
    onlyOpen_withRecord (by decide), rfl, noneOpen_of_reset rfl, onlyOpen_withRecord (by decide),
    onlyOpen_withRecord (by decide), rfl⟩

/-- A station whose TRIGIN unit watches, with this accepted level and run. -/
def watching (accepted : Option Bool) (run : Option TrigRun) : State :=
  { station .running with trig := { watching := true, accepted := accepted, run := run, timer := 0 } }

/-- A run of high samples. -/
def highRunOf (n : Nat) : TrigRun := { high := true, start := edgeAt100, count := n }

theorem test_meets_trigin :
    Active (watching none none) exampleStore ∧ (watching none none).trig.watching = true
      ∧ (watching none none).trig.run = none
      ∧ (watching none (some (highRunOf 1))).trig.run = some (highRunOf 1) ∧ (highRunOf 1).high = true
      ∧ (highRunOf 1).high ≠ false ∧ (highRunOf 1).count < 2 ∧ 2 ≤ (highRunOf 2).count
      ∧ (watching (some false) (some (highRunOf 2))).trig.accepted = some (!true)
      ∧ (watching none (some (highRunOf 2))).trig.accepted ≠ some (!true)
      ∧ edgeMatches exampleStore true = true ∧ edgeMatches exampleStore false = false := by
  refine ⟨⟨rfl, rfl⟩, rfl, rfl, rfl, rfl, ?_, ?_, ?_, rfl, ?_, ?_, ?_⟩
  all_goals decide +kernel

/-- A station in this receiver state whose filter has just seen two samples of this level, at this tick. -/
def agreedOn (high peersLow : Bool) (x : RxState) (now : Tick) (tx : Transmitter) : State :=
  { onLine x now tx with
    filter := { accepted := some (!high), last := some (agreedRun high), highRun := 0, sampled := true },
    pins := { Pins.reset with peersLow := peersLow } }

theorem test_meets_accepted_edges :
    Active (agreedOn false true .idle 101 Transmitter.reset) exampleStore
      ∧ ReceiverRuns (agreedOn false true .idle 101 Transmitter.reset)
      ∧ (agreedOn false true .idle 101 Transmitter.reset).lineLow = true
      ∧ Agreed false (agreedRun false) (agreedOn false true .idle 101 Transmitter.reset)
      ∧ (agreedOn false true .recover 101 Transmitter.reset).rx.state = .recover
      ∧ (agreedOn true false .stuck 101 Transmitter.reset).pins.peersLow = false
      ∧ (agreedOn true false .stuck 101 Transmitter.reset).tx.pulls = false
      ∧ Agreed true (agreedRun true) (agreedOn true false .stuck 101 Transmitter.reset)
      ∧ (agreedOn true false .stuck 101 Transmitter.reset).rx.state = .stuck :=
  ⟨⟨rfl, rfl⟩, by simp [ReceiverRuns, agreedOn, onLine, station], rfl, ⟨rfl, rfl, rfl, rfl⟩, rfl, rfl, rfl,
    ⟨rfl, rfl, rfl, rfl⟩, rfl⟩

/-- A pulse `w` ticks wide that ends now, with this capture and this transmitter. -/
def pulse (w : Nat) (capture : Option EdgeCapture) (tx : Transmitter) : State :=
  let s := agreedOn true false .low (BitVec.ofNat 32 (w + 1)) tx
  { s with
    rx := { s.rx with pulseStart := 0, capture := capture },
    filter := { s.filter with last := some { agreedRun true with start := { edgeAt100 with tick := BitVec.ofNat 32 w } } } }

/-- The run that ends that pulse. -/
def endRun (w : Nat) : LineRun := { agreedRun true with start := { edgeAt100 with tick := BitVec.ofNat 32 w } }

/-- The capture of that pulse's leading edge. -/
def pulseEdge : EdgeCapture := { edge := { edgeAt100 with tick := 0 }, epochHeld := false }

/-- A transmitter that has released a pulse of its own and holds this request. -/
def driven (isEpoch : Bool) (q : Option Cause) : Transmitter :=
  { Transmitter.reset with drive := some { isEpoch := isEpoch, begun := 0, pulling := false }, request := q }

theorem trailing_pulse (w : Nat) (capture : Option EdgeCapture) {tx : Transmitter} (h : tx.pulls = false) :
    TrailingEdgeNow exampleStore (endRun w) (pulse w capture tx) :=
  ⟨⟨rfl, rfl⟩, by simp [ReceiverRuns, pulse, agreedOn, onLine, station], rfl, h, rfl, ⟨rfl, rfl, rfl, rfl⟩⟩

theorem test_meets_glitch_and_malformed :
    TrailingEdgeNow exampleStore (endRun 11) (pulse 11 (some pulseEdge) Transmitter.reset)
      ∧ 2 * pulseWidth (endRun 11) (pulse 11 (some pulseEdge) Transmitter.reset) < 3 * bitTime exampleStore
      ∧ 5 * bitTime exampleStore < 2 * pulseWidth (endRun 21) (pulse 21 (some pulseEdge) Transmitter.reset)
      ∧ 2 * pulseWidth (endRun 39) (pulse 39 (some pulseEdge) Transmitter.reset) < 10 * bitTime exampleStore
      ∧ 14 * bitTime exampleStore < 2 * pulseWidth (endRun 57) (pulse 57 (some pulseEdge) Transmitter.reset)
      ∧ (pulse 16 none Transmitter.reset).rx.capture = none
      ∧ TrailingEdgeNow exampleStore (endRun 57) (pulse 57 none (driven false (some detectorCause)))
      ∧ TrailingEdgeNow exampleStore (endRun 57) (pulse 57 none (driven true none))
      ∧ (pulse 57 none (driven false (some detectorCause))).tx.request = some detectorCause
      ∧ detectorCause.retried = false ∧ ({ detectorCause with retried := true } : Cause).retried = true
      ∧ 0 ≤ ((pulse 57 none Transmitter.reset).tb.localTick - 0).toNat := by
  refine ⟨trailing_pulse _ _ rfl, ?_, ?_, ?_, ?_, rfl, trailing_pulse _ _ rfl, trailing_pulse _ _ rfl, rfl, rfl, rfl,
    Nat.zero_le _⟩
  all_goals decide +kernel

theorem test_meets_low_beyond_48T :
    TrailingEdgeNow exampleStore (endRun 385) (pulse 385 (some pulseEdge) Transmitter.reset)
      ∧ 48 * bitTime exampleStore < pulseWidth (endRun 385) (pulse 385 (some pulseEdge) Transmitter.reset)
      ∧ pulseWidth (endRun 384) (pulse 384 (some pulseEdge) Transmitter.reset) ≤ 48 * bitTime exampleStore := by
  refine ⟨trailing_pulse _ _ rfl, ?_, ?_⟩
  all_goals decide +kernel

/-- The receiver's state and line-error count after an outcome. -/
def receiverAfter : Host.Outcome State Fault Refusal → Option (RxState × Nat)
  | .next t => some (t.rx.state, t.rx.lineErrors)
  | .fault _ => none
  | .refused _ => none

theorem test_low_of_384_ticks_is_malformed_and_of_385_is_stuck :
    receiverAfter (exec (.trailingEdge 0) (pulse 384 (some pulseEdge) Transmitter.reset)) = some (.idle, 1)
      ∧ receiverAfter (exec (.trailingEdge 0) (pulse 385 (some pulseEdge) Transmitter.reset)) = some (.stuck, 0) := by
  decide +kernel

theorem test_meets_trigger_and_epoch_pulses :
    (pulse 12 (some pulseEdge) Transmitter.reset).rx.capture = some pulseEdge
      ∧ 3 * bitTime exampleStore ≤ 2 * pulseWidth (endRun 12) (pulse 12 (some pulseEdge) Transmitter.reset)
      ∧ 2 * pulseWidth (endRun 20) (pulse 20 (some pulseEdge) Transmitter.reset) ≤ 5 * bitTime exampleStore
      ∧ 10 * bitTime exampleStore ≤ 2 * pulseWidth (endRun 40) (pulse 40 (some pulseEdge) Transmitter.reset)
      ∧ 2 * pulseWidth (endRun 56) (pulse 56 (some pulseEdge) Transmitter.reset) ≤ 14 * bitTime exampleStore
      ∧ 1 ≤ bitTime exampleStore
      ∧ (driven false none).drive.any (fun d => !d.isEpoch) = true
      ∧ (driven true none).drive.any (fun d => !d.isEpoch) = false
      ∧ pulseEdge.epochHeld = false
      ∧ pulseEdge.edge.stamp.phase.toNat + lockWindow exampleStore < period exampleStore
      ∧ period exampleStore ≤ (9980 : BitVec 16).toNat + lockWindow exampleStore
      ∧ period exampleStore + lockWindow exampleStore < (10021 : BitVec 16).toNat := by decide +kernel

theorem test_meets_slots :
    Active (onLine .tagWindow 200 Transmitter.reset) exampleStore
      ∧ (onLine .tagWindow 200 Transmitter.reset).tb.prescale = some 5
      ∧ ReceiverRuns (onLine .tagWindow 200 Transmitter.reset)
      ∧ (onLine .tagWindow 200 Transmitter.reset).rx.state = .tagWindow
      ∧ (onLine .tagWindow 200 Transmitter.reset).rx.slotPos < 32
      ∧ ({ Receiver.reset with slotPos := 31 } : Receiver).slotPos < 32
      ∧ (onLine .tagWindow 200 Transmitter.reset).rx.slotsDone = false
      ∧ ({ Receiver.reset with slotPos := 31, slotsDone := true } : Receiver).slotsDone = true
      ∧ (onLine .numberWindow 200 Transmitter.reset).rx.state = .numberWindow
      ∧ ({ Receiver.reset with slotPos := 15 } : Receiver).slotPos < 16
      ∧ 2 ≤ bitTime exampleStore + 0 * bitTime exampleStore + bitTime exampleStore / 2
        - ((200 : Tick) - 200).toNat
      ∧ (onLine .numberWindow 200 Transmitter.reset).tx.pulls = false := by
  refine ⟨⟨rfl, rfl⟩, rfl, by simp [ReceiverRuns, onLine, station], rfl, ?_, ?_, rfl, rfl, rfl, ?_, ?_, rfl⟩
  all_goals decide +kernel

theorem test_meets_window_ends :
    Active (onLine .tagWindow 471 Transmitter.reset) exampleStore
      ∧ OnlyOpen 2 openedRecord (withRecord openedRecord (onLine .tagWindow 471 Transmitter.reset))
      ∧ openedRecord.window = some .trigger ∧ openedRecord.state = .collecting
      ∧ OnlyOpen 2 { openedRecord with state := .awaiting, window := some (.retrigger 0) }
          (withRecord { openedRecord with state := .awaiting, window := some (.retrigger 0) }
            (onLine .tagWindow 471 Transmitter.reset))
      ∧ NoneOpen (onLine .tagWindow 471 Transmitter.reset)
      ∧ OnlyOpen 2 (placedRecord 8) (withRecord (placedRecord 8) (onLine .tagWindow 471 Transmitter.reset))
      ∧ (placedRecord 8).window = none
      ∧ (onLine .numberWindow 343 Transmitter.reset).rx.state = .numberWindow
      ∧ (onLine .numberWindow 343 Transmitter.reset).ctl.state = .running
      ∧ ({ Timebase.reset with provisional := true, sync := .locked } : Timebase).provisional = true
      ∧ ({ Timebase.reset with provisional := true } : Timebase).sync = .seeking :=
  ⟨⟨rfl, rfl⟩, onlyOpen_withRecord (by decide), rfl, rfl, onlyOpen_withRecord (by decide), noneOpen_of_reset rfl,
    onlyOpen_withRecord (by decide), rfl, rfl, rfl, rfl, rfl⟩

/-- A low that has lasted beyond 48T, its latest sample low, with this transmitter. -/
def heldLow (tx : Transmitter) : State :=
  { agreedOn false true .low 585 tx with
    filter := { accepted := some false, last := some (agreedRun false), highRun := 0, sampled := true } }

theorem test_meets_stuck_declare :
    Active (heldLow Transmitter.reset) exampleStore ∧ ReceiverRuns (heldLow Transmitter.reset)
      ∧ (heldLow Transmitter.reset).rx.state = .low
      ∧ 48 * bitTime exampleStore + 1
          ≤ ((heldLow Transmitter.reset).tb.localTick - (heldLow Transmitter.reset).rx.pulseStart).toNat
      ∧ (heldLow Transmitter.reset).filter.sampled = true
      ∧ (heldLow Transmitter.reset).filter.accepted = some false
      ∧ (∀ r, (heldLow Transmitter.reset).filter.last = some r → r.high = false)
      ∧ (heldLow (driven false (some detectorCause))).tx.request = some detectorCause
      ∧ OnlyOpen 2 openedRecord (withRecord openedRecord (heldLow Transmitter.reset))
      ∧ NoneOpen (heldLow Transmitter.reset) := by
  refine ⟨⟨rfl, rfl⟩, by simp [ReceiverRuns, heldLow, agreedOn, onLine, station], rfl, by decide +kernel, rfl, rfl, ?_,
    rfl, onlyOpen_withRecord (by decide), noneOpen_of_reset rfl⟩
  intro r h
  cases h
  rfl

theorem test_meets_timers :
    Active (counting .line 0) exampleStore ∧ (counting .line 0).tb.prescale = some 5
      ∧ 0 < ({ Transmitter.reset with holdoff := 48 } : Transmitter).holdoff
      ∧ (counting .localScale 0).tb.mode = .localScale ∧ 1 ≤ period exampleStore
      ∧ (counting .line 0).ctl.state = .running ∧ (counting .line 0).tb.requestMade = false
      ∧ period exampleStore < 65536 ∧ (counting .line 10000).tb.phase.toNat ≤ period exampleStore
      ∧ ({ Scrubber.reset with walking := true, timer := 4 } : Scrubber).walking = true
      ∧ ({ Scrubber.reset with walking := true, timer := 4 } : Scrubber).request = false
      ∧ (counting .line 0).ctl.entry = .none := by
  refine ⟨⟨rfl, rfl⟩, rfl, by decide, rfl, ?_, rfl, rfl, ?_, ?_, rfl, rfl, rfl⟩
  all_goals decide +kernel

/-- A quiet line whose sample of this tick, high, has been taken or is still to come. -/
def quietSampled (taken : Bool) : State :=
  { quietLine .running .idle 16 with
    filter := { accepted := some true, last := some (agreedRun true), highRun := 16, sampled := taken } }

theorem test_drive_begun_after_the_sample_is_met_on_its_tick :
    (beginDrive (quietSampled true)).filter.last.any (fun r => !r.high && r.start.tick == 0) = true
      ∧ (beginDrive (quietSampled false)).filter = (quietSampled false).filter := by decide +kernel

theorem test_own_drive_measures_2T (taken : Bool) :
    let u := releaseDrive ((beginDrive (quietSampled taken)).elapse (2 * bitTime exampleStore))
    (u.filter.last.map (·.start.tick), (sampleLine u).filter.last.map (·.start.tick)) = (some 0, some 16) := by
  revert taken
  decide +kernel

/-- A number-bit duty that has bits 15 and 0 to drive. -/
def duty : BitDuty := { number := 0x8001, next := 1, driving := false }

theorem test_meets_drives :
    Active (quietLine .running .idle 16) exampleStore ∧ (quietLine .running .idle 16).tx.drive = none
      ∧ (quietLine .running .idle 16).filter.accepted = some true ∧ 2 * bitTime exampleStore ≤ 16
      ∧ ({ Transmitter.reset with epochHeld := true } : Transmitter).epochHeld = true
      ∧ ({ Transmitter.reset with request := some detectorCause } : Transmitter).request.isSome = true
      ∧ ({ isEpoch := true, begun := 0, pulling := true } : Drive).pulling = true
      ∧ (onLine .tagWindow 200 { Transmitter.reset with slotDuty := true }).sinceOrigin
          < 2 * bitTime exampleStore
            + (onLine .tagWindow 200 Transmitter.reset).ctl.stationId.toNat * bitTime exampleStore
      ∧ duty.next ≤ 15 ∧ duty.number.getLsbD (15 - 15) = true
      ∧ (∀ i, i < 15 → duty.next ≤ i → duty.number.getLsbD (15 - i) = false)
      ∧ (onLine .numberWindow 200 { Transmitter.reset with bitDuty := some duty }).sinceOrigin
          ≤ bitTime exampleStore + 15 * bitTime exampleStore
      ∧ bitTime exampleStore ≤ 64
      ∧ (onLine .numberWindow 200 { Transmitter.reset with bitDuty := some duty }).tb.prescale.isSome = true
      ∧ (onLine .numberWindow 200 { Transmitter.reset with bitDuty := some duty }).tx.bitDuty = some duty := by
  refine ⟨⟨rfl, rfl⟩, rfl, rfl, ?_, rfl, rfl, rfl, ?_, ?_, ?_, ?_, ?_, ?_, rfl, rfl⟩
  all_goals decide +kernel

theorem test_meets_codewords :
    addressParity 0 = addressParity 135166 ∧ addressParity 0 ≠ addressParity 135167 ∧ (135167 : Nat) < 135168
      ∧ (21 : Nat) < 22 ∧ (0 : Nat) ≠ 21 := by decide +kernel

/-- A station whose memory unit is this one. -/
def withMemory (m : Integrity) : State := { filling [7] [4] (some 6) 3 with mem := m }

theorem test_meets_prefetch_read :
    Active (withMemory { Integrity.reset with prefetch := some lastWord }) exampleStore
      ∧ (withMemory { Integrity.reset with prefetch := some lastWord }).mem.prefetch = some lastWord
      ∧ 1 ≤ lastWord.remaining ∧ lastWord.presented = true
      ∧ decodeWord 3071 (readArray [] 3071) = .clean 0x8000
      ∧ decodeWord 3071 (readArray (writeArray [] 3071 (fillWord 3071 ^^^ 1)) 3071) = .correctable 0 0x8000
      ∧ decodeWord 3071 (readArray (writeArray [] 3071 (fillWord 3071 ^^^ 3)) 3071) = .uncorrectable 0x8003 := by
  refine ⟨⟨rfl, rfl⟩, rfl, ?_, rfl, ?_, ?_, ?_⟩
  all_goals decide +kernel

/-- A memory unit whose scrubber presents a request at this segment. -/
def scrubbing (g : SegNo) : Integrity :=
  { Integrity.reset with scrub := { walking := true, seg := g, offset := 511, timer := 0, request := true } }

theorem test_meets_scrub_read :
    Active (withMemory (scrubbing 4)) exampleStore ∧ (withMemory (scrubbing 4)).mem.scrub.walking = true
      ∧ (withMemory (scrubbing 4)).mem.scrub.request = true ∧ (withMemory (scrubbing 4)).mem.buffer = none
      ∧ (∀ p, (withMemory (scrubbing 4)).mem.prefetch = some p → p.presented = false)
      ∧ ¬ ((4 : SegNo) ∈ (withMemory (scrubbing 4)).pool.free ∨ (4 : SegNo) ∈ (withMemory (scrubbing 4)).pool.withdrawn
          ∨ (withMemory (scrubbing 4)).writer.current = some 4)
      ∧ (∀ m : Nat, m < 2 → let g := (6 : SegNo) + Fin.ofNat 256 m
          g ∈ (withMemory (scrubbing 6)).pool.free ∨ g ∈ (withMemory (scrubbing 6)).pool.withdrawn
            ∨ (withMemory (scrubbing 6)).writer.current = some g)
      ∧ ¬ ((6 : SegNo) + Fin.ofNat 256 2 ∈ (withMemory (scrubbing 6)).pool.free
          ∨ (6 : SegNo) + Fin.ofNat 256 2 ∈ (withMemory (scrubbing 6)).pool.withdrawn
          ∨ (withMemory (scrubbing 6)).writer.current = some ((6 : SegNo) + Fin.ofNat 256 2))
      ∧ ∀ g, g ∈ State.reset.pool.free := by
  refine ⟨⟨rfl, rfl⟩, rfl, rfl, rfl, fun p h => (by cases h), ?_, ?_, ?_, mem_allSegments⟩
  all_goals decide +kernel

/-- A write-back entry for word 0 of segment 4, at this generation. -/
def entryFor (generation : BitVec 8) : WriteBackEntry :=
  { address := 2048, word := 7, seg := 4, generation := generation }

theorem test_meets_write_back :
    Active (withMemory { Integrity.reset with buffer := some (entryFor 0) }) exampleStore
      ∧ (withMemory { Integrity.reset with buffer := some (entryFor 0) }).mem.buffer = some (entryFor 0)
      ∧ (∀ p, Integrity.reset.prefetch = some p → p.presented = false)
      ∧ ((withMemory Integrity.reset).header 4).generation = (entryFor 0).generation
      ∧ (4 : SegNo) ∈ (withMemory Integrity.reset).pool.history
      ∧ ((withMemory Integrity.reset).header 4).generation ≠ (entryFor 1).generation
      ∧ Integrity.reset.array.wf = true ∧ (entryFor 0).address < 135168 := by
  refine ⟨⟨rfl, rfl⟩, rfl, fun p h => (by cases h), ?_, ?_, ?_, rfl, ?_⟩
  all_goals decide +kernel

end Sys2Proof.Tests
end

section
/-! Each row of the machine, and the clock of an empty queue, keeps every segment in its one place (R3, R7, R29, R42).
The shared operations keep them by the lemmas of Laws/Placed; here they are put together row by row. -/

namespace Sys2Proof.Machine

/-! ### Rows by their form -/

/-- Every next state that an outcome answers meets `Placed`. -/
def AnswersPlaced (o : Host.Outcome State Fault Refusal) : Prop := ∀ t, o = .next t → Placed t

theorem answersPlaced_next {t : State} (h : Placed t) : AnswersPlaced (.next t) := by
  rintro _ ⟨⟩
  exact h

/-- A row that needs a configuration. -/
theorem configuredRow_placed {s : State} {f : ConfigStore → State} (hf : ∀ c, Placed (f c)) (h : Placed s) :
    AnswersPlaced (.next (whenConfigured s f)) :=
  answersPlaced_next (wc_placed hf h)

/-- A row of the clock, run at its time. -/
theorem clockRow_placed {s : State} {due : ConfigStore → Option Nat} {f : ConfigStore → State → State}
    (hf : ∀ c u, Placed u → Placed (f c u)) (h : Placed s) :
    AnswersPlaced (.next (whenConfigured s (fun c => atTime (due c) (f c) s))) :=
  configuredRow_placed (fun c => at_placed (hf c) h) h

/-- A row of the clock that holds pins, giving `u`, only where it can come about. -/
theorem pinnedRow_placed {s u : State} {due : ConfigStore → Option Nat} {f : ConfigStore → State → State}
    (hf : ∀ c v, Placed v → Placed (f c v)) (h : Placed s) (hu : Placed u) :
    AnswersPlaced (.next (whenConfigured s (fun c => if (due c).isSome then atTime (due c) (f c) u else s))) := by
  refine configuredRow_placed (fun c => ?_) h
  split
  · exact at_placed (hf c) hu
  · exact h

/-- A host command whose effect keeps the places. -/
theorem hostRow_placed {code : Byte} {args : List Byte} {f : State → State × List Byte} {s : State}
    (hf : Placed (f s).1) (h : Placed s) : AnswersPlaced (.next (hostCommand code args f s)) :=
  answersPlaced_next (host_placed hf h)

/-! ### Host commands -/

/-- R186: an accepted block moves no segment; the station is CONFIGURED, where the writer was IDLE before. -/
theorem acceptBlock_placed {vals : List (BitVec 16)} {s : State} (h : Placed s) (h1 : s.ctl.state ≠ .listen)
    (h2 : s.ctl.state ≠ .running) : Placed (acceptBlock vals s) := by
  unfold acceptBlock
  refine setStation_placed (handLevel_placed (placed_frame (s := s) rfl rfl rfl rfl h)) (fun _ _ => Or.inl ?_)
  simpa using ⟨h1, h2⟩

theorem configureWith_placed {args : List Byte} {s : State} (h : Placed s) : Placed (configureWith args s).1 := by
  unfold configureWith
  split
  next hst =>
    dsimp only
    split
    · exact h
    · exact acceptBlock_placed h (by rcases hst with e | e <;> simp [e]) (by rcases hst with e | e <;> simp [e])
  next => exact h

theorem execConfigure_placed {block : List Byte} {s : State} (h : Placed s) :
    AnswersPlaced (execConfigure block s) := by
  refine answersPlaced_next ?_
  split
  · exact h
  · exact host_placed (configureWith_placed h) h

/-- R189, R192: START enters INIT, or LISTEN from HALTED; the writer was IDLE in both. -/
theorem startWith_placed {s : State} (h : Placed s) : Placed (startWith s).1 := by
  unfold startWith
  split
  next hst _ =>
    exact setStation_placed (placed_frame (s := s) rfl rfl rfl rfl h) (fun _ _ => Or.inl (by simp [hst]))
  next hst _ =>
    split
    · exact enterListen_placed h (by simp [hst]) (by simp [hst])
    · exact h
  next => exact h

/-- R191, R15: STOP returns the pool, closes the open record and leaves the writer IDLE. -/
theorem enterHalted_placed {c : ConfigStore} {s : State} (h : Placed s) : Placed (enterHalted c s) := by
  unfold enterHalted
  refine setStation_placed ?_ (fun _ _ => Or.inr (by simp [disableRequesters, returnPool]))
  exact ended_placed (c := c) (b := true) h _ rfl rfl rfl

theorem stopWith_placed {s : State} (h : Placed s) : Placed (stopWith s).1 := by
  unfold stopWith
  repeat' split
  · exact enterHalted_placed h
  · exact h
  · exact h

theorem readRecordWith_placed {slot : Byte} {s : State} (h : Placed s) : Placed (readRecordWith slot s).1 := by
  refine withSlot_placed (fun i r _ => ?_) h
  cases r <;> exact h

theorem readDataWith_placed {slot index : Byte} {offset count : BitVec 16} {s : State} (h : Placed s) :
    Placed (readDataWith slot index offset count s).1 := by
  refine withSlot_placed (fun i r _ => ?_) h
  repeat' split
  · exact h
  · exact h
  · exact h
  · exact placed_frame (s := s) rfl rfl rfl rfl h

/-- R72: RELEASE returns the chain of a CLOSED record alone. -/
theorem releaseWith_placed {slot : Byte} {s : State} (h : Placed s) : Placed (releaseWith slot s).1 := by
  refine withSlot_placed (fun i r hi => ?_) h
  split
  next => exact h
  next r =>
    split
    next => exact h
    next hr => exact releaseRecord_placed h hi (by simpa using hr)

theorem softTriggerWith_placed {s : State} (h : Placed s) : Placed (softTriggerWith s).1 := by
  unfold softTriggerWith
  repeat' split
  · exact offer_placed h
  · exact h
  · exact h

theorem peekLogWith_placed {s : State} (h : Placed s) : Placed (peekLogWith s).1 := by
  unfold peekLogWith
  split <;> exact h

theorem takeLogWith_placed {s : State} (h : Placed s) : Placed (takeLogWith s).1 := by
  unfold takeLogWith
  split
  · exact h
  · exact placed_frame (s := s) (by simp [answer]) (by simp [answer]) (by simp [answer]) (by simp [answer]) h

theorem nextEventWith_placed {s : State} (h : Placed s) : Placed (nextEventWith s).1 := by
  unfold nextEventWith
  split
  · exact h
  · exact placed_frame (s := s) rfl rfl rfl rfl h

theorem setMaskWith_placed {level : Byte} {s : State} (h : Placed s) : Placed (setMaskWith level s).1 := by
  unfold setMaskWith
  split
  · exact placed_frame (s := s) rfl rfl rfl rfl h
  · exact h

theorem execBadCommand_placed {code : Byte} {s : State} (h : Placed s) : AnswersPlaced (execBadCommand code s) := by
  refine answersPlaced_next ?_
  split
  · exact h
  · exact host_placed h h

theorem execCsnFall_placed {s : State} (h : Placed s) : AnswersPlaced (execCsnFall s) := by
  refine answersPlaced_next ?_
  repeat' split
  · exact h
  · exact placed_frame (s := s) rfl rfl rfl rfl h
  · exact placed_frame (s := s) rfl rfl rfl rfl h

theorem execCsnRise_placed {s : State} (h : Placed s) : AnswersPlaced (execCsnRise s) := by
  refine answersPlaced_next ?_
  split
  · exact placed_frame (s := s) rfl rfl rfl rfl h
  · exact h

/-! ### The station controller -/

/-- R187, R188: a mismatch enters FAULT; the changed store moves no segment. -/
theorem execParityMismatch_placed {field : StoredField} {upset : BitVec 16} {s : State} (h : Placed s) :
    AnswersPlaced (execParityMismatch field upset s) := by
  refine configuredRow_placed (fun c => ?_) h
  dsimp only
  split
  · exact enterFault_placed (handLevel_placed (placed_frame (s := s) rfl rfl rfl rfl h))
  · exact h

/-- A fill ends in INIT alone (R137). -/
theorem state_of_fillDue {s : State} {wait : Nat} (h : fillDue s = some wait) : s.ctl.state = .init := by
  unfold fillDue at h
  split at h
  next hst _ _ => exact hst
  next => cases h

/-- R137, R189, R30: the fill's end enters LISTEN from INIT, where the writer was IDLE. -/
theorem execFillComplete_placed {s : State} (h : Placed s) : AnswersPlaced (execFillComplete s) := by
  refine configuredRow_placed (fun c => ?_) h
  unfold atTime
  split
  next => exact h
  next wait hdue =>
    have hst := state_of_fillDue hdue
    exact enterListen_placed (placed_frame (s := s.elapse wait) rfl rfl rfl rfl (elapse_placed h))
      (by simp [hst]) (by simp [hst])

/-! ### Acquisition -/

theorem bankFrame_placed {c : ConfigStore} {stamp : Timestamp} {words : List Word} {s : State} (h : Placed s) :
    Placed (bankFrame c stamp words s) := by
  have judged : Placed { s with dets := judgeAll c words s.dets } := placed_frame (s := s) rfl rfl rfl rfl h
  unfold bankFrame
  dsimp only
  split
  · exact judged
  · exact offer_placed judged

theorem finishSweep_placed {c : ConfigStore} {s : State} (h : Placed s) : Placed (finishSweep c s) := by
  unfold finishSweep
  split
  · exact h
  · exact bankFrame_placed (writerFrame_placed (placed_frame (s := s) rfl rfl rfl rfl h))

theorem acceptTrigIn_placed {c : ConfigStore} {high : Bool} {start : Timestamp} {s : State} (h : Placed s) :
    Placed (acceptTrigIn c high start s) := by
  unfold acceptTrigIn
  dsimp only
  split
  · exact offer_placed (placed_frame (s := s) rfl rfl rfl rfl h)
  · exact placed_frame (s := s) rfl rfl rfl rfl h

theorem sampleTrigIn_placed {c : ConfigStore} {high : Bool} {s : State} (h : Placed s) :
    Placed (sampleTrigIn c high s) := by
  unfold sampleTrigIn
  dsimp only
  split
  · exact acceptTrigIn_placed (placed_frame (s := s) rfl rfl rfl rfl h)
  · exact placed_frame (s := s) rfl rfl rfl rfl h

/-! ### The line receiver -/

theorem takeLeadingEdge_placed {s : State} (h : Placed s) : Placed (takeLeadingEdge s) := by
  unfold takeLeadingEdge
  split
  · exact h
  · exact setRx_placed (placed_frame (s := acceptLevel s) rfl rfl rfl rfl (accept_placed h))

theorem execLeadingEdge_placed {s : State} (h : Placed s) : AnswersPlaced (execLeadingEdge s) := by
  refine configuredRow_placed (fun _ => ?_) h
  split
  · exact takeLeadingEdge_placed (settle_placed (pull_placed h))
  · exact h

/-- The line held low, or left alone, while ticks pass. -/
theorem lowUntil_placed {wait : Nat} {s : State} (h : Placed s) :
    Placed ((if wait = 0 then s else pullLine s).elapse wait) := by
  refine elapse_placed ?_
  split
  · exact h
  · exact pull_placed h

theorem takeTrailingEdge_placed {c : ConfigStore} {s : State} (h : Placed s) : Placed (takeTrailingEdge c s) := by
  unfold takeTrailingEdge
  split
  · exact h
  · exact classify_placed (accept_placed h)

theorem execTrailingEdge_placed {width : Nat} {s : State} (h : Placed s) :
    AnswersPlaced (execTrailingEdge width s) := by
  refine configuredRow_placed (fun c => ?_) h
  split
  next =>
    have lowered : ∀ n : Nat, Placed (if n = 0 then s else (pullLine s).elapse n) := by
      intro n
      split
      · exact h
      · exact elapse_placed (pull_placed h)
    have ended := settle_placed (b := true) (hold_placed (b := false)
      (lowered (width - ticksSince s.tb.localTick s.rx.pulseStart)))
    dsimp only
    generalize settle true _ = u at ended ⊢
    repeat' split
    · exact declareStuck_placed (sample_placed (lowUntil_placed h))
    · exact takeTrailingEdge_placed ended
    · exact h
  next => exact h

theorem judgeStuck_placed {c : ConfigStore} {s : State} (h : Placed s) : Placed (judgeStuck c s) := by
  unfold judgeStuck
  dsimp only
  split
  · exact sample_placed h
  · exact declareStuck_placed (sample_placed h)

theorem execLineStuckDeclare_placed {s : State} (h : Placed s) : AnswersPlaced (execLineStuckDeclare s) := by
  refine configuredRow_placed (fun c => ?_) h
  split
  · exact h
  · exact judgeStuck_placed (lowUntil_placed h)

theorem execStuckRelease_placed {s : State} (h : Placed s) : AnswersPlaced (execStuckRelease s) := by
  refine configuredRow_placed (fun _ => ?_) h
  split
  · exact setRx_placed (accept_placed (settle_placed (hold_placed h)))
  · exact h

theorem awaitHigh_placed {s : State} (h : Placed s) : Placed (awaitHigh s) := by
  unfold awaitHigh
  split
  · exact h
  · exact accept_placed (settle_placed (hold_placed h))

/-- R190: RUNNING entry moves no segment. -/
theorem enterRunning_placed {c : ConfigStore} {s : State} (h : Placed s) : Placed (enterRunning c s) :=
  setStation_placed (placed_frame (s := s) rfl rfl rfl rfl h) (fun _ hr => absurd rfl hr)

theorem finishRecover_placed {c : ConfigStore} {s : State} (h : Placed s) : Placed (finishRecover c s) := by
  unfold finishRecover
  dsimp only
  split
  · exact enterRunning_placed (setRx_placed h)
  · exact setRx_placed h

theorem execRecoverComplete_placed {s : State} (h : Placed s) : AnswersPlaced (execRecoverComplete s) := by
  refine configuredRow_placed (fun c => ?_) h
  dsimp only
  repeat' split
  · exact h
  · exact finishRecover_placed (elapse_placed (rel_placed (awaitHigh_placed h)))
  · exact h

theorem execRecoverCountRestart_placed {s : State} (h : Placed s) : AnswersPlaced (execRecoverCountRestart s) := by
  refine configuredRow_placed (fun _ => ?_) h
  split
  · exact hold_placed (accept_placed (settle_placed (pull_placed h)))
  · exact h

theorem sampleTagSlot_placed {s : State} (h : Placed s) : Placed (sampleTagSlot s) :=
  placed_frame (s := s) rfl rfl rfl rfl h

theorem sampleNumberSlot_placed {s : State} (h : Placed s) : Placed (sampleNumberSlot s) :=
  placed_frame (s := s) rfl rfl rfl rfl h

/-- A window that ends with the line low opens a pulse; one that ends with it high leaves the receiver IDLE. -/
theorem windowClosed_placed {low : Bool} {s : State} (h : Placed s) :
    Placed (if low then cutShort s else setRx .idle { s with rx := { s.rx with capture := none } }) := by
  split
  · exact placed_frame (by simp) (by simp) (by simp) (by simp) h
  · exact setRx_placed (placed_frame (s := s) rfl rfl rfl rfl h)

theorem endTagWindow_placed {c : ConfigStore} {s : State} (h : Placed s) : Placed (endTagWindow c s) :=
  windowClosed_placed (placed_parts (windowResult_placed h) _ rfl rfl rfl rfl rfl)

theorem endNumberWindow_placed {s : State} (h : Placed s) : Placed (endNumberWindow s) :=
  placed_frame (by simp) (by simp) (by simp) (by simp) h

/-! ### The line transmitter -/

theorem execDriveStart_placed {s : State} (h : Placed s) : AnswersPlaced (execDriveStart s) := by
  refine configuredRow_placed (fun c => ?_) h
  split
  next => exact h
  next wait _ =>
    have waited := elapse_placed (n := wait) (rel_placed (n := wait) h)
    exact placed_frame (s := (releaseWhile wait s).elapse wait) rfl rfl rfl rfl waited

theorem driveNumberBit_placed {c : ConfigStore} {s : State} (h : Placed s) : Placed (driveNumberBit c s) := by
  unfold driveNumberBit
  repeat' split
  · exact h
  · exact h
  · exact placed_frame (s := s) rfl rfl rfl rfl h

/-! ### The memory port -/

theorem execPrefetchRead_placed {s : State} (h : Placed s) : AnswersPlaced (execPrefetchRead s) := by
  refine configuredRow_placed (fun c => ?_) h
  repeat' split
  · exact h
  · exact placed_parts (readWord_placed h) _ rfl rfl rfl rfl rfl
  · exact h

theorem scrubGrant_placed {c : ConfigStore} {s : State} (h : Placed s) : Placed (scrubGrant c s) := by
  unfold scrubGrant
  dsimp only
  split
  · exact placed_parts h _ rfl rfl rfl rfl rfl
  · exact placed_parts (readWord_placed h) _ rfl rfl rfl rfl rfl

theorem execScrubRead_placed {s : State} (h : Placed s) : AnswersPlaced (execScrubRead s) := by
  refine configuredRow_placed (fun c => ?_) h
  split
  · exact scrubGrant_placed h
  · exact h

theorem execWriteBack_placed {s : State} (h : Placed s) : AnswersPlaced (execWriteBack s) := by
  refine configuredRow_placed (fun _ => ?_) h
  repeat' split
  · exact h
  · exact placed_frame (s := s) rfl rfl rfl rfl h
  · exact h

/-! ### Every row, and the clock -/

/-- R3: every row keeps each segment in its one place. -/
theorem exec_placed (i : Instr) {s : State} (h : Placed s) : AnswersPlaced (exec i s) := by
  cases i with
  | status => exact hostRow_placed h h
  | configure block => exact execConfigure_placed h
  | start => exact hostRow_placed (startWith_placed h) h
  | stop => exact hostRow_placed (stopWith_placed h) h
  | reset => exact hostRow_placed (softReset_placed h) h
  | listRecords => exact hostRow_placed h h
  | readRecord slot => exact hostRow_placed (readRecordWith_placed h) h
  | readData slot chainIndex offset count => exact hostRow_placed (readDataWith_placed h) h
  | release slot => exact hostRow_placed (releaseWith_placed h) h
  | softTrigger => exact hostRow_placed (softTriggerWith_placed h) h
  | peekLog => exact hostRow_placed (peekLogWith_placed h) h
  | takeLog => exact hostRow_placed (takeLogWith_placed h) h
  | readErrorCount => exact hostRow_placed (placed_parts h _ rfl rfl rfl rfl rfl) h
  | readRemap => exact hostRow_placed h h
  | nextEvent => exact hostRow_placed (nextEventWith_placed h) h
  | setMask level => exact hostRow_placed (setMaskWith_placed h) h
  | badCommand code => exact execBadCommand_placed h
  | csnRise => exact execCsnRise_placed h
  | powerOnReset straps => exact answersPlaced_next (powerOn_placed _ _ _)
  | pinReset straps => exact answersPlaced_next (powerOn_placed _ _ _)
  | parityMismatch field upset => exact execParityMismatch_placed h
  | fillComplete => exact execFillComplete_placed h
  | sweepStart => exact clockRow_placed (fun _ u hu => placed_frame (s := u) rfl rfl rfl rfl hu) h
  | frameComplete inputs => exact pinnedRow_placed (fun _ _ => finishSweep_placed) h (holdInputs_placed h)
  | trigInSample high => exact clockRow_placed (fun _ _ => sampleTrigIn_placed) h
  | leadingEdge => exact execLeadingEdge_placed h
  | trailingEdge width => exact execTrailingEdge_placed h
  | tagSlotSample peersLow =>
    exact pinnedRow_placed (f := fun _ => sampleTagSlot) (fun _ _ => sampleTagSlot_placed) h (hold_placed h)
  | tagWindowEnd peersLow => exact pinnedRow_placed (fun _ _ => endTagWindow_placed) h (hold_placed h)
  | holdoffExpire => exact clockRow_placed (f := fun _ => id) (fun _ _ hu => hu) h
  | numberSlotSample peersLow =>
    exact pinnedRow_placed (f := fun _ => sampleNumberSlot) (fun _ _ => sampleNumberSlot_placed) h (hold_placed h)
  | numberWindowEnd peersLow =>
    exact pinnedRow_placed (f := fun _ => endNumberWindow) (fun _ _ => endNumberWindow_placed) h (hold_placed h)
  | lineStuckDeclare => exact execLineStuckDeclare_placed h
  | stuckRelease => exact execStuckRelease_placed h
  | recoverComplete => exact execRecoverComplete_placed h
  | driveStart => exact execDriveStart_placed h
  | driveEnd =>
    exact clockRow_placed (f := fun _ => releaseDrive) (fun _ u hu => placed_frame (s := u) rfl rfl rfl rfl hu) h
  | slotDutyDrive => exact clockRow_placed (fun _ u hu => placed_frame (s := u) rfl rfl rfl rfl hu) h
  | numberBitDrive => exact clockRow_placed (fun _ _ => driveNumberBit_placed) h
  | epochRequest =>
    exact clockRow_placed (f := fun _ => makeEpochRequest) (fun _ u hu => placed_frame (s := u) rfl rfl rfl rfl hu) h
  | localEpoch => exact clockRow_placed (f := fun _ => id) (fun _ _ hu => hu) h
  | prefetchRead => exact execPrefetchRead_placed h
  | scrubRequest =>
    exact clockRow_placed (f := fun _ => presentScrub) (fun _ u hu => placed_frame (s := u) rfl rfl rfl rfl hu) h
  | scrubRead => exact execScrubRead_placed h
  | writeBack => exact execWriteBack_placed h
  | csnFall => exact execCsnFall_placed h
  | rstnLow => exact answersPlaced_next (powerOn_placed _ _ _)
  | recoverCountRestart => exact execRecoverCountRestart_placed h

/-- The counting of a tick leaves the station's state. -/
theorem countTick_state (s : State) : (countTick s).ctl.state = s.ctl.state := by
  unfold countTick
  split <;> rfl

theorem timePasses_placed {s : State} (h : Placed s) : Placed (timePasses s) := by
  unfold timePasses
  repeat' split
  · exact placed_frame (s := sampleLine s) rfl rfl rfl rfl (sample_placed h)
  · exact placed_frame (by simp) (by simp) (by simp) (countTick_state s) h
  · exact h

/-- A step on an empty queue moves no segment: a row joins the queue, a bit is clocked in, or time passes. -/
theorem idle_placed {s : State} (h : Placed s) : Placed (idle s) := by
  unfold idle
  repeat' split
  · exact placed_frame (s := s) rfl rfl rfl rfl h
  · exact clockBit_placed _ _ (placed_frame (s := s) rfl rfl rfl rfl h)
  · exact timePasses_placed h

/-- Settles O7: the front command's row or the clock keeps the places. -/
theorem everySegmentStandsInOnePlace : Obligations.EverySegmentStandsInOnePlace := by
  intro s t h e
  unfold step at e
  split at e
  next c rest _ =>
    have queued : Placed { s with pending := rest } := placed_frame (s := s) rfl rfl rfl rfl h
    exact exec_placed c queued t e
  next => exact answersPlaced_next (idle_placed h) t e

end Sys2Proof.Machine
end

section
/-! The writer's take claim (R8, R36, R164) as equations: the free list's head, then history through the retirement
check, then OVERRUN. -/

namespace Sys2Proof.Machine

open Sys2Proof.Claims

/-- R161: the spare found is the lowest-numbered UNUSED one. -/
theorem lowestUnused_eq_some {sp : Vector SpareState 8} {j : SpareNo} (hj : sp.get j = .unused)
    (hlow : ∀ i : SpareNo, i < j → sp.get i ≠ .unused) : lowestUnused sp = some j := by
  unfold lowestUnused
  rw [List.find?_eq_some_iff_getElem]
  refine ⟨by simp [hj], j.val, by simp, by simp, fun k hk => ?_⟩
  simpa using hlow ⟨k, by omega⟩ hk

theorem lowestUnused_eq_none {sp : Vector SpareState 8} (h : ∀ j : SpareNo, sp.get j ≠ .unused) :
    lowestUnused sp = none := by
  unfold lowestUnused
  rw [List.find?_eq_none]
  intro j _
  simpa using h j

/-- R160, R161: the check of a retire-pending segment while a spare is UNUSED. -/
theorem retireCheck_retired {g : SegNo} {j : SpareNo} {s : State} (hp : (s.header g).retirePending = true)
    (hj : s.ret.spares.get j = .unused) (hlow : ∀ i : SpareNo, i < j → s.ret.spares.get i ≠ .unused) :
    retireCheck g s = (retireTo g j s, true) := by
  unfold retireCheck
  rw [if_pos hp, lowestUnused_eq_some hj hlow]

/-- R160, R163: the check of a retire-pending segment with no spare UNUSED. -/
theorem retireCheck_withdrawn {g : SegNo} {s : State} (hp : (s.header g).retirePending = true)
    (hn : ∀ j : SpareNo, s.ret.spares.get j ≠ .unused) : retireCheck g s = (withdraw g s, false) := by
  unfold retireCheck
  rw [if_pos hp, lowestUnused_eq_none hn]

/-- R161: what retirement makes of the segment's header. -/
theorem retireTo_header (g : SegNo) (j : SpareNo) (s : State) :
    (retireTo g j s).header g = { s.header g with home := .spare j, tally := 0, retirePending := false } := by
  unfold retireTo
  rw [header_setHeader, if_pos rfl]

theorem retireTo_history (g : SegNo) (j : SpareNo) (s : State) :
    (retireTo g j s).pool.history = s.pool.history := rfl

/-- R8: with the free list empty the claim goes through the history chain. -/
theorem writerTake_free_empty {s : State} (h : s.pool.free = []) :
    writerTake s = takeHistory s.pool.history s := by
  unfold writerTake popFree
  rw [h]

/-- R8, R164: the oldest history segment passes the check and is taken. -/
theorem writerTake_passed {s u : State} {g : SegNo} {rest : List SegNo} (hf : s.pool.free = [])
    (hh : s.pool.history = g :: rest) (hc : retireCheck g (setHistory rest s) = (u, true)) :
    writerTake s = beginSegment g (takeHeader g u) := by
  rw [writerTake_free_empty hf, hh, takeHistory, hc]
  rfl

/-- R164: the oldest history segment is withdrawn and the claim goes on. -/
theorem writerTake_goes_on {s : State} {g : SegNo} {rest : List SegNo} (hf : s.pool.free = [])
    (hh : s.pool.history = g :: rest)
    (hc : retireCheck g (setHistory rest s) = (withdraw g (setHistory rest s), false)) :
    writerTake s = writerTake (withdraw g (setHistory rest s)) := by
  have hf' : (withdraw g (setHistory rest s)).pool.free = [] := hf
  rw [writerTake_free_empty hf, hh, takeHistory, hc, writerTake_free_empty hf']
  rfl

/-- R30: a segment taken and begun: the writer fills it from position 0. -/
theorem begun_writer {g : SegNo} {s u : State} (hw : u.writer = s.writer) :
    (beginSegment g (takeHeader g u)).writer = fillingFrom g s := by
  simp [hw, fillingFrom]

/-- R5: a segment taken and begun: its own header raised and cleared, the others as before. -/
theorem begun_header (g a : SegNo) (u : State) :
    (beginSegment g (takeHeader g u)).header a = if g = a then takenHeader (u.header g) else u.header a := by
  have hb : (beginSegment g (takeHeader g u)).header a = (takeHeader g u).header a := by simp [State.header]
  rw [hb]
  exact header_setHeader g a _ u

/-- R4, R5: a segment taken and begun leaves the pool's lists as the check left them. -/
theorem begun_lists (g : SegNo) (u : State) :
    (beginSegment g (takeHeader g u)).pool.free = u.pool.free
    ∧ (beginSegment g (takeHeader g u)).pool.history = u.pool.history := by
  rw [(beginSegment_frame g _).2.2.2.1]
  exact ⟨rfl, rfl⟩

/-- R8 step 1: the head of the free list. -/
theorem writerTake_tookHead (s : State) : TookHead s (writerTake s) := by
  intro g rest hf
  obtain ⟨ev, he, _⟩ := writerTake_head hf
  rw [he]
  refine ⟨rfl, rfl, rfl, ?_, fun a ha => ?_⟩
  · exact (get_set _ _ _ _).trans (if_pos rfl)
  · exact (get_set _ _ _ _).trans (if_neg ha.symm)

/-- R8 step 2: the oldest history segment, its flag clear. -/
theorem writerTake_history_clear {s : State} {g : SegNo} {rest : List SegNo} (hf : s.pool.free = [])
    (hh : s.pool.history = g :: rest) (hp : (s.header g).retirePending = false) :
    (writerTake s).writer = fillingFrom g s ∧ (writerTake s).pool.history = rest ∧ (writerTake s).pool.free = []
    ∧ (writerTake s).header g = takenHeader (s.header g)
    ∧ (∀ a, a ≠ g → (writerTake s).header a = s.header a) ∧ (writerTake s).ret = s.ret := by
  rw [writerTake_passed hf hh (retireCheck_clear (s := setHistory rest s) hp)]
  obtain ⟨hfree, hhist⟩ := begun_lists g (setHistory rest s)
  refine ⟨begun_writer rfl, hhist, hfree.trans hf, ?_, fun a ha => ?_, by simp⟩
  · rw [begun_header, if_pos rfl]
    rfl
  · rw [begun_header, if_neg ha.symm]
    rfl

/-- R164: the oldest history segment, retired on its way to the writer. -/
theorem writerTake_history_retired {s : State} {g : SegNo} {rest : List SegNo} {j : SpareNo} (hf : s.pool.free = [])
    (hh : s.pool.history = g :: rest) (hp : (s.header g).retirePending = true) (hj : s.ret.spares.get j = .unused)
    (hlow : ∀ i : SpareNo, i < j → s.ret.spares.get i ≠ .unused) :
    (writerTake s).writer = fillingFrom g s ∧ (writerTake s).pool.history = rest
    ∧ (writerTake s).header g
        = takenHeader { s.header g with home := .spare j, tally := 0, retirePending := false } := by
  rw [writerTake_passed hf hh (retireCheck_retired (s := setHistory rest s) hp hj hlow)]
  obtain ⟨_, hhist⟩ := begun_lists g (retireTo g j (setHistory rest s))
  refine ⟨begun_writer (by simp), hhist.trans (retireTo_history _ _ _), ?_⟩
  rw [begun_header, if_pos rfl, retireTo_header]
  rfl

/-- Settles O34: one case per step of R8. -/
theorem writerTakeIsServedFromFreeListThenHistory : Obligations.WriterTakeIsServedFromFreeListThenHistory := by
  intro s
  refine ⟨writerTake_tookHead s, fun g rest hf hh => ⟨?_, ?_, ?_⟩, fun hf hh => ?_⟩
  · exact writerTake_history_clear hf hh
  · exact fun j => writerTake_history_retired hf hh
  · exact fun hp hn => writerTake_goes_on hf hh (retireCheck_withdrawn (s := setHistory rest s) hp hn)
  · obtain ⟨ev, he, _⟩ := writerTake_refused hf hh
    rw [he]
    exact ⟨rfl, rfl, rfl⟩

end Sys2Proof.Machine
end

section
/-! The resets of the pool: what power-on, pin reset and soft reset leave (R22, R23), and the two invariants there. -/

namespace Sys2Proof.Machine

open Sys2Proof.Claims

/-! ### The reset state -/

theorem reset_safe : Safe State.reset :=
  ⟨⟨rfl, fun _ he => nomatch he⟩, ⟨Nat.zero_le _, Nat.zero_le _⟩,
    ⟨Nat.zero_le _, Nat.zero_le _, Nat.zero_le _, Nat.zero_le _, Nat.zero_le _⟩,
    ⟨resetEvents_quiet _, resetEvents_quiet _, resetEvents_quiet _, resetEvents_quiet _, resetEvents_quiet _⟩,
    resetEvents_safe⟩

/-- The reset state is what a power-on leaves of it, the pins' reset values held. -/
theorem powerOn_reset : powerOn Pins.reset 0 State.reset = State.reset := rfl

/-- Settles O5: R22's pool is a power-on's, and every count and source starts at rest. -/
theorem resetStateHoldsTheInvariants : Obligations.ResetStateHoldsTheInvariants :=
  ⟨reset_safe, powerOn_reset ▸ powerOn_placed Pins.reset 0 State.reset⟩

/-! ### Power-on and pin reset (R22) -/

/-- With every slot FREE and no segment in the writer there is no lone segment. -/
theorem lone_of_free_slots {s : State} (hs : ∀ i, s.recs.slots.get i = none) (hw : s.writer.current = none) :
    s.lone = none := by
  rw [lone_none (fun i r hi => by rw [hs i] at hi; cases hi), hw]

theorem powerOn_slots (pins : Pins) (id : BitVec 5) (s : State) (i : SlotNo) :
    (powerOn pins id s).recs.slots.get i = none := get_replicate _ _

theorem powerOn_header (pins : Pins) (id : BitVec 5) (s : State) (g : SegNo) :
    (powerOn pins id s).header g = freshHeader := get_replicate _ _

/-- Both rows complete a power-on, whatever the pins show. -/
theorem exec_reset_row {straps : BitVec 5} {row : Instr} (s : State)
    (h : row ∈ [.powerOnReset straps, .pinReset straps]) : ∃ pins, exec row s = .next (powerOn pins straps s) := by
  simp only [List.mem_cons, List.not_mem_nil, or_false] at h
  rcases h with rfl | rfl
  · exact ⟨_, rfl⟩
  · exact ⟨_, rfl⟩

/-- Settles O9: both rows answer a power-on, whose blocks R22 gives. -/
theorem powerOnResetRebuildsThePool : Obligations.PowerOnResetRebuildsThePool := by
  intro straps s row hrow
  obtain ⟨pins, he⟩ := exec_reset_row s hrow
  have slots := powerOn_slots pins straps s
  exact ⟨_, he, length_allSegments, getElem?_allSegments, rfl, rfl, lone_of_free_slots slots rfl, rfl, slots,
    powerOn_header pins straps s, rfl, rfl⟩

/-! ### Soft reset (R23) -/

theorem rebuiltFree_rises (w : List SegNo) : (rebuiltFree w).Pairwise (· < ·) := allSegments_rises.filter _

/-- R23: the rebuilt free list and a withdrawn set without repeats have all 256 segments between them. -/
theorem length_rebuiltFree {w : List SegNo} (h : w.Nodup) : (rebuiltFree w).length = 256 - w.length := by
  have kept : (allSegments.filter (fun g => w.contains g)).Perm w := by
    rw [List.perm_ext_iff_of_nodup (allSegments_nodup.filter _) h]
    intro g
    simp
  have total := List.length_eq_countP_add_countP (l := allSegments) (p := fun g => w.contains g)
  rw [length_allSegments, List.countP_eq_length_filter, List.countP_eq_length_filter, kept.length_eq] at total
  have left : rebuiltFree w = allSegments.filter (fun g => decide ¬ w.contains g = true) :=
    List.filter_congr (fun g _ => by cases w.contains g <;> rfl)
  rw [left]
  omega

/-- R23: a header after a soft reset. -/
theorem softReset_header (s : State) (g : SegNo) : (softReset s).header g = (s.header g).softReset := by
  unfold State.header
  rw [(softReset_frame s).2.1]
  exact get_ofFn _ _

theorem softReset_keeps_health (s : State) (g : SegNo) :
    ((softReset s).header g).home = (s.header g).home ∧ ((softReset s).header g).generation = (s.header g).generation
    ∧ ((softReset s).header g).tally = (s.header g).tally
    ∧ ((softReset s).header g).retirePending = (s.header g).retirePending
    ∧ ((softReset s).header g).firstStamp = none ∧ ((softReset s).header g).valid = 0 := by
  rw [softReset_header]
  exact ⟨rfl, rfl, rfl, rfl, rfl, rfl⟩

/-- R23: the pool's lists after a soft reset. -/
theorem softReset_lists (s : State) :
    (softReset s).pool.free = rebuiltFree s.pool.withdrawn ∧ (softReset s).pool.history = []
    ∧ (softReset s).pool.withdrawn = s.pool.withdrawn := by
  rw [(softReset_frame s).2.1]
  exact ⟨rfl, rfl, rfl⟩

/-- R195: in the command phase RESET answers the soft reset, with its response in the port. -/
theorem execReset_in_command {s : State} (h : InCommand s) :
    exec .reset s = .next (answered (softReset s) 0x05 [] [0x00]) :=
  congrArg _ (hostCommand_in_command h.1 h.2 _ _ _)

/-- Settles O11: the answered state is the soft reset but for its port. -/
theorem softResetKeepsMemoryHealthOfThePool : Obligations.SoftResetKeepsMemoryHealthOfThePool := by
  intro s hs
  obtain ⟨hctl, -, -, -, -, -, -, -, hwriter, -, hrecs, -⟩ := softReset_frame s
  obtain ⟨hfree, hhistory, hwithdrawn⟩ := softReset_lists s
  have slots : ∀ i, (softReset s).recs.slots.get i = none := fun i => by
    rw [hrecs]
    exact get_replicate _ _
  have free_mem : ∀ g, g ∈ (softReset s).pool.free ↔ g ∉ s.pool.withdrawn := fun g => by
    rw [hfree]
    exact mem_rebuiltFree _ _
  have free_length : s.pool.withdrawn.Nodup → (softReset s).pool.free.length = 256 - s.pool.withdrawn.length := by
    rw [hfree]
    exact length_rebuiltFree
  exact ⟨_, execReset_in_command hs, hwithdrawn, softReset_keeps_health s, free_mem,
    hfree ▸ rebuiltFree_rises _, free_length, hhistory,
    lone_of_free_slots (s := softReset s) slots (congrArg Writer.current hwriter), slots,
    congrArg Writer.state hwriter, congrArg Controller.config hctl⟩

end Sys2Proof.Machine
end

section
/-! What an accepted configuration block guarantees (R184, R185): the range of each field, and the cross-checks as
inequalities between the block's settings. -/

namespace Sys2Proof.Machine

/-! ### Ranges (R184) -/

/-- R184: an event level is at most 2. -/
theorem inRange_level {i v : Nat} (h1 : 71 ≤ i) (h2 : i ≤ 82) : inRange i v = true ↔ v ≤ 2 := by
  unfold inRange
  rw [if_neg (by omega), if_neg (by omega), if_neg (by omega), if_neg (by omega), if_neg (by omega), if_neg (by omega),
    if_neg (by omega), if_neg (by omega), if_neg (by omega), if_neg (by omega), if_neg (by omega), if_neg (by omega),
    if_neg (by omega), if_neg (by omega), if_neg (by omega), if_pos h2, decide_eq_true_iff]

/-- R184: the range of field j of a detector's run. -/
def detRange (j v : Nat) : Bool :=
  match j with
  | 0 => v ≤ 1
  | 1 => v ≤ 7
  | 2 => v ≤ 3
  | 6 => v = 1 || v = 2 || v = 4 || v = 8
  | _ => v ≤ 4095

/-- R184: a detector's run repeats every seven fields. -/
theorem inRange_det (d : Fin 8) {j : Nat} (hj : j < 7) (v : Nat) :
    inRange (12 + 7 * d.val + j) v = detRange j v := by
  have hplace : (12 + 7 * d.val + j - 12) % 7 = j := by omega
  unfold inRange
  rw [if_neg (by omega), if_neg (by omega), if_neg (by omega), if_neg (by omega), if_neg (by omega), if_neg (by omega),
    if_neg (by omega), if_neg (by omega), if_neg (by omega), if_neg (by omega), if_neg (by omega), if_pos (by omega),
    hplace]
  rfl

/-! ### Cross-checks (R185) -/

/-- R185: the cross-check of field j of a detector whose run holds `run`, with n channels. -/
def detCross (run : Nat → Nat) (n j : Nat) : Bool :=
  if run 0 = 0 then true
  else
    match j with
    | 1 => run 1 < n
    | 4 => run 2 != 2 || run 4 < run 3
    | 5 =>
      match run 2 with
      | 1 => run 3 + run 5 ≤ 4095
      | 2 => run 4 + run 5 + run 5 ≤ run 3
      | _ => run 5 ≤ run 3
    | _ => true

theorem crossCheck_det (vals : List (BitVec 16)) (d : Fin 8) {j : Nat} (hj : j < 7) :
    crossCheck vals (12 + 7 * d.val + j)
      = detCross (fun m => fieldAt vals (12 + 7 * d.val + m)) (fieldAt vals 5) j := by
  have hplace : (12 + 7 * d.val + j - 12) % 7 = j := by omega
  have hbase : 12 + 7 * ((12 + 7 * d.val + j - 12) / 7) = 12 + 7 * d.val := by omega
  have hrun : (decide (12 ≤ 12 + 7 * d.val + j) && decide (12 + 7 * d.val + j ≤ 67)) = true := by
    rw [Bool.and_eq_true, decide_eq_true_iff, decide_eq_true_iff]
    omega
  unfold crossCheck detCross
  dsimp only
  rw [if_neg (by omega), if_neg (by omega), if_pos hrun, hplace, hbase]
  clear hplace hbase hrun
  match j, hj with
  | 0, _ => rfl
  | 1, _ => rfl
  | 2, _ => rfl
  | 3, _ => rfl
  | 4, _ => rfl
  | 5, _ => rfl
  | 6, _ => rfl

/-- R74: what the cross-checks of an enabled detector say. -/
theorem detCross_enabled {run : Nat → Nat} {n : Nat} (hmode : run 2 ≤ 3) (hon : run 0 = 1)
    (h : ∀ j, j < 7 → detCross run n j = true) :
    run 1 < n ∧ (run 2 = 0 ∨ run 2 = 3 → run 5 ≤ run 3) ∧ (run 2 = 1 → run 3 + run 5 ≤ 4095)
    ∧ (run 2 = 2 → run 4 < run 3 ∧ (run 4 : Int) + run 5 ≤ (run 3 : Int) - run 5) := by
  have channel := h 1 (by decide)
  have below := h 4 (by decide)
  have hysteresis := h 5 (by decide)
  simp only [detCross, hon, Nat.one_ne_zero, if_false, decide_eq_true_eq] at channel below hysteresis
  obtain hm | hm | hm | hm : run 2 = 0 ∨ run 2 = 1 ∨ run 2 = 2 ∨ run 2 = 3 := by omega
  all_goals
    simp [hm] at below hysteresis ⊢
    omega

/-! ### The bounds of an accepted block -/

section Accepted

variable {vals : List (BitVec 16)} (h : firstFailing vals = none)

include h

/-- R185: every field of an accepted block's store is in its range. -/
theorem inRange_accepted {i : Nat} (h1 : 1 ≤ i) (h2 : i ≤ 86) : inRange i (field (storeOf vals) i) = true := by
  rw [field_storeOf vals h1 h2]
  exact (passes_of_firstFailing h h1 h2).1

/-- R184: divisor, T, P and W. -/
theorem timing_accepted :
    (3 ≤ field (storeOf vals) 1 ∧ field (storeOf vals) 1 ≤ 8)
    ∧ (4 ≤ bitTime (storeOf vals) ∧ bitTime (storeOf vals) ≤ 64)
    ∧ (1000 ≤ period (storeOf vals) ∧ period (storeOf vals) ≤ 60000)
    ∧ (1 ≤ lockWindow (storeOf vals) ∧ lockWindow (storeOf vals) ≤ 255) := by
  refine ⟨?_, ?_, ?_, ?_⟩
  · simpa [inRange] using inRange_accepted h (i := 1) (by decide) (by decide)
  · simpa [inRange, bitTime] using inRange_accepted h (i := 2) (by decide) (by decide)
  · simpa [inRange, period] using inRange_accepted h (i := 3) (by decide) (by decide)
  · simpa [inRange, lockWindow] using inRange_accepted h (i := 4) (by decide) (by decide)

/-- R184: the channel count. -/
theorem channels_accepted :
    channels (storeOf vals) = 1 ∨ channels (storeOf vals) = 2 ∨ channels (storeOf vals) = 4
      ∨ channels (storeOf vals) = 8 := by
  simpa [inRange, channels, or_assoc] using inRange_accepted h (i := 5) (by decide) (by decide)

/-- R184: Ts, Npre, Npost, Lmax, the retrigger mode and the holdoff. -/
theorem capture_accepted :
    (1 ≤ samplePeriod (storeOf vals) ∧ samplePeriod (storeOf vals) ≤ 65535) ∧ preFrames (storeOf vals) ≤ 65535
    ∧ (1 ≤ postFrames (storeOf vals) ∧ postFrames (storeOf vals) ≤ 65535)
    ∧ (1 ≤ maxChain (storeOf vals) ∧ maxChain (storeOf vals) ≤ 64)
    ∧ field (storeOf vals) 10 ≤ 1 ∧ field (storeOf vals) 11 ≤ 4095 := by
  refine ⟨?_, ?_, ?_, ?_, ?_, ?_⟩
  · simpa [inRange, samplePeriod] using inRange_accepted h (i := 6) (by decide) (by decide)
  · simpa [inRange, preFrames] using inRange_accepted h (i := 7) (by decide) (by decide)
  · simpa [inRange, postFrames] using inRange_accepted h (i := 8) (by decide) (by decide)
  · simpa [inRange, maxChain] using inRange_accepted h (i := 9) (by decide) (by decide)
  · simpa [inRange] using inRange_accepted h (i := 10) (by decide) (by decide)
  · simpa [inRange] using inRange_accepted h (i := 11) (by decide) (by decide)

/-- R184: TRIGIN's enable, edge and interval. -/
theorem trigIn_accepted :
    field (storeOf vals) 68 ≤ 1 ∧ field (storeOf vals) 69 ≤ 2 ∧ trigInterval (storeOf vals) ∈ [1, 8, 32] := by
  refine ⟨?_, ?_, ?_⟩
  · simpa [inRange] using inRange_accepted h (i := 68) (by decide) (by decide)
  · simpa [inRange] using inRange_accepted h (i := 69) (by decide) (by decide)
  · simpa [inRange, trigInterval, or_assoc] using inRange_accepted h (i := 70) (by decide) (by decide)

/-- R184, R173: the event levels of the sources of orders 3 to 14. -/
theorem level_accepted {r : Nat} (h1 : 3 ≤ r) (h2 : r ≤ 14) : field (storeOf vals) (68 + r) ≤ 2 :=
  (inRange_level (by omega) (by omega)).1 (inRange_accepted h (by omega) (by omega))

/-- R184: the mask level, S, the retire threshold and the free-low threshold. -/
theorem health_accepted :
    field (storeOf vals) 83 ≤ 3 ∧ scrubInterval (storeOf vals) ≤ 65535
    ∧ (1 ≤ retireThreshold (storeOf vals) ∧ retireThreshold (storeOf vals) ≤ 15)
    ∧ freeLowThreshold (storeOf vals) ≤ 255 := by
  refine ⟨?_, ?_, ?_, ?_⟩
  · simpa [inRange] using inRange_accepted h (i := 83) (by decide) (by decide)
  · simpa [inRange, scrubInterval] using inRange_accepted h (i := 84) (by decide) (by decide)
  · simpa [inRange, retireThreshold] using inRange_accepted h (i := 85) (by decide) (by decide)
  · simpa [inRange, freeLowThreshold] using inRange_accepted h (i := 86) (by decide) (by decide)

/-- R26: a sweep of all channels fits into the sample period. -/
theorem sweep_fits : 48 * channels (storeOf vals) ≤ samplePeriod (storeOf vals) * 2 ^ field (storeOf vals) 1 := by
  have check := (passes_of_firstFailing h (i := 6) (by decide) (by decide)).2
  unfold channels samplePeriod
  rw [field_storeOf vals (by decide) (by decide), field_storeOf vals (by decide) (by decide),
    field_storeOf vals (by decide) (by decide)]
  exact of_decide_eq_true check

/-- R6, R185: the history target, one more segment and the segments of Npost fit into Lmax. -/
theorem chain_fits :
    (storeOf vals).target + 1 + divUp (postFrames (storeOf vals)) (framesOf (storeOf vals))
      ≤ maxChain (storeOf vals) := by
  have check := (passes_of_firstFailing h (i := 9) (by decide) (by decide)).2
  unfold postFrames framesOf channels maxChain
  rw [field_storeOf vals (by decide) (by decide), field_storeOf vals (by decide) (by decide),
    field_storeOf vals (by decide) (by decide)]
  exact of_decide_eq_true check

/-- A segment holds at least one frame. -/
theorem framesOf_pos : 0 < framesOf (storeOf vals) := by
  unfold framesOf
  rcases channels_accepted h with e | e | e | e <;> rw [e] <;> decide

theorem detRange_accepted (d : Fin 8) {j : Nat} (hj : j < 7) :
    detRange j (detField (storeOf vals) d j) = true := by
  rw [← inRange_det d hj]
  exact inRange_accepted h (by omega) (by omega)

/-- R184: the fields of a detector's run. -/
theorem detector_accepted (d : Fin 8) :
    detField (storeOf vals) d 0 ≤ 1 ∧ detField (storeOf vals) d 1 ≤ 7 ∧ detField (storeOf vals) d 2 ≤ 3
    ∧ detField (storeOf vals) d 3 ≤ 4095 ∧ detField (storeOf vals) d 4 ≤ 4095 ∧ detField (storeOf vals) d 5 ≤ 4095
    ∧ detField (storeOf vals) d 6 ∈ [1, 2, 4, 8] := by
  refine ⟨?_, ?_, ?_, ?_, ?_, ?_, ?_⟩
  · simpa [detRange] using detRange_accepted h d (j := 0) (by decide)
  · simpa [detRange] using detRange_accepted h d (j := 1) (by decide)
  · simpa [detRange] using detRange_accepted h d (j := 2) (by decide)
  · simpa [detRange] using detRange_accepted h d (j := 3) (by decide)
  · simpa [detRange] using detRange_accepted h d (j := 4) (by decide)
  · simpa [detRange] using detRange_accepted h d (j := 5) (by decide)
  · simpa [detRange, or_assoc] using detRange_accepted h d (j := 6) (by decide)

theorem detCross_accepted (d : Fin 8) {j : Nat} (hj : j < 7) :
    detCross (detField (storeOf vals) d) (channels (storeOf vals)) j = true := by
  have check := (passes_of_firstFailing h (i := 12 + 7 * d.val + j) (by omega) (by omega)).2
  rw [crossCheck_det vals d hj] at check
  have stored : ∀ m, m < 7 → fieldAt vals (12 + 7 * d.val + m) = detField (storeOf vals) d m :=
    fun m _ => (field_storeOf vals (by omega) (by omega)).symm
  have sampled : fieldAt vals 5 = channels (storeOf vals) := (field_storeOf vals (by decide) (by decide)).symm
  simpa only [detCross, sampled, stored 0 (by decide), stored 1 (by decide), stored 2 (by decide),
    stored 3 (by decide), stored 4 (by decide), stored 5 (by decide)] using check

end Accepted

/-! ### Segments of frames (R6) -/

/-- R6: H follows from the stored Npre and channel count. -/
theorem target_storeOf (vals : List (BitVec 16)) :
    (storeOf vals).target = divUp (preFrames (storeOf vals)) (framesOf (storeOf vals)) + 1 := by
  unfold preFrames framesOf channels
  rw [field_storeOf vals (by decide) (by decide), field_storeOf vals (by decide) (by decide)]
  rfl

/-- So many units of b hold a. -/
theorem le_divUp_mul {b : Nat} (a : Nat) (hb : 0 < b) : a ≤ divUp a b * b := by
  have step := Nat.lt_div_mul_add (a := a + b - 1) hb
  unfold divUp
  omega

theorem divUp_pos {a b : Nat} (ha : 0 < a) (hb : 0 < b) : 0 < divUp a b :=
  Nat.div_pos (by omega) hb

/-- Settles O26: the ranges field by field, then the cross-checks. -/
theorem acceptedBlocksKeepTheSpecsBounds : Obligations.AcceptedBlocksKeepTheSpecsBounds := by
  intro vals h c
  obtain ⟨⟨k_low, k_high⟩, ⟨t_low, t_high⟩, ⟨p_low, p_high⟩, w_low, w_high⟩ := timing_accepted h
  obtain ⟨⟨ts_low, ts_high⟩, pre_high, ⟨post_low, post_high⟩, ⟨chain_low, chain_high⟩, mode_high, holdoff_high⟩ :=
    capture_accepted h
  obtain ⟨trig_high, edge_high, interval⟩ := trigIn_accepted h
  obtain ⟨mask_high, scrub_high, ⟨retire_low, retire_high⟩, low_high⟩ := health_accepted h
  have frames := framesOf_pos h
  have fits := chain_fits h
  have post_segments := divUp_pos post_low frames
  have target := target_storeOf vals
  have target_low : 1 ≤ c.target := by
    show 1 ≤ (storeOf vals).target
    omega
  have target_high : c.target ≤ 62 := by
    show (storeOf vals).target ≤ 62
    omega
  have pre_fits : preFrames c ≤ (c.target - 1) * framesOf c := by
    show _ ≤ ((storeOf vals).target - 1) * _
    rw [target, Nat.add_sub_cancel]
    exact le_divUp_mul _ frames
  have holdoff : holdoffTicks c ≤ 65520 := by
    show 16 * field (storeOf vals) 11 ≤ 65520
    omega
  refine ⟨k_low, k_high, t_low, t_high, p_low, p_high, channels_accepted h, sweep_fits h, target, target_low,
    target_high, fits, chain_high, pre_fits, holdoff, retire_low, retire_high, w_low, w_high, ts_low, ts_high, pre_high,
    post_low, post_high, chain_low, mode_high, holdoff_high, trig_high, edge_high, interval,
    fun r => level_accepted h, mask_high, scrub_high, low_high,
    fun i bits => retireThreshold_upsetField i bits retire_high, fun d => ?_, fun i => mismatchAt_storeOf vals⟩
  obtain ⟨enable, channel, mode, a_high, b_high, h_high, count⟩ := detector_accepted h d
  exact ⟨enable, channel, mode, a_high, b_high, h_high, count,
    fun on => detCross_enabled mode on (fun _ => detCross_accepted h d)⟩

end Sys2Proof.Machine
end

section
/-! The sweep (R24 to R28): its instant, the sampling of its channels, and its end, where the frame of the levels met
goes to the writer and to the detector bank. -/

namespace Sys2Proof.Machine

open Sys2Proof.Claims

/-! ### The instant and the sampling of the channels (R24, R25) -/

/-- R24, R25: one tick of the sequencer while the prescaler runs. -/
theorem tick_seqr {s : State} {c : ConfigStore} {k : Nat} (hc : s.ctl.config = some c) (hk : s.tb.prescale = some k) :
    (tick s).seqr
      = countSequencer k (channels c) (s.tb.localTick + 1) (s.ctl.entry != .none) s.pins.analog s.seqr := by
  unfold tick countTick
  simp [hc, hk]

/-- R25: latching at the end of a tick takes the inputs of the conversions begun by then. -/
theorem latchInputs_begun (c : ConfigStore) (k d : Nat) (inputs samples : List AnalogLevel) (ch : Nat) :
    (latchInputs (begunConversions k (channels c) d) inputs samples)[ch]? = sampledBy c k d inputs samples ch := by
  rw [latchInputs_get]
  simp only [sampledBy, lt_begunConversions]

/-- The sequencer runs in the two states the statements name (R24). -/
theorem acquiring_of_mem {st : StationState} (h : st ∈ [StationState.listen, .running]) : acquiring st = true := by
  rw [List.mem_cons, List.mem_singleton] at h
  rcases h with rfl | rfl <;> rfl

/-- R24: the wait for the next instant, the entry tick of LISTEN counted while it is still to come. -/
theorem sweepDue_waiting {s : State} {wait : Nat} (hst : s.ctl.state ∈ [StationState.listen, .running])
    (hs : s.seqr.sweep = none) (hd : s.seqr.divider = some wait) :
    sweepDue s = some (wait + if s.ctl.entry = .none then 0 else 1) := by
  unfold sweepDue
  rw [acquiring_of_mem hst, hs, hd]
  cases s.ctl.entry <;> rfl

/-- SWEEP_START while no sweep is in progress: the clock runs to the instant, where the sweep begins. -/
theorem execSweepStart_waiting {s : State} {c : ConfigStore} {wait : Nat} (ha : Active s c)
    (hst : s.ctl.state ∈ [StationState.listen, .running]) (hs : s.seqr.sweep = none)
    (hd : s.seqr.divider = some wait) :
    exec .sweepStart s
      = .next (startSweep c (s.elapse (wait + if s.ctl.entry = .none then 0 else 1))) := by
  show execSweepStart s = _
  unfold execSweepStart
  rw [whenConfigured_held ha.1 ha.2, atTime_some (sweepDue_waiting hst hs hd)]

/-- R25: the levels sampled in the tick of the instant. -/
theorem firstSamples_running {s : State} {c : ConfigStore} {k : Nat} (hk : s.tb.prescale = some k) :
    firstSamples c s = latchInputs (begunConversions k (channels c) 0) s.pins.analog [] := by
  unfold firstSamples
  rw [hk]

/-- R25: a tick of a sweep samples each channel whose conversion begins in it. -/
theorem tick_sweeping {s : State} {c : ConfigStore} {k : Nat} {f : Capture} (h : Sweeping c k f s) :
    (tick s).seqr.samples = latchInputs
      (begunConversions k (channels c) (s.tb.localTick + 1 - f.tick).toNat) s.pins.analog s.seqr.samples := by
  obtain ⟨⟨_, hc⟩, hk, _, hs⟩ := h
  rw [tick_seqr hc hk]
  simp only [countSequencer, hs, ticksSince]

/-- Settles O35: the instant's row, then the sampling of one tick. -/
theorem sweepTakesInstantTimestampAndLevels : Obligations.SweepTakesInstantTimestampAndLevels := by
  intro c s ha
  constructor
  · intro k wait hst hs hd u stamp sweep hk
    have pins : u.pins = s.pins := by simp [u]
    refine ⟨firstSamples c u, execSweepStart_waiting ha hst hs hd, fun ch => ?_⟩
    rw [firstSamples_running hk, latchInputs_begun, pins]
  · intro k f h
    refine ⟨by simp [h.2.2.2], by simp, fun ch => ?_⟩
    rw [tick_sweeping h, latchInputs_begun]

/-! ### The sweep's end (R25, R27) -/

/-- The state in which the frame is handed over: the inputs held, the clock run to the sweep's end, the sweep over. -/
def frameHanded (c : ConfigStore) (k : Nat) (f : Capture) (inputs : List AnalogLevel) (s : State) : State :=
  let u := (holdInputs inputs s).elapse (sweepRemaining c k f s)
  { u with seqr := { u.seqr with sweep := none, position := 0, samples := [] } }

/-- What the way to the sweep's end leaves of the blocks that a frame reaches. -/
@[simp] theorem frameHanded_frame (c : ConfigStore) (k : Nat) (f : Capture) (inputs : List AnalogLevel) (s : State) :
    (frameHanded c k f inputs s).pool = s.pool ∧ (frameHanded c k f inputs s).writer = s.writer
    ∧ (frameHanded c k f inputs s).recs = s.recs ∧ (frameHanded c k f inputs s).dets = s.dets
    ∧ (frameHanded c k f inputs s).mem.array = s.mem.array ∧ (frameHanded c k f inputs s).mem.log = s.mem.log
    ∧ (frameHanded c k f inputs s).mem.errorCount = s.mem.errorCount
    ∧ (frameHanded c k f inputs s).mem.buffer = s.mem.buffer ∧ (frameHanded c k f inputs s).seqr.sweep = none
    ∧ (frameHanded c k f inputs s).seqr.position = 0 ∧ (frameHanded c k f inputs s).seqr.samples = [] := by
  simp [frameHanded]

/-- R25: for the channels converted, the levels latched at the sweep's end are those met. -/
theorem latchInputs_getD {n w : Nat} (h : w < n) (inputs samples : List AnalogLevel) (d : AnalogLevel) :
    (latchInputs n inputs samples).getD w d = (samples ++ inputs.drop samples.length).getD w d := by
  rw [List.getD_eq_getElem?_getD, List.getD_eq_getElem?_getD, latchInputs_get, List.getElem?_append, if_pos h]
  split
  · rfl
  next hw => rw [List.getElem?_drop, Nat.add_sub_cancel' (Nat.le_of_not_lt hw)]

/-- R25, R27: the words of the frame carry the levels met since the sweep began. -/
theorem frameWords_met {inputs : List AnalogLevel} {s : State} (n m : Nat) :
    frameWords n (latchInputs n inputs ((holdInputs inputs s).elapse m).seqr.samples)
      = frameWords n (levelsMet inputs s) := by
  have met : ((holdInputs inputs s).elapse m).seqr.samples
      ++ inputs.drop ((holdInputs inputs s).elapse m).seqr.samples.length = levelsMet inputs s :=
    elapse_met m (holdInputs inputs s)
  refine List.map_congr_left (fun w hw => ?_)
  rw [latchInputs_getD (List.mem_range.1 hw), met]

/-- R25: a sweep in progress ends in its remaining ticks. -/
theorem frameDue_sweeping {c : ConfigStore} {k : Nat} {f : Capture} {s : State} (h : Sweeping c k f s) :
    frameDue c s = some (sweepRemaining c k f s) := by
  obtain ⟨_, hk, hst, hs⟩ := h
  unfold frameDue
  rw [hs, hk]
  exact if_pos (acquiring_of_mem hst)

/-- R25: the sweep's end hands its frame to the writer and to the detector bank. -/
theorem finishSweep_sweeping {c : ConfigStore} {f : Capture} {s : State} (h : s.seqr.sweep = some f) :
    finishSweep c s =
      let words := frameWords (channels c) (latchInputs (channels c) s.pins.analog s.seqr.samples)
      bankFrame c f.stamp words
        (writerFrame c f words { s with seqr := { s.seqr with sweep := none, position := 0, samples := [] } }) := by
  unfold finishSweep
  rw [h]

/-- FRAME_COMPLETE in a sweep: the frame of the levels met goes to the writer, and then to the detector bank. -/
theorem execFrameComplete_sweeping {c : ConfigStore} {k : Nat} {f : Capture} {s : State} (h : Sweeping c k f s)
    (inputs : List AnalogLevel) :
    let words := frameWords (channels c) (levelsMet inputs s)
    exec (.frameComplete inputs) s
      = .next (bankFrame c f.stamp words (writerFrame c f words (frameHanded c k f inputs s))) := by
  show execFrameComplete inputs s = _
  have due := frameDue_sweeping h
  have swept : ((holdInputs inputs s).elapse (sweepRemaining c k f s)).seqr.sweep = some f := by simp [h.2.2.2]
  have shown : ((holdInputs inputs s).elapse (sweepRemaining c k f s)).pins.analog = inputs := by simp
  unfold execFrameComplete
  rw [whenConfigured_held h.1.1 h.1.2, due, if_pos Option.isSome_some, atTime_some rfl, finishSweep_sweeping swept,
    shown, frameWords_met]
  rfl

end Sys2Proof.Machine
end

section
/-! The frame writer (R31 to R36): the words of a frame in the array, and what a frame makes of the writer and the
pool. -/

namespace Sys2Proof.Machine

open Sys2Proof.Claims

/-! ### The words of a frame in the array (R31, R138) -/

/-- The address follows the headers alone (R1). -/
theorem address_congr {s t : State} (h : t.pool = s.pool) (g : SegNo) (o : Nat) : t.address g o = s.address g o := by
  unfold State.address State.header
  rw [h]

/-- R1: different offsets of a segment have different addresses. -/
theorem address_inj {s : State} {g : SegNo} {o p : Nat} (ho : o < 512) (hp : p < 512)
    (h : s.address g o = s.address g p) : o = p := by
  unfold State.address segmentWords at h
  omega

/-- R31: one word stored: its own address, and every other as before. -/
theorem readArray_storeWord {s : State} (hm : s.mem.array.wf = true) (g : SegNo) (o : Nat) (w : Word) (a : Nat) :
    readArray (storeWord g o w s).mem.array a
      = if a = s.address g o then encode (s.address g o) w else readArray s.mem.array a :=
  readArray_writeArray hm

/-- R31: words stored leave every address but their own. -/
theorem readArray_storeWords_other (g : SegNo) {a : Nat} : ∀ (ws : List Word) (o : Nat) (s : State),
    s.mem.array.wf = true → (∀ i, i < ws.length → a ≠ s.address g (o + i)) →
    readArray (storeWords g o ws s).mem.array a = readArray s.mem.array a
  | [], _, _, _, _ => rfl
  | w :: ws, o, s, hm, ha => by
    have later : ∀ i, i < ws.length → a ≠ s.address g (o + 1 + i) := fun i hi => by
      rw [Nat.add_assoc, Nat.add_comm 1]
      exact ha (i + 1) (Nat.succ_lt_succ hi)
    have first : a ≠ s.address g o := ha 0 (Nat.succ_pos _)
    rw [storeWords, readArray_storeWords_other g ws (o + 1) _ (storeWord_wf g o w s hm) later,
      readArray_storeWord hm, if_neg first]

/-- R31, R138: words stored inside a segment stand one after another, each encoded for its own address. -/
theorem readArray_storeWords (g : SegNo) : ∀ (ws : List Word) (o : Nat) (s : State), s.mem.array.wf = true →
    o + ws.length ≤ 512 → ∀ (i : Nat) (h : i < ws.length),
      readArray (storeWords g o ws s).mem.array (s.address g (o + i)) = encode (s.address g (o + i)) ws[i]
  | [], _, _, _, _, _, h => absurd h (Nat.not_lt_zero _)
  | w :: ws, o, s, hm, hl, i, h => by
    have hm' := storeWord_wf g o w s hm
    rw [List.length_cons] at hl h
    cases i with
    | zero =>
      have later : ∀ j, j < ws.length → s.address g o ≠ s.address g (o + 1 + j) := fun j hj e => by
        have := address_inj (by omega) (by omega) e
        omega
      show readArray (storeWords g o (w :: ws) s).mem.array (s.address g o) = encode (s.address g o) w
      rw [storeWords, readArray_storeWords_other g ws (o + 1) _ hm' later, readArray_storeWord hm,
        if_pos rfl]
    | succ j =>
      have stored := readArray_storeWords g ws (o + 1) (storeWord g o w s) hm' (by omega) j (by omega)
      rw [Nat.add_assoc, Nat.add_comm 1] at stored
      exact stored

/-- R27: word w of a frame carries channel w and the result of its level. -/
theorem getElem_frameWords {n w : Nat} {levels : List AnalogLevel} (hw : w < levels.length)
    (h : w < (frameWords n levels).length) :
    (frameWords n levels)[w] = BitVec.ofNat 16 (w * 4096 + resultOfInput levels[w]) := by
  simp only [frameWords, List.getElem_map, List.getElem_range]
  rw [List.getD_eq_getElem?_getD, List.getElem?_eq_getElem hw]
  rfl

/-- R25: a frame has a word for each of its channels. -/
theorem length_frameWords (n : Nat) (levels : List AnalogLevel) : (frameWords n levels).length = n := by
  simp [frameWords]

/-- R31: a frame at a position of the segment lies inside it. -/
theorem frame_fits {n p : Nat} (hp : p < 512 / n) : p * n + n ≤ 512 := by
  have hle : (p + 1) * n ≤ 512 := Nat.le_trans (Nat.mul_le_mul_right n hp) (Nat.div_mul_le_self 512 n)
  rwa [Nat.succ_mul] at hle

/-! ### The writer and the records at a frame (R31 to R36) -/

/-- R31: what a frame's write makes of the state. -/
theorem writeFrame_eq (n : Nat) (g : SegNo) (f : Capture) (words : List Word) (s : State) :
    writeFrame n g f words s = { s with
      mem := { s.mem with array := (storeWords g (s.writer.pos * n) words s).mem.array },
      pool := { s.pool with headers := s.pool.headers.set g ((s.header g).framed f.stamp s.writer.pos) },
      writer := { s.writer with pos := s.writer.pos + 1 }, recs := { s.recs with lastReport := some f.tick } } := by
  unfold writeFrame
  dsimp only
  rw [storeWords_frame]
  rfl

/-- R31 steps 2 and 3: the current segment's header, and the others as before. -/
theorem writeFrame_header (n : Nat) (g a : SegNo) (f : Capture) (words : List Word) (s : State) :
    (writeFrame n g f words s).header a
      = if g = a then (s.header g).framed f.stamp s.writer.pos else s.header a := by
  rw [writeFrame_eq]
  exact get_set _ _ _ _

/-- R31: a frame reaches the FILLING writer. -/
theorem writerFrame_filling {c : ConfigStore} {f : Capture} {words : List Word} {g : SegNo} {s : State}
    (hs : s.writer.state = .filling) (hg : s.writer.current = some g) :
    writerFrame c f words s = frameFilling c g f words s := by
  unfold writerFrame
  rw [hs, hg]

/-- R36: a frame reaches the writer in OVERRUN. -/
theorem writerFrame_overrun {c : ConfigStore} {f : Capture} {words : List Word} {s : State}
    (hs : s.writer.state = .overrun) : writerFrame c f words s = discardFrame s := by
  unfold writerFrame
  rw [hs]

/-- R33: with no record COLLECTING, a frame is written and one that fills the segment hands it on. -/
theorem frameFilling_noneCollecting {c : ConfigStore} {f : Capture} {words : List Word} {g : SegNo} {s : State}
    (hn : NoneCollecting s) :
    frameFilling c g f words s
      = if framesOf c ≤ s.writer.pos + 1 then segmentFull c g (writeFrame (channels c) g f words s)
        else writeFrame (channels c) g f words s := by
  have slots : (writeFrame (channels c) g f words s).recs.slots = s.recs.slots := by rw [writeFrame_eq]
  have none_found : collectingSlot (writeFrame (channels c) g f words s) = none := by
    unfold collectingSlot
    rw [findRecord_congr _ slots]
    exact findRecord_none (fun j r hj => by simpa using hn j r hj)
  unfold frameFilling
  dsimp only
  rw [none_found]
  simp only [decide_eq_true_eq]

/-! The frame reports and the offers leave the instant of the latest report (R32). -/

@[simp] theorem completeData_lastReport (i : SlotNo) (s : State) :
    (completeData i s).recs.lastReport = s.recs.lastReport := by
  unfold completeData
  split
  · rfl
  next r _ => cases r.window <;> simp

@[simp] theorem fixTrigger_lastReport (c : ConfigStore) (i : SlotNo) (s : State) :
    (fixTrigger c i s).recs.lastReport = s.recs.lastReport := by
  unfold fixTrigger placeRecord
  repeat' split
  all_goals simp

@[simp] theorem collectClaim_lastReport (c : ConfigStore) (i : SlotNo) (s : State) :
    (collectClaim c i s).recs.lastReport = s.recs.lastReport := by
  unfold collectClaim
  repeat' split
  · rfl
  · simp
  next hp =>
    obtain ⟨r, _, rfl⟩ := popFree_eq_some hp
    simp
  · simp

@[simp] theorem recordReport_lastReport (c : ConfigStore) (i : SlotNo) (instant : Tick) (filled : Bool) (s : State) :
    (recordReport c i instant filled s).recs.lastReport = s.recs.lastReport := by
  have counted : (countReport c i instant s).recs.lastReport = s.recs.lastReport := by
    unfold countReport
    repeat' split
    all_goals simp
  unfold recordReport endReport
  repeat' split
  all_goals simp [counted]

@[simp] theorem offer_lastReport (c : ConfigStore) (causes : CauseSet) (stamp : Timestamp) (s : State) :
    (offer c causes stamp s).recs.lastReport = s.recs.lastReport := by
  have attached : ∀ q u, (attachCause q u).recs.lastReport = u.recs.lastReport := fun q u => by
    unfold attachCause
    repeat' split
    all_goals simp
  unfold offer
  repeat' split
  all_goals simp [joinTrigger, attached]

/-- The detector bank leaves the writer, the pool, the sequencer, the memory and the latest report (R81). -/
@[simp] theorem bankFrame_frame (c : ConfigStore) (stamp : Timestamp) (words : List Word) (s : State) :
    (bankFrame c stamp words s).pool = s.pool ∧ (bankFrame c stamp words s).writer = s.writer
    ∧ (bankFrame c stamp words s).seqr = s.seqr ∧ (bankFrame c stamp words s).mem = s.mem
    ∧ (bankFrame c stamp words s).recs.lastReport = s.recs.lastReport := by
  unfold bankFrame
  dsimp only
  split <;> simp

/-- The detector bank leaves every header (R81). -/
theorem bankFrame_header (c : ConfigStore) (stamp : Timestamp) (words : List Word) (s : State) (a : SegNo) :
    (bankFrame c stamp words s).header a = s.header a := by
  unfold State.header
  rw [(bankFrame_frame c stamp words s).1]

/-- What follows a frame's write leaves the sequencer, the memory and the latest report. -/
theorem frameFilling_frame (c : ConfigStore) (g : SegNo) (f : Capture) (words : List Word) (s : State) :
    (frameFilling c g f words s).seqr = s.seqr
    ∧ (frameFilling c g f words s).mem
        = { s.mem with array := (storeWords g (s.writer.pos * channels c) words s).mem.array }
    ∧ (frameFilling c g f words s).recs.lastReport = some f.tick := by
  unfold frameFilling
  dsimp only
  repeat' split
  all_goals simp [writeFrame_eq]

/-- Settles O36: the frame of the levels met is stored at the writer's position, and nothing after it touches the
array. -/
theorem frameIsWrittenAtItsPosition : Obligations.FrameIsWrittenAtItsPosition := by
  intro c k f g inputs s h hm _ _ hstate hcurrent hpos
  refine ⟨_, execFrameComplete_sweeping h inputs, ?_⟩
  rw [writerFrame_filling (g := g) (by simpa using hstate) (by simpa using hcurrent)]
  simp only [bankFrame_frame, frameFilling_frame, frameHanded_frame, and_true]
  have hm' : (frameHanded c k f inputs s).mem.array.wf = true := by simpa using hm
  have place : ∀ w, (frameHanded c k f inputs s).address g (s.writer.pos * channels c + w) = frameAddress c g s w :=
    fun w => address_congr (frameHanded_frame c k f inputs s).1 g _
  refine ⟨fun w hw hc => ?_, fun a ha => ?_, storeWords_wf g _ _ _ hm'⟩
  · have stored := readArray_storeWords g (frameWords (channels c) (levelsMet inputs s)) (s.writer.pos * channels c)
      (frameHanded c k f inputs s) hm' (by rw [length_frameWords]; exact frame_fits hpos) w
      (by rwa [length_frameWords])
    rwa [place, getElem_frameWords hw] at stored
  · rw [readArray_storeWords_other g _ _ _ hm' (fun w hw => ?_)]
    · simp
    · rw [place]
      exact ha w (by rwa [length_frameWords] at hw)

/-! ### The writer and the pool after a frame (R9, R33, R36) -/

/-- R9, R33: what a full segment g leaves, its header as it stood: the history chain and the free list are these, and
the writer fills segment a. `s` is the state before, `t` after. -/
def HandedOn (g a : SegNo) (history free : List SegNo) (s t : State) : Prop :=
  t.pool.history = history ∧ t.pool.free = free ∧ t.writer = fillingFrom a s ∧ t.header g = s.header g
  ∧ t.header a = takenHeader (s.header a)

/-- R5, R8: the take after a full segment, from the lists that the hand-over left. -/
theorem writerTake_handedOn {s u : State} {g a : SegNo} {rest : List SegNo} (hf : u.pool.free = a :: rest)
    (ha : a ≠ g) (hd : u.writer.discarded = s.writer.discarded) (hh : ∀ b, u.header b = s.header b) :
    HandedOn g a u.pool.history rest s (writerTake u) := by
  obtain ⟨hwriter, hfree, hhistory, htaken, hother⟩ := writerTake_tookHead u a rest hf
  refine ⟨hhistory, hfree, ?_, (hother g ha.symm).trans (hh g), hh a ▸ htaken⟩
  rw [hwriter, fillingFrom, fillingFrom, hd]

/-- R33: while history holds fewer than H segments the full one joins it and none is trimmed. -/
theorem segmentFull_short {c : ConfigStore} {g a : SegNo} {rest : List SegNo} {s : State}
    (hl : s.pool.history.length < c.target) (hf : s.pool.free = a :: rest) (ha : a ≠ g) :
    HandedOn g a (s.pool.history ++ [g]) rest s (segmentFull c g s) := by
  have fits : ¬ c.target < (s.pool.history ++ [g]).length := by
    rw [List.length_append, List.length_singleton]
    omega
  unfold segmentFull
  dsimp only
  rw [if_neg fits]
  exact writerTake_handedOn hf ha rfl (fun _ => rfl)

/-- R9: past H segments the oldest leaves the history chain for the free list before the take. -/
theorem segmentFull_past {c : ConfigStore} {g old : SegNo} {kept : List SegNo} {s : State}
    (hh : s.pool.history = old :: kept) (hl : s.pool.history.length = c.target) :
    segmentFull c g s = writerTake (enterFree old
      (setHistory (kept ++ [g]) { s with writer := { s.writer with current := none } })) := by
  have past : c.target < (old :: (kept ++ [g])).length := by
    rw [← hl, hh, List.length_cons, List.length_cons, List.length_append, List.length_singleton]
    omega
  unfold segmentFull
  dsimp only
  rw [hh, List.cons_append, if_pos past]
  rfl

/-- R9: with history at H segments the oldest, its flag clear, enters the free list tail. -/
theorem segmentFull_trims {c : ConfigStore} {g old a : SegNo} {kept rest : List SegNo} {s : State}
    (hl : s.pool.history.length = c.target) (hh : s.pool.history = old :: kept)
    (hp : (s.header old).retirePending = false) (hf : s.pool.free ++ [old] = a :: rest) (ha : a ≠ g) :
    HandedOn g a (kept ++ [g]) rest s (segmentFull c g s) := by
  obtain ⟨ev, trimmed, _⟩ := enterFree_clear (g := old)
    (s := setHistory (kept ++ [g]) { s with writer := { s.writer with current := none } }) hp
  rw [segmentFull_past hh hl, trimmed]
  exact writerTake_handedOn hf ha rfl (fun _ => rfl)

/-- A segment handed on after its last frame, told of the state `s` before the frame. -/
theorem HandedOn.of_frame {g a : SegNo} {history free : List SegNo} {s u t : State} {framed : Header}
    (h : HandedOn g a history free u t) (hw : u.writer.discarded = s.writer.discarded) (hg : u.header g = framed)
    (ha : u.header a = s.header a) :
    t.pool.history = history ∧ t.pool.free = free ∧ t.writer = fillingFrom a s ∧ t.header g = framed
    ∧ t.header a = takenHeader (s.header a) := by
  obtain ⟨hhistory, hfree, hwriter, hfull, htaken⟩ := h
  refine ⟨hhistory, hfree, ?_, hfull.trans hg, ha ▸ htaken⟩
  rw [hwriter, fillingFrom, fillingFrom, hw]

/-- R31: the frame written in the state of the hand-over, told of the state before the row. -/
theorem writeFrame_handed (c : ConfigStore) (k n : Nat) (f : Capture) (inputs : List AnalogLevel) (g : SegNo)
    (words : List Word) (s : State) :
    let t := writeFrame n g f words (frameHanded c k f inputs s)
    t.writer = { s.writer with pos := s.writer.pos + 1 } ∧ t.pool.free = s.pool.free
    ∧ t.pool.history = s.pool.history ∧ t.pool.withdrawn = s.pool.withdrawn
    ∧ t.header g = (s.header g).framed f.stamp s.writer.pos ∧ ∀ a, a ≠ g → t.header a = s.header a := by
  have header : ∀ a, (frameHanded c k f inputs s).header a = s.header a := fun a => by simp [State.header]
  refine ⟨by simp [writeFrame_eq], by simp [writeFrame_eq], by simp [writeFrame_eq], by simp [writeFrame_eq], ?_,
    fun a ha => ?_⟩
  · rw [writeFrame_header, if_pos rfl, header, (frameHanded_frame c k f inputs s).2.1]
  · rw [writeFrame_header, if_neg ha.symm, header]

/-- Settles O37: OVERRUN, a frame inside the segment, and the frame that fills it, with and without a trim. -/
theorem frameMovesTheWriter : Obligations.FrameMovesTheWriter := by
  intro c k f inputs s h hn
  refine ⟨_, execFrameComplete_sweeping h inputs, fun hs => ?_, ?_⟩
  · rw [writerFrame_overrun (by simpa using hs)]
    simp [discardFrame, satSucc]
  · intro g hs hg framed
    have hn' : NoneCollecting (frameHanded c k f inputs s) := by simpa [NoneCollecting] using hn
    rw [writerFrame_filling (g := g) (by simpa using hs) (by simpa using hg), frameFilling_noneCollecting hn',
      (frameHanded_frame c k f inputs s).2.1]
    simp only [bankFrame_frame, bankFrame_header]
    obtain ⟨hwriter, hfree, hhistory, hwithdrawn, hframed, hother⟩ := writeFrame_handed c k (channels c) f inputs g
      (frameWords (channels c) (levelsMet inputs s)) s
    generalize writeFrame _ g f _ _ = u at hwriter hfree hhistory hwithdrawn hframed hother ⊢
    have hd : u.writer.discarded = s.writer.discarded := by rw [hwriter]
    refine ⟨fun inside => ?_, fun full hl a rest hf ha => ?_, fun full hl old kept a rest hh hold hp hf ha => ?_⟩
    · rw [if_neg (Nat.not_le_of_lt inside)]
      exact ⟨hwriter, hframed, hother, hfree, hhistory, hwithdrawn⟩
    · rw [if_pos full, ← hhistory]
      rw [← hhistory] at hl
      rw [← hfree] at hf
      exact (segmentFull_short hl hf ha).of_frame hd hframed (hother a ha)
    · rw [if_pos full]
      rw [← hhistory] at hl hh
      rw [← hfree] at hf
      rw [← hother old hold] at hp
      exact (segmentFull_trims hl hh hp hf ha).of_frame hd hframed (hother a ha)

end Sys2Proof.Machine
end

section
/-! The rules of the record controller's parts: a slot written, what the writer's take leaves of the event unit, the
completion of a record's data (R57, R12), frames held from an edge on (R51). -/

namespace Sys2Proof.Machine

open Sys2Proof.Claims

/-! ### Slots, cells and takes -/

theorem slot_setSlot_same (i : SlotNo) (r : Option Record) (s : State) : (setSlot i r s).recs.slots.get i = r := by
  rw [slot_setSlot, if_pos rfl]

theorem slot_setSlot_other {i j : SlotNo} (h : j ≠ i) (r : Option Record) (s : State) :
    (setSlot i r s).recs.slots.get j = s.recs.slots.get j := by
  rw [slot_setSlot, if_neg h.symm]

theorem setSlot_of_get {i : SlotNo} {r : Option Record} {s : State} (h : s.recs.slots.get i = r) :
    setSlot i r s = s := by
  have kept : s.recs.slots.set i r = s.recs.slots := by
    rw [← h]
    exact Vector.set_getElem_self i.isLt
  unfold setSlot
  rw [kept]

theorem setSlot_setSlot (i : SlotNo) (a b : Option Record) (s : State) :
    setSlot i a (setSlot i b s) = setSlot i a s := by
  unfold setSlot
  dsimp only
  rw [Vector.set_set]

/-- The writer hands over OVERRUN alone (R36). -/
theorem setWriter_cell {src : Source} (h : src ≠ .overrun) (w : Writer) (s : State) :
    (setWriter w s).ev.cell src = s.ev.cell src := by
  obtain ⟨ev, he, _, hcell, _⟩ := handLevel_ev .overrun (s.writer.state == .overrun) (w.state == .overrun)
    { s with writer := w }
  unfold setWriter
  rw [he]
  exact hcell src h

/-- The retirement check raises SPARE_EXHAUSTED alone (R163). -/
theorem retireCheck_cell {src : Source} (h : src ≠ .spareExhausted) (g : SegNo) (s : State) :
    (retireCheck g s).1.ev.cell src = s.ev.cell src := by
  unfold retireCheck
  split
  · split
    · simp
    · exact (cell_raise _ _ _).trans (if_neg h)
  · rfl

/-- The way through the history chain touches OVERRUN and SPARE_EXHAUSTED alone. -/
theorem takeHistory_cell {src : Source} (ho : src ≠ .overrun) (hs : src ≠ .spareExhausted) :
    ∀ (l : List SegNo) (s : State), (takeHistory l s).ev.cell src = s.ev.cell src
  | [], _ => setWriter_cell ho _ _
  | g :: l, s => by
    have checked := retireCheck_cell hs g (setHistory l s)
    unfold takeHistory
    dsimp only
    split
    · exact (setWriter_cell ho _ _).trans checked
    · exact (takeHistory_cell ho hs l _).trans checked

/-- R8: the writer's take leaves every source but the three of the pool and the writer. -/
theorem writerTake_cell {src : Source} (hf : src ≠ .freeLow) (ho : src ≠ .overrun) (hs : src ≠ .spareExhausted)
    (s : State) : (writerTake s).ev.cell src = s.ev.cell src := by
  cases h : s.pool.free with
  | nil => rw [writerTake_free_empty h, takeHistory_cell ho hs]
  | cons g rest =>
    obtain ⟨ev, he, hcell⟩ := writerTake_head h
    rw [he]
    exact hcell src hf ho

/-- The headers follow the pool. -/
theorem header_congr {s t : State} (h : t.pool = s.pool) (g : SegNo) : t.header g = s.header g := by
  unfold State.header
  rw [h]

/-- R8 step 1 told of another state with the same pool and discarded frames. -/
theorem tookHead_congr {s u t : State} (hp : u.pool = s.pool) (hd : u.writer.discarded = s.writer.discarded)
    (h : TookHead u t) : TookHead s t := by
  intro g rest hf
  obtain ⟨hwriter, hfree, hhistory, htaken, hother⟩ := h g rest (hp ▸ hf)
  refine ⟨?_, hfree, hp ▸ hhistory, header_congr hp g ▸ htaken, fun a ha => header_congr hp a ▸ hother a ha⟩
  rw [hwriter, fillingFrom, fillingFrom, hd]

/-- R36 told of another state with the same pool and discarded frames. -/
theorem writerTake_refused_of {s u : State} (hp : u.pool = s.pool) (hd : u.writer.discarded = s.writer.discarded)
    (hf : s.pool.free = []) (hh : s.pool.history = []) :
    (writerTake u).writer = overrunning s ∧ (writerTake u).pool = s.pool := by
  obtain ⟨ev, he, _⟩ := writerTake_refused (s := u) (hp ▸ hf) (hp ▸ hh)
  rw [he]
  exact ⟨by simp [overrunning, hd], hp⟩

/-! ### The data of a record complete (R57, R12) -/

/-- R57: the record once its data are complete. -/
def Record.dataEnded (r : Record) : Record :=
  { r with state := if r.window.isSome then .awaiting else .closed, pendingEdges := [] }

/-- R57, R12: the completion is the record's end and the writer's take claim, made while it holds no segment. -/
theorem completeData_claims {i : SlotNo} {r : Record} {s : State} (hi : s.recs.slots.get i = some r) :
    ∃ u, completeData i s = writerTake u ∧ u.pool = s.pool ∧ u.writer = { s.writer with current := none }
      ∧ u.recs = (setSlot i (some r.dataEnded) s).recs
      ∧ u.ev.cell .recordClosed
          = if r.window.isSome then s.ev.cell .recordClosed else raisedOnce s.ev .recordClosed := by
  unfold completeData Record.dataEnded
  simp only [hi]
  split
  next item hw =>
    replace hw : r.window = some item := hw
    exact ⟨_, rfl, rfl, rfl, by simp [hw], by simp [hw]⟩
  next hw =>
    replace hw : r.window = none := hw
    refine ⟨_, rfl, rfl, rfl, by simp [hw], ?_⟩
    rw [hw]
    exact (cell_raise _ _ _).trans (if_pos rfl)

theorem completeData_recs {i : SlotNo} {r : Record} {s : State} (hi : s.recs.slots.get i = some r) :
    (completeData i s).recs = (setSlot i (some r.dataEnded) s).recs := by
  obtain ⟨u, he, _, _, hrecs, _⟩ := completeData_claims hi
  rw [he, ← hrecs]
  simp

theorem completeData_tookHead {i : SlotNo} {r : Record} {s : State} (hi : s.recs.slots.get i = some r) :
    TookHead s (completeData i s) := by
  obtain ⟨u, he, hpool, hwriter, _⟩ := completeData_claims hi
  rw [he]
  exact tookHead_congr hpool (by rw [hwriter]) (writerTake_tookHead u)

/-- R36, R56: with both lists empty the claim that follows the completion is refused. -/
theorem completeData_refused {i : SlotNo} {r : Record} {s : State} (hi : s.recs.slots.get i = some r)
    (hf : s.pool.free = []) (hh : s.pool.history = []) :
    (completeData i s).writer = overrunning s ∧ (completeData i s).pool = s.pool := by
  obtain ⟨u, he, hpool, hwriter, _⟩ := completeData_claims hi
  rw [he]
  exact writerTake_refused_of hpool (by rw [hwriter]) hf hh

theorem completeData_recordClosed {i : SlotNo} {r : Record} {s : State} (hi : s.recs.slots.get i = some r) :
    (completeData i s).ev.cell .recordClosed
      = if r.window.isSome then s.ev.cell .recordClosed else raisedOnce s.ev .recordClosed := by
  obtain ⟨u, he, _, _, _, hcell⟩ := completeData_claims hi
  rw [he, writerTake_cell (by decide) (by decide) (by decide), hcell]

/-- R57, R12, R68. -/
theorem completeData_dataComplete {i : SlotNo} {r : Record} {s : State} (hi : s.recs.slots.get i = some r) :
    DataComplete i r s (completeData i s) := by
  have slot : (completeData i s).recs.slots.get i = some r.dataEnded := by
    rw [completeData_recs hi, slot_setSlot_same]
  have closed := completeData_recordClosed hi
  refine ⟨completeData_tookHead hi, fun j hj => ?_, fun hw => ?_, fun item hw => ?_⟩
  · rw [completeData_recs hi, slot_setSlot_other hj]
  · rw [slot, closed]
    simp [Record.dataEnded, hw]
  · rw [slot, closed]
    simp [Record.dataEnded, hw]

/-- A slot written before the completion is one with it. -/
theorem dataComplete_of_setSlot {i : SlotNo} {r : Record} {x : Option Record} {s t : State}
    (h : DataComplete i r (setSlot i x s) t) : DataComplete i r s t := by
  obtain ⟨took, other, closed, awaiting⟩ := h
  exact ⟨took, fun j hj => (other j hj).trans (slot_setSlot_other hj _ _), closed, awaiting⟩

/-! ### The frames held from an edge on (R51, R32) -/

theorem framesFrom_none {c : ConfigStore} {held : Nat} {last : Option Tick} {edge : Tick}
    (h : NoFrameFrom held last edge) : framesFrom (samplePeriod c) held last edge = none := by
  cases last with
  | none => rfl
  | some t =>
    unfold framesFrom
    rcases h t rfl with h0 | hb
    · simp [h0]
    · simp [hb]

theorem framesFrom_since {c : ConfigStore} {held : Nat} {last edge : Tick} (h0 : held ≠ 0)
    (ha : atOrAfter last edge = true) :
    framesFrom (samplePeriod c) held (some last) edge = some (framesSince c held last edge) := by
  simp [framesFrom, framesSince, ticksSince, h0, ha]

end Sys2Proof.Machine
end

section
/-! Frame reports (R51 to R59): a placed record counts, the end of its data, and the fill of its last segment. -/

namespace Sys2Proof.Machine

open Sys2Proof.Claims

/-! ### A report counted (R54, R59) -/

/-- R59: the frame of the report settles pending edges, and the post end moves once for them. -/
theorem Record.counted_settling {c : ConfigStore} {instant : Tick} {r : Record}
    (h : ∃ e ∈ r.pendingEdges, atOrAfter instant e = true) :
    r.counted c instant = { r with
      total := r.total + 1, postEnd := max r.postEnd (r.total + postFrames c),
      pendingEdges := r.pendingEdges.filter (fun e => !atOrAfter instant e) } := by
  unfold Record.counted
  rw [if_pos (List.any_eq_true.2 h)]
  rfl

/-- R54: a report that settles no edge counts one more frame. -/
theorem Record.counted_waiting {c : ConfigStore} {instant : Tick} {r : Record}
    (h : ¬ ∃ e ∈ r.pendingEdges, atOrAfter instant e = true) :
    r.counted c instant = { r with total := r.total + 1 } := by
  have kept : r.pendingEdges.filter (fun e => !atOrAfter instant e) = r.pendingEdges :=
    List.filter_eq_self.2 (fun e he => by simpa using fun hb => h ⟨e, he, hb⟩)
  unfold Record.counted
  dsimp only
  rw [if_neg (mt List.any_eq_true.1 h), kept]

theorem countReport_placed_record {c : ConfigStore} {i : SlotNo} {r : Record} {instant : Tick} {s : State}
    (hi : s.recs.slots.get i = some r) (hp : r.placed = true) :
    countReport c i instant s = setSlot i (some (r.counted c instant)) s := by
  unfold countReport
  simp only [hi, hp, if_true]

/-- R54: at the post end the data are complete, whether the frame has filled its segment or not. -/
theorem endReport_at_end {c : ConfigStore} {i : SlotNo} {q : Record} {filled : Bool} {s : State}
    (hi : s.recs.slots.get i = some q) (hp : q.placed = true) (he : q.postEnd ≤ q.total) :
    endReport c i filled s = completeData i s := by
  unfold endReport
  simp [hi, hp, he]

/-- R55: before the post end a fill leads to the collect claim. -/
theorem endReport_before_end {c : ConfigStore} {i : SlotNo} {q : Record} {filled : Bool} {s : State}
    (hi : s.recs.slots.get i = some q) (he : q.placed = true → q.total < q.postEnd) :
    endReport c i filled s = if filled then collectClaim c i s else s := by
  have open_end : ¬ (q.placed && decide (q.postEnd ≤ q.total)) = true := by
    simpa using he
  unfold endReport
  simp only [hi]
  rw [if_neg open_end]

/-- R54: the report of a placed record, `q` being the record with its frame counted. -/
theorem recordReport_placed_record {c : ConfigStore} {i : SlotNo} {r q : Record} {instant : Tick} {filled : Bool}
    {s : State} (hi : s.recs.slots.get i = some r) (hp : r.placed = true) (hq : r.counted c instant = q) :
    recordReport c i instant filled s = endReport c i filled (setSlot i (some q) s) := by
  unfold recordReport
  rw [countReport_placed_record hi hp, hq]

theorem recordReport_counts {c : ConfigStore} {i : SlotNo} {r q : Record} {instant : Tick} {s : State}
    (hi : s.recs.slots.get i = some r) (hp : r.placed = true) (hq : r.counted c instant = q)
    (he : q.total < q.postEnd) : recordReport c i instant false s = setSlot i (some q) s := by
  rw [recordReport_placed_record hi hp hq, endReport_before_end (slot_setSlot_same i _ s) (fun _ => he)]
  rfl

theorem recordReport_completes {c : ConfigStore} {i : SlotNo} {r q : Record} {instant : Tick} {s : State}
    (hi : s.recs.slots.get i = some r) (hp : r.placed = true) (hq : r.counted c instant = q)
    (hqp : q.placed = true) (he : q.postEnd ≤ q.total) :
    recordReport c i instant true s = recordReport c i instant false s
    ∧ DataComplete i q s (recordReport c i instant false s) := by
  have slot := slot_setSlot_same i (some q) s
  rw [recordReport_placed_record hi hp hq, recordReport_placed_record hi hp hq, endReport_at_end slot hqp he,
    endReport_at_end slot hqp he]
  exact ⟨rfl, dataComplete_of_setSlot (completeData_dataComplete slot)⟩

/-- Settles O38: the report with and without edges settled, before the post end and at it. -/
theorem frameReportGrowsAPlacedRecord : Obligations.FrameReportGrowsAPlacedRecord := by
  intro c i r instant s hi _ hp t full settles waiting
  refine ⟨fun hs he => ?_, fun hs he => ?_, fun hn he => ?_, fun hn he => ?_, fun hnil => ⟨fun he => ?_, fun he => ?_⟩⟩
  · exact recordReport_counts hi hp (Record.counted_settling hs) he
  · exact recordReport_completes hi hp (Record.counted_settling hs) hp he
  · exact recordReport_counts hi hp (Record.counted_waiting hn) he
  · exact recordReport_completes hi hp (Record.counted_waiting hn) hp he
  · exact recordReport_counts hi hp (Record.counted_waiting (by simp [hnil])) he
  · obtain ⟨same, took, other, closed, awaiting⟩ :=
      recordReport_completes hi hp (Record.counted_waiting (c := c) (instant := instant) (by simp [hnil])) hp he
    simp only [← hnil] at closed awaiting
    exact ⟨same, took, other, closed, awaiting⟩

/-! ### The fill of a record's last segment (R53, R55, R56) -/

/-- R55: at Lmax the data of a placed record are complete. -/
theorem collectClaim_at_limit {c : ConfigStore} {i : SlotNo} {r : Record} {s : State}
    (hi : s.recs.slots.get i = some r) (hp : r.placed = true) (hl : maxChain c ≤ r.chain.length) :
    collectClaim c i s
      = completeData i (setSlot i (some { r with flags := { r.flags with extendCapped := r.wasExtended c } }) s) := by
  unfold collectClaim
  simp [hi, hp, hl]

/-- R55: the free list's head joins the chain and is begun. -/
theorem collectClaim_takes {c : ConfigStore} {i : SlotNo} {r : Record} {s : State} {a : SegNo} {rest : List SegNo}
    (hi : s.recs.slots.get i = some r) (hl : r.placed = true → r.chain.length < maxChain c)
    (hf : s.pool.free = a :: rest) :
    collectClaim c i s
      = beginSegment a (takeHeader a (setSlot i (some { r with chain := r.chain ++ [a] }) (setFree rest s))) := by
  have room : ¬ (r.placed && decide (maxChain c ≤ r.chain.length)) = true := by simpa using hl
  unfold collectClaim popFree
  simp only [hi, hf]
  rw [if_neg room]
  rfl

/-- R56: with the free list empty the data are complete and truncated. -/
theorem collectClaim_truncates {c : ConfigStore} {i : SlotNo} {r : Record} {s : State}
    (hi : s.recs.slots.get i = some r) (hl : r.placed = true → r.chain.length < maxChain c)
    (hf : s.pool.free = []) :
    let p := r.placedWithout c (framesIn s r.chain)
    collectClaim c i s
      = completeData i (setSlot i (some { p with flags := { p.flags with truncated := true } }) s) := by
  have room : ¬ (r.placed && decide (maxChain c ≤ r.chain.length)) = true := by simpa using hl
  unfold collectClaim popFree
  simp only [hi, hf]
  rw [if_neg room]
  rfl

/-- R5, R8: the head of the free list, taken and begun. -/
theorem begun_tookHead {s u : State} {a : SegNo} {rest : List SegNo} (hf : s.pool.free = a :: rest)
    (hp : u.pool = { s.pool with free := rest }) (hw : u.writer = s.writer) :
    TookHead s (beginSegment a (takeHeader a u)) := by
  intro g l hg
  obtain ⟨rfl, rfl⟩ := List.cons.inj (hf.symm.trans hg)
  have header : ∀ b, u.header b = s.header b := fun b => by
    unfold State.header
    rw [hp]
  obtain ⟨hfree, hhistory⟩ := begun_lists a u
  refine ⟨begun_writer hw, by rw [hfree, hp], by rw [hhistory, hp], ?_, fun b hb => ?_⟩
  · rw [begun_header, if_pos rfl, header]
  · rw [begun_header, if_neg hb.symm, header]

/-- R55: what the record and the writer are after the collect claim took the head. -/
theorem collectClaim_took {c : ConfigStore} {i : SlotNo} {r : Record} {s : State} {a : SegNo} {rest : List SegNo}
    (hi : s.recs.slots.get i = some r) (hl : r.placed = true → r.chain.length < maxChain c)
    (hf : s.pool.free = a :: rest) :
    (collectClaim c i s).recs.slots.get i = some { r with chain := r.chain ++ [a] }
    ∧ TookHead s (collectClaim c i s) := by
  rw [collectClaim_takes hi hl hf]
  refine ⟨?_, begun_tookHead hf (by simp) (by simp)⟩
  simp only [beginSegment_frame, takeHeader_frame]
  exact slot_setSlot_same _ _ _

/-- R51: an unplaced record stands while no held frame lies at or after the edge. -/
theorem fixTrigger_unheld {c : ConfigStore} {i : SlotNo} {r : Record} {s : State} (hi : s.recs.slots.get i = some r)
    (hp : r.placed = false) (hn : NoFrameFrom (framesIn s r.chain) s.recs.lastReport r.edgeTick) :
    fixTrigger c i s = s := by
  have none_from : framesFrom (samplePeriod c) (heldFrames s r.chain) s.recs.lastReport r.edgeTick = none :=
    framesFrom_none hn
  unfold fixTrigger
  simp [hi, hp, none_from]

theorem Record.settled_unplaced {c : ConfigStore} {instant : Tick} {r : Record} (hp : r.placed = false) :
    r.settled c instant = r := by
  unfold Record.settled
  dsimp only
  rw [if_neg (by simp [hp]), if_neg (by simp [hp])]

theorem countReport_unheld {c : ConfigStore} {i : SlotNo} {r : Record} {instant : Tick} {s : State}
    (hi : s.recs.slots.get i = some r) (hp : r.placed = false)
    (hn : NoFrameFrom (framesIn s r.chain) s.recs.lastReport r.edgeTick) : countReport c i instant s = s := by
  unfold countReport
  simp only [hi, hp, fixTrigger_unheld hi hp hn, Option.map_some, Record.settled_unplaced hp, Bool.false_eq_true,
    if_false]
  exact setSlot_of_get hi

theorem recordReport_unheld {c : ConfigStore} {i : SlotNo} {r : Record} {instant : Tick} {filled : Bool} {s : State}
    (hi : s.recs.slots.get i = some r) (hp : r.placed = false)
    (hn : NoFrameFrom (framesIn s r.chain) s.recs.lastReport r.edgeTick) :
    recordReport c i instant filled s = if filled then collectClaim c i s else s := by
  unfold recordReport
  rw [countReport_unheld hi hp hn, endReport_before_end hi (by simp [hp])]

/-- R54, R55: the fill by a frame that does not complete a placed record. -/
theorem recordReport_fills {c : ConfigStore} {i : SlotNo} {r : Record} {instant : Tick} {s : State}
    (hi : s.recs.slots.get i = some r) (hp : r.placed = true) (hnil : r.pendingEdges = [])
    (he : r.total + 1 < r.postEnd) :
    recordReport c i instant true s = collectClaim c i (setSlot i (some { r with total := r.total + 1 }) s) := by
  rw [recordReport_placed_record hi hp (Record.counted_waiting (by simp [hnil])),
    endReport_before_end (slot_setSlot_same _ _ _) (fun _ => he)]
  rfl

/-- R55, R56, R57: a last write to the record's slot, then the completion: the record, and the claim as the state
before the write has it. -/
theorem completeData_setSlot (i : SlotNo) (q : Record) (s : State) :
    (completeData i (setSlot i (some q) s)).recs.slots.get i = some q.dataEnded
    ∧ TookHead s (completeData i (setSlot i (some q) s))
    ∧ (s.pool.free = [] → s.pool.history = [] →
        (completeData i (setSlot i (some q) s)).writer = overrunning s
        ∧ (completeData i (setSlot i (some q) s)).pool = s.pool) := by
  have slot := slot_setSlot_same i (some q) s
  have took := completeData_tookHead slot
  refine ⟨?_, took, completeData_refused slot⟩
  rw [completeData_recs slot, slot_setSlot_same]

/-- Settles O39: the collect claim of an unplaced record, then of a placed one, each by the room in the chain and the
free list. -/
theorem fillOfARecordsLastSegmentClaimsAnother : Obligations.FillOfARecordsLastSegmentClaimsAnother := by
  intro c i r instant s hi _ t done held
  refine ⟨fun hp hn => ?_, fun hp hnil he => ?_⟩
  · have claims : t = collectClaim c i s := recordReport_unheld hi hp hn
    have room : r.placed = true → r.chain.length < maxChain c := by simp [hp]
    rw [claims]
    refine ⟨fun a rest hf => collectClaim_took hi room hf, fun hf => ?_⟩
    obtain ⟨slot, -, refused⟩ := completeData_setSlot i { r.placedWithout c held with
      flags := { (r.placedWithout c held).flags with truncated := true } } s
    rw [collectClaim_truncates hi room hf]
    refine ⟨slot.trans ?_, refused hf⟩
    simp [Record.dataEnded, Record.placedWithout, hp, done]
  · have claims : t = collectClaim c i (setSlot i (some { r with total := r.total + 1 }) s) :=
      recordReport_fills hi hp hnil he
    have counted := slot_setSlot_same i (some { r with total := r.total + 1 }) s
    rw [claims]
    refine ⟨fun hl => ?_, fun hl a rest hf => collectClaim_took counted (fun _ => hl) hf, fun hl hf => ?_⟩
    · rw [collectClaim_at_limit counted hp hl, setSlot_setSlot]
      obtain ⟨slot, took, -⟩ := completeData_setSlot i _ s
      refine ⟨slot.trans ?_, took⟩
      simp [Record.dataEnded, Record.wasExtended, hnil, done]
    · rw [collectClaim_truncates counted (fun _ => hl) hf, setSlot_setSlot]
      obtain ⟨slot, -, refused⟩ := completeData_setSlot i _ s
      refine ⟨slot.trans ?_, refused hf⟩
      simp [Record.dataEnded, Record.placedWithout, hp, hnil, done]

end Sys2Proof.Machine
end

section
/-! Placement (R51, R52): the chain's lead split off, the record placed, and the frame report that places it. -/

namespace Sys2Proof.Machine

open Sys2Proof.Claims

/-! ### The lead of a chain (R52) -/

/-- R52: the chain is split at the segment that holds frame `n`, or at its last one. -/
theorem splitLead_spec (valid : SegNo → Nat) (l : List SegNo) (n : Nat) (hl : l ≠ []) :
    ∃ lead first kept offset, splitLead valid l n = (lead, first :: kept, offset) ∧ l = lead ++ first :: kept
      ∧ (lead.map valid).sum + offset = n ∧ (kept ≠ [] → offset < valid first) := by
  induction l, n using splitLead.induct valid with
  | case1 => exact absurd rfl hl
  | case2 g n => exact ⟨[], g, [], n, rfl, rfl, by simp, fun h => absurd rfl h⟩
  | case3 g h r n hv ih =>
    obtain ⟨lead, first, kept, offset, hsplit, hchain, hsum, hin⟩ := ih (List.cons_ne_nil h r)
    refine ⟨g :: lead, first, kept, offset, ?_, by rw [hchain, List.cons_append], ?_, hin⟩
    · rw [splitLead, if_pos hv, hsplit]
    · rw [List.map_cons, List.sum_cons]
      omega
  | case4 g h r n hv =>
    refine ⟨[], g, h :: r, n, ?_, rfl, by simp, fun _ => Nat.lt_of_not_le hv⟩
    rw [splitLead, if_neg hv]

/-! ### The record placed (R52) -/

/-- R52: the record `r` placed with `pre` frames before the trigger frame and `m` from it on. -/
def Record.placedAt (c : ConfigStore) (chain : List SegNo) (offset pre m : Nat) (short : Bool) (r : Record) : Record :=
  { r with
    chain := chain, firstOffset := offset, trigIndex := pre, total := pre + m, postEnd := pre + postFrames c,
    placed := true, flags := { r.flags with preShort := short } }

/-- R52: the true trigger frame is not held: every held frame is kept. -/
theorem placeRecord_missing {c : ConfigStore} {i : SlotNo} {r : Record} {m : Nat} {s : State}
    {lead chain : List SegNo} {offset : Nat}
    (hm : frameMissing (samplePeriod c) m s.recs.lastReport r.edgeTick = true)
    (hs : splitLead (fun g => (s.header g).valid) r.chain 0 = (lead, chain, offset)) :
    placeRecord c i r m s = returnAll lead (setSlot i (some (r.placedAt c chain offset 0 m true)) s) := by
  unfold placeRecord Record.placedAt
  simp [hm, hs]

/-- R52: the true trigger frame is held, `before` of the held frames before it. -/
theorem placeRecord_held {c : ConfigStore} {i : SlotNo} {r : Record} {m before : Nat} {s : State}
    {lead chain : List SegNo} {offset : Nat}
    (hm : frameMissing (samplePeriod c) m s.recs.lastReport r.edgeTick = false)
    (hb : framesIn s r.chain - m = before)
    (hs : splitLead (fun g => (s.header g).valid) r.chain (before - min (preFrames c) before)
      = (lead, chain, offset)) :
    placeRecord c i r m s = returnAll lead
      (setSlot i (some (r.placedAt c chain offset (min (preFrames c) before) m (before < preFrames c))) s) := by
  replace hb : heldFrames s r.chain - m = before := hb
  unfold placeRecord Record.placedAt
  simp [hm, hb, hs]

/-- R52: what every placement makes of the record: it waits for the post frames, its pending edges standing. -/
theorem placeRecord_slot (c : ConfigStore) (i : SlotNo) (r : Record) (m : Nat) (s : State) :
    ∃ chain offset pre short,
      (placeRecord c i r m s).recs.slots.get i = some (r.placedAt c chain offset pre m short) := by
  unfold placeRecord Record.placedAt
  dsimp only
  rw [(returnAll_frame _ _).2.2.2.2.1]
  exact ⟨_, _, _, _, slot_setSlot_same _ _ _⟩

/-- R52, R13: a slot written and a lead with no flag set returned: the slot, the free list, and nothing else. -/
theorem returnAll_setSlot_clear {lead : List SegNo} {s : State} (h : ∀ g ∈ lead, (s.header g).retirePending = false)
    (i : SlotNo) (x : Option Record) :
    let t := returnAll lead (setSlot i x s)
    t.recs.slots.get i = x ∧ t.pool.free = s.pool.free ++ lead ∧ (∀ g, t.header g = s.header g)
    ∧ (∀ j, j ≠ i → t.recs.slots.get j = s.recs.slots.get j) ∧ t.writer = s.writer := by
  obtain ⟨ev, he, _⟩ := returnAll_clear lead (setSlot i x s) h
  dsimp only
  rw [he]
  exact ⟨slot_setSlot_same i x s, rfl, fun _ => rfl, fun j hj => slot_setSlot_other hj x s, rfl⟩

/-- R52: the true trigger frame is missing when the oldest of the `m` frames lies Ts or more past the edge. -/
theorem frameMissing_iff {c : ConfigStore} {m : Nat} {last edge : Tick} :
    frameMissing (samplePeriod c) m (some last) edge = true
      ↔ samplePeriod c ≤ (last - edge).toNat - (m - 1) * samplePeriod c :=
  decide_eq_true_iff

/-! ### The report that places (R51, R59) -/

theorem fixTrigger_held {c : ConfigStore} {i : SlotNo} {r : Record} {last : Tick} {s : State}
    (hi : s.recs.slots.get i = some r) (hp : r.placed = false) (hl : s.recs.lastReport = some last)
    (h0 : framesIn s r.chain ≠ 0) (ha : atOrAfter last r.edgeTick = true) :
    fixTrigger c i s = placeRecord c i r (framesSince c (framesIn s r.chain) last r.edgeTick) s := by
  have fixed : framesFrom (samplePeriod c) (heldFrames s r.chain) s.recs.lastReport r.edgeTick
      = some (framesSince c (framesIn s r.chain) last r.edgeTick) := hl ▸ framesFrom_since h0 ha
  unfold fixTrigger
  simp [hi, hp, fixed]

/-- R59: a placed record after the edges that its placing frame reaches are settled. -/
theorem Record.settled_placed {c : ConfigStore} {instant : Tick} {q : Record} (hp : q.placed = true) :
    q.settled c instant = { q with
      pendingEdges := q.pendingEdges.filter (fun e => !atOrAfter instant e),
      postEnd := if ∃ e ∈ q.pendingEdges, atOrAfter instant e = true
        then max q.postEnd (q.total - 1 + postFrames c) else q.postEnd } := by
  unfold Record.settled Record.extended
  by_cases hs : ∃ e ∈ q.pendingEdges, atOrAfter instant e = true
  · simp [hp, List.any_eq_true.2 hs, hs]
  · simp [hp, mt List.any_eq_true.1 hs, hs]

/-- R51, R54, R59: the report that places the record, `q` being the record placed. -/
theorem recordReport_places {c : ConfigStore} {i : SlotNo} {r q : Record} {instant last : Tick} {s : State}
    (hi : s.recs.slots.get i = some r) (hp : r.placed = false) (hl : s.recs.lastReport = some last)
    (h0 : framesIn s r.chain ≠ 0) (ha : atOrAfter last r.edgeTick = true)
    (hq : (placeRecord c i r (framesSince c (framesIn s r.chain) last r.edgeTick) s).recs.slots.get i = some q) :
    recordReport c i instant false s
      = endReport c i false (setSlot i (some (q.settled c instant))
          (placeRecord c i r (framesSince c (framesIn s r.chain) last r.edgeTick) s)) := by
  have counted : countReport c i instant s = setSlot i (some (q.settled c instant))
      (placeRecord c i r (framesSince c (framesIn s r.chain) last r.edgeTick) s) := by
    unfold countReport
    simp only [hi, hp, fixTrigger_held hi hp hl h0 ha, hq, Option.map_some, Bool.false_eq_true, if_false]
  unfold recordReport
  rw [counted]

/-- Settles O41: placement without and with the true trigger frame, and the report that brings it about. -/
theorem placementKeepsThePreTriggerFrames : Obligations.PlacementKeepsThePreTriggerFrames := by
  intro c i r m last s hl _ _ hclear hne missing before pre t
  have lead_clear : ∀ {lead rest}, r.chain = lead ++ rest → ∀ g ∈ lead, (s.header g).retirePending = false :=
    fun hc g hg => hclear g (by rw [hc]; exact List.mem_append_left _ hg)
  refine ⟨fun hm _ => ?_, fun instant hi hp => ?_, fun hm => ?_⟩
  · obtain ⟨lead, first, kept, offset, hs, hc, hsum, _⟩ := splitLead_spec (fun g => (s.header g).valid) r.chain 0 hne
    have ht : t = returnAll lead (setSlot i (some (r.placedAt c (first :: kept) offset 0 m true)) s) :=
      placeRecord_missing (hl ▸ frameMissing_iff.2 hm) hs
    obtain ⟨slot, rest⟩ := returnAll_setSlot_clear (lead_clear hc) i
      (some (r.placedAt c (first :: kept) offset 0 m true))
    obtain ⟨hlead, hoffset⟩ := Nat.add_eq_zero_iff.1 hsum
    refine ⟨lead, kept, first, hc, hlead, ?_, ht ▸ rest⟩
    rw [ht, slot]
    simp [Record.placedAt, hoffset]
  · intro u
    refine ⟨fun hn => recordReport_unheld hi hp (hl ▸ hn), fun h0 ha hmq q hq => ?_⟩
    intro settles settled
    subst hmq
    obtain ⟨chain, offset, pre', short, placed⟩ := placeRecord_slot c i r _ s
    obtain rfl : r.placedAt c chain offset pre' _ short = q := Option.some.inj (placed.symm.trans hq)
    have report := recordReport_places (instant := instant) hi hp hl h0 ha hq
    rw [Record.settled_placed rfl] at report
    have slot := slot_setSlot_same i (some settled) t
    refine ⟨fun he => report.trans (endReport_before_end slot (fun _ => he)), fun he => ?_⟩
    have complete : u = completeData i (setSlot i (some settled) t) := report.trans (endReport_at_end slot rfl he)
    rw [complete]
    exact dataComplete_of_setSlot (completeData_dataComplete slot)
  · obtain ⟨lead, first, kept, offset, hs, hc, hsum, hin⟩ :=
      splitLead_spec (fun g => (s.header g).valid) r.chain (before - pre) hne
    have ht : t = _ := placeRecord_held (hl ▸ Bool.eq_false_iff.2 (mt frameMissing_iff.1 hm)) rfl hs
    obtain ⟨slot, rest⟩ := returnAll_setSlot_clear (lead_clear hc) i
      (some (r.placedAt c (first :: kept) offset pre m (before < preFrames c)))
    exact ⟨lead, kept, first, offset, hc, hsum, hin, ht ▸ slot, ht ▸ rest⟩

end Sys2Proof.Machine
end

section
/-! Trigger events (R46 to R51, R58 to R60): the opening of a record, the missed trigger, the retrigger. -/

namespace Sys2Proof.Machine

open Sys2Proof.Claims

/-! ### The opening of a record (R44, R47) -/

/-- R47: the free slot found is the lowest-numbered one. -/
theorem freeSlot_lowest {i : SlotNo} {s : State} (hi : s.recs.slots.get i = none)
    (hlow : ∀ j, j < i → s.recs.slots.get j ≠ none) : freeSlot s = some i := by
  unfold freeSlot
  rw [List.find?_eq_some_iff_getElem]
  refine ⟨by simp [hi], i.val, by simp, by simp, fun k hk => ?_⟩
  have used := hlow ⟨k, Nat.lt_trans hk i.isLt⟩ hk
  simpa [Option.isSome_iff_ne_none] using used

theorem freeSlot_none {s : State} (h : ∀ j, s.recs.slots.get j ≠ none) : freeSlot s = none := by
  unfold freeSlot
  rw [List.find?_eq_none]
  intro j _
  simpa using h j

/-- R44: a gap of 32768 or more behind the next sequence number. -/
theorem sequenceGap_iff {s : State} :
    sequenceGap s = true ↔ ∃ j r, s.recs.slots.get j = some r ∧ 32768 ≤ (s.recs.seq - r.sequence).toNat := by
  unfold sequenceGap
  simp only [List.any_eq_true, List.mem_finRange, true_and, Option.any_eq_true, decide_eq_true_eq]

/-- R10, R47: the state in which the record `r` of slot i has taken the history chain. -/
def recordOpened (i : SlotNo) (r : Record) (s : State) : State :=
  { s with
    pool := { s.pool with history := [] },
    recs := { s.recs with seq := s.recs.seq + 1, slots := s.recs.slots.set i (some r) } }

theorem recordOpened_slot (i : SlotNo) (r : Record) (s : State) :
    (recordOpened i r s).recs.slots.get i = some r := slot_setSlot_same i (some r) s

/-- R47, R51, R54: a record opens, its trigger frame is fixed if it is held, and its end is checked. -/
theorem openRecord_opens {c : ConfigStore} {edge : Capture} {cause : Option Cause} {s : State} {i : SlotNo} {g : SegNo}
    (hi : freeSlot s = some i) (hgap : sequenceGap s = false) (hg : s.writer.current = some g) :
    openRecord c edge cause s = completeAtEnd i (fixTrigger c i
      (recordOpened i (Record.opened s.recs.seq edge cause (s.pool.history ++ [g])) s)) := by
  unfold openRecord
  rw [hi, hgap, hg]
  rfl

/-- R48: with no FREE slot, a sequence gap or no segment in the writer the event is missed. -/
theorem openRecord_misses {c : ConfigStore} {edge : Capture} {cause : Option Cause} {s : State}
    (h : freeSlot s = none ∨ sequenceGap s = true ∨ s.writer.current = none) :
    openRecord c edge cause s = missTrigger s := by
  unfold openRecord
  split
  next hi hgap hg => simp [hi, hgap, hg] at h
  · rfl

/-- R48, R170: what a missed trigger changes. -/
theorem missTrigger_counts (s : State) :
    ∃ ev, missTrigger s = { s with recs := { s.recs with missed := min 255 (s.recs.missed + 1) }, ev := ev }
      ∧ ev.cell .triggerMissed = raisedOnce s.ev .triggerMissed
      ∧ ∀ src : Source, src ≠ .triggerMissed → ev.cell src = s.ev.cell src := by
  refine ⟨_, rfl, (cell_raise _ _ s).trans (if_pos rfl), fun src hs => (cell_raise _ _ s).trans (if_neg hs)⟩

/-- R54: a record that is not placed, or short of its post end, stands. -/
theorem completeAtEnd_before {i : SlotNo} {q : Record} {s : State} (hi : s.recs.slots.get i = some q)
    (he : q.placed = true → q.total < q.postEnd) : completeAtEnd i s = s := by
  have open_end : ¬ (q.placed && decide (q.postEnd ≤ q.total)) = true := by simpa using he
  unfold completeAtEnd
  simp only [hi]
  rw [if_neg open_end]

theorem completeAtEnd_completes {i : SlotNo} {q : Record} {s : State} (hi : s.recs.slots.get i = some q)
    (hp : q.placed = true) (he : q.postEnd ≤ q.total) : completeAtEnd i s = completeData i s := by
  unfold completeAtEnd
  simp [hi, hp, he]

/-! ### The trigger event by the records (R46, R58) -/

/-- R46: with no record OPEN the event goes to the opening. -/
theorem triggerEvent_noneOpen {c : ConfigStore} {edge : Capture} {cause : Option Cause} {s : State}
    (hr : s.ctl.state = .running) (hn : NoneOpen s) : triggerEvent c edge cause s = openRecord c edge cause s := by
  have none_found : openSlot s = none := findRecord_none (fun j r hj => by simp [Record.isOpen, hn j r hj])
  unfold triggerEvent
  rw [if_pos hr, none_found]

/-- R58: the event is the retrigger of the one OPEN record. -/
theorem triggerEvent_onlyOpen {c : ConfigStore} {edge : Capture} {cause : Option Cause} {i : SlotNo} {r : Record}
    {s : State} (hr : s.ctl.state = .running) (ho : OnlyOpen i r s) :
    triggerEvent c edge cause s = setSlot i
      (some ((r.logged edge cause).retriggerEnd c (framesIn s r.chain) s.recs.lastReport edge.tick)) s := by
  obtain ⟨hi, hopen, hothers⟩ := ho
  have found : openSlot s = some i :=
    findRecord_only hi (by simpa [Record.isOpen] using hopen)
      (fun j r' hj hs => by simp [Record.isOpen, hothers j r' hj hs])
  unfold triggerEvent
  rw [if_pos hr, found]
  simp only [hi]
  rfl

/-- Settles O40: the opening by where the trigger frame lies, the missed trigger, and the event in another state. -/
theorem triggerEventOpensARecordOrIsMissed : Obligations.TriggerEventOpensARecordOrIsMissed := by
  intro c edge cause s
  refine ⟨fun hr => if_neg hr, fun hr hn => ⟨fun i g hi hlow hseq hg => ?_, fun hmiss => ?_⟩⟩
  · intro r opened held
    have no_gap : sequenceGap s = false := Bool.eq_false_iff.2 (fun hgap => by
      obtain ⟨j, q, hj, hq⟩ := sequenceGap_iff.1 hgap
      exact absurd (hseq j q hj) (Nat.not_lt_of_le hq))
    have event : triggerEvent c edge cause s = completeAtEnd i (fixTrigger c i opened) :=
      (triggerEvent_noneOpen hr hn).trans (openRecord_opens (freeSlot_lowest hi hlow) no_gap hg)
    have slot : opened.recs.slots.get i = some r := recordOpened_slot i r s
    refine ⟨fun hf => ?_, fun last hl h0 ha => ?_⟩
    · rw [event, fixTrigger_unheld slot rfl hf, completeAtEnd_before slot (fun hp => nomatch hp)]
    · intro m
      have fixed : fixTrigger c i opened = placeRecord c i r m opened := fixTrigger_held slot rfl hl h0 ha
      rw [fixed] at event
      obtain ⟨chain, offset, pre, short, placed⟩ := placeRecord_slot c i r m opened
      refine ⟨fun hm => ?_, fun hm q hq => ?_⟩
      · exact event.trans (completeAtEnd_before placed (fun _ => Nat.add_lt_add_left hm pre))
      · obtain rfl : r.placedAt c chain offset pre m short = q := Option.some.inj (placed.symm.trans hq)
        rw [event, completeAtEnd_completes placed rfl (Nat.add_le_add_left hm pre)]
        exact completeData_dataComplete placed
  · rw [triggerEvent_noneOpen hr hn, openRecord_misses (hmiss.imp freeSlot_none (Or.imp_left sequenceGap_iff.2))]
    exact missTrigger_counts s

/-! ### The retrigger (R58 to R60) -/

/-- R58: an entry with its window pending while there are fewer than 4, else an overflow count. -/
theorem Record.logged_eq (edge : Capture) (cause : Option Cause) (r : Record) :
    r.logged edge cause = if r.retrigs.length < 4 then
      { r with
        retrigs := r.retrigs ++ [{ stamp := edge.stamp, origin := none, cause := cause }],
        window := some (.retrigger r.retrigs.length) }
    else { r with overflow := min 255 (r.overflow + 1), window := none } := rfl

/-- R58: the entry or the count leaves what the collection works on. -/
theorem Record.logged_keeps (edge : Capture) (cause : Option Cause) (r : Record) :
    (r.logged edge cause).state = r.state ∧ (r.logged edge cause).placed = r.placed
    ∧ (r.logged edge cause).pendingEdges = r.pendingEdges ∧ (r.logged edge cause).postEnd = r.postEnd
    ∧ (r.logged edge cause).firstOffset = r.firstOffset := by
  rw [Record.logged_eq]
  split <;> simp

/-- R60, R58: in LOG mode, and while the record is AWAITING, the post end stands. -/
theorem Record.retriggerEnd_logOnly {c : ConfigStore} {held : Nat} {last : Option Tick} {edge : Tick} {q : Record}
    (h : extendMode c = false ∨ q.state ≠ .collecting) : q.retriggerEnd c held last edge = q := by
  unfold Record.retriggerEnd
  rw [if_neg]
  rcases h with h | h <;> simp [h]

/-- R59: an edge whose frame is not yet held waits. -/
theorem Record.retriggerEnd_waits {c : ConfigStore} {held : Nat} {last : Option Tick} {edge : Tick} {q : Record}
    (hx : extendMode c = true) (hq : q.state = .collecting) (hn : NoFrameFrom held last edge) :
    q.retriggerEnd c held last edge = { q with pendingEdges := q.pendingEdges ++ [edge] } := by
  unfold Record.retriggerEnd
  rw [if_pos (by simp [hx, hq]), framesFrom_none hn]
  cases q.placed <;> rfl

/-- R59: an edge whose frame is held moves the post end at once. -/
theorem Record.retriggerEnd_held {c : ConfigStore} {held : Nat} {last edge : Tick} {q : Record}
    (hx : extendMode c = true) (hq : q.state = .collecting) (hp : q.placed = true) (h0 : held ≠ 0)
    (ha : atOrAfter last edge = true) :
    q.retriggerEnd c held (some last) edge
      = q.extended c (held - framesSince c held last edge - q.firstOffset) := by
  unfold Record.retriggerEnd
  rw [if_pos (by simp [hx, hq]), hp, framesFrom_since h0 ha]

/-- Settles O42: the retrigger logged, then its post end by the mode and the frames held. -/
theorem triggerEventOfAnOpenRecordIsARetrigger : Obligations.TriggerEventOfAnOpenRecordIsARetrigger := by
  intro c edge cause i r s hr ho entry logged counted taken
  have event := triggerEvent_onlyOpen (c := c) (edge := edge) (cause := cause) hr ho
  obtain ⟨hstate, hplaced, hedges, hend, hoffset⟩ := Record.logged_keeps edge cause r
  refine ⟨fun h => ?_, fun hx hq hn => ?_, fun last hx hq hp hl ha h0 => ?_⟩
  · rw [event, Record.retriggerEnd_logOnly (h.imp_right (fun e => by simp [hstate, e]))]
    rfl
  · rw [event, Record.retriggerEnd_waits hx (hstate.trans hq) (fun t ht => .inr (hn t ht)), hedges]
    rfl
  · rw [event, hl, Record.retriggerEnd_held hx (hstate.trans hq) (hplaced.trans hp) h0 ha, hoffset,
      Record.extended, hend]
    rfl

end Sys2Proof.Machine
end

section
/-! The host's commands about records (R70 to R72): the response laid out slot by slot, the refusals in their order
(R199), and the release of a record. -/

namespace Sys2Proof.Machine

open Sys2Proof.Claims

/-! ### Commands and their slot argument (R195, R199) -/

/-- R195: a command in the command phase leaves its effect, with its response in the port. -/
theorem hostCommand_answered {code : Byte} {args response : List Byte} {f : State → State × List Byte} {s t : State}
    (h : InCommand s) (hf : f s = (t, response)) : hostCommand code args f s = answered t code args response := by
  rw [hostCommand_in_command h.1 h.2, hf]
  rfl

theorem withSlot_above {slot : Byte} {s : State} {f : SlotNo → Option Record → State × List Byte}
    (h : 15 < slot.toNat) : withSlot slot s f = (s, [0x03]) :=
  dif_neg (Nat.not_lt_of_le h)

theorem withSlot_within {slot : Byte} {s : State} {f : SlotNo → Option Record → State × List Byte}
    {found : Option Record} (h : slot.toNat < 16) (hr : s.recs.slots.get ⟨slot.toNat, h⟩ = found) :
    withSlot slot s f = f ⟨slot.toNat, h⟩ found := by
  unfold withSlot
  rw [dif_pos h, hr]

/-- R199: a command that answers BAD_STATE for a slot that is not CLOSED. -/
theorem withSlot_notClosed {slot : Byte} {s : State} {f : SlotNo → Option Record → State × List Byte}
    (h : slot.toNat < 16) (hn : ∀ r, s.recs.slots.get ⟨slot.toNat, h⟩ = some r → r.state ≠ .closed)
    (hfree : f ⟨slot.toNat, h⟩ none = (s, [0x02]))
    (hopen : ∀ r, r.state ≠ .closed → f ⟨slot.toNat, h⟩ (some r) = (s, [0x02])) :
    withSlot slot s f = (s, [0x02]) := by
  cases hi : s.recs.slots.get ⟨slot.toNat, h⟩ with
  | none => exact (withSlot_within h hi).trans hfree
  | some r => exact (withSlot_within h hi).trans (hopen r (hn r hi))

/-! ### The layout of the responses (R198, R201) -/

/-- A response of parts of one length, read at its n-th part. -/
theorem take_drop_flatMap {α β : Type} {f : α → List β} {k : Nat} (hk : ∀ a, (f a).length = k) :
    ∀ (l : List α) (n : Nat) (h : n < l.length), ((l.flatMap f).drop (k * n)).take k = f l[n]
  | [], _, h => absurd h (Nat.not_lt_zero _)
  | a :: l, 0, _ => by
    rw [List.flatMap_cons, Nat.mul_zero, List.drop_zero, List.take_left' (hk a)]
    rfl
  | a :: l, n + 1, h => by
    have later := take_drop_flatMap hk l n (Nat.lt_of_succ_lt_succ h)
    rw [List.flatMap_cons, Nat.mul_succ, Nat.add_comm, ← List.drop_drop, List.drop_left' (hk a), later,
      List.getElem_cons_succ]

theorem length_flatMap_fixed {α β : Type} {f : α → List β} {k : Nat} (hk : ∀ a, (f a).length = k) :
    ∀ l : List α, (l.flatMap f).length = k * l.length
  | [] => rfl
  | a :: l => by
    rw [List.flatMap_cons, List.length_append, hk, length_flatMap_fixed hk l, List.length_cons, Nat.mul_succ,
      Nat.add_comm]

theorem length_slotBytes (r : Option Record) : (slotBytes r).length = 3 := by
  cases r <;> rfl

theorem length_stampBytes (t : Timestamp) : (stampBytes t).length = 5 := rfl

theorem length_optStampBytes (t : Option Timestamp) : (optStampBytes t).length = 5 := by
  cases t <;> rfl

theorem length_originBytes (origin : Option IdSet) : (originBytes origin).length = 4 := by
  cases origin <;> rfl

theorem length_causeBytes (cause : Option Cause) : (causeBytes cause).length = 7 := by
  cases cause <;> rfl

theorem length_retriggerBytes (e : Retrigger) : (retriggerBytes e).length = 17 := by
  simp [retriggerBytes, length_stampBytes, length_originBytes, length_causeBytes]

theorem length_chainBytes (s : State) (g : SegNo) : (chainBytes s g).length = 9 := by
  simp [chainBytes, bytes2, length_optStampBytes]

/-- R201: the fixed part of 32 bytes, then the retrigger entries and the chain. -/
theorem length_descriptorBytes (s : State) (i : SlotNo) (r : Record) :
    (descriptorBytes s i r).length = 32 + 17 * r.retrigs.length + 9 * r.chain.length := by
  have entries := length_flatMap_fixed length_retriggerBytes r.retrigs
  have chain := length_flatMap_fixed (length_chainBytes s) r.chain
  simp only [descriptorBytes, bytes2, List.length_append, List.length_cons, List.length_nil, length_stampBytes,
    length_originBytes, length_causeBytes, entries, chain]

/-- R70: the list's three bytes of slot i. -/
theorem listBytes_slot (s : State) (i : SlotNo) :
    ((listBytes s).drop (3 * i.val)).take 3 = slotBytes (s.recs.slots.get i) :=
  take_drop_flatMap length_slotBytes s.recs.slots.toList i.val (by simp)

/-- Settles O16: the list slot by slot, and READ RECORD by the slot's number and state. -/
theorem listAndReadRecordAnswerTheTable : Obligations.ListAndReadRecordAnswerTheTable := by
  intro s hs
  refine ⟨⟨listBytes s, congrArg _ (hostCommand_answered hs rfl), ?_, fun i => ⟨fun hi => ?_, fun r hi => ?_⟩⟩,
    fun slot => ⟨fun h => ?_, fun h => ⟨fun hi => ?_, fun r hi => ⟨?_, length_descriptorBytes s _ r⟩⟩⟩⟩
  · exact (length_flatMap_fixed length_slotBytes _).trans (by simp)
  · rw [listBytes_slot, hi]
    rfl
  · rw [listBytes_slot, hi]
    rfl
  · exact congrArg _ (hostCommand_answered hs (withSlot_above h))
  · exact congrArg _ (hostCommand_answered hs (withSlot_within h hi))
  · exact congrArg _ (hostCommand_answered hs (withSlot_within h hi))

/-! ### READ DATA (R71, R140) -/

/-- R71, R199: a slot that holds no CLOSED record is refused after its number. -/
theorem readDataWith_notClosed {slot index : Byte} {offset count : BitVec 16} {s : State} (h : slot.toNat < 16)
    (hn : ∀ r, s.recs.slots.get ⟨slot.toNat, h⟩ = some r → r.state ≠ .closed) :
    readDataWith slot index offset count s = (s, [0x02]) :=
  withSlot_notClosed h hn rfl (fun r hr => if_pos (by simpa using hr))

/-- R71, R199: a range out of bounds is refused after the slot. -/
theorem readDataWith_badRange {slot index : Byte} {offset count : BitVec 16} {s : State} {r : Record}
    (h : slot.toNat < 16) (hi : s.recs.slots.get ⟨slot.toNat, h⟩ = some r) (hc : r.state = .closed)
    (hrange : dataRange r index.toNat offset.toNat count.toNat = none) :
    readDataWith slot index offset count s = (s, [0x04]) := by
  refine (withSlot_within h hi).trans ((if_neg (by simp [hc])).trans ?_)
  rw [hrange]
  rfl

/-- R71, R140: a CLOSED record's range in bounds begins the prefetch. -/
theorem readDataWith_served {slot index : Byte} {offset count : BitVec 16} {s : State} {r : Record} {g : SegNo}
    (h : slot.toNat < 16) (hi : s.recs.slots.get ⟨slot.toNat, h⟩ = some r) (hc : r.state = .closed)
    (hrange : dataRange r index.toNat offset.toNat count.toNat = some g) :
    readDataWith slot index offset count s
      = ({ s with mem := { s.mem with prefetch := some (Prefetch.begun g offset.toNat count.toNat) } }, [0x00]) := by
  refine (withSlot_within h hi).trans ((if_neg (by simp [hc])).trans ?_)
  rw [hrange]
  rfl

/-- R71: a range past the chain or past a segment's words. -/
theorem dataRange_none {r : Record} {index offset count : Nat}
    (h : r.chain.length ≤ index ∨ count = 0 ∨ 512 < count ∨ 512 < offset + count) :
    dataRange r index offset count = none := by
  unfold dataRange
  split
  next hb =>
    rcases h with h | h
    · exact List.getElem?_eq_none h
    · omega
  · rfl

theorem dataRange_within {r : Record} {index offset count : Nat} (hc : 1 ≤ count) (hb : offset + count ≤ 512) :
    dataRange r index offset count = r.chain[index]? :=
  if_pos ⟨hc, by omega, hb⟩

/-- Settles O18: the refusals in R199's order, then the prefetch begun. -/
theorem readDataPresentsTheFirstWord : Obligations.ReadDataPresentsTheFirstWord := by
  intro slot index offset count s hs args
  refine ⟨fun h => ?_, fun h => ⟨fun hn => ?_, fun r hi hc => ⟨fun hb => ?_, fun g hg hcount hb => ?_⟩⟩⟩
  · exact congrArg _ (hostCommand_answered hs (withSlot_above h))
  · exact congrArg _ (hostCommand_answered hs (readDataWith_notClosed h hn))
  · exact congrArg _ (hostCommand_answered hs (readDataWith_badRange h hi hc (dataRange_none hb)))
  · have range := (dataRange_within (r := r) hcount hb).trans hg
    exact congrArg _ (hostCommand_answered hs (readDataWith_served h hi hc range))

/-! ### RELEASE (R72, R14, R20) -/

theorem releaseWith_notClosed {slot : Byte} {s : State} (h : slot.toNat < 16)
    (hn : ∀ r, s.recs.slots.get ⟨slot.toNat, h⟩ = some r → r.state ≠ .closed) :
    releaseWith slot s = (s, [0x02]) :=
  withSlot_notClosed h hn rfl (fun r hr => if_pos (by simpa using hr))

theorem releaseWith_closed {slot : Byte} {s : State} {r : Record} (h : slot.toNat < 16)
    (hi : s.recs.slots.get ⟨slot.toNat, h⟩ = some r) (hc : r.state = .closed) :
    releaseWith slot s = (releaseRecord ⟨slot.toNat, h⟩ r s, [0x00]) :=
  (withSlot_within h hi).trans (if_neg (by simp [hc]))

theorem serveOutstanding_none {s : State} (h : s.writer.state ≠ .overrun) : serveOutstanding s = s :=
  if_neg h

/-- R37: the segment that ends an OVERRUN leaves its source at rest. -/
theorem beginSegment_ends_overrun {g : SegNo} {s : State} (h : s.writer.state = .overrun) :
    ((beginSegment g s).ev.cell .overrun).state = .quiet := by
  have ended : (beginSegment g s).ev = s.ev.update Source.overrun.place SourceCell.ended := by
    simp [beginSegment, setWriter, handLevel, h]
  rw [ended, EventUnit.cell, cell_update, if_pos rfl]
  rfl

/-- R20, R37: the outstanding claim is served from the head, as one update of the state, and OVERRUN ends. -/
theorem serveOutstanding_head {s : State} {g : SegNo} {rest : List SegNo} (ho : s.writer.state = .overrun)
    (hf : s.pool.free = g :: rest) :
    ∃ ev, serveOutstanding s = { s with
        pool := { s.pool with free := rest, headers := s.pool.headers.set g (takenHeader (s.header g)) },
        writer := fillingFrom g s, ev := ev }
      ∧ (ev.cell .overrun).state = .quiet
      ∧ ∀ src : Source, src ≠ .freeLow → src ≠ .overrun → ev.cell src = s.ev.cell src := by
  have served : serveOutstanding s = writerTake s := by
    unfold serveOutstanding writerTake popFree
    rw [if_pos ho, hf]
  have begun : writerTake s = beginSegment g (takeHeader g (setFree rest s)) := by
    unfold writerTake popFree
    rw [hf]
  have quiet : ((writerTake s).ev.cell .overrun).state = .quiet := by
    rw [begun]
    exact beginSegment_ends_overrun (by simpa using ho)
  obtain ⟨ev, he, hcell⟩ := writerTake_head hf
  rw [he] at quiet
  exact ⟨ev, served.trans he, quiet, hcell⟩

/-- Settles O19: the refusals, the release whatever the chain's flags, and the release of a chain with no flag set by
the writer's state. -/
theorem releaseReturnsTheChain : Obligations.ReleaseReturnsTheChain := by
  intro slot s hs
  refine ⟨fun h => ?_, fun h => ⟨fun hn => ?_, fun r hi hc => ?_⟩⟩
  · exact congrArg _ (hostCommand_answered hs (withSlot_above h))
  · exact congrArg _ (hostCommand_answered hs (releaseWith_notClosed h hn))
  · intro recs
    have release : exec (.release slot) s
        = .next (answered (serveOutstanding (returnAll r.chain { s with recs := recs })) 0x13 [slot] [0x00]) :=
      congrArg _ (hostCommand_answered hs (releaseWith_closed h hi hc))
    refine ⟨release, fun hclear => ?_⟩
    obtain ⟨ev, returned, hcell⟩ := returnAll_clear r.chain { s with recs := recs } hclear
    rw [release, returned]
    refine ⟨fun hw => ⟨ev, ?_, hcell⟩, fun hw hf g rest hchain => ?_⟩
    · exact congrArg _ (congrArg (answered · _ _ _) (serveOutstanding_none hw))
    · obtain ⟨ev', served, quiet, hcell'⟩ := serveOutstanding_head (rest := rest) (g := g)
        (s := { s with pool := { s.pool with free := s.pool.free ++ r.chain }, recs := recs, ev := ev }) hw
        (by simp [hf, hchain])
      exact ⟨ev', congrArg _ (congrArg (answered · _ _ _) served), quiet,
        fun src h1 h2 => (hcell' src h1 h2).trans (hcell src h1)⟩

end Sys2Proof.Machine
end

section
/-! A detector's judgment of one frame (R75 to R80): the fire and re-arm conditions of its mode, and where each leaves
it. -/

namespace Sys2Proof.Machine

open Sys2Proof.Claims

/-! ### The conditions of the modes (R75, R77) -/

/-- The four modes (R77). -/
theorem mode_cases {mode : Nat} (h : mode ≤ 3) : mode = 0 ∨ mode = 1 ∨ mode = 2 ∨ mode = 3 := by
  omega

/-- R75: the size of a step is the distance of the two values. -/
theorem stepSize_some (p : BitVec 12) (v : Nat) : stepSize (some p) v = some ((v : Int) - p.toNat).natAbs := by
  unfold stepSize
  rw [Option.map_some]
  congr 1
  omega

/-- R77: the fire condition as the rule words it. -/
theorem fires_iff {mode a b : Nat} {prev : Option (BitVec 12)} {v : BitVec 12} (h : mode ≤ 3) :
    fires mode a b v.toNat (stepSize prev v.toNat) = true ↔ Fires mode a b prev v := by
  rcases mode_cases h with rfl | rfl | rfl | rfl
  · simp [fires, Fires]
  · simp [fires, Fires]
  · simp [fires, Fires]
  · cases prev with
    | none => simp [fires, Fires, stepSize]
    | some p => simp [fires, Fires, stepSize_some]

/-- R77: the re-arm condition as the rule words it. -/
theorem rearms_iff {mode a b h : Nat} {prev : Option (BitVec 12)} {v : BitVec 12} (hm : mode ≤ 3) :
    rearms mode a b h v.toNat (stepSize prev v.toNat) = true ↔ Rearms mode a b h prev v := by
  have below : v.toNat + h ≤ a ↔ (v.toNat : Int) ≤ (a : Int) - h := by omega
  rcases mode_cases hm with rfl | rfl | rfl | rfl
  · simp [rearms, Rearms, below]
  · simp [rearms, Rearms]
  · simp [rearms, Rearms, below]
  · cases prev with
    | none => simp [rearms, Rearms, stepSize]
    | some p =>
      have quiet (n : Nat) : n + h ≤ a ↔ (n : Int) + h ≤ a := by omega
      simp only [rearms, Rearms, stepSize_some, Option.any_some, decide_eq_true_eq, quiet]
      simp

/-! ### Qualification and re-arming (R78, R79, R80) -/

/-- R78: the frames of the run that a frame meeting the fire condition continues, itself among them. -/
def Detector.runLength (d : Detector) : Nat := if d.state = .armed then 1 else d.count + 1

/-- The run that a frame begins in ARMED (R78). -/
theorem Detector.runLength_armed {d : Detector} (h : d.state = .armed) : d.runLength = 1 := if_pos h

/-- The run that a frame continues in QUALIFYING (R78). -/
theorem Detector.runLength_qualifying {d : Detector} (h : d.state = .qualifying) : d.runLength = d.count + 1 :=
  if_neg (by simp [h])

theorem Detector.qualified_full {q : Nat} {d : Detector} (h : q ≤ d.runLength) :
    d.qualified q true = { d with state := .fired, count := 0 } :=
  if_pos h

theorem Detector.qualified_short {q : Nat} {d : Detector} (h : ¬ q ≤ d.runLength) :
    d.qualified q true = { d with state := .qualifying, count := d.runLength } :=
  if_neg h

theorem Detector.rearmed_full {need : Nat} {d : Detector} (h : need ≤ d.count + 1) :
    d.rearmed need true = { d with state := .armed, count := 0 } :=
  if_pos h

theorem Detector.rearmed_short {need : Nat} {d : Detector} (h : ¬ need ≤ d.count + 1) :
    d.rearmed need true = { d with count := d.count + 1 } :=
  if_neg h

/-! ### The judgment (R75, R78, R80) -/

/-- Detector i, as it stands, meets its fire condition with the value `v`. -/
def Detector.MeetsFire (c : ConfigStore) (i : Fin 8) (v : BitVec 12) (d : Detector) : Prop :=
  Fires (detField c i 2) (detField c i 3) (detField c i 4) d.prev v

/-- Detector i, as it stands, meets its re-arm condition with the value `v`. -/
def Detector.MeetsRearm (c : ConfigStore) (i : Fin 8) (v : BitVec 12) (d : Detector) : Prop :=
  Rearms (detField c i 2) (detField c i 3) (detField c i 4) (detField c i 5) d.prev v

/-- R80: the quiet frames in a row that re-arm detector i. -/
def rearmNeed (c : ConfigStore) (i : Fin 8) : Nat := if detField c i 2 = 3 then detField c i 6 else 1

section
variable {c : ConfigStore} {i : Fin 8} {v : BitVec 12} {d : Detector}

theorem Detector.judged_prev : (d.judged c i v).prev = some v := rfl

/-- R76: a DISABLED detector only keeps the value. -/
theorem Detector.judged_disabled (h : d.state = .disabled) :
    d.judged c i v = { state := .disabled, count := d.count, prev := some v } := by
  unfold judged
  simp only [h]

/-- R78: an ARMED or QUALIFYING detector qualifies by its fire condition. -/
theorem Detector.judged_watching {met : Bool} (hm : detField c i 2 ≤ 3) (h : d.state = .armed ∨ d.state = .qualifying)
    (hmet : met = true ↔ d.MeetsFire c i v) :
    d.judged c i v = { d.qualified (detField c i 6) met with prev := some v } := by
  have same : fires (detField c i 2) (detField c i 3) (detField c i 4) v.toNat (stepSize d.prev v.toNat) = met :=
    Bool.eq_iff_iff.2 ((fires_iff hm).trans hmet.symm)
  unfold judged
  rcases h with h | h <;> simp only [h, same]

/-- R80: a FIRED detector re-arms by its re-arm condition. -/
theorem Detector.judged_fired {met : Bool} (hm : detField c i 2 ≤ 3) (h : d.state = .fired)
    (hmet : met = true ↔ d.MeetsRearm c i v) :
    d.judged c i v = { d.rearmed (rearmNeed c i) met with prev := some v } := by
  have same : rearms (detField c i 2) (detField c i 3) (detField c i 4) (detField c i 5) v.toNat
      (stepSize d.prev v.toNat) = met :=
    Bool.eq_iff_iff.2 ((rearms_iff hm).trans hmet.symm)
  unfold judged
  simp only [h, same, rearmNeed]

/-- R78: a frame off the fire condition ends the run. -/
theorem Detector.judged_unmet (hm : detField c i 2 ≤ 3) (h : d.state = .armed ∨ d.state = .qualifying)
    (hf : ¬ d.MeetsFire c i v) : d.judged c i v = { state := .armed, count := 0, prev := some v } :=
  judged_watching (met := false) hm h (by simpa using hf)

/-- R78, R79: the run's q-th frame fires the detector. -/
theorem Detector.judged_fires (hm : detField c i 2 ≤ 3) (h : d.state = .armed ∨ d.state = .qualifying)
    (hf : d.MeetsFire c i v) {n : Nat} (hn : d.runLength = n) (hq : detField c i 6 ≤ n) :
    d.judged c i v = { state := .fired, count := 0, prev := some v } := by
  rw [judged_watching (met := true) hm h (by simpa using hf), qualified_full (hn ▸ hq)]

/-- R78: a frame of the run before its q-th is counted. -/
theorem Detector.judged_qualifies (hm : detField c i 2 ≤ 3) (h : d.state = .armed ∨ d.state = .qualifying)
    (hf : d.MeetsFire c i v) {n : Nat} (hn : d.runLength = n) (hq : n < detField c i 6) :
    d.judged c i v = { state := .qualifying, count := n, prev := some v } := by
  rw [judged_watching (met := true) hm h (by simpa using hf), qualified_short (hn ▸ Nat.not_le_of_lt hq), hn]

/-- R80: a frame off the re-arm condition keeps the detector FIRED. -/
theorem Detector.judged_stays (hm : detField c i 2 ≤ 3) (h : d.state = .fired) (hr : ¬ d.MeetsRearm c i v) :
    d.judged c i v = { state := .fired, count := 0, prev := some v } := by
  rw [judged_fired (met := false) hm h (by simpa using hr), ← h]
  rfl

/-- R80: the last quiet frame that is needed re-arms the detector. -/
theorem Detector.judged_rearms (hm : detField c i 2 ≤ 3) (h : d.state = .fired) (hr : d.MeetsRearm c i v)
    (hn : rearmNeed c i ≤ d.count + 1) : d.judged c i v = { state := .armed, count := 0, prev := some v } := by
  rw [judged_fired (met := true) hm h (by simpa using hr), rearmed_full hn]

/-- R80: a quiet frame before the last that is needed is counted. -/
theorem Detector.judged_quiet (hm : detField c i 2 ≤ 3) (h : d.state = .fired) (hr : d.MeetsRearm c i v)
    (hn : d.count + 1 < rearmNeed c i) :
    d.judged c i v = { state := .fired, count := d.count + 1, prev := some v } := by
  rw [judged_fired (met := true) hm h (by simpa using hr), rearmed_short (Nat.not_le_of_lt hn), ← h]

end

/-- State and count of a detector known whole. -/
theorem Detector.state_count {e : Detector} {st : DetState} {n : Nat} {p : Option (BitVec 12)}
    (h : e = { state := st, count := n, prev := p }) : e.state = st ∧ e.count = n :=
  ⟨congrArg Detector.state h, congrArg Detector.count h⟩

/-- Settles O43: one case per state of the detector, its condition met or not, and the count short of its need or
not. -/
theorem detectorsJudgeFramesByTheirMode : Obligations.DetectorsJudgeFramesByTheirMode := by
  intro c i v d hm hq q fire rearm e
  have armed (h : d.state = .armed) : d.runLength = 1 := Detector.runLength_armed h
  have qualifying (h : d.state = .qualifying) : d.runLength = d.count + 1 := Detector.runLength_qualifying h
  have one_needed (h : detField c i 2 ≠ 3) : rearmNeed c i = 1 := if_neg h
  have q_needed (h : detField c i 2 = 3) : rearmNeed c i = q := if_pos h
  refine ⟨Detector.judged_prev, fun h => ?_, fun h hf => ?_, fun h hf hq1 => ?_, fun h hf hq1 => ?_, fun h hf => ?_,
    fun h hf hlt => ?_, fun h hf hle => ?_, fun h hr => ?_, fun h hr hstep => ?_, fun h hr hstep hlt => ?_,
    fun h hr hstep hle => ?_⟩
  all_goals refine Detector.state_count (p := some v) ?_
  · exact Detector.judged_disabled h
  · exact Detector.judged_unmet hm (.inl h) hf
  · exact Detector.judged_fires hm (.inl h) hf (armed h) (Nat.le_of_eq hq1)
  · exact Detector.judged_qualifies hm (.inl h) hf (armed h) (Nat.lt_of_le_of_ne hq (Ne.symm hq1))
  · exact Detector.judged_unmet hm (.inr h) hf
  · exact Detector.judged_qualifies hm (.inr h) hf (qualifying h) hlt
  · exact Detector.judged_fires hm (.inr h) hf (qualifying h) hle
  · exact Detector.judged_stays hm h hr
  · exact Detector.judged_rearms hm h hr (by rw [one_needed hstep]; exact Nat.succ_pos _)
  · exact Detector.judged_quiet hm h hr (by rwa [q_needed hstep])
  · exact Detector.judged_rearms hm h hr (by rwa [q_needed hstep])

end Sys2Proof.Machine
end

section
/-! A completed frame at the detector bank (R75, R79, R81): each detector's value, the detectors the frame fires, and
the one request they form on a free line. -/

namespace Sys2Proof.Machine

open Sys2Proof.Claims

/-! ### The values that the detectors meet (R75, R27) -/

/-- R75, R27: the detector's value in a frame is the result of its channel's conversion. -/
theorem detValue_frameWords {c : ConfigStore} {d : Fin 8} {n : Nat} (h : detField c d 1 < n)
    (levels : List AnalogLevel) :
    detValue c d (frameWords n levels)
      = BitVec.ofNat 12 (resultOfInput (levels.getD (detField c d 1) { vin := 0, vref := 1 })) := by
  have word : (frameWords n levels).getD (detField c d 1) 0
      = sampleWord (detField c d 1) (levels.getD (detField c d 1) { vin := 0, vref := 1 }) := by
    simp [frameWords, List.getD_eq_getElem?_getD, h]
  unfold detValue
  rw [word]
  generalize levels.getD (detField c d 1) { vin := 0, vref := 1 } = level
  apply BitVec.eq_of_toNat_eq
  show (BitVec.setWidth 12 (BitVec.ofNat 16 (detField c d 1 * 4096 + resultOfInput level))).toNat = _
  simp only [BitVec.toNat_setWidth, BitVec.toNat_ofNat]
  omega

/-- R81: an enabled detector judges the frame by its value. -/
theorem judgeAll_enabled {c : ConfigStore} {d : Fin 8} (h : detEnabled c d = true) (words : List Word)
    (dets : Vector Detector 8) :
    (judgeAll c words dets).get d = (dets.get d).judged c d (detValue c d words) := by
  rw [judgeAll, get_ofFn, if_pos h]

/-- R81: the frame passes a detector by that is not enabled. -/
theorem judgeAll_disabled {c : ConfigStore} {d : Fin 8} (h : detEnabled c d = false) (words : List Word)
    (dets : Vector Detector 8) : (judgeAll c words dets).get d = dets.get d := by
  rw [judgeAll, get_ofFn, if_neg (by simp [h])]

/-! ### The detectors that a frame fires (R79, R81) -/

/-- R79: detector d became FIRED. -/
def BecameFired (before after : Vector Detector 8) (d : Fin 8) : Prop :=
  (before.get d).state ≠ .fired ∧ (after.get d).state = .fired

/-- A set of causes gathered over a list holds what it began with and the list's members that meet the test. -/
theorem getLsbD_gathered (p : Fin 8 → Bool) (n : Nat) : ∀ (l : List (Fin 8)) (causes : CauseSet),
    (l.foldl (fun acc i => if p i then acc ||| BitVec.twoPow 10 i.val else acc) causes).getLsbD n = true
      ↔ causes.getLsbD n = true ∨ ∃ d ∈ l, d.val = n ∧ p d = true
  | [], causes => by simp
  | i :: l, causes => by
    have small : i.val < 10 := by omega
    rw [List.foldl_cons, getLsbD_gathered p n l]
    by_cases hp : p i = true
    · simp [hp, small, or_assoc]
    · simp [hp]

/-- R81: the causes that a frame offers are the detectors it fires. -/
theorem getLsbD_newlyFired (before after : Vector Detector 8) (n : Nat) :
    (newlyFired before after).getLsbD n = true ↔ ∃ d : Fin 8, d.val = n ∧ BecameFired before after d := by
  unfold newlyFired
  rw [getLsbD_gathered]
  simp [BecameFired]

/-- R79: a frame that fires no detector has no cause to offer. -/
theorem newlyFired_eq_zero_iff {before after : Vector Detector 8} :
    newlyFired before after = 0 ↔ ∀ d, ¬ BecameFired before after d := by
  constructor
  · intro h d hd
    have bit := (getLsbD_newlyFired before after d.val).2 ⟨d, rfl, hd⟩
    simp [h] at bit
  · intro h
    refine BitVec.eq_of_getLsbD_eq (fun n _ => ?_)
    refine (Bool.eq_false_iff.2 fun bit => ?_).trans BitVec.getLsbD_zero.symm
    obtain ⟨d, _, hd⟩ := (getLsbD_newlyFired before after n).1 bit
    exact h d hd

/-! ### The offer on a free line (R86, R104) -/

/-- R104: an offer in RUNNING on an idle line, with no request held and no holdoff running, is held. -/
theorem offer_idle {c : ConfigStore} {s : State} (hst : s.ctl.state = .running) (hrx : s.rx.state = .idle)
    (hreq : s.tx.request = none) (hold : s.tx.holdoff = 0) (causes : CauseSet) (time : Timestamp) :
    offer c causes time s = holdRequest causes time s := by
  unfold offer
  rw [if_pos hst, hreq]
  simp [hold, hrx]

/-! ### What a frame leaves (R31, R81) -/

/-- What a frame that reaches the FILLING writer leaves beyond the blocks of `frameFilling_frame`. -/
theorem frameFilling_leaves (c : ConfigStore) (g : SegNo) (f : Capture) (words : List Word) (s : State) :
    let t := frameFilling c g f words s
    t.ctl = s.ctl ∧ t.tb = s.tb ∧ t.dets = s.dets ∧ t.trig = s.trig ∧ t.filter = s.filter ∧ t.rx = s.rx ∧ t.tx = s.tx
    ∧ t.port = s.port ∧ t.pins = s.pins ∧ t.pending = s.pending := by
  unfold frameFilling
  dsimp only
  repeat' split
  all_goals simp [writeFrame_eq]

/-- What the writer leaves at a frame, whatever its state (R31, R36, R38). -/
theorem writerFrame_leaves (c : ConfigStore) (f : Capture) (words : List Word) (s : State) :
    let t := writerFrame c f words s
    t.ctl = s.ctl ∧ t.tb = s.tb ∧ t.seqr = s.seqr ∧ t.dets = s.dets ∧ t.trig = s.trig ∧ t.filter = s.filter
    ∧ t.rx = s.rx ∧ t.tx = s.tx ∧ t.mem.scrub = s.mem.scrub ∧ t.mem.prefetch = s.mem.prefetch ∧ t.port = s.port
    ∧ t.pins = s.pins ∧ t.pending = s.pending := by
  unfold writerFrame
  split
  · simp [frameFilling_leaves, frameFilling_frame]
  · simp
  · simp [discardFrame]
  · simp

/-- What the detector bank writes at a frame, and what it leaves beyond the blocks of `bankFrame_frame` (R81). -/
theorem bankFrame_leaves (c : ConfigStore) (stamp : Timestamp) (words : List Word) (s : State) :
    let t := bankFrame c stamp words s
    t.dets = judgeAll c words s.dets ∧ t.ctl = s.ctl ∧ t.tb = s.tb ∧ t.trig = s.trig ∧ t.filter = s.filter
    ∧ t.rx = s.rx ∧ t.port = s.port ∧ t.pins = s.pins ∧ t.pending = s.pending := by
  unfold bankFrame
  dsimp only
  split <;> simp

/-- R79: a frame that fires no detector offers nothing. -/
theorem bankFrame_quiet {c : ConfigStore} {words : List Word} {s : State} (stamp : Timestamp)
    (h : ∀ d, ¬ BecameFired s.dets (judgeAll c words s.dets) d) : (bankFrame c stamp words s).tx = s.tx := by
  unfold bankFrame
  dsimp only
  rw [if_pos (newlyFired_eq_zero_iff.2 h)]

/-- R81, R86: the detectors that a frame fires form one request on a free line. -/
theorem bankFrame_requests {c : ConfigStore} {words : List Word} {s : State} (stamp : Timestamp)
    (h : ∃ d, BecameFired s.dets (judgeAll c words s.dets) d) (hst : s.ctl.state = .running)
    (hrx : s.rx.state = .idle) (hreq : s.tx.request = none) (hold : s.tx.holdoff = 0) :
    (bankFrame c stamp words s).tx
      = { s.tx with request := some (newRequest (newlyFired s.dets (judgeAll c words s.dets)) stamp) } := by
  have some_cause : newlyFired s.dets (judgeAll c words s.dets) ≠ 0 := fun e => by
    obtain ⟨d, hd⟩ := h
    exact newlyFired_eq_zero_iff.1 e d hd
  unfold bankFrame
  dsimp only
  rw [if_neg some_cause]
  exact congrArg State.tx (offer_idle (s := { s with dets := judgeAll c words s.dets }) hst hrx hreq hold _ _)

/-- The state that the bank finds at a completed frame: the clock has run to the sweep's end `u`, the sweep is over, and
the writer has left these blocks. -/
theorem frameWritten_leaves (c : ConfigStore) (k : Nat) (f : Capture) (inputs : List AnalogLevel) (words : List Word)
    (s : State) :
    let u := (holdInputs inputs s).elapse (sweepRemaining c k f s)
    let w := writerFrame c f words (frameHanded c k f inputs s)
    w.ctl = u.ctl ∧ w.tb = u.tb ∧ w.seqr = { u.seqr with sweep := none, position := 0, samples := [] }
    ∧ w.dets = s.dets ∧ w.trig = u.trig ∧ w.filter = u.filter ∧ w.rx = s.rx ∧ w.tx = u.tx
    ∧ w.mem.scrub = u.mem.scrub ∧ w.mem.prefetch = s.mem.prefetch ∧ w.port = s.port
    ∧ w.pins = { s.pins with analog := inputs } ∧ w.pending = s.pending := by
  simp [writerFrame_leaves, frameHanded]

/-- Settles O44: the frame of the levels met passes the writer, which leaves the detectors and the line agent, and
then the bank judges it. -/
theorem frameReachesEveryDetector : Obligations.FrameReachesEveryDetector := by
  intro c k f inputs s h u value newly
  refine ⟨_, execFrameComplete_sweeping h inputs, ?_⟩
  generalize carried : frameWords (channels c) (levelsMet inputs s) = words
  obtain ⟨ctl, tb, seqr, dets, trig, filter, rx, tx, scrub, prefetch, port, pins, pending⟩ :=
    frameWritten_leaves c k f inputs words s
  change _ = u.tx at tx
  generalize writerFrame c f words (frameHanded c k f inputs s) = w at *
  have judged : (bankFrame c f.stamp words w).dets = judgeAll c words w.dets := by simp [bankFrame_leaves]
  have fired : newly (bankFrame c f.stamp words w) = BecameFired w.dets (judgeAll c words w.dets) := by
    rw [← judged, dets]
    rfl
  refine ⟨fun d on inside => ?_, fun d off => ?_, fun none_fired => ?_, fun some_fired hst hrx hreq hold => ?_, ?_⟩
  · rw [judged, judgeAll_enabled on, ← carried, detValue_frameWords inside, dets]
  · rw [judged, judgeAll_disabled off, dets]
  · rw [fired] at none_fired
    exact (bankFrame_quiet _ none_fired).trans tx
  · rw [fired] at some_fired ⊢
    have running : w.ctl.state = .running := by simp [ctl, hst]
    have idle : w.rx.state = .idle := rx ▸ hrx
    have unheld : w.tx.request = none := by simp [tx, u, hreq]
    have request := bankFrame_requests f.stamp some_fired running idle unheld (tx ▸ hold)
    refine ⟨newRequest (newlyFired w.dets (judgeAll c words w.dets)) f.stamp, ?_, rfl, rfl, getLsbD_newlyFired _ _⟩
    rw [request, tx]
  · simp only [bankFrame_frame, bankFrame_leaves]
    exact ⟨seqr, pins, rx, filter, trig, tb, ctl, port, scrub, prefetch, pending⟩

end Sys2Proof.Machine
end

section
/-! SOFT TRIGGER (R85) and the TRIGIN unit (R83, R84). -/

namespace Sys2Proof.Machine

open Sys2Proof.Claims

/-! ### SOFT TRIGGER (R85) -/

theorem softTriggerWith_running {c : ConfigStore} {s : State} (hc : s.ctl.config = some c)
    (hst : s.ctl.state = .running) : softTriggerWith s = (offer c causeHost s.stamp s, [0x00]) := by
  unfold softTriggerWith
  rw [hc]
  exact if_pos hst

theorem softTriggerWith_elsewhere {s : State} (hst : s.ctl.state ≠ .running) : softTriggerWith s = (s, [0x02]) := by
  unfold softTriggerWith
  split
  · exact if_neg hst
  · rfl

/-- Settles O24: the offer of HOST in RUNNING, on a free line and on any, and the refusal elsewhere. -/
theorem softTriggerOffersHost : Obligations.SoftTriggerOffersHost := by
  intro s hs
  have offered : ∀ c, s.ctl.config = some c → s.ctl.state = .running →
      exec .softTrigger s = .next (answered (offer c causeHost s.stamp s) 0x20 [] [0x00]) := fun c hc hst =>
    congrArg _ (hostCommand_answered hs (softTriggerWith_running hc hst))
  refine ⟨fun c hc hst hold hrx hreq => ?_, offered, fun hst => ?_⟩
  · rw [offered c hc hst, offer_idle hst hrx hreq hold]
    rfl
  · exact congrArg _ (hostCommand_answered hs (softTriggerWith_elsewhere hst))

/-! ### The samples of TRIGIN (R83) -/

/-- R83: a sample at another level than the run's, or with no run, begins a run. -/
theorem nextTrigRun_begins {high : Bool} {run : Option TrigRun}
    (h : run = none ∨ ∃ r, run = some r ∧ r.high ≠ high) (now : Capture) :
    nextTrigRun high now run = { high := high, start := now, count := 1 } := by
  rcases h with rfl | ⟨r, rfl, hr⟩
  · rfl
  · exact if_neg hr

/-- R83: a sample at the run's level is counted. -/
theorem nextTrigRun_counts {r : TrigRun} {high : Bool} (h : r.high = high) (now : Capture) :
    nextTrigRun high now (some r) = { r with count := r.count + 1 } :=
  if_pos h

/-- R83: the pin and the unit as a sample leaves them, before any acceptance. -/
def trigInSampled (c : ConfigStore) (high : Bool) (run : TrigRun) (s : State) : State :=
  { s with
    pins := { s.pins with trigIn := high }, trig := { s.trig with timer := trigInterval c, run := some run } }

/-- R83: fewer than three equal samples accept nothing. -/
theorem sampleTrigIn_counting {c : ConfigStore} {high : Bool} {s : State} {run : TrigRun}
    (h : nextTrigRun high s.capture s.trig.run = run) (hn : run.count < 3) :
    sampleTrigIn c high s = trigInSampled c high run s := by
  unfold sampleTrigIn
  dsimp only
  rw [h, if_neg (Nat.not_le_of_lt hn)]
  rfl

/-- R83: the third equal sample accepts the level. -/
theorem sampleTrigIn_third {c : ConfigStore} {high : Bool} {s : State} {run : TrigRun}
    (h : nextTrigRun high s.capture s.trig.run = run) (hn : 3 ≤ run.count) :
    sampleTrigIn c high s = acceptTrigIn c high run.start.stamp (trigInSampled c high run s) := by
  unfold sampleTrigIn
  dsimp only
  rw [h, if_pos hn]
  rfl

/-! ### The acceptance (R84) -/

/-- R83: the level accepted and the run over. -/
def trigInAccepted (high : Bool) (s : State) : State :=
  { s with trig := { s.trig with accepted := some high, run := none } }

/-- R84: a matching edge against the other level accepted before is offered. -/
theorem acceptTrigIn_offers {c : ConfigStore} {high : Bool} {s : State} (ha : s.trig.accepted = some !high)
    (he : edgeMatches c high = true) (start : Timestamp) :
    acceptTrigIn c high start s = offer c 0x100 start (trigInAccepted high s) :=
  if_pos ⟨ha, he⟩

/-- R84: with no edge, or one that does not match, nothing is offered. -/
theorem acceptTrigIn_silent {c : ConfigStore} {high : Bool} {s : State}
    (h : s.trig.accepted ≠ some (!high) ∨ edgeMatches c high = false) (start : Timestamp) :
    acceptTrigIn c high start s = trigInAccepted high s := by
  refine if_neg (fun ⟨ha, he⟩ => ?_)
  rcases h with h | h
  · exact h ha
  · rw [he] at h
    exact Bool.noConfusion h

/-- R82: a watching unit samples when its timer has run. -/
theorem trigInDue_watching {s : State} (hw : s.trig.watching = true) : trigInDue s = some s.trig.timer := if_pos hw

/-- TRIGIN_SAMPLE while the unit watches: the clock runs to the sample's time and the pin is sampled. -/
theorem execTrigInSample_watching {c : ConfigStore} {s : State} (ha : Active s c) (hw : s.trig.watching = true)
    (high : Bool) : exec (.trigInSample high) s = .next (sampleTrigIn c high (s.elapse s.trig.timer)) := by
  show execTrigInSample high s = _
  unfold execTrigInSample
  rw [whenConfigured_held ha.1 ha.2, atTime_some (trigInDue_watching hw)]

/-- Settles O46: a sample that begins a run, one that counts, and the third, with its edge offered or not. -/
theorem triginAcceptsThreeEqualSamples : Obligations.TriginAcceptsThreeEqualSamples := by
  intro c high s ha hw u stamp begun pins unit
  have run : u.trig.run = s.trig.run := by simp [u]
  have level : u.trig.accepted = s.trig.accepted := by simp [u]
  rw [execTrigInSample_watching ha hw, ← run, ← level]
  refine ⟨fun h => ?_, fun r hr same => ?_⟩
  · exact congrArg _ (sampleTrigIn_counting (nextTrigRun_begins h u.capture) (Nat.lt_add_of_pos_right Nat.two_pos))
  · have next : nextTrigRun high u.capture u.trig.run = { r with count := r.count + 1 } := by
      rw [hr, nextTrigRun_counts same]
    let sampled := trigInSampled c high { r with count := r.count + 1 } u
    refine ⟨fun hn => ?_, fun hn => ?_⟩
    · exact congrArg _ (sampleTrigIn_counting next (Nat.succ_lt_succ hn))
    · rw [sampleTrigIn_third next (Nat.succ_le_succ hn)]
      exact ⟨fun hl he => congrArg _ (acceptTrigIn_offers (s := sampled) hl he r.start.stamp),
        fun hno => congrArg _ (acceptTrigIn_silent (s := sampled) hno r.start.stamp)⟩

end Sys2Proof.Machine
end

section
/-! The layer under the line agent's statements (chapter 5): which event sources an operation touches, the receiver's
change of state, and the filter on the tick on which two samples agree. -/

namespace Sys2Proof.Machine

open Sys2Proof.Claims

/-! ### Which sources an operation touches (R169 to R171) -/

theorem onlyEvents_of_ev {named : List Source} {s t : State} (h : t.ev = s.ev) : OnlyEvents named s t :=
  ⟨congrArg EventUnit.mask h, fun src _ => congrArg (EventUnit.cell · src) h⟩

theorem onlyEvents_trans {named : List Source} {s t u : State} (hst : OnlyEvents named s t)
    (htu : OnlyEvents named t u) : OnlyEvents named s u :=
  ⟨htu.1.trans hst.1, fun src h => (htu.2 src h).trans (hst.2 src h)⟩

theorem onlyEvents_raise {named : List Source} {src : Source} (h : src ∈ named) (s : State) :
    OnlyEvents named s (raise src s) :=
  ⟨rfl, fun _ hother => cell_update_other (fun e => hother (e ▸ h))⟩

theorem onlyEvents_handLevel {named : List Source} {src : Source} (h : src ∈ named) (before after : Bool) (s : State) :
    OnlyEvents named s (handLevel src before after s) := by
  obtain ⟨ev, he, hmask, hcell, _⟩ := handLevel_ev src before after s
  rw [he]
  exact ⟨hmask, fun other hother => hcell other (fun e => hother (e ▸ h))⟩

theorem cell_handLevel_other {src other : Source} (h : other ≠ src) (before after : Bool) (s : State) :
    (handLevel src before after s).ev.cell other = s.ev.cell other :=
  (onlyEvents_handLevel (List.mem_singleton_self src) before after s).2 other (by simpa using h)

/-- A condition that stands as it was is not handed over. -/
theorem handLevel_same (src : Source) (holds : Bool) (s : State) : handLevel src holds holds s = s := by
  cases holds <;> rfl

/-- R171: the start of a condition makes an IDLE source PENDING. -/
theorem cell_handLevel_start {src : Source} {s : State} (h : (s.ev.cell src).state = .quiet) :
    ((handLevel src false true s).ev.cell src).state = .pending := by
  show ((s.ev.update src.place SourceCell.started).cells.get src.place).state = _
  replace h : (s.ev.cells.get src.place).state = .quiet := h
  rw [cell_update, if_pos rfl, SourceCell.started, h]

/-- R171: the end of a condition makes its source IDLE. -/
theorem cell_handLevel_end (src : Source) (s : State) :
    ((handLevel src true false s).ev.cell src).state = .quiet := by
  show ((s.ev.update src.place SourceCell.ended).cells.get src.place).state = _
  rw [cell_update, if_pos rfl]
  rfl

theorem cell_raise_same (src : Source) (s : State) : (raise src s).ev.cell src = raisedOnce s.ev src :=
  (cell_raise src src s).trans (if_pos rfl)

theorem cell_raise_other {src other : Source} (h : other ≠ src) (s : State) :
    (raise src s).ev.cell other = s.ev.cell other :=
  (cell_raise src other s).trans (if_neg h)

theorem raisedOnce_congr {src : Source} {e f : EventUnit} (h : e.cell src = f.cell src) :
    raisedOnce e src = raisedOnce f src := by
  unfold raisedOnce
  rw [h]

/-! ### The receiver's state (R93, R96) -/

/-- A change between receiver states other than STUCK hands nothing over. -/
theorem setRx_unstuck {x : RxState} {s : State} (hs : s.rx.state ≠ .stuck) (hx : x ≠ .stuck) :
    setRx x s = { s with rx := { s.rx with state := x } } := by
  unfold setRx
  rw [beq_eq_false_iff_ne.2 hs, beq_eq_false_iff_ne.2 hx, handLevel_same]

theorem filterRuns_of_receiverRuns {s : State} (h : ReceiverRuns s) : filterRuns s.ctl.state = true := by
  simp only [ReceiverRuns, List.mem_cons, List.not_mem_nil, or_false] at h
  obtain hst | hst | hst := h <;> rw [hst] <;> rfl

/-! ### The line on a tick that is sampled already (R91, R92) -/

theorem sampleLine_taken {s : State} (h : s.filter.sampled = true) : sampleLine s = s := by
  unfold sampleLine
  rw [if_neg (by simp [h])]

/-- A line that is held at the level already stays as it is. -/
theorem holdLine_held {low : Bool} {s : State} (h : s.pins.peersLow = low) : holdLine low s = s := by
  unfold holdLine
  rw [← h]

theorem pullLine_pulled {s : State} (h : s.lineLow = true) : pullLine s = s := if_pos h

/-- R92: the filter has settled on the tick on which two samples agree. -/
theorem settle_agreed {high : Bool} {r : LineRun} {s : State} (h : Agreed high r s) : settle high s = s := by
  obtain ⟨hlast, hhigh, hagree, hsampled⟩ := h
  unfold settle
  dsimp only
  rw [sampleLine_taken hsampled, hlast]
  simp [hhigh, hagree]

/-- R92: the accepted low sets the high run to 0. -/
theorem acceptLevel_low {r : LineRun} {s : State} (h : Agreed false r s) :
    acceptLevel s = { s with filter := { s.filter with accepted := some false, highRun := 0 } } := by
  obtain ⟨hlast, hhigh, _⟩ := h
  unfold acceptLevel
  rw [hlast]
  simp [hhigh]

/-- R92: the high run counts from the first sample of the accepted high's run. -/
theorem acceptLevel_high {r : LineRun} {s : State} (h : Agreed true r s) :
    acceptLevel s = { s with filter := highAccepted r s } := by
  obtain ⟨hlast, hhigh, _⟩ := h
  unfold acceptLevel
  rw [hlast]
  simp [hhigh, highAccepted, ticksSince]

end Sys2Proof.Machine
end

section
/-! Offers (R104), and the rows that take an accepted edge or the end of RECOVER (R94, R97, R190). -/

namespace Sys2Proof.Machine

open Sys2Proof.Claims

/-! ### Offers by where the line and the holdoff stand (R88, R104, R105) -/

theorem offer_merges {c : ConfigStore} {causes : CauseSet} {time : Timestamp} {s : State} {q : Cause}
    (hst : s.ctl.state = .running) (hq : s.tx.request = some q) :
    offer c causes time s = { s with tx := { s.tx with request := some (q.merged causes) } } := by
  unfold offer
  rw [if_pos hst, hq]

theorem offer_in_holdoff {c : ConfigStore} {causes : CauseSet} {time : Timestamp} {s : State}
    (hst : s.ctl.state = .running) (hq : s.tx.request = none) (hh : 0 < s.tx.holdoff) :
    offer c causes time s = suppress s := by
  unfold offer
  rw [if_pos hst, hq]
  exact if_pos hh

/-- R104: with no request held and no holdoff, the receiver's state decides. -/
theorem offer_free {c : ConfigStore} {causes : CauseSet} {time : Timestamp} {s : State}
    (hst : s.ctl.state = .running) (hq : s.tx.request = none) (hh : s.tx.holdoff = 0) :
    (s.rx.state ∈ [RxState.idle, .low, .numberWindow] → offer c causes time s = holdRequest causes time s)
    ∧ (s.rx.state ∈ [RxState.stuck, .recover] → offer c causes time s = suppress s)
    ∧ (s.rx.state = .tagWindow → bitTime c ≤ s.sinceOrigin ∨ s.tx.slotDuty = true →
        offer c causes time s = suppress s)
    ∧ (s.rx.state = .tagWindow → s.sinceOrigin < bitTime c → s.tx.slotDuty = false →
        offer c causes time s = joinTrigger causes time s) := by
  have unheld : ¬ 0 < s.tx.holdoff := by omega
  unfold offer
  rw [if_pos hst, hq]
  dsimp only
  rw [if_neg unheld]
  refine ⟨fun h => ?_, fun h => ?_, fun h hlate => ?_, fun h hearly hduty => ?_⟩
  · simp only [List.mem_cons, List.not_mem_nil, or_false] at h
    obtain h | h | h := h <;> rw [h]
  · simp only [List.mem_cons, List.not_mem_nil, or_false] at h
    obtain h | h := h <;> rw [h]
  · rw [h]
    dsimp only
    obtain hguard | hduty := hlate
    · exact if_pos hguard
    · rw [if_pos hduty]
      exact ite_self _
  · rw [h]
    dsimp only
    exact (if_neg (Nat.not_le_of_lt hearly)).trans (if_neg (by simp [hduty]))

/-! ### The pending item of the OPEN record (R61, R105) -/

theorem openSlot_only {i : SlotNo} {r : Record} {s : State} (h : OnlyOpen i r s) : openSlot s = some i := by
  obtain ⟨hi, hopen, hothers⟩ := h
  exact findRecord_only hi (by simpa [Record.isOpen] using hopen)
    (fun j r' hj hs => by simp [Record.isOpen, hothers j r' hj hs])

theorem openSlot_none {s : State} (h : NoneOpen s) : openSlot s = none :=
  findRecord_none (fun j r hj => by simp [Record.isOpen, h j r hj])

theorem attachCause_pending {cause : Cause} {i : SlotNo} {r : Record} {item : PendingItem} {s : State}
    (h : OnlyOpen i r s) (hw : r.window = some item) :
    attachCause cause s = setSlot i (some (r.withCause item cause)) s := by
  unfold attachCause
  rw [openSlot_only h]
  simp only [h.1, hw]

theorem attachCause_dropped {cause : Cause} {s : State}
    (h : NoneOpen s ∨ ∃ i r, OnlyOpen i r s ∧ r.window = none) : attachCause cause s = s := by
  unfold attachCause
  obtain hn | ⟨i, r, ho, hw⟩ := h
  · rw [openSlot_none hn]
  · rw [openSlot_only ho]
    simp only [ho.1, hw]

/-- Settles O45: the offer in another station state, merged, in the holdoff, and by the receiver's state. -/
theorem offersAreFormedMergedJoinedOrSuppressed : Obligations.OffersAreFormedMergedJoinedOrSuppressed := by
  intro c causes time s formed held suppressed
  refine ⟨fun hst => if_neg hst, fun hst => ⟨fun q hq => offer_merges hst hq,
    fun hq hh => offer_in_holdoff hst hq hh, fun hq hh => ?_⟩⟩
  obtain ⟨holds, suppresses, late, joins⟩ := offer_free (c := c) (causes := causes) (time := time) hst hq hh
  refine ⟨holds, suppresses, late, fun hrx hearly hduty => ?_⟩
  let joined : State := { s with tx := { s.tx with slotDuty := true } }
  rw [joins hrx hearly hduty]
  exact ⟨fun i r ho hw => attachCause_pending (s := joined) ho hw,
    fun i r k ho hw => attachCause_pending (s := joined) ho hw, fun hdrop => attachCause_dropped (s := joined) hdrop⟩

/-! ### Accepted edges outside LOW (R94, R97) -/

theorem execLeadingEdge_now {c : ConfigStore} {r : LineRun} {s : State} (ha : Active s c) (hr : ReceiverRuns s)
    (hl : s.lineLow = true) (hg : Agreed false r s) (hrx : s.rx.state = .idle) :
    exec .leadingEdge s = .next (enterLow r (acceptLevel s)) := by
  show execLeadingEdge s = _
  unfold execLeadingEdge
  rw [whenConfigured_held ha.1 ha.2, filterRuns_of_receiverRuns hr, hrx, pullLine_pulled hl, settle_agreed hg]
  unfold takeLeadingEdge
  rw [hg.1]
  rfl

theorem execRecoverCountRestart_now {c : ConfigStore} {r : LineRun} {s : State} (ha : Active s c)
    (hr : ReceiverRuns s) (hl : s.lineLow = true) (hg : Agreed false r s) (hrx : s.rx.state = .recover) :
    exec .recoverCountRestart s = .next (acceptLevel s) := by
  show execRecoverCountRestart s = _
  unfold execRecoverCountRestart
  rw [whenConfigured_held ha.1 ha.2, filterRuns_of_receiverRuns hr, hrx, pullLine_pulled hl, settle_agreed hg]
  exact congrArg _ (holdLine_held (by simp))

theorem execStuckRelease_now {c : ConfigStore} {r : LineRun} {s : State} (ha : Active s c) (hr : ReceiverRuns s)
    (hp : s.pins.peersLow = false) (hx : s.tx.pulls = false) (hg : Agreed true r s) (hrx : s.rx.state = .stuck) :
    exec .stuckRelease s = .next (setRx .recover (acceptLevel s)) := by
  show execStuckRelease s = _
  unfold execStuckRelease
  rw [whenConfigured_held ha.1 ha.2, filterRuns_of_receiverRuns hr, hrx, hx, holdLine_held hp, settle_agreed hg]
  rfl

/-- R97: leaving STUCK ends LINE_STUCK's condition. -/
theorem setRx_release {x : RxState} {s : State} (hs : s.rx.state = .stuck) (hx : x ≠ .stuck) :
    setRx x s = handLevel .lineStuck true false { s with rx := { s.rx with state := x } } := by
  unfold setRx
  rw [hs, beq_eq_false_iff_ne.2 hx]
  rfl

/-- Settles O47: the low in IDLE, the low in RECOVER, and the high in STUCK. -/
theorem acceptedEdgesMoveTheReceiver : Obligations.AcceptedEdgesMoveTheReceiver := by
  intro c r s ha hr
  refine ⟨fun hl hg => ⟨fun hrx => ?_, fun hrx => ?_⟩, fun hp hx hg hrx => ?_⟩
  · rw [execLeadingEdge_now ha hr hl hg hrx, acceptLevel_low hg, enterLow, setRx_unstuck (by simp [hrx]) (by decide)]
  · rw [execRecoverCountRestart_now ha hr hl hg hrx, acceptLevel_low hg]
  · rw [execStuckRelease_now ha hr hp hx hg hrx, acceptLevel_high hg,
      setRx_release (s := { s with filter := highAccepted r s }) hrx (by decide)]
    let released : State := { s with filter := highAccepted r s, rx := { s.rx with state := .recover } }
    obtain ⟨ev, he, _, hcell, _⟩ := handLevel_ev .lineStuck true false released
    have ended := cell_handLevel_end .lineStuck released
    rw [he] at ended
    exact ⟨ev, congrArg _ he, ended, hcell⟩

/-! ### The end of RECOVER (R97, R190) -/

theorem execRecoverComplete_now {c : ConfigStore} {s : State} (ha : Active s c) (hr : ReceiverRuns s)
    (hrx : s.rx.state = .recover) (hx : s.tx.pulls = false) (hacc : s.filter.accepted = some true)
    (hrun : 64 * bitTime c ≤ s.filter.highRun) : exec .recoverComplete s = .next (finishRecover c s) := by
  have due : recoverDue c s = some 0 := by simp [recoverDue, hrx, hacc, hrun]
  show execRecoverComplete s = _
  unfold execRecoverComplete
  rw [whenConfigured_held ha.1 ha.2, filterRuns_of_receiverRuns hr, hrx, hx, awaitHigh, if_pos hacc]
  simp only [due]
  rfl

/-- R76: RUNNING entry arms the enabled detectors and leaves the others. -/
theorem armDetectors_get (c : ConfigStore) (dets : Vector Detector 8) (d : Fin 8) :
    (armDetectors c dets).get d
      = if detEnabled c d then { dets.get d with state := .armed, count := 0 } else dets.get d := by
  unfold armDetectors
  rw [get_ofFn]

/-- R190, R76, R82, R120, R112: what RUNNING entry writes beside the event unit. -/
theorem enterRunning_writes (c : ConfigStore) (s : State) :
    let t := enterRunning c s
    t.ctl = { s.ctl with state := .running }
    ∧ t.tb = { s.tb with
        phase := 0, epoch := 0, sync := .seeking, mode := .line, requestMade := false, provisional := false }
    ∧ t.dets = armDetectors c s.dets ∧ t.trig = { State.reset.trig with watching := trigEnabled c }
    ∧ t.tx = { s.tx with holdoff := 0 } := by
  refine ⟨by simp [enterRunning], by simp [enterRunning], by simp [enterRunning], ?_, by simp [enterRunning]⟩
  simp only [enterRunning, setStation_frame]
  cases trigEnabled c <;> rfl

theorem enterRunning_leaves (c : ConfigStore) (s : State) :
    let t := enterRunning c s
    t.rx = s.rx ∧ t.pool = s.pool ∧ t.writer = s.writer ∧ t.seqr = s.seqr ∧ t.recs = s.recs ∧ t.filter = s.filter
    ∧ t.mem = s.mem ∧ t.ret = s.ret ∧ t.port = s.port ∧ t.pins = s.pins ∧ t.pending = s.pending := by
  simp [enterRunning]

/-- R133: RUNNING entry from another state starts SYNC_SEEKING's condition. -/
theorem enterRunning_starts_seeking {c : ConfigStore} {s : State} (hst : s.ctl.state ≠ .running) :
    ∃ u, u.ev = s.ev ∧ enterRunning c s = handLevel .syncSeeking false true u := by
  unfold enterRunning setStation
  dsimp only
  rw [seekingHolds_of_ne hst]
  refine ⟨_, ?_, rfl⟩
  rfl

/-- Settles O30: the receiver is IDLE, and RUNNING entry follows in LISTEN alone. -/
theorem recoverCompleteEntersRunning : Obligations.RecoverCompleteEntersRunning := by
  intro c s ha hr hrx hx hacc hrun
  refine ⟨_, execRecoverComplete_now ha hr hrx hx hacc hrun, ?_⟩
  unfold finishRecover
  rw [setRx_unstuck (by simp [hrx]) (by decide)]
  dsimp only
  let idle : State := { s with rx := { s.rx with state := .idle } }
  by_cases hst : s.ctl.state = .listen
  · rw [if_pos hst]
    obtain ⟨ctl, tb, dets, trig, tx⟩ := enterRunning_writes c idle
    obtain ⟨rx, pool, writer, seqr, recs, filter, mem, ret, port, pins, pending⟩ := enterRunning_leaves c idle
    obtain ⟨u, hev, hand⟩ := enterRunning_starts_seeking (c := c) (s := idle) (by simp [idle, hst])
    refine ⟨rx, pool, writer, seqr, recs, filter, mem, ret, port, pins, pending, fun h => absurd hst h, fun _ =>
      ⟨ctl, tb, fun d hd => ?_, fun d hd => ?_, trig, tx, fun hq => ?_, ?_⟩⟩
    · rw [dets, armDetectors_get, if_pos hd]
    · rw [dets, armDetectors_get, if_neg (by simp [hd])]
    · rw [hand]
      exact cell_handLevel_start (by rw [hev]; exact hq)
    · rw [hand]
      exact onlyEvents_trans (onlyEvents_of_ev hev) (onlyEvents_handLevel (by simp) _ _ u)
  · rw [if_neg hst]
    exact ⟨rfl, rfl, rfl, rfl, rfl, rfl, rfl, rfl, rfl, rfl, rfl, fun _ => ⟨rfl, rfl, rfl, rfl, rfl, rfl⟩,
      fun h => absurd h hst⟩

end Sys2Proof.Machine
end

section
/-! The trailing edge of a pulse and its classes (R95 to R97, R105 to R110, R126, R127). -/

namespace Sys2Proof.Machine

open Sys2Proof.Claims

/-! ### The trailing edge (R95, R96) -/

/-- R95, R96: a trailing edge accepted on this tick is classified by its width, or is STUCK beyond 48T. -/
theorem execTrailingEdge_now {c : ConfigStore} {r : LineRun} {w : Nat} {s : State} (h : TrailingEdgeNow c r s)
    (hw : w ≤ (s.tb.localTick - s.rx.pulseStart).toNat) :
    ∃ bound, exec (.trailingEdge w) s = .next
      (if 48 * bitTime c < pulseWidth r s then stuckAtBound c bound s
        else classifyPulse c (pulseWidth r s) { s with filter := highAccepted r s }) := by
  obtain ⟨ha, hr, hrx, hx, hp, hg⟩ := h
  have runs := filterRuns_of_receiverRuns hr
  have due : stuckDue c s = some (48 * bitTime c + 1 - ticksSince s.tb.localTick s.rx.pulseStart) :=
    if_pos ⟨hrx, runs⟩
  have outlasts : outlasts48T c s = decide (48 * bitTime c < pulseWidth r s) := by
    unfold outlasts48T
    rw [hg.1]
    rfl
  have taken : takeTrailingEdge c s = classifyPulse c (pulseWidth r s) { s with filter := highAccepted r s } := by
    unfold takeTrailingEdge
    rw [hg.1, acceptLevel_high hg]
    rfl
  refine ⟨48 * bitTime c + 1 - ticksSince s.tb.localTick s.rx.pulseStart, ?_⟩
  show execTrailingEdge w s = _
  unfold execTrailingEdge
  rw [whenConfigured_held ha.1 ha.2, runs, hrx, hx]
  simp only [ticksSince, Nat.sub_eq_zero_of_le hw, if_true, holdLine_held hp, settle_agreed hg]
  simp [due, outlasts, taken, ticksSince]

/-- R95: within 48T the pulse is classified. -/
theorem execTrailingEdge_classifies {c : ConfigStore} {r : LineRun} {w : Nat} {s : State} (h : TrailingEdgeNow c r s)
    (hw : w ≤ (s.tb.localTick - s.rx.pulseStart).toNat) (hle : pulseWidth r s ≤ 48 * bitTime c) :
    exec (.trailingEdge w) s = .next (classifyPulse c (pulseWidth r s) { s with filter := highAccepted r s }) := by
  obtain ⟨bound, he⟩ := execTrailingEdge_now h hw
  rw [he, if_neg (Nat.not_lt_of_le hle)]

/-- R96: a declaration leaves the receiver STUCK and its line-error count as it was. -/
theorem declareStuck_rx (c : ConfigStore) (s : State) :
    (declareStuck c s).rx = { s.rx with state := .stuck, capture := none } := by
  unfold declareStuck
  dsimp only
  split <;> simp

theorem stuckAtBound_rx (c : ConfigStore) (wait : Nat) (s : State) :
    (stuckAtBound c wait s).rx = { s.rx with state := .stuck, capture := none } := by
  unfold stuckAtBound
  rw [declareStuck_rx]
  split <;> simp

/-! ### The classes by the width (R95) -/

theorem classify_glitch {t w : Nat} (h : 2 * w < 3 * t) : classify t w = .glitch := if_pos h

theorem classify_trigger {t w : Nat} (hlow : 3 * t ≤ 2 * w) (hhigh : 2 * w ≤ 5 * t) : classify t w = .trigger := by
  unfold classify
  rw [if_neg (by omega), if_pos hhigh]

theorem classify_epoch {t w : Nat} (ht : 1 ≤ t) (hlow : 10 * t ≤ 2 * w) (hhigh : 2 * w ≤ 14 * t) :
    classify t w = .epoch := by
  unfold classify
  rw [if_neg (by omega), if_neg (by omega), if_neg (by omega), if_pos hhigh]

theorem classify_malformed {t w : Nat} (h : (5 * t < 2 * w ∧ 2 * w < 10 * t) ∨ 14 * t < 2 * w) :
    classify t w = .malformed := by
  unfold classify
  rw [if_neg (by omega), if_neg (by omega)]
  split
  · rfl
  · rw [if_neg (by omega)]

/-! ### An own drive that comes back as another class (R107, R109, R114) -/

theorem absorb_halted {s : State} {q : Cause} (hst : s.ctl.state ≠ .running) (hq : s.tx.request = some q) :
    absorb s = { s with tx := { s.tx with request := none } } := by
  unfold absorb
  rw [hq]
  exact if_pos (bne_iff_ne.2 hst)

theorem absorb_first {s : State} {q : Cause} (hst : s.ctl.state = .running) (hq : s.tx.request = some q)
    (hr : q.retried = false) :
    absorb s = { s with tx := { s.tx with request := some { q with retried := true } } } := by
  unfold absorb
  rw [hq]
  simp [hst, hr]

theorem absorb_second {s : State} {q : Cause} (hst : s.ctl.state = .running) (hq : s.tx.request = some q)
    (hr : q.retried = true) :
    absorb s
      = raise .originLost { s with tx := { s.tx with request := none, lost := min 255 (s.tx.lost + 1) } } := by
  unfold absorb
  rw [hq]
  simp [hst, hr, satSucc]

theorem absorbOwn_driving {s : State} (h : s.tx.drive.any (fun d => !d.isEpoch) = true) : absorbOwn s = absorb s :=
  if_pos h

theorem absorbOwn_other {s : State} (h : s.tx.drive.any (fun d => !d.isEpoch) = false) : absorbOwn s = s :=
  if_neg (by simp [drivesTrigger, h])

/-- R114: in HALTED an own EPOCH drive is dropped, and nothing else touches the held epoch request. -/
theorem dropOwnEpoch_driving {s : State} (h : s.tx.drive.any (·.isEpoch) = true) :
    dropOwnEpoch s = { s with tx := { s.tx with epochHeld := s.tx.epochHeld && s.ctl.state == .running } } := by
  unfold dropOwnEpoch drivesEpoch
  rw [h]
  by_cases hst : s.ctl.state = .running
  · simp [hst]
  · simp [hst]

theorem dropOwnEpoch_other {s : State} (h : s.tx.drive.any (·.isEpoch) = false) : dropOwnEpoch s = s :=
  if_neg (by simp [drivesEpoch, h])

/-! ### Pulses that open no window (R95, R100) -/

/-- R95: the state that a pulse of run r is classified in, the high accepted and the width measured. -/
def classified (r : LineRun) (s : State) : State :=
  { s with filter := highAccepted r s, rx := { s.rx with width := pulseWidth r s } }

theorem classified_unstuck {c : ConfigStore} {r : LineRun} {s : State} (h : TrailingEdgeNow c r s) :
    (classified r s).rx.state ≠ .stuck := by
  obtain ⟨_, _, hrx, _⟩ := h
  simp [classified, hrx]

/-- R95, R100: a malformed pulse, but for what becomes of an own drive. -/
def malformedEnded (s : State) : State :=
  { s with
    rx := { s.rx with state := .idle, capture := none, lineErrors := min 255 (s.rx.lineErrors + 1) },
    tx := { s.tx with drive := none } }

theorem onMalformed_eq {s : State} (h : s.rx.state ≠ .stuck) :
    onMalformed s = malformedEnded (dropOwnEpoch (absorbOwn s)) := by
  unfold onMalformed
  dsimp only
  rw [setRx_unstuck (by simpa using h) (by decide)]
  rfl

theorem onGlitch_eq {s : State} (h : s.rx.state ≠ .stuck) :
    onGlitch s = { s with rx := { s.rx with state := .idle, capture := none }, tx := { s.tx with drive := none } } := by
  unfold onGlitch
  rw [setRx_unstuck (by simpa using h) (by decide)]
  rfl

/-- R95, R100: a pulse with a true leading edge goes by its class, and one without is malformed. -/
theorem classifyPulse_eq (c : ConfigStore) (r : LineRun) (s : State) :
    classifyPulse c (pulseWidth r s) { s with filter := highAccepted r s }
      = match s.rx.capture with
        | none => onMalformed (classified r s)
        | some e =>
          match classify (bitTime c) (pulseWidth r s) with
          | .glitch => onGlitch (classified r s)
          | .trigger => onTrigger c e (classified r s)
          | .epoch => onEpoch c e (classified r s)
          | .malformed => onMalformed (classified r s) := rfl

/-- R95, R100: a malformed pulse, and one without a true leading edge, ends in IDLE with its error counted. -/
theorem execTrailingEdge_malformed {c : ConfigStore} {r : LineRun} {w : Nat} {s : State} (h : TrailingEdgeNow c r s)
    (hw : w ≤ (s.tb.localTick - s.rx.pulseStart).toNat) (hle : pulseWidth r s ≤ 48 * bitTime c)
    (hm : s.rx.capture = none ∨ (5 * bitTime c < 2 * pulseWidth r s ∧ 2 * pulseWidth r s < 10 * bitTime c)
      ∨ 14 * bitTime c < 2 * pulseWidth r s) :
    exec (.trailingEdge w) s = .next (malformedEnded (dropOwnEpoch (absorbOwn (classified r s)))) := by
  have low := classified_unstuck h
  rw [execTrailingEdge_classifies h hw hle, ← onMalformed_eq low, classifyPulse_eq]
  cases hcap : s.rx.capture with
  | none => rfl
  | some e => rw [classify_malformed (hm.resolve_left (by simp [hcap]))]

/-- Settles O48: the glitch, the low beyond 48T, and the malformed pulse by what the station was driving. -/
theorem glitchAndMalformedPulsesEndInIdle : Obligations.GlitchAndMalformedPulsesEndInIdle := by
  intro c r w s h hw T W ended counted
  have low := classified_unstuck h
  refine ⟨fun e he hglitch => ?_, fun hlong => ?_, fun hle hm => ?_⟩
  · rw [execTrailingEdge_classifies h hw (by omega), classifyPulse_eq, he, classify_glitch hglitch]
    exact congrArg _ (onGlitch_eq low)
  · obtain ⟨bound, hexec⟩ := execTrailingEdge_now h hw
    rw [if_pos hlong] at hexec
    exact ⟨_, hexec, by rw [stuckAtBound_rx], by rw [stuckAtBound_rx]⟩
  · rw [execTrailingEdge_malformed h hw hle hm]
    refine ⟨fun hd => ?_, fun d hd hep => ?_, fun d q hd htr hq => ?_⟩
    · rw [absorbOwn_other (by simp [classified, hd]), dropOwnEpoch_other (by simp [classified, hd])]
      rfl
    · rw [absorbOwn_other (by simp [classified, hd, hep]), dropOwnEpoch_driving (by simp [classified, hd, hep])]
      rfl
    · rw [absorbOwn_driving (by simp [classified, hd, htr])]
      refine ⟨fun hst => ?_, fun hst hfirst => ?_, fun hst hsecond => ?_⟩
      · rw [absorb_halted (s := classified r s) hst hq, dropOwnEpoch_other (by simp [classified, hd, htr])]
        rfl
      · rw [absorb_first (s := classified r s) hst hq hfirst, dropOwnEpoch_other (by simp [classified, hd, htr])]
        rfl
      · rw [absorb_second (s := classified r s) hst hq hsecond, dropOwnEpoch_other (by simp [classified, hd, htr])]
        rfl

/-! ### The TRIGGER pulse (R98, R105, R107) -/

/-- R105, R107: the served request is given up and the slot duty taken up. -/
theorem serveRequest_eq (s : State) :
    serveRequest s
      = { s with tx := { s.tx with request := none, slotDuty := s.tx.request.isSome || s.tx.slotDuty } } := by
  unfold serveRequest
  cases hq : s.tx.request with
  | none =>
    show s = { s with tx := { s.tx with request := none, slotDuty := s.tx.slotDuty } }
    rw [← hq]
  | some q => rfl

/-- R95, R98: the tag window opens on the present tick. -/
theorem onTrigger_eq {c : ConfigStore} {e : EdgeCapture} {s : State} (h : s.rx.state ≠ .stuck) :
    onTrigger c e s = triggerEvent c e.edge s.tx.request { s with
      rx := { s.rx with state := .tagWindow, origin := s.tb.localTick, slotPos := 0, slotsDone := false, idSet := 0 },
      tx := { s.tx with
        drive := none, request := none, slotDuty := s.tx.request.isSome || s.tx.slotDuty } } := by
  unfold onTrigger
  dsimp only
  rw [setRx_unstuck (by simpa using h) (by decide), serveRequest_eq]
  rfl

/-- Settles O49: the pulse classifies TRIGGER, and the window opens in the classified state. -/
theorem triggerPulseOpensTheTagWindow : Obligations.TriggerPulseOpensTheTagWindow := by
  intro c r w e s h hw he hlow hhigh
  rw [execTrailingEdge_classifies h hw (by omega), classifyPulse_eq, he, classify_trigger hlow hhigh]
  exact congrArg _ (onTrigger_eq (classified_unstuck h))

/-! ### The EPOCH pulse (R101, R109, R110, R126, R127) -/

/-- R109, R110, R125: a held epoch request is satisfied and its number-bit duty taken up. -/
theorem satisfyEpoch_eq (s : State) :
    satisfyEpoch s = { s with tx := { s.tx with
      epochHeld := false,
      bitDuty := if s.tx.epochHeld then some { number := s.tb.epoch + 1, next := 0, driving := false }
        else s.tx.bitDuty } } := by
  unfold satisfyEpoch
  cases hh : s.tx.epochHeld with
  | true => rfl
  | false =>
    show s = { s with tx := { s.tx with epochHeld := false, bitDuty := s.tx.bitDuty } }
    rw [← hh]

/-- R127: SYNC_STEP's test. -/
def stepsSync (c : ConfigStore) (e : EdgeCapture) (s : State) : Bool :=
  s.tb.sync == .locked && !e.epochHeld && stepsAway e.edge.stamp.phase.toNat (period c) (lockWindow c)

/-- R126: the timebase aligned to the leading edge `e`. -/
def aligned (e : EdgeCapture) (tb : Timebase) : Timebase :=
  { tb with
    phase := BitVec.ofNat 16 (ticksSince tb.localTick e.edge.tick), epoch := tb.epoch + 1, provisional := true,
    requestMade := false }

theorem align_running {c : ConfigStore} {e : EdgeCapture} {s : State} (h : s.ctl.state = .running) :
    align c e s = if stepsSync c e s then raise .syncStep { s with tb := aligned e s.tb }
      else { s with tb := aligned e s.tb } :=
  if_pos h

theorem align_elsewhere {c : ConfigStore} {e : EdgeCapture} {s : State} (h : s.ctl.state ≠ .running) :
    align c e s = s :=
  if_neg h

/-- R107, R114: what an absorbed own drive leaves of the transmitter. -/
theorem absorbOwn_tx (s : State) :
    let x := (absorbOwn s).tx
    x.drive = s.tx.drive ∧ x.epochHeld = s.tx.epochHeld ∧ x.holdoff = s.tx.holdoff ∧ x.suppressed = s.tx.suppressed
    ∧ x.slotDuty = s.tx.slotDuty ∧ x.bitDuty = s.tx.bitDuty := by
  unfold absorbOwn absorb
  repeat' split
  all_goals simp

theorem absorbOwn_events {named : List Source} (h : .originLost ∈ named) (s : State) :
    OnlyEvents named s (absorbOwn s) := by
  unfold absorbOwn absorb
  repeat' split
  · exact onlyEvents_of_ev rfl
  · exact onlyEvents_of_ev rfl
  · exact onlyEvents_raise h _
  · exact onlyEvents_of_ev rfl
  · exact onlyEvents_of_ev rfl

/-- R114: outside RUNNING nothing is counted lost. -/
theorem absorbOwn_halted_ev {s : State} (h : s.ctl.state ≠ .running) : (absorbOwn s).ev = s.ev := by
  unfold absorbOwn
  split
  · unfold absorb
    split
    · rfl
    · rw [if_pos (bne_iff_ne.2 h)]
  · rfl

/-- R95, R101, R109, R110: the number window opened by an EPOCH pulse, before the timebase aligns. -/
def epochOpened (s : State) : State :=
  { absorbOwn s with
    rx := { s.rx with state := .numberWindow, origin := s.tb.localTick, slotPos := 0, slotsDone := false, bits := 0 },
    tx := { (absorbOwn s).tx with
      drive := none, epochHeld := false,
      bitDuty := if s.tx.epochHeld then some { number := s.tb.epoch + 1, next := 0, driving := false }
        else s.tx.bitDuty } }

theorem onEpoch_eq {c : ConfigStore} {e : EdgeCapture} {s : State} (h : s.rx.state ≠ .stuck) :
    onEpoch c e s = align c e (epochOpened s) := by
  obtain ⟨_, heldEpoch, _, _, _, bitDuty⟩ := absorbOwn_tx s
  unfold onEpoch
  dsimp only
  rw [setRx_unstuck (by simpa using h) (by decide), satisfyEpoch_eq]
  simp [epochOpened, endDrive, heldEpoch, bitDuty]

/-- R126, R127: alignment leaves every source but SYNC_STEP. -/
theorem align_events {named : List Source} (h : .syncStep ∈ named) (c : ConfigStore) (e : EdgeCapture) (s : State) :
    OnlyEvents named s (align c e s) := by
  unfold align
  dsimp only
  split
  · split
    · exact onlyEvents_raise h _
    · exact onlyEvents_of_ev rfl
  · exact onlyEvents_of_ev rfl

theorem align_tb {c : ConfigStore} {e : EdgeCapture} {s : State} (h : s.ctl.state = .running) :
    (align c e s).tb = aligned e s.tb := by
  rw [align_running h]
  split <;> rfl

theorem align_syncStep {c : ConfigStore} {e : EdgeCapture} {s : State} (h : s.ctl.state = .running) :
    (align c e s).ev.cell .syncStep
      = if stepsSync c e s then raisedOnce s.ev .syncStep else s.ev.cell .syncStep := by
  rw [align_running h]
  split
  · exact cell_raise_same .syncStep _
  · rfl

/-- R127: SYNC_STEP's test fails where one of its three conditions does. -/
theorem stepsSync_false {c : ConfigStore} {e : EdgeCapture} {s : State}
    (h : s.tb.sync = .seeking ∨ e.epochHeld = true
      ∨ (period c ≤ e.edge.stamp.phase.toNat + lockWindow c
        ∧ e.edge.stamp.phase.toNat ≤ period c + lockWindow c)) : stepsSync c e s = false := by
  unfold stepsSync stepsAway
  obtain hseek | hheld | ⟨hlow, hhigh⟩ := h
  · simp [hseek]
  · simp [hheld]
  · simp [Nat.not_lt_of_le hlow, Nat.not_lt_of_le hhigh]

theorem stepsSync_true {c : ConfigStore} {e : EdgeCapture} {s : State} (hs : s.tb.sync = .locked)
    (he : e.epochHeld = false)
    (h : e.edge.stamp.phase.toNat + lockWindow c < period c
      ∨ period c + lockWindow c < e.edge.stamp.phase.toNat) : stepsSync c e s = true := by
  unfold stepsSync stepsAway
  simpa [hs, he] using h.symm

/-- Settles O50: the number window opens in the classified state, an own TRIGGER drive absorbed, and the timebase
aligns in RUNNING alone. -/
theorem epochPulseAlignsTheTimebase : Obligations.EpochPulseAlignsTheTimebase := by
  intro c r w e s h hw he hT hlow hhigh
  let u := classified r s
  let v := epochOpened u
  have low : u.rx.state ≠ .stuck := classified_unstuck h
  have opened : exec (.trailingEdge w) s = .next (align c e v) := by
    rw [execTrailingEdge_classifies h hw (by omega), classifyPulse_eq, he, classify_epoch hT hlow hhigh]
    exact congrArg _ (onEpoch_eq low)
  obtain ⟨_, _, holdoff, suppressed, slotDuty, _⟩ := absorbOwn_tx u
  have step_cell : v.ev.cell .syncStep = s.ev.cell .syncStep :=
    (absorbOwn_events (List.mem_singleton_self _) u).2 .syncStep (by decide)
  have lost_cell : (align c e v).ev.cell .originLost = (absorbOwn u).ev.cell .originLost :=
    (align_events (List.mem_singleton_self _) c e v).2 .originLost (by decide)
  have tx : (align c e v).tx = v.tx := by simp
  have request : (align c e v).tx.request = (absorbOwn u).tx.request := by rw [tx]; rfl
  have lost : (align c e v).tx.lost = (absorbOwn u).tx.lost := by rw [tx]; rfl
  have state : v.ctl.state = s.ctl.state := by simp [v, epochOpened, u, classified]
  have tb : v.tb = s.tb := by simp [v, epochOpened, u, classified]
  refine ⟨_, opened, by simp [v, epochOpened, u, classified], by simp [v, epochOpened, u, classified],
    by rw [tx]; rfl, by rw [tx]; rfl, by rw [tx]; exact slotDuty, by rw [tx]; exact holdoff, by rw [tx]; rfl,
    fun hother => ?_, fun q hown hq => ⟨fun hst => ?_, fun hst hfirst => ?_, fun hst hsecond => ?_⟩,
    fun hst => ?_, fun hst => ⟨?_, fun ⟨hsync, hheld, haway⟩ => ?_, fun hno => ?_⟩, ?_⟩
  · rw [request, lost, absorbOwn_other (s := u) hother]
    exact ⟨rfl, rfl⟩
  · rw [request, lost, absorbOwn_driving (s := u) hown, absorb_halted (s := u) hst hq]
    exact ⟨rfl, rfl⟩
  · rw [request, lost, absorbOwn_driving (s := u) hown, absorb_first (s := u) hst hq hfirst]
    exact ⟨rfl, rfl⟩
  · rw [request, lost, lost_cell, absorbOwn_driving (s := u) hown, absorb_second (s := u) hst hq hsecond]
    exact ⟨rfl, rfl, cell_raise_same .originLost _⟩
  · rw [align_elsewhere (state ▸ hst)]
    exact ⟨tb, absorbOwn_halted_ev (s := u) hst⟩
  · rw [align_tb (state.trans hst), tb]
    rfl
  · rw [align_syncStep (state.trans hst), if_pos (stepsSync_true (tb ▸ hsync) hheld haway)]
    exact raisedOnce_congr step_cell
  · rw [align_syncStep (state.trans hst), stepsSync_false (tb ▸ hno)]
    exact step_cell
  · have events : OnlyEvents [.originLost, .syncStep] s (align c e v) :=
      onlyEvents_trans (absorbOwn_events (by simp) u) (align_events (by simp) c e v)
    obtain ⟨ctl, pool, writer, seqr, recs, dets, trig, _, mem, ret, port, pins, pending⟩ := onEpoch_frame c e u
    rw [onEpoch_eq low] at ctl pool writer seqr recs dets trig mem ret port pins pending
    exact ⟨recs, pool, writer, mem, dets, ctl, trig, seqr, ret, port, pins, by rw [tx]; exact suppressed, pending,
      events⟩

end Sys2Proof.Machine
end

section
/-! The windows: their slots' sampling, and what their ends hand on (R98 to R102, R112, R129, R130). -/

namespace Sys2Proof.Machine

open Sys2Proof.Claims

/-! ### The filter within a window (R92) -/

theorem edgeRow_window {s : State} (h : s.rx.state ∈ [RxState.tagWindow, .numberWindow]) : edgeRow s = none := by
  simp only [List.mem_cons, List.not_mem_nil, or_false] at h
  unfold edgeRow
  split
  · obtain h | h := h <;> rw [h]
  · rfl

theorem nextRun_high (s : State) : (nextRun s).high = !s.lineLow := by
  unfold nextRun
  split
  · split
    · assumption
    · rfl
  · rfl

/-- R92: a sample equal to the last one makes the run agree. -/
theorem nextRun_agrees {s : State} {r : LineRun} (hr : s.filter.last = some r) (hh : r.high = !s.lineLow) :
    (nextRun s).agree = true := by
  unfold nextRun
  rw [hr]
  simp only [if_pos hh]

/-- R92: in a window a sample joins the run, and an agreed level is accepted without an edge. -/
theorem sampleLine_window {s : State} (hf : filterRuns s.ctl.state = true) (hs : s.filter.sampled = false)
    (hw : s.rx.state ∈ [RxState.tagWindow, .numberWindow]) :
    (sampleLine s).filter.last = some (nextRun s)
    ∧ ((nextRun s).agree = true → (sampleLine s).filter.accepted = some (nextRun s).high) := by
  let t : State := { s with filter := { s.filter with last := some (nextRun s), sampled := true } }
  have no_row : edgeRow t = none := edgeRow_window hw
  have sample : sampleLine s = if (risingOrFalling t).isSome then acceptLevel t else t := by
    unfold sampleLine
    rw [if_pos (by simp [hf, hs])]
    show (if (risingOrFalling t).isSome && (edgeRow t).isNone then acceptLevel t else t) = _
    rw [no_row]
    simp
  have rising : risingOrFalling t = if (nextRun s).agree && s.filter.accepted != some (nextRun s).high
      then some (nextRun s).high else none := rfl
  rw [sample, rising]
  split
  · exact ⟨rfl, fun _ => rfl⟩
  next h =>
    refine ⟨rfl, fun hagree => ?_⟩
    show s.filter.accepted = _
    simpa [hagree] using h

/-- R98, R101: in a window, with the clock running, the line held at a level by the others, and not pulled by this
station where it is to be high. -/
structure HeldInWindow (high : Bool) (s : State) : Prop where
  runs : filterRuns s.ctl.state = true
  window : s.rx.state ∈ [RxState.tagWindow, .numberWindow]
  peers : s.pins.peersLow = !high
  own : high = true → s.tx.pulls = false
  clock : s.tb.prescale.isSome = true
  config : s.ctl.config.isSome = true

/-- The last sample was at the level that the line is held at, and this tick's is still to come. -/
def Heard (high : Bool) (s : State) : Prop :=
  s.filter.sampled = false ∧ ∃ r, s.filter.last = some r ∧ r.high = high

theorem HeldInWindow.lineLow {high : Bool} {s : State} (h : HeldInWindow high s) : s.lineLow = !high := by
  unfold State.lineLow
  rw [h.peers]
  cases high with
  | false => rfl
  | true => exact h.own rfl

/-- R110, R111: a tick begins no slot drive. -/
theorem tick_pulls {s : State} (h : s.tx.pulls = false) : (tick s).tx.pulls = false := by
  unfold tick countTick
  split
  · simp only [Transmitter.pulls, countTransmitter, sampleLine_frame, Bool.or_eq_false_iff] at h ⊢
    obtain ⟨⟨hdrive, hslot⟩, hbit⟩ := h
    refine ⟨⟨hdrive, by rw [hslot]; rfl⟩, ?_⟩
    cases hd : s.tx.bitDuty with
    | none => rfl
    | some d =>
      replace hbit : d.driving = false := by simpa [hd] using hbit
      simp [hbit]
  · simpa using h

theorem HeldInWindow.tick {high : Bool} {s : State} (h : HeldInWindow high s) : HeldInWindow high (tick s) where
  runs := by simpa using h.runs
  window := by simpa using h.window
  peers := by simpa using h.peers
  own := fun hh => tick_pulls (h.own hh)
  clock := by simpa using h.clock
  config := by simpa using h.config

/-- The tick keeps what its sample left of the run and the accepted level, and the next sample is to come. -/
theorem tick_filter {s : State} (hk : s.tb.prescale.isSome = true) (hc : s.ctl.config.isSome = true) :
    (tick s).filter.sampled = false ∧ (tick s).filter.last = (sampleLine s).filter.last := by
  obtain ⟨k, hk⟩ := Option.isSome_iff_exists.1 hk
  obtain ⟨c, hc⟩ := Option.isSome_iff_exists.1 hc
  unfold tick countTick
  simp [hk, hc]

theorem HeldInWindow.heard_tick {high : Bool} {s : State} (h : HeldInWindow high s) (hs : s.filter.sampled = false) :
    Heard high (Machine.tick s) := by
  obtain ⟨unsampled, last⟩ := tick_filter h.clock h.config
  refine ⟨unsampled, nextRun s, last.trans (sampleLine_window h.runs hs h.window).1, ?_⟩
  rw [nextRun_high, h.lineLow, Bool.not_not]

theorem HeldInWindow.heard_elapse {high : Bool} : ∀ (n : Nat) {s : State}, HeldInWindow high s → Heard high s →
    HeldInWindow high (s.elapse n) ∧ Heard high (s.elapse n)
  | 0, _, h, hs => ⟨h, hs⟩
  | n + 1, _, h, hs => heard_elapse n h.tick (h.heard_tick hs.1)

/-- R92: a second equal sample in a window is accepted. -/
theorem HeldInWindow.accepts {high : Bool} {s : State} (h : HeldInWindow high s) (hs : Heard high s) :
    s.acceptedLow = !high := by
  obtain ⟨unsampled, r, hr, hh⟩ := hs
  have level : (nextRun s).high = high := by rw [nextRun_high, h.lineLow, Bool.not_not]
  have accepted := (sampleLine_window h.runs unsampled h.window).2
    (nextRun_agrees hr (by rw [hh, h.lineLow, Bool.not_not]))
  unfold State.acceptedLow
  rw [accepted, level]
  cases high <;> rfl

/-- R98, R101: a line held at a level for two ticks is accepted at it: the first tick's sample may be taken already, the
second's and the present one agree. -/
theorem HeldInWindow.acceptedLow_elapse {high : Bool} {s : State} (h : HeldInWindow high s) {n : Nat} (hn : 2 ≤ n) :
    (s.elapse n).acceptedLow = !high := by
  obtain ⟨m, rfl⟩ := Nat.exists_eq_add_of_le' hn
  have once := h.tick
  have heard := once.heard_tick (tick_filter h.clock h.config).1
  obtain ⟨held, heard⟩ := HeldInWindow.heard_elapse m once.tick heard
  exact held.accepts heard

/-! ### Slots (R98, R101) -/

/-- R98, R101: the slot position moves on and stays at the last slot, which is sampled once (log 36). -/
theorem pastSlot_eq {last : Nat} {x : Receiver} (hpos : x.slotPos < last + 1) (hdone : x.slotsDone = false) :
    x.pastSlot last = { x with slotPos := min last (x.slotPos + 1), slotsDone := x.slotPos == last } := by
  unfold Receiver.pastSlot
  split
  next h =>
    have before : (x.slotPos == last) = false := beq_eq_false_iff_ne.2 (Nat.ne_of_lt h)
    rw [before, Nat.min_eq_right h, ← hdone]
  next h =>
    have at_last : x.slotPos = last := by omega
    rw [at_last, Nat.min_eq_left (Nat.le_succ last), beq_self_eq_true, ← at_last]

theorem execTagSlotSample_open {c : ConfigStore} {s : State} (ha : Active s c) (peersLow : Bool)
    (hrx : s.rx.state = .tagWindow) (hdone : s.rx.slotsDone = false) :
    exec (.tagSlotSample peersLow) s
      = .next (sampleTagSlot
          ((holdLine peersLow s).elapse (sampleOffset (bitTime c) s.rx.slotPos - s.sinceOrigin))) := by
  have due : tagSlotDue c s = some (sampleOffset (bitTime c) s.rx.slotPos - s.sinceOrigin) := if_pos ⟨hrx, hdone⟩
  show execTagSlotSample peersLow s = _
  unfold execTagSlotSample
  rw [whenConfigured_held ha.1 ha.2, due]
  rfl

theorem execNumberSlotSample_open {c : ConfigStore} {s : State} (ha : Active s c) (peersLow : Bool)
    (hrx : s.rx.state = .numberWindow) (hdone : s.rx.slotsDone = false) :
    exec (.numberSlotSample peersLow) s
      = .next (sampleNumberSlot
          ((holdLine peersLow s).elapse (sampleOffset (bitTime c) s.rx.slotPos - s.sinceOrigin))) := by
  have due : numberSlotDue c s = some (sampleOffset (bitTime c) s.rx.slotPos - s.sinceOrigin) := if_pos ⟨hrx, hdone⟩
  show execNumberSlotSample peersLow s = _
  unfold execNumberSlotSample
  rw [whenConfigured_held ha.1 ha.2, due]
  rfl

/-- R98, R101: once the last slot is sampled no further slot is due. -/
theorem execSlotSample_done {c : ConfigStore} {s : State} (ha : Active s c) (peersLow : Bool)
    (hdone : s.rx.slotsDone = true) :
    exec (.tagSlotSample peersLow) s = .next s ∧ exec (.numberSlotSample peersLow) s = .next s := by
  have no_tag : tagSlotDue c s = none := if_neg (by simp [hdone])
  have no_number : numberSlotDue c s = none := if_neg (by simp [hdone])
  refine ⟨?_, ?_⟩
  · show execTagSlotSample peersLow s = _
    unfold execTagSlotSample
    rw [whenConfigured_held ha.1 ha.2, no_tag]
    rfl
  · show execNumberSlotSample peersLow s = _
    unfold execNumberSlotSample
    rw [whenConfigured_held ha.1 ha.2, no_number]
    rfl

/-- Settles O51: the slot of each window, the window whose last slot is sampled, and the line held at a level. -/
theorem slotsAreSampledAtTheirTick : Obligations.SlotsAreSampledAtTheirTick := by
  intro c k peersLow s ha hk hr wait u
  have rx : u.rx = s.rx := by simp [u]
  refine ⟨fun hrx hpos hdone => ?_, fun hrx hpos hdone => ?_, fun hdone => execSlotSample_done ha peersLow hdone,
    fun hrx hwait => ?_⟩
  · rw [execTagSlotSample_open ha peersLow hrx hdone]
    show Host.Outcome.next (sampleTagSlot u) = _
    rw [sampleTagSlot, pastSlot_eq (by rw [rx]; exact hpos) (by rw [rx]; exact hdone), rx]
  · rw [execNumberSlotSample_open ha peersLow hrx hdone]
    show Host.Outcome.next (sampleNumberSlot u) = _
    rw [sampleNumberSlot, pastSlot_eq (by rw [rx]; exact hpos) (by rw [rx]; exact hdone), rx]
  · have held : ∀ high, peersLow = !high → (high = true → s.tx.pulls = false) →
        HeldInWindow high (holdLine peersLow s) := fun high hp hown =>
      { runs := filterRuns_of_receiverRuns hr, window := hrx, peers := hp, own := hown, clock := by simp [hk],
        config := by simp [ha.2] }
    exact ⟨fun hlow => (held false hlow (fun h => nomatch h)).acceptedLow_elapse hwait,
      fun hhigh hown => (held true hhigh (fun _ => hown)).acceptedLow_elapse hwait⟩

end Sys2Proof.Machine
end

section
/-! The ends of the windows (R99, R100, R102, R112, R129, R130). -/

namespace Sys2Proof.Machine

open Sys2Proof.Claims

theorem onlyOpen_congr {i : SlotNo} {r : Record} {s t : State} (h : t.recs = s.recs) :
    OnlyOpen i r t ↔ OnlyOpen i r s := by
  unfold OnlyOpen
  rw [h]

theorem noneOpen_congr {s t : State} (h : t.recs = s.recs) : NoneOpen t ↔ NoneOpen s := by
  unfold NoneOpen
  rw [h]

/-! ### The window result (R62 to R64) -/

/-- R62: the record once its pending item has taken a window's result. -/
def Record.resolved (item : PendingItem) (result : Option IdSet) (r : Record) : Record :=
  { (match result with
      | some ids => r.withOrigin item ids
      | none => r) with window := none }

theorem Record.resolved_state (item : PendingItem) (result : Option IdSet) (r : Record) :
    (r.resolved item result).state = r.state := by
  cases result <;> cases item <;> rfl

/-- R62, R63: the pending item takes the result, and an AWAITING record closes. -/
theorem windowResult_pending {result : Option IdSet} {i : SlotNo} {r : Record} {item : PendingItem} {s : State}
    (h : OnlyOpen i r s) (hw : r.window = some item) :
    windowResult result s
      = if r.state = .awaiting then raiseClosed (setSlot i (some { r.resolved item result with state := .closed }) s)
        else setSlot i (some (r.resolved item result)) s := by
  rw [← Record.resolved_state item result r]
  unfold windowResult
  rw [openSlot_only h]
  simp only [h.1, hw]
  rfl

theorem windowResult_dropped {result : Option IdSet} {s : State}
    (h : NoneOpen s ∨ ∃ i r, OnlyOpen i r s ∧ r.window = none) : windowResult result s = s := by
  unfold windowResult
  obtain hn | ⟨i, r, ho, hw⟩ := h
  · rw [openSlot_none hn]
  · rw [openSlot_only ho]
    simp only [ho.1, hw]

theorem windowResult_events (result : Option IdSet) (s : State) :
    OnlyEvents [.recordClosed] s (windowResult result s) := by
  unfold windowResult
  dsimp only
  repeat' split
  · exact onlyEvents_of_ev rfl
  · exact onlyEvents_of_ev rfl
  · exact onlyEvents_of_ev rfl
  · exact onlyEvents_raise (by simp) _
  · exact onlyEvents_of_ev rfl
  · exact onlyEvents_raise (by simp) _
  · exact onlyEvents_of_ev rfl

/-! ### The end of a window (R99, R100) -/

/-- R99, R100: the receiver at the end of a window: IDLE, or in LOW with the width measure begun. -/
def windowOver (low : Bool) (now : Tick) (x : Receiver) : Receiver :=
  if low then { x with state := .low, pulseStart := now, capture := none, width := 0 }
  else { x with state := .idle, capture := none }

/-- R99, R100: out of a window the receiver goes where the accepted level says. -/
theorem leaveWindow_eq {low : Bool} {s : State} (h : s.rx.state ∈ [RxState.tagWindow, .numberWindow]) :
    (if low then cutShort s else setRx .idle { s with rx := { s.rx with capture := none } })
      = { s with rx := windowOver low s.tb.localTick s.rx } := by
  have unstuck : s.rx.state ≠ .stuck := fun e => by simp [e] at h
  cases low with
  | true =>
    exact setRx_unstuck
      (s := { s with rx := { s.rx with pulseStart := s.tb.localTick, capture := none, width := 0 } })
      unstuck (by decide)
  | false => exact setRx_unstuck (s := { s with rx := { s.rx with capture := none } }) unstuck (by decide)

/-- R112: the transmitter at the end of a tag window. -/
def tagWindowOver (c : ConfigStore) (st : StationState) (x : Transmitter) : Transmitter :=
  { x with slotDuty := false, slotDriving := false, holdoff := if st = .running then holdoffTicks c else 0 }

theorem endTagWindow_eq {c : ConfigStore} {s : State} (h : s.rx.state = .tagWindow) :
    endTagWindow c s = { windowResult (if s.acceptedLow then none else some s.rx.idSet) s with
      tx := tagWindowOver c s.ctl.state s.tx, rx := windowOver s.acceptedLow s.tb.localTick s.rx } := by
  unfold endTagWindow
  dsimp only
  rw [leaveWindow_eq (by simp [h])]
  simp [tagWindowOver]

/-- R129, R130: a number result settles the epoch number, the provisional mark and the sync state alone. -/
theorem numberResult_localTick (result : Option (BitVec 16)) (s : State) :
    (numberResult result s).tb.localTick = s.tb.localTick := by
  unfold numberResult
  dsimp only
  repeat' split
  all_goals simp

theorem endNumberWindow_eq {s : State} (h : s.rx.state = .numberWindow) :
    endNumberWindow s = { numberResult (if s.acceptedLow then none else some s.rx.bits) s with
      tx := { s.tx with bitDuty := none }, rx := windowOver s.acceptedLow s.tb.localTick s.rx } := by
  unfold endNumberWindow
  dsimp only
  rw [leaveWindow_eq (by simp [h])]
  simp [numberResult_localTick]

theorem execTagWindowEnd_open {c : ConfigStore} {s : State} (ha : Active s c) (peersLow : Bool)
    (hrx : s.rx.state = .tagWindow) :
    exec (.tagWindowEnd peersLow) s
      = .next (endTagWindow c ((holdLine peersLow s).elapse (34 * bitTime c - s.sinceOrigin))) := by
  have due : tagEndDue c s = some (34 * bitTime c - s.sinceOrigin) := if_pos hrx
  show execTagWindowEnd peersLow s = _
  unfold execTagWindowEnd
  rw [whenConfigured_held ha.1 ha.2, due]
  rfl

theorem execNumberWindowEnd_open {c : ConfigStore} {s : State} (ha : Active s c) (peersLow : Bool)
    (hrx : s.rx.state = .numberWindow) :
    exec (.numberWindowEnd peersLow) s
      = .next (endNumberWindow ((holdLine peersLow s).elapse (18 * bitTime c - s.sinceOrigin))) := by
  have due : numberEndDue c s = some (18 * bitTime c - s.sinceOrigin) := if_pos hrx
  show execNumberWindowEnd peersLow s = _
  unfold execNumberWindowEnd
  rw [whenConfigured_held ha.1 ha.2, due]
  rfl

/-- Settles O52: the line agent by the accepted level, and the result by the OPEN record. -/
theorem tagWindowEndHandsOnTheOriginSet : Obligations.TagWindowEndHandsOnTheOriginSet := by
  intro c peersLow s ha hrx u low
  have rx : u.rx = s.rx := by simp [u]
  have recs : u.recs = s.recs := by simp [u]
  have ev : u.ev = s.ev := by simp [u]
  have station : u.ctl.state = s.ctl.state := by simp [u]
  let w := windowResult (if low then none else some s.rx.idSet) u
  have answered : exec (.tagWindowEnd peersLow) s = .next { w with
      tx := tagWindowOver c s.ctl.state u.tx, rx := windowOver low u.tb.localTick s.rx } := by
    rw [execTagWindowEnd_open ha peersLow hrx]
    show Host.Outcome.next (endTagWindow c u) = _
    rw [endTagWindow_eq (by rw [rx]; exact hrx), rx, station]
  refine ⟨_, answered, fun hl => ?_, fun hl => ?_, rfl, ?_⟩
  · rw [hl]
    rfl
  · rw [hl]
    rfl
  refine ⟨by simp [w, u], by simp [w, u], by simp [w], by simp [w], by simp [w, u], by simp [w], by simp [w],
    by simp [w], by simp [w], by simp [w, u], by simp [w, u], by simp [w, u], by simp [w, u], ?_,
    fun i r item ho hw => ?_, fun hdrop => ?_⟩
  · exact onlyEvents_trans (onlyEvents_of_ev ev) (windowResult_events _ u)
  · have handed : w = _ := windowResult_pending ((onlyOpen_congr recs).2 ho) hw
    intro origin result
    have taken : r.resolved item (if low then none else some s.rx.idSet) = result := by
      unfold result origin
      generalize low = cut
      cases cut <;> cases item <;> rfl
    rw [taken] at handed
    refine ⟨fun j hj => ?_, fun hcoll => ?_, fun hawait => ?_⟩
    · show w.recs.slots.get j = _
      rw [handed, ← recs]
      split
      · exact slot_setSlot_other hj _ u
      · exact slot_setSlot_other hj _ u
    · show w.recs.slots.get i = _ ∧ w.ev = _
      rw [handed, if_neg (by simp [hcoll]), slot_setSlot_same]
      exact ⟨rfl, ev⟩
    · show w.recs.slots.get i = _ ∧ w.ev.cell .recordClosed = _
      rw [handed, if_pos hawait, ← ev]
      exact ⟨slot_setSlot_same i _ u, cell_raise_same .recordClosed _⟩
  · have dropped : w = u := windowResult_dropped
      (hdrop.imp (noneOpen_congr recs).2 (fun ⟨i, r, ho, hw⟩ => ⟨i, r, (onlyOpen_congr recs).2 ho, hw⟩))
    rw [dropped]
    exact ⟨recs, ev⟩

/-! ### The number result (R129, R130) -/

theorem numberResult_dropped {result : Option (BitVec 16)} {s : State}
    (h : s.ctl.state ≠ .running ∨ s.tb.provisional = false) : numberResult result s = s := by
  unfold numberResult
  exact if_neg (by obtain h | h := h <;> simp [h])

/-- R129, R130: a result taken in RUNNING with the provisional mark set clears the mark; cut short it does no more, and
complete it is adopted by the sync state. -/
theorem numberResult_taken {s : State} (hst : s.ctl.state = .running) (hp : s.tb.provisional = true) :
    numberResult none s = { s with tb := { s.tb with provisional := false } }
    ∧ ∀ v,
      (s.tb.sync = .seeking →
        numberResult (some v) s = setSync .locked { s with tb := { s.tb with provisional := false, epoch := v } })
      ∧ (s.tb.sync = .locked → v = s.tb.epoch →
        numberResult (some v) s = { s with tb := { s.tb with provisional := false } })
      ∧ (s.tb.sync = .locked → v ≠ s.tb.epoch →
        numberResult (some v) s
          = raise .epochMismatch { s with tb := { s.tb with provisional := false, epoch := v } }) := by
  have taken : (decide (s.ctl.state = .running) && s.tb.provisional) = true := by simp [hst, hp]
  unfold numberResult
  refine ⟨if_pos taken, fun v => ⟨fun hs => ?_, fun hs hv => ?_, fun hs hv => ?_⟩⟩
  · rw [if_pos taken, hs]
  · rw [if_pos taken, hs]
    exact if_pos hv
  · rw [if_pos taken, hs]
    exact if_neg hv

/-- R133: the sync state LOCKED in RUNNING ends SYNC_SEEKING's condition. -/
theorem setSync_locks {s : State} (hst : s.ctl.state = .running) (hs : s.tb.sync = .seeking) :
    ((setSync .locked s).ev.cell .syncSeeking).state = .quiet := by
  unfold setSync
  rw [hst, hs]
  exact cell_handLevel_end .syncSeeking _

theorem numberResult_events (result : Option (BitVec 16)) (s : State) :
    OnlyEvents [.syncSeeking, .epochMismatch] s (numberResult result s) := by
  unfold numberResult
  dsimp only
  repeat' split
  · exact onlyEvents_of_ev rfl
  · exact onlyEvents_handLevel (by simp) _ _ _
  · exact onlyEvents_of_ev rfl
  · exact onlyEvents_raise (by simp) _
  · exact onlyEvents_of_ev rfl

/-- Settles O53: the line agent by the accepted level, and the timebase by the result, the mark and the sync state. -/
theorem numberWindowEndSettlesTheEpochNumber : Obligations.NumberWindowEndSettlesTheEpochNumber := by
  intro c peersLow s ha hrx u low
  have rx : u.rx = s.rx := by simp [u]
  have ev : u.ev = s.ev := by simp [u]
  have station : u.ctl.state = s.ctl.state := by simp [u]
  have mark : u.tb.provisional = s.tb.provisional := by simp [u]
  have sync : u.tb.sync = s.tb.sync := by simp [u]
  let w := numberResult (if low then none else some s.rx.bits) u
  have answered : exec (.numberWindowEnd peersLow) s = .next { w with
      tx := { u.tx with bitDuty := none }, rx := windowOver low u.tb.localTick s.rx } := by
    rw [execNumberWindowEnd_open ha peersLow hrx]
    show Host.Outcome.next (endNumberWindow u) = _
    rw [endNumberWindow_eq (by rw [rx]; exact hrx), rx]
  refine ⟨_, answered, fun hl => ?_, fun hl => ?_, rfl, ?_⟩
  · rw [hl]
    rfl
  · rw [hl]
    rfl
  refine ⟨by simp [w, u], by simp [w, u], by simp [w, u], by simp [w], by simp [w, u], by simp [w], by simp [w],
    by simp [w], by simp [w], by simp [w, u], by simp [w, u], by simp [w, u], by simp [w, u], ?_,
    fun hno => ?_, fun hst hp => ?_⟩
  · exact onlyEvents_trans (onlyEvents_of_ev ev) (numberResult_events _ u)
  · have dropped : w = u := numberResult_dropped (hno.imp (fun h => station ▸ h) mark.trans)
    rw [dropped]
    exact ⟨rfl, ev⟩
  · obtain ⟨cut, complete⟩ := numberResult_taken (s := u) (station.trans hst) (mark.trans hp)
    obtain ⟨seeks, expected, mismatch⟩ := complete s.rx.bits
    have whole : low = false → w = numberResult (some s.rx.bits) u := fun hl => by
      unfold w
      rw [hl]
      rfl
    refine ⟨fun hl => ?_, fun hl hs => ?_, fun hl hs => ?_⟩
    · have handed : w = numberResult none u := by
        unfold w
        rw [hl]
        rfl
      rw [handed, cut]
      exact ⟨rfl, ev⟩
    · rw [whole hl, seeks (sync.trans hs)]
      exact ⟨by simp, setSync_locks (station.trans hst) (sync.trans hs)⟩
    · rw [whole hl]
      by_cases hv : s.rx.bits = u.tb.epoch
      · rw [expected (sync.trans hs) hv]
        exact ⟨by rw [hv], fun _ => ev, fun h => absurd hv h⟩
      · rw [mismatch (sync.trans hs) hv, ← ev]
        exact ⟨rfl, fun h => absurd h hv, fun _ => ⟨cell_raise_same .epochMismatch _,
          fun src hsrc => cell_raise_other hsrc _⟩⟩

end Sys2Proof.Machine
end

section
/-! The declaration of a stuck line (R96, R113, R114, R132, R67). -/

namespace Sys2Proof.Machine

open Sys2Proof.Claims

/-! ### The record that a declaration closes (R67) -/

theorem collectingSlot_only {i : SlotNo} {r : Record} {s : State} (h : OnlyOpen i r s) (hr : r.state = .collecting) :
    collectingSlot s = some i := by
  obtain ⟨hi, _, hothers⟩ := h
  exact findRecord_only hi (by simp [hr]) (fun j r' hj hs => by simp [hothers j r' hj hs])

theorem collectingSlot_none {s : State} (h : NoneCollecting s) : collectingSlot s = none :=
  findRecord_none (fun j r hj => by simpa using h j r hj)

theorem noneCollecting_of_noneOpen {s : State} (h : NoneOpen s) : NoneCollecting s :=
  fun j r hj => by simp [h j r hj]

theorem noneCollecting_of_awaiting {i : SlotNo} {r : Record} {s : State} (h : OnlyOpen i r s)
    (hr : r.state = .awaiting) : NoneCollecting s := by
  obtain ⟨hi, _, hothers⟩ := h
  intro j r' hj
  by_cases e : j = i
  · obtain rfl : r = r' := Option.some.inj (hi.symm.trans (e ▸ hj))
    simp [hr]
  · simp [hothers j r' e hj]

theorem closeOpen_onlyOpen {c : ConfigStore} {stopped : Bool} {i : SlotNo} {r : Record} {s : State}
    (h : OnlyOpen i r s) :
    closeOpen c stopped s = raiseClosed (setSlot i (some (r.closedAs c stopped (framesIn s r.chain))) s) := by
  obtain ⟨hi, hopen, hothers⟩ := h
  exact closeOpen_only hi (by simpa [Record.isOpen] using hopen)
    (fun j r' hj hs => by simp [Record.isOpen, hothers j r' hj hs])

theorem closeOpen_noneOpen {c : ConfigStore} {stopped : Bool} {s : State} (h : NoneOpen s) :
    closeOpen c stopped s = s :=
  closeOpen_none (fun j r hj => by simp [Record.isOpen, h j r hj])

theorem closeOpen_events {named : List Source} (h : .recordClosed ∈ named) (c : ConfigStore) (stopped : Bool)
    (s : State) : OnlyEvents named s (closeOpen c stopped s) := by
  unfold closeOpen
  repeat' split
  · exact onlyEvents_of_ev rfl
  · exact onlyEvents_of_ev rfl
  · exact onlyEvents_raise h _

/-- R65 to R67, R53: the record in its slot closed where it stands. -/
theorem closedWhereItStands_of_slot {c : ConfigStore} {stopped : Bool} {i : SlotNo} {r : Record} {s t : State}
    (hopen : r.state ≠ .closed) (hi : t.recs.slots.get i = some (r.closedAs c stopped (framesIn s r.chain)))
    (hothers : ∀ j, j ≠ i → t.recs.slots.get j = s.recs.slots.get j) : ClosedWhereItStands c stopped i r s t := by
  refine ⟨_, hi, ?_⟩
  cases hs : r.state with
  | closed => exact absurd hs hopen
  | awaiting => simpa [Record.closedAs, hs] using hothers
  | collecting =>
    cases hp : r.placed with
    | true => simpa [Record.closedAs, Record.placedWithout, hs, hp] using hothers
    | false => simpa [Record.closedAs, Record.placedWithout, hs, hp] using hothers

/-! ### The writer's take on a free list that is not empty -/

/-- R8, R21, R40: a take from the free list hands over FREE_LOW and OVERRUN alone. -/
theorem writerTake_events {named : List Source} (hlow : .freeLow ∈ named) (hover : .overrun ∈ named) {s : State}
    (h : s.pool.free ≠ []) : OnlyEvents named s (writerTake s) := by
  cases hf : s.pool.free with
  | nil => exact absurd hf h
  | cons g rest =>
    have take : writerTake s = beginSegment g (takeHeader g (setFree rest s)) := by
      unfold writerTake popFree
      rw [hf]
    have freed : OnlyEvents named s (takeHeader g (setFree rest s)) := onlyEvents_handLevel hlow _ _ _
    rw [take]
    exact onlyEvents_trans freed (onlyEvents_handLevel hover _ _ _)

/-! ### The transmitter at a declaration (R113, R114) -/

theorem txStuck_unheld {s : State} (hst : s.ctl.state = .running) (hq : s.tx.request = none) :
    txStuck s = { s with tx := { s.tx with drive := none, holdoff := 0 } } := by
  unfold txStuck
  rw [if_pos hst, hq]

theorem txStuck_held {s : State} {q : Cause} (hst : s.ctl.state = .running) (hq : s.tx.request = some q) :
    txStuck s = raise .originLost { s with tx := { s.tx with
      drive := none, holdoff := 0, request := none, lost := min 255 (s.tx.lost + 1) } } := by
  unfold txStuck
  rw [if_pos hst, hq]
  rfl

theorem txStuck_elsewhere {s : State} (hst : s.ctl.state ≠ .running) :
    txStuck s = { s with tx := { s.tx with
      drive := none, holdoff := 0,
      request := if s.tx.drive.any (fun d => !d.isEpoch) then none else s.tx.request,
      epochHeld := if s.tx.drive.any (·.isEpoch) then false else s.tx.epochHeld } } :=
  if_neg hst

/-- What every declaration does to the transmitter, whatever the station state. -/
theorem txStuck_tx (s : State) :
    (txStuck s).tx.drive = none ∧ (txStuck s).tx.holdoff = 0 ∧ (txStuck s).tx.suppressed = s.tx.suppressed := by
  by_cases hst : s.ctl.state = .running
  · cases hq : s.tx.request with
    | none => simp [txStuck_unheld hst hq]
    | some q => simp [txStuck_held hst hq]
  · simp [txStuck_elsewhere hst]

theorem txStuck_events {named : List Source} (h : .originLost ∈ named) (s : State) :
    OnlyEvents named s (txStuck s) := by
  by_cases hst : s.ctl.state = .running
  · cases hq : s.tx.request with
    | none =>
      rw [txStuck_unheld hst hq]
      exact onlyEvents_of_ev rfl
    | some q =>
      rw [txStuck_held hst hq]
      exact onlyEvents_raise (s := { s with tx := _ }) h
  · rw [txStuck_elsewhere hst]
    exact onlyEvents_of_ev rfl

/-! ### The declaration in its steps (log 20) -/

/-- R96: the receiver declares STUCK, its capture dropped (log 30). -/
def stuckDeclared (s : State) : State := setRx .stuck { s with rx := { s.rx with capture := none } }

/-- R96, R113, R132: the declaration before the record closes: receiver STUCK, requests dropped, timebase SEEKING. -/
def stuckCleared (s : State) : State :=
  let u := txStuck (stuckDeclared s)
  setSync .seeking { u with tb := { u.tb with provisional := false } }

theorem declareStuck_eq (c : ConfigStore) (s : State) :
    declareStuck c s
      = let u := closeOpen c false (stuckCleared s)
        if (collectingSlot s).isSome then writerTake { u with writer := { u.writer with current := none } } else u := by
  unfold declareStuck stuckCleared stuckDeclared
  rfl

theorem stuckCleared_leaves (s : State) :
    let d := stuckCleared s
    d.ctl = s.ctl ∧ d.pool = s.pool ∧ d.writer = s.writer ∧ d.seqr = s.seqr ∧ d.recs = s.recs ∧ d.dets = s.dets
    ∧ d.trig = s.trig ∧ d.filter = s.filter ∧ d.mem = s.mem ∧ d.port = s.port ∧ d.pins = s.pins
    ∧ d.pending = s.pending := by
  simp [stuckCleared, stuckDeclared]

theorem stuckCleared_writes (s : State) :
    let d := stuckCleared s
    d.rx = { s.rx with state := .stuck, capture := none } ∧ d.tb = { s.tb with sync := .seeking, provisional := false }
    ∧ d.tx = (txStuck (stuckDeclared s)).tx := by
  simp [stuckCleared, stuckDeclared]

theorem stuckDeclared_leaves (s : State) : (stuckDeclared s).tx = s.tx ∧ (stuckDeclared s).ctl = s.ctl := by
  simp [stuckDeclared]

theorem stuckDeclared_cell {src : Source} (h : src ≠ .lineStuck) (s : State) :
    (stuckDeclared s).ev.cell src = s.ev.cell src :=
  cell_handLevel_other h _ _ _

/-- R96: the declaration of a low starts LINE_STUCK's condition. -/
theorem stuckDeclared_pending {s : State} (hrx : s.rx.state = .low) (hq : (s.ev.cell .lineStuck).state = .quiet) :
    ((stuckDeclared s).ev.cell .lineStuck).state = .pending := by
  unfold stuckDeclared setRx
  rw [show (s.rx.state == .stuck) = false by simp [hrx]]
  exact cell_handLevel_start hq

theorem stuckCleared_cell {src : Source} (h : src ≠ .syncSeeking) (s : State) :
    (stuckCleared s).ev.cell src = (txStuck (stuckDeclared s)).ev.cell src := by
  unfold stuckCleared
  generalize txStuck (stuckDeclared s) = u
  exact cell_handLevel_other h _ _ _

theorem stuckCleared_events {named : List Source} (hline : .lineStuck ∈ named) (hlost : .originLost ∈ named)
    (hseek : .syncSeeking ∈ named) (s : State) : OnlyEvents named s (stuckCleared s) := by
  have declared : OnlyEvents named s (stuckDeclared s) := onlyEvents_handLevel hline _ _ _
  have dropped : OnlyEvents named s (txStuck (stuckDeclared s)) :=
    onlyEvents_trans declared (txStuck_events hlost _)
  unfold stuckCleared
  generalize txStuck (stuckDeclared s) = u at dropped
  exact onlyEvents_trans dropped (onlyEvents_handLevel hseek _ _ _)

/-- R113: in RUNNING a held trigger request is dropped and counted lost, and the epoch request is kept. -/
theorem stuckCleared_running {s : State} (hst : s.ctl.state = .running) :
    let d := stuckCleared s
    d.tx.request = none ∧ d.tx.epochHeld = s.tx.epochHeld
    ∧ (s.tx.request = none → d.tx.lost = s.tx.lost ∧ d.ev.cell .originLost = s.ev.cell .originLost)
    ∧ (∀ q, s.tx.request = some q → d.tx.lost = min 255 (s.tx.lost + 1)
        ∧ d.ev.cell .originLost = raisedOnce s.ev .originLost) := by
  obtain ⟨tx, ctl⟩ := stuckDeclared_leaves s
  have before : (stuckDeclared s).ev.cell .originLost = s.ev.cell .originLost := stuckDeclared_cell (by decide) s
  have stx : (stuckCleared s).tx = (txStuck (stuckDeclared s)).tx := (stuckCleared_writes s).2.2
  have cell := stuckCleared_cell (src := .originLost) (by decide) s
  intro d
  unfold d
  rw [stx, cell]
  cases hq : s.tx.request with
  | none =>
    rw [txStuck_unheld (ctl ▸ hst) (tx ▸ hq)]
    simp [tx, hq, before]
  | some q =>
    rw [txStuck_held (ctl ▸ hst) (tx ▸ hq), cell_raise_same]
    simp [tx, raisedOnce, before]

/-- R114: in another station state what an own drive was of is dropped, and nothing is counted. -/
theorem stuckCleared_elsewhere {s : State} (hst : s.ctl.state ≠ .running) :
    let d := stuckCleared s
    d.tx.lost = s.tx.lost ∧ d.ev.cell .originLost = s.ev.cell .originLost
    ∧ d.tx.request = (if s.tx.drive.any (fun d => !d.isEpoch) then none else s.tx.request)
    ∧ d.tx.epochHeld = (if s.tx.drive.any (·.isEpoch) then false else s.tx.epochHeld) := by
  obtain ⟨tx, ctl⟩ := stuckDeclared_leaves s
  have before : (stuckDeclared s).ev.cell .originLost = s.ev.cell .originLost := stuckDeclared_cell (by decide) s
  have stx : (stuckCleared s).tx = (txStuck (stuckDeclared s)).tx := (stuckCleared_writes s).2.2
  have cell := stuckCleared_cell (src := .originLost) (by decide) s
  intro d
  unfold d
  rw [stx, cell, txStuck_elsewhere (ctl ▸ hst)]
  simp [tx, before]

/-! ### The whole declaration -/

/-- R67, R12: the closing of the record and the writer's take leave the blocks that the declaration has written. -/
theorem declareStuck_leaves (c : ConfigStore) (s : State) :
    let d := stuckCleared s
    let t := declareStuck c s
    t.rx = d.rx ∧ t.tb = d.tb ∧ t.tx = d.tx := by
  rw [declareStuck_eq]
  dsimp only
  split <;> simp

theorem declareStuck_cell {src : Source} (hclosed : src ≠ .recordClosed) (hlow : src ≠ .freeLow)
    (hover : src ≠ .overrun) (hspare : src ≠ .spareExhausted) (c : ConfigStore) (s : State) :
    (declareStuck c s).ev.cell src = (stuckCleared s).ev.cell src := by
  have closed := (closeOpen_events (List.mem_singleton_self _) c false (stuckCleared s)).2 src (by simpa using hclosed)
  rw [declareStuck_eq]
  generalize closeOpen c false (stuckCleared s) = u at closed
  dsimp only
  split
  · exact (writerTake_cell hlow hover hspare _).trans closed
  · exact closed

theorem declareStuck_noneOpen {c : ConfigStore} {s : State} (h : NoneOpen s) : declareStuck c s = stuckCleared s := by
  obtain ⟨_, _, _, _, recs, _⟩ := stuckCleared_leaves s
  rw [declareStuck_eq, closeOpen_noneOpen ((noneOpen_congr recs).2 h),
    collectingSlot_none (noneCollecting_of_noneOpen h)]
  rfl

/-- The state in which the record `r` of slot i has closed in a declaration. -/
def stuckClosed (c : ConfigStore) (i : SlotNo) (r : Record) (s : State) : State :=
  raiseClosed (setSlot i (some (r.closedAs c false (framesIn s r.chain))) (stuckCleared s))

theorem stuckClosed_leaves (c : ConfigStore) (i : SlotNo) (r : Record) (s : State) :
    (stuckClosed c i r s).pool = s.pool ∧ (stuckClosed c i r s).writer = s.writer
    ∧ (stuckClosed c i r s).recs = (setSlot i (some (r.closedAs c false (framesIn s r.chain))) s).recs := by
  simp [stuckClosed, stuckCleared_leaves]

/-- R68: the closing is raised once. -/
theorem stuckClosed_raised (c : ConfigStore) (i : SlotNo) (r : Record) (s : State) :
    (stuckClosed c i r s).ev.cell .recordClosed = raisedOnce s.ev .recordClosed := by
  have cell : (stuckCleared s).ev.cell .recordClosed = s.ev.cell .recordClosed :=
    (stuckCleared_events (named := [.lineStuck, .originLost, .syncSeeking]) (by simp) (by simp) (by simp) s).2
      .recordClosed (by decide)
  rw [stuckClosed, raiseClosed, cell_raise_same, setSlot]
  exact raisedOnce_congr cell

theorem closeOpen_stuckCleared {c : ConfigStore} {i : SlotNo} {r : Record} {s : State} (h : OnlyOpen i r s) :
    closeOpen c false (stuckCleared s) = stuckClosed c i r s := by
  obtain ⟨_, pool, _, _, recs, _⟩ := stuckCleared_leaves s
  have held : framesIn (stuckCleared s) r.chain = framesIn s r.chain :=
    heldFrames_congr (fun a => by rw [header_congr pool]) r.chain
  rw [closeOpen_onlyOpen ((onlyOpen_congr recs).2 h), held]
  rfl

theorem declareStuck_collecting {c : ConfigStore} {i : SlotNo} {r : Record} {s : State} (h : OnlyOpen i r s)
    (hr : r.state = .collecting) :
    declareStuck c s
      = let u := stuckClosed c i r s
        writerTake { u with writer := { u.writer with current := none } } := by
  rw [declareStuck_eq, closeOpen_stuckCleared h, collectingSlot_only h hr]
  rfl

theorem declareStuck_awaiting {c : ConfigStore} {i : SlotNo} {r : Record} {s : State} (h : OnlyOpen i r s)
    (hr : r.state = .awaiting) : declareStuck c s = stuckClosed c i r s := by
  rw [declareStuck_eq, closeOpen_stuckCleared h, collectingSlot_none (noneCollecting_of_awaiting h hr)]
  rfl

/-- R67: what the declaration makes of the one OPEN record. -/
theorem declareStuck_closes {c : ConfigStore} {i : SlotNo} {r : Record} {s : State} (h : OnlyOpen i r s) :
    let t := declareStuck c s
    ClosedWhereItStands c false i r s t ∧ t.ev.cell .recordClosed = raisedOnce s.ev .recordClosed
    ∧ (r.state = .collecting → TookHead s t) ∧ (r.state = .awaiting → t.writer = s.writer ∧ t.pool = s.pool) := by
  obtain ⟨pool, writer, recs⟩ := stuckClosed_leaves c i r s
  have raised := stuckClosed_raised c i r s
  have closes : ∀ t : State, t.recs = (stuckClosed c i r s).recs → ClosedWhereItStands c false i r s t := by
    intro t ht
    refine closedWhereItStands_of_slot h.2.1 ?_ (fun j hj => ?_)
    · rw [ht, recs, slot_setSlot_same]
    · rw [ht, recs, slot_setSlot_other hj]
  intro t
  cases hr : r.state with
  | closed => exact absurd hr h.2.1
  | awaiting =>
    have done : t = _ := declareStuck_awaiting h hr
    rw [done]
    exact ⟨closes _ rfl, raised, fun e => (nomatch e), fun _ => ⟨writer, pool⟩⟩
  | collecting =>
    have done : t = _ := declareStuck_collecting h hr
    generalize stuckClosed c i r s = u at *
    rw [done]
    refine ⟨closes _ (by simp), ?_, fun _ => ?_, fun e => nomatch e⟩
    · rw [writerTake_cell (by decide) (by decide) (by decide)]
      exact raised
    · exact tookHead_congr (u := { u with writer := { u.writer with current := none } }) pool
        (show u.writer.discarded = s.writer.discarded by rw [writer]) (writerTake_tookHead _)

theorem declareStuck_events {named : List Source} (hline : .lineStuck ∈ named) (hlost : .originLost ∈ named)
    (hseek : .syncSeeking ∈ named) (hclosed : .recordClosed ∈ named) (hover : .overrun ∈ named)
    (hlow : .freeLow ∈ named) {c : ConfigStore} {s : State} (h : NoneOpen s ∨ s.pool.free ≠ []) :
    OnlyEvents named s (declareStuck c s) := by
  have cleared := stuckCleared_events hline hlost hseek s
  obtain hn | hf := h
  · rw [declareStuck_noneOpen hn]
    exact cleared
  · have closed := onlyEvents_trans cleared (closeOpen_events hclosed c false (stuckCleared s))
    have free : (closeOpen c false (stuckCleared s)).pool.free ≠ [] := by simpa [stuckCleared_leaves] using hf
    rw [declareStuck_eq]
    generalize closeOpen c false (stuckCleared s) = u at *
    dsimp only
    split
    · exact onlyEvents_trans closed
        (writerTake_events (s := { u with writer := { u.writer with current := none } }) hlow hover free)
    · exact closed

/-- R96: the row on the tick 48T + 1, that tick's sample taken and the low still accepted. -/
theorem execLineStuckDeclare_now {c : ConfigStore} {s : State} (ha : Active s c) (hr : ReceiverRuns s)
    (hrx : s.rx.state = .low) (hbound : 48 * bitTime c + 1 ≤ (s.tb.localTick - s.rx.pulseStart).toNat)
    (hs : s.filter.sampled = true) (hacc : s.filter.accepted = some false)
    (hlast : ∀ r, s.filter.last = some r → r.high = false) :
    exec .lineStuckDeclare s = .next (declareStuck c s) := by
  have due : stuckDue c s = some 0 := by
    unfold stuckDue ticksSince
    rw [if_pos ⟨hrx, filterRuns_of_receiverRuns hr⟩, Nat.sub_eq_zero_of_le hbound]
  have low : risingOrFalling s = none := by
    unfold risingOrFalling
    split
    · rfl
    next r hl => simp [hlast r hl, hacc]
  show execLineStuckDeclare s = _
  unfold execLineStuckDeclare
  rw [whenConfigured_held ha.1 ha.2, due]
  simp [judgeStuck, sampleLine_taken hs, low]

/-- Settles O54: the declaration on this tick, block by block, and the OPEN record's end. -/
theorem stuckLineIsDeclared : Obligations.StuckLineIsDeclared := by
  intro c s ha hr hrx hbound hs hacc hlast
  obtain ⟨rx, tb, tx⟩ := declareStuck_leaves c s
  obtain ⟨drx, dtb, dtx⟩ := stuckCleared_writes s
  obtain ⟨_, pool, writer, _, recs, _⟩ := stuckCleared_leaves s
  obtain ⟨drive, holdoff, suppressed⟩ := txStuck_tx (stuckDeclared s)
  obtain ⟨ctl, seqr, dets, trig, filter, mem, port, pins, pending⟩ := declareStuck_frame c s
  have lost_cell := declareStuck_cell (src := .originLost) (by decide) (by decide) (by decide) (by decide) c s
  have line_cell := declareStuck_cell (src := .lineStuck) (by decide) (by decide) (by decide) (by decide) c s
  refine ⟨_, execLineStuckDeclare_now ha hr hrx hbound hs hacc hlast, rx.trans drx, filter, fun hq => ?_,
    tb.trans dtb, by rw [tx, dtx]; exact drive, by rw [tx, dtx]; exact holdoff, fun hst => ?_, fun hst => ?_,
    fun i r ho => declareStuck_closes ho, fun hn => ?_, mem, dets, ctl, trig, seqr, port, pins, pending, ?_,
    fun h => ?_⟩
  · rw [line_cell, stuckCleared_cell (by decide),
      (txStuck_events (named := [.originLost]) (by simp) _).2 .lineStuck (by decide)]
    exact stuckDeclared_pending hrx hq
  · rw [tx, lost_cell]
    exact stuckCleared_running hst
  · rw [tx, lost_cell]
    exact stuckCleared_elsewhere hst
  · rw [declareStuck_noneOpen hn]
    exact ⟨recs, writer, pool⟩
  · rw [tx, dtx, suppressed, (stuckDeclared_leaves s).1]
  · exact declareStuck_events (by simp) (by simp) (by simp) (by simp) (by simp) (by simp) h

end Sys2Proof.Machine
end

section
/-! The transmitter's drives, its slot and its number bits (R106 to R111). -/

namespace Sys2Proof.Machine

open Sys2Proof.Claims

/-! ### The drive's start and release (R106, R107, R109) -/

theorem execDriveStart_now {c : ConfigStore} {s : State} (ha : Active s c) (h : driveStartDue c s = some 0) :
    exec .driveStart s = .next (beginDrive s) := by
  show execDriveStart s = _
  unfold execDriveStart
  rw [whenConfigured_held ha.1 ha.2, h]
  rfl

/-- R106: with the receiver IDLE and a high run of 2T an epoch request is due at once. -/
theorem driveStartDue_epoch {c : ConfigStore} {s : State} (hst : s.ctl.state = .running) (hrx : s.rx.state = .idle)
    (hd : s.tx.drive = none) (hacc : s.filter.accepted = some true) (hrun : 2 * bitTime c ≤ s.filter.highRun)
    (he : s.tx.epochHeld = true) : driveStartDue c s = some 0 := by
  unfold driveStartDue
  rw [if_pos ⟨hst, hrx, hd, hacc⟩, if_pos he, Nat.sub_eq_zero_of_le hrun]

/-- R106: a trigger request also waits for the holdoff. -/
theorem driveStartDue_trigger {c : ConfigStore} {s : State} (hst : s.ctl.state = .running) (hrx : s.rx.state = .idle)
    (hd : s.tx.drive = none) (hacc : s.filter.accepted = some true) (hrun : 2 * bitTime c ≤ s.filter.highRun)
    (he : s.tx.epochHeld = false) (hq : s.tx.request.isSome = true) (hh : s.tx.holdoff = 0) :
    driveStartDue c s = some 0 := by
  unfold driveStartDue
  rw [if_pos ⟨hst, hrx, hd, hacc⟩, if_neg (by simp [he]), if_pos hq, Nat.sub_eq_zero_of_le hrun, hh]
  rfl

/-- R106, R107, R109: the drive begins on the present tick, whose sample it meets. -/
theorem beginDrive_eq (s : State) :
    beginDrive s = { s with
      tx := { s.tx with drive := some { isEpoch := s.tx.epochHeld, begun := s.tb.localTick, pulling := true } },
      filter := lowOnThisTick s } := by
  have sample : drivenSample s = fun r =>
      if s.filter.sampled = true ∧ r.high = true then
        { high := false, start := s.capture, epochHeld := s.tx.epochHeld, agree := false }
      else r := by
    funext r
    simp only [drivenSample, Bool.and_eq_true]
  unfold beginDrive lowOnThisTick
  rw [sample]

theorem execDriveEnd_pulling {c : ConfigStore} {s : State} {d : Drive} (ha : Active s c) (hd : s.tx.drive = some d)
    (hp : d.pulling = true) :
    exec .driveEnd s
      = .next (releaseDrive (s.elapse (d.width (bitTime c) - ticksSince s.tb.localTick d.begun))) := by
  have due : driveEndDue c s = some (d.width (bitTime c) - ticksSince s.tb.localTick d.begun) := by
    unfold driveEndDue
    rw [hd]
    exact if_pos hp
  show execDriveEnd s = _
  unfold execDriveEnd
  rw [whenConfigured_held ha.1 ha.2, due]
  rfl

theorem releaseDrive_eq {s : State} {d : Drive} (hd : s.tx.drive = some d) :
    releaseDrive s = { s with tx := { s.tx with drive := some { d with pulling := false } } } := by
  unfold releaseDrive
  rw [hd]
  rfl

/-! ### The station's own slot (R111) -/

theorem execSlotDutyDrive_due {c : ConfigStore} {s : State} (ha : Active s c) (hrx : s.rx.state = .tagWindow)
    (hduty : s.tx.slotDuty = true) (hdriving : s.tx.slotDriving = false)
    (hbefore : s.sinceOrigin < 2 * bitTime c + s.ctl.stationId.toNat * bitTime c) :
    let u := s.elapse (bitTime c + s.ctl.stationId.toNat * bitTime c - s.sinceOrigin)
    exec .slotDutyDrive s = .next { u with tx := { u.tx with slotDriving := true } } := by
  have due : slotDutyDue c s = some (bitTime c + s.ctl.stationId.toNat * bitTime c - s.sinceOrigin) :=
    if_pos ⟨hrx, hduty, hdriving, by omega⟩
  show execSlotDutyDrive s = _
  unfold execSlotDutyDrive
  rw [whenConfigured_held ha.1 ha.2, due]
  rfl

/-! ### The number bits (R110) -/

/-- R110: the slot found is that of the first 1 bit not yet driven, while it is not past. -/
theorem nextBitSlot_first {t elapsed j : Nat} {d : BitDuty} (hj : j < 16) (hn : d.next ≤ j)
    (hbit : d.number.getLsbD (15 - j) = true)
    (hzero : ∀ i, d.next ≤ i → i < j → d.number.getLsbD (15 - i) = false) (he : elapsed < t + j * t + t) :
    nextBitSlot t elapsed d = some j := by
  unfold nextBitSlot
  rw [List.find?_range_eq_some]
  refine ⟨by simp [hn, hbit, he], List.mem_range.2 hj, fun i hi => ?_⟩
  by_cases h : d.next ≤ i
  · simp [hzero i h hi]
  · simp [h]

/-- R110, R111: at a tick boundary a slot's drive, and a bit's, stands while its slot has not ended. -/
theorem tick_slotDrives {c : ConfigStore} {s : State} (hc : s.ctl.config = some c) (hk : s.tb.prescale.isSome = true) :
    let gone := (s.tb.localTick + 1 - s.rx.origin).toNat
    (tick s).tx.slotDriving
        = (s.tx.slotDriving && decide (gone < 2 * bitTime c + s.ctl.stationId.toNat * bitTime c))
    ∧ ∀ d, s.tx.bitDuty = some d →
        (tick s).tx.bitDuty
          = some { d with driving := d.driving && decide (gone < bitTime c + d.next * bitTime c) } := by
  obtain ⟨k, hk⟩ := Option.isSome_iff_exists.1 hk
  rw [(tick_running hc hk).2.1]
  refine ⟨rfl, fun d hd => ?_⟩
  simp only [countTransmitter, hd]
  rfl

/-- R110: the passing of ticks keeps a bit duty's number and next slot. -/
theorem elapse_bitDuty {c : ConfigStore} : ∀ (n : Nat) {s : State} {d : BitDuty}, s.ctl.config = some c →
    s.tb.prescale.isSome = true → s.tx.bitDuty = some d →
    ∃ driving, (s.elapse n).tx.bitDuty = some { d with driving := driving }
  | 0, _, d, _, _, hd => ⟨d.driving, hd⟩
  | n + 1, s, d, hc, hk, hd => by
    have ticked := (tick_slotDrives hc hk).2 d hd
    obtain ⟨driving, later⟩ := elapse_bitDuty n (s := tick s) (by simpa using hc) (by simpa using hk) ticked
    exact ⟨driving, later⟩

/-- R98, R118: the passing of ticks brings a window on by as many ticks. -/
theorem elapse_sinceOrigin {c : ConfigStore} {n : Nat} {s : State} (hc : s.ctl.config = some c)
    (hk : s.tb.prescale.isSome = true) (hn : s.sinceOrigin + n < 2 ^ 32) :
    (s.elapse n).sinceOrigin = s.sinceOrigin + n := by
  obtain ⟨k, hk⟩ := Option.isSome_iff_exists.1 hk
  unfold State.sinceOrigin ticksSince at hn ⊢
  have origin : (s.elapse n).rx.origin = s.rx.origin := by simp
  rw [elapse_localTick n hc hk, origin]
  bv_omega

/-- R110: the drive of the next 1 bit waits for the start of its slot. -/
theorem execNumberBitDrive_due {c : ConfigStore} {s : State} {d : BitDuty} {j : Nat} (ha : Active s c)
    (hrx : s.rx.state = .numberWindow) (hd : s.tx.bitDuty = some d)
    (hslot : nextBitSlot (bitTime c) s.sinceOrigin d = some j) :
    exec .numberBitDrive s
      = .next (driveNumberBit c (s.elapse (bitTime c + j * bitTime c - s.sinceOrigin))) := by
  have due : numberBitDue c s = some (bitTime c + j * bitTime c - s.sinceOrigin) := by
    unfold numberBitDue
    rw [hrx, hd]
    simp only [hslot, Option.map_some]
  show execNumberBitDrive s = _
  unfold execNumberBitDrive
  rw [whenConfigured_held ha.1 ha.2, due]
  rfl

theorem driveNumberBit_eq {c : ConfigStore} {s : State} {d : BitDuty} {j : Nat} (hd : s.tx.bitDuty = some d)
    (hslot : nextBitSlot (bitTime c) s.sinceOrigin d = some j) :
    driveNumberBit c s = { s with tx := { s.tx with bitDuty := some { d with next := j + 1, driving := true } } } := by
  unfold driveNumberBit
  rw [hd]
  simp only [hslot]

/-- Settles O56: the drive's start by what is held, its release, the own slot, the next 1 bit, and the slots' ends. -/
theorem transmitterDrivesPulsesAndSlots : Obligations.TransmitterDrivesPulsesAndSlots := by
  intro c s ha
  refine ⟨fun hst hrx hd hacc hrun => ⟨fun he => ?_, fun he hq hh => ?_⟩, fun d hd hp => ?_,
    fun hrx hduty hdriving hbefore => execSlotDutyDrive_due ha hrx hduty hdriving hbefore,
    fun d j hrx hd hj hn hbit hzero hsince hT hT64 hk => ?_, fun hk => tick_slotDrives ha.2 hk⟩
  · rw [execDriveStart_now ha (driveStartDue_epoch hst hrx hd hacc hrun he), beginDrive_eq, he]
  · rw [execDriveStart_now ha (driveStartDue_trigger hst hrx hd hacc hrun he hq hh), beginDrive_eq, he]
  · intro u
    have drive : u.tx.drive = some d := by simp [u, hd]
    rw [execDriveEnd_pulling ha hd hp]
    exact congrArg _ (releaseDrive_eq drive)
  · intro u
    obtain ⟨driving, he⟩ := elapse_bitDuty (bitTime c + j * bitTime c - s.sinceOrigin) ha.2 hk hd
    have last_slot : j * bitTime c ≤ 15 * 64 := Nat.mul_le_mul (by omega) hT64
    have start : u.sinceOrigin = bitTime c + j * bitTime c := by
      unfold u
      rw [elapse_sinceOrigin ha.2 hk (by omega)]
      omega
    have slot : nextBitSlot (bitTime c) s.sinceOrigin d = some j := nextBitSlot_first hj hn hbit hzero (by omega)
    have same : nextBitSlot (bitTime c) u.sinceOrigin { d with driving := driving } = some j :=
      nextBitSlot_first hj hn hbit hzero (by omega)
    refine ⟨_, he, rfl, ?_⟩
    rw [execNumberBitDrive_due ha hrx hd slot]
    exact congrArg _ (driveNumberBit_eq he same)

end Sys2Proof.Machine
end

section
/-! The passing of ticks: the divisor that waits, the phase's counting modes, and the filter's sample (R92, R112, R117,
R118, R121, R137, R186). -/

namespace Sys2Proof.Machine

open Sys2Proof.Claims

/-! ### What n ticks keep and count (R117, R186) -/

/-- R186: the first tick boundary takes the divisor that waits, and the ticks after it run on at that divisor. -/
theorem elapse_takes_divisor {n k : Nat} {c : ConfigStore} {s : State} (hc : s.ctl.config = some c)
    (hk : s.tb.prescale = some k) (hn : 1 ≤ n) :
    (s.elapse n).tb.prescale = some (s.tb.nextPrescale.getD k) ∧ (s.elapse n).tb.nextPrescale = none := by
  obtain ⟨m, rfl⟩ := Nat.exists_eq_add_of_le' hn
  obtain ⟨runs, waits⟩ := tick_prescale hc hk
  exact elapse_prescale m (c := c) (by simpa using hc) runs waits

theorem elapse_divisorTaken {k : Nat} {c : ConfigStore} {s : State} (hc : s.ctl.config = some c)
    (hk : s.tb.prescale = some k) (n : Nat) : DivisorTaken s.tb (s.elapse n).tb := by
  cases n with
  | zero => exact .inl ⟨rfl, rfl⟩
  | succ m =>
    obtain ⟨runs, waits⟩ := elapse_takes_divisor hc hk (Nat.succ_pos m)
    cases hnext : s.tb.nextPrescale with
    | none =>
      rw [hnext] at runs
      exact .inl ⟨by rw [runs, hk]; rfl, by rw [waits, hnext]⟩
    | some j =>
      rw [hnext] at runs
      exact .inr ⟨j, hnext, runs, waits⟩

theorem elapse_untouched {k : Nat} {c : ConfigStore} {s : State} (hc : s.ctl.config = some c)
    (hk : s.tb.prescale = some k) (n : Nat) : Untouched s (s.elapse n) := by
  have taken := elapse_divisorTaken hc hk n
  simp [Untouched, taken]

/-! ### The phase's counting modes (R121) -/

theorem countPhase_held {p : Option Nat} {tb : Timebase} (h : tb.mode = .held) : countPhase p tb = tb := by
  unfold countPhase
  rw [h]

theorem countPhase_line {p : Option Nat} {tb : Timebase} (h : tb.mode = .line) :
    countPhase p tb = if tb.phase = 65535 then tb else { tb with phase := tb.phase + 1 } := by
  unfold countPhase
  rw [h]

theorem countPhase_local {p : Nat} {tb : Timebase} (h : tb.mode = .localScale) :
    countPhase (some p) tb = if p ≤ tb.phase.toNat + 1 then { tb with phase := 0, epoch := tb.epoch + 1 }
      else { tb with phase := tb.phase + 1 } := by
  unfold countPhase
  rw [h]

/-- One tick moves the phase and the epoch number as `countPhase` says. -/
theorem tick_phase {k : Nat} {c : ConfigStore} {s : State} (hc : s.ctl.config = some c)
    (hk : s.tb.prescale = some k) :
    (tick s).tb.phase = (countPhase (some (period c)) s.tb).phase
    ∧ (tick s).tb.epoch = (countPhase (some (period c)) s.tb).epoch := by
  rw [(tick_running hc hk).1]
  exact ⟨rfl, rfl⟩

/-! ### The filter at a tick boundary (R92) -/

/-- R92: at the tick boundary the next sample is to come, and the high run rises while the accepted level is high. -/
theorem tick_filter_eq {k : Nat} {c : ConfigStore} {s : State} (hc : s.ctl.config = some c)
    (hk : s.tb.prescale = some k) :
    (tick s).filter = { (sampleLine s).filter with
      sampled := false,
      highRun := (sampleLine s).filter.highRun + if (sampleLine s).filter.accepted = some true then 1 else 0 } := by
  unfold tick countTick
  simp only [sampleLine_frame, hc, hk]
  split <;> rfl

/-! ### The filter's sample (R92) -/

/-- R92: the present tick's sample joined to the run of equal samples, before a level is accepted. -/
def joinSample (s : State) : State :=
  { s with filter := { s.filter with last := some (nextRun s), sampled := true } }

theorem filterRuns_iff {s : State} : filterRuns s.ctl.state = true ↔ ReceiverRuns s := by
  refine ⟨fun h => ?_, filterRuns_of_receiverRuns⟩
  unfold ReceiverRuns
  cases hst : s.ctl.state <;> simp_all [filterRuns]

theorem sampleLine_due {s : State} (hr : ReceiverRuns s) (hs : s.filter.sampled = false) :
    sampleLine s = if (risingOrFalling (joinSample s)).isSome && (edgeRow (joinSample s)).isNone
      then acceptLevel (joinSample s) else joinSample s := by
  unfold sampleLine
  rw [if_pos (by simp [filterRuns_iff.2 hr, hs])]
  rfl

theorem sampleLine_stopped {s : State} (h : ¬ ReceiverRuns s) : sampleLine s = s := by
  unfold sampleLine
  rw [if_neg (by simp [mt filterRuns_iff.1 h])]

/-- R92: no sample, or one at the other level, stands before the present one. -/
theorem nextRun_fresh {s : State}
    (h : s.filter.last = none ∨ ∃ r, s.filter.last = some r ∧ r.high = s.lineLow) : nextRun s = freshRun s := by
  unfold nextRun
  obtain hnone | ⟨r, hlast, hother⟩ := h
  · rw [hnone]
  · rw [hlast]
    exact if_neg (by simp [hother])

theorem nextRun_same {s : State} {r : LineRun} (hlast : s.filter.last = some r) (hsame : r.high = !s.lineLow) :
    nextRun s = { r with agree := true } := by
  unfold nextRun
  rw [hlast]
  exact if_pos hsame

theorem risingOrFalling_joinSample (s : State) :
    risingOrFalling (joinSample s) = if (nextRun s).agree && s.filter.accepted != some (nextRun s).high
      then some (nextRun s).high else none := rfl

/-- R92: the first accepted level makes no edge. -/
theorem edgeRow_unaccepted {s : State} (h : s.filter.accepted = none) : edgeRow s = none := by
  unfold edgeRow
  rw [h]

/-- R92: a sample that makes no level rise or fall only joins its run. -/
theorem sampleLine_joins {s : State} (hr : ReceiverRuns s) (hs : s.filter.sampled = false)
    (hstays : risingOrFalling (joinSample s) = none) : sampleLine s = joinSample s := by
  rw [sampleLine_due hr hs, hstays]
  rfl

/-- R92: an agreed level that no row takes is accepted with the sample. -/
theorem sampleLine_accepts {s : State} {high : Bool} (hr : ReceiverRuns s) (hs : s.filter.sampled = false)
    (hmoves : risingOrFalling (joinSample s) = some high) (hrow : edgeRow (joinSample s) = none) :
    sampleLine s = acceptLevel (joinSample s) := by
  rw [sampleLine_due hr hs, hmoves, hrow]
  rfl

/-- R92: whether the level is accepted or not, the sample joins the run and is taken. -/
theorem sampleLine_run {s : State} (hr : ReceiverRuns s) (hs : s.filter.sampled = false) :
    (sampleLine s).filter.last = some (nextRun s) ∧ (sampleLine s).filter.sampled = true := by
  rw [sampleLine_due hr hs]
  split
  · exact ⟨rfl, rfl⟩
  · exact ⟨rfl, rfl⟩

/-- R92: a sample that differs from the last one, or has none before it, begins a run and accepts nothing. -/
theorem sampleLine_begins_run {s : State} (hr : ReceiverRuns s) (hs : s.filter.sampled = false)
    (h : s.filter.last = none ∨ ∃ r, s.filter.last = some r ∧ r.high = s.lineLow) :
    (sampleLine s).filter = { s.filter with last := some (freshRun s), sampled := true } := by
  have stays : risingOrFalling (joinSample s) = none := by
    rw [risingOrFalling_joinSample, nextRun_fresh h]
    rfl
  rw [sampleLine_joins hr hs stays, joinSample, nextRun_fresh h]

/-- R92: a run at the accepted level moves neither that level nor the high run. -/
theorem sampleLine_same_level {s : State} {r : LineRun} (hr : ReceiverRuns s) (hs : s.filter.sampled = false)
    (hlast : s.filter.last = some r) (hsame : r.high = !s.lineLow) (hacc : s.filter.accepted = some r.high) :
    (sampleLine s).filter.accepted = s.filter.accepted ∧ (sampleLine s).filter.highRun = s.filter.highRun := by
  have stays : risingOrFalling (joinSample s) = none := by
    rw [risingOrFalling_joinSample, nextRun_same hlast hsame, hacc]
    simp
  rw [sampleLine_joins hr hs stays]
  exact ⟨rfl, rfl⟩

/-- R92: an agreed level is accepted without an edge where it is the first one or a window is open; a high run counts
from the run's first sample. -/
theorem sampleLine_new_level {s : State} {r : LineRun} (hr : ReceiverRuns s) (hs : s.filter.sampled = false)
    (hlast : s.filter.last = some r) (hsame : r.high = !s.lineLow)
    (hnew : s.filter.accepted = none
      ∨ (s.filter.accepted = some (!r.high) ∧ s.rx.state ∈ [RxState.tagWindow, .numberWindow])) :
    (sampleLine s).filter.accepted = some r.high
    ∧ (sampleLine s).filter.highRun = if r.high then (s.tb.localTick - r.start.tick).toNat else 0 := by
  have moves : risingOrFalling (joinSample s) = some r.high := by
    rw [risingOrFalling_joinSample, nextRun_same hlast hsame]
    obtain hnone | ⟨hother, _⟩ := hnew
    · simp [hnone]
    · simp [hother]
  have no_row : edgeRow (joinSample s) = none := by
    obtain hnone | ⟨_, hwindow⟩ := hnew
    · exact edgeRow_unaccepted hnone
    · exact edgeRow_window hwindow
  rw [sampleLine_accepts hr hs moves no_row, joinSample, nextRun_same hlast hsame]
  exact ⟨rfl, rfl⟩

/-- Settles O3: what n ticks keep and count, one tick of the phase by its mode, and the filter's sample by how it agrees
with the last one. -/
theorem ticksOnlyCount : Obligations.TicksOnlyCount := by
  intro k c s hc hk
  refine ⟨fun n => ⟨elapse_untouched hc hk n, by simp, elapse_localTick n hc hk, elapse_holdoff n hc hk,
    elapse_takes_divisor hc hk, fun d hd hle => elapse_fill n hc hk hle hd⟩, ?_⟩
  obtain ⟨phase, epoch⟩ := tick_phase hc hk
  refine ⟨fun held => ?_, fun line => ?_, fun own => ?_, tick_filter_eq hc hk,
    fun h => h.elim sampleLine_stopped sampleLine_taken,
    fun hr hs => ⟨sampleLine_begins_run hr hs, fun r hlast hsame => ?_⟩⟩
  · rw [phase, epoch, countPhase_held held]
    exact ⟨rfl, rfl⟩
  · rw [phase, epoch, countPhase_line line]
    refine ⟨by split <;> rfl, fun full => ?_, fun room => ?_⟩
    · rw [if_pos full, full]
    · rw [if_neg room]
  · rw [phase, epoch, countPhase_local own]
    refine ⟨fun before => ?_, fun reached => ?_⟩
    · rw [if_neg (Nat.not_le.2 before)]
      exact ⟨rfl, rfl⟩
    · rw [if_pos reached]
      exact ⟨rfl, rfl⟩
  · obtain ⟨last, sampled⟩ := sampleLine_run hr hs
    exact ⟨by rw [last, nextRun_same hlast hsame], sampled, sampleLine_same_level hr hs hlast hsame,
      sampleLine_new_level hr hs hlast hsame⟩

end Sys2Proof.Machine
end

section
/-! The codeword (R138, R139): the syndrome is linear in the stored bits, so a syndrome is the exclusive-OR of the
columns of the changed bits and of the virtual column where the address parities differ. Every column, the virtual
one too, holds an odd number of 1 bits. -/

namespace Sys2Proof.Machine

/-! ### Columns -/

/-- The column of stored position p (R138). -/
def columnAt (p : Nat) : BitVec 6 := columns.getD p 0

/-- The exclusive-OR of the lowest n bits. -/
def bitParity (x : BitVec 6) : Nat → Bool
  | 0 => false
  | n + 1 => bitParity x n ^^ x.getLsbD n

theorem bitParity_xor (x y : BitVec 6) : ∀ n, bitParity (x ^^^ y) n = (bitParity x n ^^ bitParity y n)
  | 0 => rfl
  | n + 1 => by
    rw [bitParity, bitParity, bitParity, bitParity_xor x y n, BitVec.getLsbD_xor, Bool.xor_assoc,
      Bool.xor_assoc, Bool.xor_left_comm (bitParity y n)]

/-- A column holds an odd number of 1 bits. -/
def oddWeight (x : BitVec 6) : Bool := bitParity x 6

theorem oddWeight_xor (x y : BitVec 6) : oddWeight (x ^^^ y) = (oddWeight x ^^ oddWeight y) := bitParity_xor x y 6

theorem oddWeight_columns : ∀ x ∈ columns, oddWeight x = true := by decide

theorem oddWeight_columnAt {p : Nat} (h : p < 22) : oddWeight (columnAt p) = true := by
  have every : ∀ i : Fin 22, oddWeight (columnAt i.val) = true := by decide
  exact every ⟨p, h⟩

/-- A column stands at its own position alone (R138). -/
theorem findIdx_columnAt {p : Nat} (h : p < 22) : columns.findIdx? (· == columnAt p) = some p := by
  have every : ∀ i : Fin 22, columns.findIdx? (· == columnAt i.val) = some i.val := by decide
  exact every ⟨p, h⟩

theorem columnAt_inj {p q : Nat} (hp : p < 22) (hq : q < 22) (h : columnAt p = columnAt q) : p = q := by
  have found := findIdx_columnAt hp
  rw [h, findIdx_columnAt hq] at found
  exact (Option.some.inj found).symm

theorem columnAt_ne_zero {p : Nat} (h : p < 22) : columnAt p ≠ 0 := by
  intro e
  have odd := oddWeight_columnAt h
  rw [e] at odd
  exact absurd odd (by decide)

theorem virtualColumn_not_mem : virtualColumn ∉ columns := by decide

theorem virtualColumn_ne_columnAt {p : Nat} (h : p < 22) : virtualColumn ≠ columnAt p := by
  have every : ∀ i : Fin 22, virtualColumn ≠ columnAt i.val := by decide
  exact every ⟨p, h⟩

/-! ### The syndrome is linear (R138, R139) -/

theorem columnSum_xor (f g : Nat → Bool) : ∀ (cs : List (BitVec 6)) (i : Nat),
    columnSum (fun j => f j ^^ g j) cs i = columnSum f cs i ^^^ columnSum g cs i
  | [], _ => BitVec.xor_self.symm
  | c :: cs, i => by
    have share : (if f i ^^ g i then c else 0) = (if f i then c else 0) ^^^ (if g i then c else 0) := by
      cases f i <;> cases g i <;> simp
    rw [columnSum, columnSum, columnSum, columnSum_xor f g cs (i + 1), share]
    ac_rfl

theorem columnSum_append (f : Nat → Bool) : ∀ (cs ds : List (BitVec 6)) (i : Nat),
    columnSum f (cs ++ ds) i = columnSum f cs i ^^^ columnSum f ds (i + cs.length)
  | [], _, _ => by simp [columnSum]
  | c :: cs, ds, i => by
    rw [List.cons_append, columnSum, columnSum, columnSum_append f cs ds (i + 1), BitVec.xor_assoc, List.length_cons,
      Nat.add_assoc, Nat.add_comm 1]

/-- The sum looks at the positions of its columns alone. -/
theorem columnSum_congr {f g : Nat → Bool} : ∀ (cs : List (BitVec 6)) (i j : Nat),
    (∀ n, n < cs.length → f (i + n) = g (j + n)) → columnSum f cs i = columnSum g cs j
  | [], _, _, _ => rfl
  | c :: cs, i, j, h => by
    have head : f i = g j := h 0 (Nat.succ_pos _)
    have tail := columnSum_congr cs (i + 1) (j + 1) (fun n hn => by
      simpa [Nat.add_assoc, Nat.add_comm 1] using h (n + 1) (Nat.succ_lt_succ hn))
    rw [columnSum, columnSum, head, tail]

/-- The check columns are the unit columns: their sum is the check bits themselves (R138). -/
theorem columnSum_checkColumns (x : BitVec 6) :
    columnSum x.getLsbD [0x01, 0x02, 0x04, 0x08, 0x10, 0x20] 0 = x := by
  revert x
  decide

theorem columnSum_twoPow {p : Nat} (h : p < 22) :
    columnSum (BitVec.twoPow 22 p).getLsbD columns 0 = columnAt p := by
  have every : ∀ i : Fin 22, columnSum (BitVec.twoPow 22 i.val).getLsbD columns 0 = columnAt i.val := by decide
  exact every ⟨p, h⟩

/-- R139: one changed stored bit adds its position's column to the syndrome. -/
theorem syndrome_changed (b : Nat) (c : Codeword) {p : Nat} (h : p < 22) :
    syndrome b (c ^^^ BitVec.twoPow 22 p) = syndrome b c ^^^ columnAt p := by
  have bits : (c ^^^ BitVec.twoPow 22 p).getLsbD = fun j => c.getLsbD j ^^ (BitVec.twoPow 22 p).getLsbD j :=
    funext fun _ => BitVec.getLsbD_xor
  unfold syndrome
  rw [bits, columnSum_xor, columnSum_twoPow h]
  ac_rfl

theorem columnSum_encode (a : Nat) (w : Word) :
    columnSum (encode a w).getLsbD columns 0 = columnSum w.getLsbD dataColumns 0 ^^^ checkBits a w := by
  have data : columnSum (encode a w).getLsbD dataColumns 0 = columnSum w.getLsbD dataColumns 0 := by
    refine columnSum_congr _ _ _ (fun n hn => ?_)
    have low : 0 + n < 16 := by simpa [dataColumns] using hn
    exact BitVec.getLsbD_append.trans (if_pos low)
  have check : columnSum (encode a w).getLsbD [0x01, 0x02, 0x04, 0x08, 0x10, 0x20] (0 + dataColumns.length)
      = checkBits a w := by
    refine (columnSum_congr _ _ 0 (fun n hn => ?_)).trans (columnSum_checkColumns _)
    refine (BitVec.getLsbD_append.trans (if_neg (by simp [dataColumns]))).trans ?_
    simp [dataColumns]
  unfold columns
  rw [columnSum_append, data, check]

/-- R138, R139: what is left of a codeword just written is the difference of the address parities. -/
theorem syndrome_encode (a b : Nat) (w : Word) : syndrome b (encode a w) = addressShare a ^^^ addressShare b := by
  unfold syndrome
  rw [columnSum_encode, checkBits, ← BitVec.xor_assoc, BitVec.xor_self, BitVec.zero_xor]

theorem syndrome_encode_same {a b : Nat} (h : addressParity a = addressParity b) (w : Word) :
    syndrome b (encode a w) = 0#6 := by
  rw [syndrome_encode, addressShare, addressShare, h, BitVec.xor_self]

theorem syndrome_encode_other {a b : Nat} (h : addressParity a ≠ addressParity b) (w : Word) :
    syndrome b (encode a w) = virtualColumn := by
  rw [syndrome_encode, addressShare, addressShare]
  cases ha : addressParity a <;> cases hb : addressParity b <;> simp_all

/-! ### The decoder by its syndrome (R139) -/

theorem decodeWord_clean {b : Nat} {c : Codeword} (h : syndrome b c = 0) :
    decodeWord b c = .clean (c.setWidth 16) :=
  if_pos h

theorem decodeWord_correctable {b p : Nat} {c : Codeword} (hp : p < 22) (h : syndrome b c = columnAt p) :
    decodeWord b c = .correctable p ((c ^^^ BitVec.twoPow 22 p).setWidth 16) := by
  unfold decodeWord
  dsimp only
  rw [h, if_neg (columnAt_ne_zero hp), findIdx_columnAt hp]

theorem decodeWord_uncorrectable {b : Nat} {c : Codeword} (h0 : syndrome b c ≠ 0) (hc : syndrome b c ∉ columns) :
    decodeWord b c = .uncorrectable (c.setWidth 16) := by
  have missing : columns.findIdx? (· == syndrome b c) = none := by
    rw [List.findIdx?_eq_none_iff]
    intro x hx
    simpa using fun e : x = syndrome b c => hc (e ▸ hx)
  unfold decodeWord
  dsimp only
  rw [if_neg h0, missing]

/-- R139: a syndrome of two odd columns that differ is no column. -/
theorem decodeWord_twoColumns {b : Nat} {c : Codeword} {x y : BitVec 6} (h : syndrome b c = x ^^^ y) (hxy : x ≠ y)
    (hx : oddWeight x = true) (hy : oddWeight y = true) : decodeWord b c = .uncorrectable (c.setWidth 16) := by
  refine decodeWord_uncorrectable (fun h0 => hxy ?_) (fun hc => ?_)
  · exact BitVec.xor_eq_zero_iff.1 (h.symm.trans h0)
  · have odd := oddWeight_columns _ hc
    rw [h, oddWeight_xor, hx, hy] at odd
    cases odd

theorem setWidth_encode (a : Nat) (w : Word) : (encode a w).setWidth 16 = w := by
  refine BitVec.eq_of_getLsbD_eq (fun i hi => ?_)
  rw [BitVec.getLsbD_setWidth, decide_eq_true hi, Bool.true_and]
  exact BitVec.getLsbD_append.trans (if_pos hi)

/-- Settles O57: by the number of changed bits, read at an address of the same parity and of the other. -/
theorem codewordCorrectsOneBitAndDetectsTwo : Obligations.CodewordCorrectsOneBitAndDetectsTwo := by
  intro a b w _ _
  refine ⟨fun same => ⟨?_, fun p hp => ?_, fun p q hp hq hpq => ?_⟩, fun other => ⟨?_, fun p hp => ?_⟩⟩
  · rw [decodeWord_clean (syndrome_encode_same same w), setWidth_encode]
  · have changed : syndrome b (encode a w ^^^ BitVec.twoPow 22 p) = columnAt p := by
      rw [syndrome_changed b _ hp, syndrome_encode_same same, BitVec.zero_xor]
    rw [decodeWord_correctable hp changed, BitVec.xor_assoc, BitVec.xor_self, BitVec.xor_zero, setWidth_encode]
  · have changed : syndrome b (encode a w ^^^ BitVec.twoPow 22 p ^^^ BitVec.twoPow 22 q)
        = columnAt p ^^^ columnAt q := by
      rw [syndrome_changed b _ hq, syndrome_changed b _ hp, syndrome_encode_same same, BitVec.zero_xor]
    exact ⟨_, decodeWord_twoColumns changed (fun e => hpq (columnAt_inj hp hq e)) (oddWeight_columnAt hp)
      (oddWeight_columnAt hq)⟩
  · have syn := syndrome_encode_other other w
    rw [decodeWord_uncorrectable (by rw [syn]; decide) (by rw [syn]; exact virtualColumn_not_mem), setWidth_encode]
  · have changed : syndrome b (encode a w ^^^ BitVec.twoPow 22 p) = virtualColumn ^^^ columnAt p := by
      rw [syndrome_changed b _ hp, syndrome_encode_other other]
    exact ⟨_, decodeWord_twoColumns changed (virtualColumn_ne_columnAt hp) (by decide) (oddWeight_columnAt hp)⟩

end Sys2Proof.Machine
end

section
/-! What a read of one word brings about (R139 to R144, R150, R153, R69): the finding's counter, log entry, tally,
event and record mark, and the write-back offer. -/

namespace Sys2Proof.Machine

open Sys2Proof.Claims

/-! ### The counter and the log (R150, R153) -/

/-- R142 steps 1 and 2: the error counter raised, and the entry in the log while there is room. -/
def noted (entry : LogEntry) (s : State) : State :=
  let u := { s with mem := { s.mem with errorCount := satSucc 65535 s.mem.errorCount } }
  if u.mem.log.length < logRoom then setLog (u.mem.log ++ [entry]) u else u

theorem noted_room {entry : LogEntry} {s : State} (h : s.mem.log.length < 4) :
    noted entry s = setLog (s.mem.log ++ [entry])
      { s with mem := { s.mem with errorCount := satSucc 65535 s.mem.errorCount } } :=
  if_pos h

theorem noted_full {entry : LogEntry} {s : State} (h : 4 ≤ s.mem.log.length) :
    noted entry s = { s with mem := { s.mem with errorCount := satSucc 65535 s.mem.errorCount } } :=
  if_neg (Nat.not_lt_of_le h)

/-- The counter and the log are the memory unit's; what else a note touches is LOG_FULL alone. -/
theorem noted_frame (entry : LogEntry) (s : State) :
    (noted entry s).pool = s.pool ∧ (noted entry s).recs = s.recs
    ∧ (∃ log, (noted entry s).mem = { s.mem with log := log, errorCount := satSucc 65535 s.mem.errorCount })
    ∧ ∀ src : Source, src ≠ .logFull → (noted entry s).ev.cell src = s.ev.cell src := by
  obtain h | h := Nat.lt_or_ge s.mem.log.length 4
  · rw [noted_room h]
    refine ⟨by simp, by simp, ⟨s.mem.log ++ [entry], by simp⟩, fun src hsrc => ?_⟩
    exact cell_handLevel_other hsrc _ _ _
  · rw [noted_full h]
    exact ⟨rfl, rfl, ⟨s.mem.log, rfl⟩, fun _ _ => rfl⟩

theorem noted_header (entry : LogEntry) (s : State) (g : SegNo) : (noted entry s).header g = s.header g :=
  header_congr (noted_frame entry s).1 g

/-- R150: the entry that fills the log makes LOG_FULL PENDING. -/
theorem noted_logFull {entry : LogEntry} {s : State} (h : s.mem.log.length = 3)
    (hq : (s.ev.cell .logFull).state = .quiet) : ((noted entry s).ev.cell .logFull).state = .pending := by
  have before : (s.mem.log.length == logRoom) = false := by simp [h, logRoom]
  have after : ((s.mem.log ++ [entry]).length == logRoom) = true := by simp [h, logRoom]
  rw [noted_room (by omega), setLog, before, after]
  exact cell_handLevel_start hq

/-! ### The record's mark (R69) -/

/-- R69: a record marked for an uncorrectable word. -/
def Record.marked (r : Record) : Record :=
  { r with flags := { r.flags with memError := true }, uncorrectable := min 255 (r.uncorrectable + 1) }

theorem holderOf_only {g : SegNo} {s : State} {i : SlotNo} {r : Record} (hi : s.recs.slots.get i = some r)
    (hg : g ∈ r.chain) (ho : ∀ j r', j ≠ i → s.recs.slots.get j = some r' → g ∉ r'.chain) :
    holderOf g s = some i :=
  findRecord_only hi (by simpa using hg) (fun j r' hj hr => by simpa using ho j r' hj hr)

theorem holderOf_none {g : SegNo} {s : State} (h : ∀ i r, s.recs.slots.get i = some r → g ∉ r.chain) :
    holderOf g s = none :=
  findRecord_none (fun i r hi => by simpa using h i r hi)

theorem markRecord_only {g : SegNo} {s : State} {i : SlotNo} {r : Record} (hi : s.recs.slots.get i = some r)
    (hg : g ∈ r.chain) (ho : ∀ j r', j ≠ i → s.recs.slots.get j = some r' → g ∉ r'.chain) :
    markRecord g s = setSlot i (some r.marked) s := by
  unfold markRecord
  rw [holderOf_only hi hg ho]
  simp only [hi]
  rfl

theorem markRecord_none {g : SegNo} {s : State} (h : ∀ i r, s.recs.slots.get i = some r → g ∉ r.chain) :
    markRecord g s = s := by
  unfold markRecord
  rw [holderOf_none h]

/-! ### The finding (R142, R143) -/

/-- R142 steps 1 to 3: the note, and the segment's tally and retire-pending flag by the kind. -/
def tallied (c : ConfigStore) (entry : LogEntry) (s : State) : State :=
  setHeader entry.seg ((s.header entry.seg).found (retireThreshold c) entry.kind) (noted entry s)

theorem finding_corrected (c : ConfigStore) (finder : Finder) (g : SegNo) (offset : Nat) (syn : BitVec 6) (p : Nat)
    (s : State) :
    finding c finder g offset syn (some p) s
      = raise .memCorrected (tallied c (logEntry finder g offset syn (some p) s) s) := by
  unfold tallied
  rw [← noted_header (logEntry finder g offset syn (some p) s) s]
  rfl

theorem finding_uncorrectable (c : ConfigStore) (finder : Finder) (g : SegNo) (offset : Nat) (syn : BitVec 6)
    (s : State) :
    finding c finder g offset syn none s
      = raise .memUncorrectable (markRecord g (tallied c (logEntry finder g offset syn none s) s)) := by
  unfold tallied
  rw [← noted_header (logEntry finder g offset syn none s) s]
  rfl

theorem tallied_header (c : ConfigStore) (entry : LogEntry) (s : State) (a : SegNo) :
    (tallied c entry s).header a
      = if entry.seg = a then (s.header entry.seg).found (retireThreshold c) entry.kind else s.header a := by
  rw [tallied, header_setHeader, noted_header]

theorem tallied_recs (c : ConfigStore) (entry : LogEntry) (s : State) : (tallied c entry s).recs = s.recs := by
  obtain ⟨_, recs, _⟩ := noted_frame entry s
  exact recs

theorem tallied_pool (c : ConfigStore) (entry : LogEntry) (s : State) :
    ∃ headers, (tallied c entry s).pool = { s.pool with headers := headers } := by
  obtain ⟨pool, _⟩ := noted_frame entry s
  rw [← pool]
  exact ⟨_, rfl⟩

theorem tallied_cell {src : Source} (h : src ≠ .logFull) (c : ConfigStore) (entry : LogEntry) (s : State) :
    (tallied c entry s).ev.cell src = s.ev.cell src := by
  obtain ⟨_, _, _, cells⟩ := noted_frame entry s
  exact cells src h

/-- R142: past the tally a finding of either kind raises its event, and an uncorrectable one marks the record. -/
theorem finding_tallied (c : ConfigStore) (finder : Finder) (g : SegNo) (offset : Nat) (syn : BitVec 6)
    (position : Option Nat) (s : State) :
    (finding c finder g offset syn position s).mem = (noted (logEntry finder g offset syn position s) s).mem
    ∧ (finding c finder g offset syn position s).pool = (tallied c (logEntry finder g offset syn position s) s).pool
    ∧ (finding c finder g offset syn position s).ev.cell .logFull
        = (noted (logEntry finder g offset syn position s) s).ev.cell .logFull := by
  cases position with
  | some p =>
    rw [finding_corrected]
    exact ⟨rfl, rfl, cell_raise_other (by decide) _⟩
  | none =>
    rw [finding_uncorrectable]
    generalize hu : tallied c (logEntry finder g offset syn none s) s = u
    refine ⟨by simp [← hu, tallied], by simp, (cell_raise_other (by decide) _).trans ?_⟩
    simp [← hu, tallied]

/-- R143: the header of the finding's segment, and the others' as before. -/
theorem finding_header (c : ConfigStore) (finder : Finder) (g a : SegNo) (offset : Nat) (syn : BitVec 6)
    (position : Option Nat) (s : State) :
    (finding c finder g offset syn position s).header a
      = if g = a then
          (s.header g).found (retireThreshold c) (if position.isSome then .corrected else .uncorrectable)
        else s.header a := by
  obtain ⟨_, pool, _⟩ := finding_tallied c finder g offset syn position s
  exact (header_congr pool a).trans (tallied_header c _ s a)

theorem Header.found_eq (threshold : Nat) (position : Option Nat) (h : Header) :
    h.found threshold (if position.isSome then .corrected else .uncorrectable)
      = { h with
          tally := if position.isSome then min 15 (h.tally + 1) else 15,
          retirePending := h.retirePending
            || decide (threshold ≤ if position.isSome then min 15 (h.tally + 1) else 15) } := by
  cases position <;> rfl

theorem finding_corrected_events (c : ConfigStore) (finder : Finder) (g : SegNo) (offset : Nat) (syn : BitVec 6)
    (p : Nat) (s : State) :
    (finding c finder g offset syn (some p) s).recs = s.recs
    ∧ (finding c finder g offset syn (some p) s).ev.cell .memCorrected = raisedOnce s.ev .memCorrected
    ∧ (finding c finder g offset syn (some p) s).ev.cell .memUncorrectable = s.ev.cell .memUncorrectable := by
  rw [finding_corrected]
  refine ⟨tallied_recs c (logEntry finder g offset syn (some p) s) s,
    (cell_raise_same _ _).trans (raisedOnce_congr ?_), (cell_raise_other (by decide) _).trans ?_⟩
  · exact tallied_cell (by decide) _ _ _
  · exact tallied_cell (by decide) _ _ _

theorem finding_uncorrectable_events (c : ConfigStore) (finder : Finder) (g : SegNo) (offset : Nat) (syn : BitVec 6)
    (s : State) :
    (finding c finder g offset syn none s).ev.cell .memUncorrectable = raisedOnce s.ev .memUncorrectable
    ∧ (finding c finder g offset syn none s).ev.cell .memCorrected = s.ev.cell .memCorrected := by
  have stands : ∀ src : Source, src ≠ .logFull → ∀ u,
      (markRecord g (tallied c u s)).ev.cell src = s.ev.cell src := fun src hsrc u => by
    simpa using tallied_cell hsrc c u s
  rw [finding_uncorrectable]
  refine ⟨(cell_raise_same _ _).trans (raisedOnce_congr ?_), (cell_raise_other (by decide) _).trans ?_⟩
  · exact stands _ (by decide) _
  · exact stands _ (by decide) _

/-- R69: the one record that holds the segment is marked. -/
theorem finding_marks {c : ConfigStore} {finder : Finder} {g : SegNo} {offset : Nat} {syn : BitVec 6} {s : State}
    {i : SlotNo} {r : Record} (hi : s.recs.slots.get i = some r) (hg : g ∈ r.chain)
    (ho : ∀ j r', j ≠ i → s.recs.slots.get j = some r' → g ∉ r'.chain) :
    (finding c finder g offset syn none s).recs = (setSlot i (some r.marked) s).recs := by
  rw [finding_uncorrectable]
  have recs := tallied_recs c (logEntry finder g offset syn none s) s
  generalize tallied c (logEntry finder g offset syn none s) s = u at recs ⊢
  rw [← recs] at hi ho
  rw [markRecord_only hi hg ho]
  simp [recs]

theorem finding_marks_none {c : ConfigStore} {finder : Finder} {g : SegNo} {offset : Nat} {syn : BitVec 6} {s : State}
    (h : ∀ i r, s.recs.slots.get i = some r → g ∉ r.chain) :
    (finding c finder g offset syn none s).recs = s.recs := by
  rw [finding_uncorrectable]
  have recs := tallied_recs c (logEntry finder g offset syn none s) s
  generalize tallied c (logEntry finder g offset syn none s) s = u at recs ⊢
  rw [← recs] at h
  rw [markRecord_none h]
  exact recs

/-- R142, R143, R150, R153, R69: a finding, whatever its kind. -/
theorem finding_found (c : ConfigStore) (finder : Finder) (g : SegNo) (offset : Nat) (syn : BitVec 6)
    (position : Option Nat) (s : State) :
    Found c finder g offset syn position s (finding c finder g offset syn position s) := by
  obtain ⟨mem, pool, logFull⟩ := finding_tallied c finder g offset syn position s
  obtain ⟨_, _, ⟨log, noted_mem⟩, _⟩ := noted_frame (logEntry finder g offset syn position s) s
  obtain ⟨headers, lists⟩ := tallied_pool c (logEntry finder g offset syn position s) s
  obtain ⟨_, tb, writer, _, _, _, _, rx, tx, ret, _⟩ := finding_frame c finder g offset syn position s
  refine ⟨by rw [mem, noted_mem]; rfl, fun h => ?_, fun h => ?_, fun h hq => ?_, ?_, fun a ha => ?_, fun hp => ?_,
    fun hp => ?_, by rw [pool, lists], by rw [pool, lists], by rw [pool, lists], by rw [mem, noted_mem], ret, writer,
    tx, rx, tb⟩
  · rw [mem, noted_room h]
    simp [logEntry, State.stamp]
  · rw [mem, noted_full h]
  · rw [logFull]
    exact noted_logFull h hq
  · rw [finding_header, if_pos rfl, Header.found_eq]
  · rw [finding_header, if_neg ha.symm]
  · obtain ⟨p, rfl⟩ := Option.isSome_iff_exists.1 hp
    exact finding_corrected_events c finder g offset syn p s
  · subst hp
    obtain ⟨raised, corrected⟩ := finding_uncorrectable_events c finder g offset syn s
    refine ⟨raised, corrected, fun i r hi hg ho => ?_, finding_marks_none⟩
    rw [finding_marks hi hg ho]
    exact ⟨slot_setSlot_same i _ s, fun j hj => slot_setSlot_other hj _ s⟩

/-! ### The write-back offer and the read (R139, R142, R144) -/

/-- R144: an offer touches the buffer alone. -/
theorem offerWriteBack_eq (g : SegNo) (address : Nat) (w : Word) (s : State) :
    ∃ buffer, offerWriteBack g address w s = { s with mem := { s.mem with buffer := buffer } }
      ∧ (s.mem.buffer = none → buffer = some
          { address := address, word := w, seg := g, generation := (s.header g).generation })
      ∧ (s.mem.buffer ≠ none → buffer = s.mem.buffer) := by
  unfold offerWriteBack
  split
  next e h => exact ⟨s.mem.buffer, rfl, fun hn => absurd (h.symm.trans hn) (by simp), fun _ => rfl⟩
  next h => exact ⟨_, rfl, fun _ => rfl, fun hn => absurd h hn⟩

theorem readWord_clean {c : ConfigStore} {finder : Finder} {g : SegNo} {offset : Nat} {s : State} {w : Word}
    (h : readOutcome g offset s = .clean w) : readWord c finder g offset s = s := by
  unfold readWord
  rw [h]

theorem readWord_correctable {c : ConfigStore} {finder : Finder} {g : SegNo} {offset p : Nat} {s : State} {w : Word}
    (h : readOutcome g offset s = .correctable p w) :
    readWord c finder g offset s = offerWriteBack g (s.address g offset) w
      (finding c finder g offset (syndrome (s.address g offset) (readArray s.mem.array (s.address g offset))) (some p)
        s) := by
  unfold readWord
  rw [h]

theorem readWord_uncorrectable {c : ConfigStore} {finder : Finder} {g : SegNo} {offset : Nat} {s : State} {w : Word}
    (h : readOutcome g offset s = .uncorrectable w) :
    readWord c finder g offset s
      = finding c finder g offset (syndrome (s.address g offset) (readArray s.mem.array (s.address g offset))) none
        s := by
  unfold readWord
  rw [h]

/-- R139, R142: what one read does, by its decode. -/
theorem readWord_did (c : ConfigStore) (finder : Finder) (g : SegNo) (offset : Nat) (s : State) :
    ReadDid c finder g offset s (readWord c finder g offset s) := by
  refine ⟨fun w h => ?_, fun p w h => ?_, fun w h => ?_⟩
  · rw [readWord_clean h]
    exact ⟨rfl, rfl, rfl, rfl, rfl, rfl, rfl, rfl⟩
  · rw [readWord_correctable h]
    generalize syndrome (s.address g offset) (readArray s.mem.array (s.address g offset)) = syn
    have found := finding_found c finder g offset syn (some p) s
    have stood := (finding_mem c finder g offset syn (some p) s).2
    have generation : ((finding c finder g offset syn (some p) s).header g).generation = (s.header g).generation := by
      rw [finding_header, if_pos rfl]
      rfl
    obtain ⟨buffer, offered, empty, full⟩ :=
      offerWriteBack_eq g (s.address g offset) w (finding c finder g offset syn (some p) s)
    rw [stood, generation] at empty
    rw [stood] at full
    rw [offered]
    exact ⟨found, empty, full⟩
  · rw [readWord_uncorrectable h]
    exact ⟨finding_found c finder g offset _ none s, (finding_mem c finder g offset _ none s).2⟩

/-- A read leaves the scrubber and the prefetch as they were. -/
theorem readWord_scrub (c : ConfigStore) (finder : Finder) (g : SegNo) (offset : Nat) (s : State) :
    (readWord c finder g offset s).mem.scrub = s.mem.scrub := by
  have found : ∀ syn position, (finding c finder g offset syn position s).mem.scrub = s.mem.scrub :=
    fun syn position => by
      obtain ⟨_, _, ⟨log, mem⟩, _⟩ := noted_frame (logEntry finder g offset syn position s) s
      rw [(finding_tallied c finder g offset syn position s).1, mem]
  cases h : readOutcome g offset s with
  | clean w => rw [readWord_clean h]
  | correctable p w =>
    rw [readWord_correctable h]
    obtain ⟨buffer, offered, _⟩ := offerWriteBack_eq g (s.address g offset) w (finding c finder g offset
      (syndrome (s.address g offset) (readArray s.mem.array (s.address g offset))) (some p) s)
    rw [offered]
    exact found _ _
  | uncorrectable w =>
    rw [readWord_uncorrectable h]
    exact found _ _

/-- What a read did does not turn on the prefetch, the scrubber and the port. -/
theorem readDid_beside {c : ConfigStore} {finder : Finder} {g : SegNo} {offset : Nat} {s t : State}
    (h : ReadDid c finder g offset s t) (prefetch : Option Prefetch) (scrub : Scrubber) (port : Port) :
    ReadDid c finder g offset s { t with mem := { t.mem with prefetch := prefetch, scrub := scrub }, port := port } :=
  h

end Sys2Proof.Machine
end

section
/-! The rows of the memory port's requesters (R135, R140, R145, R148): what each does once it is granted. -/

namespace Sys2Proof.Machine

open Sys2Proof.Claims

/-! ### The prefetch (R140, R141, R200) -/

theorem execPrefetchRead_presented {c : ConfigStore} {p : Prefetch} {s : State} (ha : Active s c)
    (hp : s.mem.prefetch = some p) (hpres : p.presented = true) (hrem : 1 ≤ p.remaining) :
    exec .prefetchRead s = .next (prefetchWord c p s) := by
  have presents : (p.presented && decide (0 < p.remaining)) = true := by simpa [hpres] using Nat.lt_of_succ_le hrem
  show execPrefetchRead s = _
  unfold execPrefetchRead
  rw [whenConfigured_held ha.1 ha.2, hp]
  exact congrArg _ (if_pos presents)

/-- R141: the range's position moves on, and the outcome joins its count. -/
theorem Prefetch.advanced_eq (outcome : Decoded) (p : Prefetch) :
    p.advanced outcome = { p with
      offset := p.offset + 1, remaining := p.remaining - 1, presented := false,
      corrected := p.corrected + (if outcome matches .correctable _ _ then 1 else 0),
      uncorrectable := p.uncorrectable + (if outcome matches .uncorrectable _ then 1 else 0) } := by
  cases outcome <;> rfl

/-- Settles O58: the row's next state is the read's but for the prefetch and the port. -/
theorem prefetchReadsTheNextWord : Obligations.PrefetchReadsTheNextWord := by
  intro c p s ha hp hpres hrem outcome corrected uncorrectable
  have did := readWord_did c .hostRead p.seg p.offset s
  obtain ⟨_, tb, writer, _, _, _, _, _, _, _, port, _⟩ := readWord_frame c .hostRead p.seg p.offset s
  have advanced : p.advanced outcome = { p with
      offset := p.offset + 1, remaining := p.remaining - 1, presented := false,
      corrected := corrected, uncorrectable := uncorrectable } := p.advanced_eq outcome
  have summary : (p.advanced outcome).summary = if p.remaining = 1 then
      [BitVec.ofNat 8 (corrected / 256), BitVec.ofNat 8 corrected,
       BitVec.ofNat 8 (uncorrectable / 256), BitVec.ofNat 8 uncorrectable] else [] := by
    have last : p.remaining - 1 = 0 ↔ p.remaining = 1 := by omega
    rw [advanced]
    unfold Prefetch.summary
    simp only [last]
    rfl
  refine ⟨_, execPrefetchRead_presented ha hp hpres hrem, readDid_beside did _ _ _, congrArg some advanced, rfl, ?_,
    readWord_scrub c .hostRead p.seg p.offset s, writer, tb⟩
  show (readWord c .hostRead p.seg p.offset s).port.response ++ bytes2 outcome.word.toNat
    ++ (p.advanced outcome).summary = _
  rw [port, summary]
  rfl

/-- R135: a prefetch that does not present is no requester. -/
theorem prefetch_quiet {m : Integrity} (h : ∀ p, m.prefetch = some p → p.presented = false) :
    m.prefetch.any (·.presented) = false := by
  cases hp : m.prefetch with
  | none => rfl
  | some p => exact h p hp

/-! ### The scrubber (R148, R21) -/

theorem skipped_iff {g : SegNo} {s : State} :
    skipped g s = true ↔ g ∈ s.pool.free ∨ g ∈ s.pool.withdrawn ∨ s.writer.current = some g := by
  simp [skipped, or_assoc]

theorem scrubTarget_first {n : Nat} {s : State} {g : SegNo} (hn : 0 < n) (h : skipped g s = false) (o : Fin 512) :
    scrubTarget s n g o = some (g, o) := by
  obtain ⟨m, rfl⟩ := Nat.exists_eq_add_of_lt hn
  exact if_neg (by simp [h])

/-- R148: past n skipped segments the walk is at word 0 of the n-th after its start. -/
theorem scrubTarget_walks {s : State} : ∀ (n k : Nat) (g : SegNo) (o : Fin 512),
    (∀ m, m < n → skipped (g + Fin.ofNat 256 m) s = true) →
    scrubTarget s (n + k) g o = scrubTarget s k (g + Fin.ofNat 256 n) (if n = 0 then o else 0)
  | 0, k, g, o, _ => by simp
  | n + 1, k, g, o, h => by
    have next : ∀ m : Nat, g + 1 + Fin.ofNat 256 m = g + Fin.ofNat 256 (m + 1) := fun m => by
      apply Fin.ext
      simp [Fin.val_add]
      omega
    have here : skipped g s = true := by simpa using h 0 (Nat.succ_pos n)
    have on : scrubTarget s (n + 1 + k) g o = scrubTarget s (n + k) (g + 1) 0 := by
      rw [Nat.add_right_comm]
      exact if_pos here
    rw [on, scrubTarget_walks n k (g + 1) 0 (fun m hm => by rw [next]; exact h (m + 1) (Nat.succ_lt_succ hm)), next]
    simp

/-- R148: past n skipped segments the word read is word 0 of the next. -/
theorem scrubTarget_after {s : State} {g : SegNo} {n : Nat} (h1 : 1 ≤ n) (h2 : n < 256)
    (hskip : ∀ m, m < n → skipped (g + Fin.ofNat 256 m) s = true) (h : skipped (g + Fin.ofNat 256 n) s = false)
    (o : Fin 512) : scrubTarget s 256 g o = some (g + Fin.ofNat 256 n, 0) := by
  have walked := scrubTarget_walks n (256 - n) g o hskip
  rw [Nat.add_sub_of_le (Nat.le_of_lt h2), if_neg (Nat.ne_of_gt h1)] at walked
  exact walked.trans (scrubTarget_first (Nat.sub_pos_of_lt h2) h 0)

/-- R148: with every segment skipped no word is read. -/
theorem scrubTarget_none {s : State} (h : ∀ g, skipped g s = true) (g : SegNo) (o : Fin 512) :
    scrubTarget s 256 g o = none :=
  scrubTarget_walks 256 0 g o (fun _ _ => h _)

/-- R135: the scrubber is granted while no requester before it presents. -/
theorem granted_scrubber {m : Integrity} (hb : m.buffer = none) (hr : m.scrub.request = true)
    (hp : ∀ p, m.prefetch = some p → p.presented = false) : granted m = some .scrubber := by
  unfold granted
  simp [prefetch_quiet hp, hb, hr]

theorem execScrubRead_granted {c : ConfigStore} {s : State} (ha : Active s c) (hw : s.mem.scrub.walking = true)
    (hg : granted s.mem = some .scrubber) : exec .scrubRead s = .next (scrubGrant c s) := by
  show execScrubRead s = _
  unfold execScrubRead
  rw [whenConfigured_held ha.1 ha.2, hg, hw]
  rfl

/-- R148: a grant that finds a word reads it and moves on past it. -/
theorem scrubGrant_reads {c : ConfigStore} {g : SegNo} {o : Fin 512} {s : State}
    (h : scrubTarget s 256 s.mem.scrub.seg s.mem.scrub.offset = some (g, o)) :
    ReadDid c .scrub g o.val s (scrubGrant c s)
    ∧ (scrubGrant c s).mem.scrub = { s.mem.scrub with
        timer := scrubInterval c, request := false,
        seg := if o = 511 then g + 1 else g, offset := if o = 511 then 0 else o + 1 } := by
  have did := readWord_did c .scrub g o.val s
  have position : nextPosition g o = (if o = 511 then g + 1 else g, if o = 511 then 0 else o + 1) := by
    unfold nextPosition
    split <;> rfl
  unfold scrubGrant
  rw [h]
  refine ⟨readDid_beside did _ _ _, ?_⟩
  simp only [Scrubber.granted, readWord_scrub, position]

theorem scrubGrant_none {c : ConfigStore} {s : State}
    (h : scrubTarget s 256 s.mem.scrub.seg s.mem.scrub.offset = none) :
    scrubGrant c s = { s with mem := { s.mem with
      scrub := { s.mem.scrub with timer := scrubInterval c, request := false } } } := by
  unfold scrubGrant
  rw [h]
  rfl

/-- Settles O59: the word at the position, the word after n skipped segments, and all segments skipped. -/
theorem scrubReadWalksPastSkippedSegments : Obligations.ScrubReadWalksPastSkippedSegments := by
  intro c s ha hw hr hb hp skip after
  have grant := execScrubRead_granted ha hw (granted_scrubber hb hr hp)
  have passed : ∀ {g}, ¬ skip g → skipped g s = false := fun h =>
    Bool.eq_false_iff.2 (fun hs => h (skipped_iff.1 hs))
  refine ⟨fun h => ⟨_, grant, scrubGrant_reads (scrubTarget_first (by decide) (passed h) _)⟩,
    fun n h1 h2 hskip h => ?_, fun h => ?_⟩
  · have target := scrubTarget_after h1 h2 (fun m hm => skipped_iff.2 (hskip m hm)) (passed h) s.mem.scrub.offset
    obtain ⟨did, moved⟩ := scrubGrant_reads (c := c) target
    exact ⟨_, grant, did, moved⟩
  · rw [grant, scrubGrant_none (scrubTarget_none (fun g => skipped_iff.2 (h g)) _ _)]

/-! ### The write-back (R145) -/

/-- R135: the write-back buffer is granted while the prefetch does not present. -/
theorem granted_writeBack {m : Integrity} {e : WriteBackEntry} (hb : m.buffer = some e)
    (hp : ∀ p, m.prefetch = some p → p.presented = false) : granted m = some .writeBack := by
  unfold granted
  simp [prefetch_quiet hp, hb]

theorem execWriteBack_granted {c : ConfigStore} {e : WriteBackEntry} {s : State} (ha : Active s c)
    (hb : s.mem.buffer = some e) (hp : ∀ p, s.mem.prefetch = some p → p.presented = false) :
    exec .writeBack s = .next (writeBackGrant e s) := by
  show execWriteBack s = _
  unfold execWriteBack
  rw [whenConfigured_held ha.1 ha.2, hb]
  exact congrArg _ (if_pos (granted_writeBack hb hp))

theorem findRecord_isSome {p : Record → Bool} {s : State} :
    (findRecord p s).isSome = true ↔ ∃ i r, s.recs.slots.get i = some r ∧ p r = true := by
  unfold findRecord
  rw [List.find?_isSome]
  constructor
  · rintro ⟨i, _, hi⟩
    obtain ⟨r, hr, hp⟩ := (Option.any_eq_true _ _).1 hi
    exact ⟨i, r, hr, hp⟩
  · rintro ⟨i, r, hr, hp⟩
    exact ⟨i, List.mem_finRange i, by rw [hr]; exact hp⟩

/-- R145: what the check at the grant asks. -/
theorem writeBackStands_iff {e : WriteBackEntry} {s : State} :
    writeBackStands e s = true ↔ (s.header e.seg).generation = e.generation
      ∧ (e.seg ∈ s.pool.history ∨ ∃ i r, s.recs.slots.get i = some r ∧ e.seg ∈ r.chain) := by
  simp [writeBackStands, holderOf, findRecord_isSome]

/-- Settles O60: the entry written, and the entry discarded. -/
theorem writeBackIsCheckedAtItsGrant : Obligations.WriteBackIsCheckedAtItsGrant := by
  intro c e s ha hb hp stands
  have grant := execWriteBack_granted ha hb hp
  unfold writeBackGrant at grant
  refine ⟨fun h => ⟨writeArray s.mem.array e.address (encode e.address e.word), ?_,
    fun hwf _ => ⟨?_, fun a hne => ?_⟩⟩, fun h => ?_⟩
  · rw [grant, if_pos (writeBackStands_iff.2 h)]
  · rw [readArray_writeArray hwf, if_pos rfl]
  · rw [readArray_writeArray hwf, if_neg hne]
  · rw [grant, if_neg (fun hs => h (writeBackStands_iff.1 hs))]

end Sys2Proof.Machine
end

section
/-! The host's commands about the error log, the error counter and retirement (R151, R153, R166, R201). -/

namespace Sys2Proof.Machine

open Sys2Proof.Claims

/-- R201: the thirteen bytes of a log entry, one by one. -/
theorem logBytes_eq (e : LogEntry) :
    logBytes e
      = [(if e.kind = .corrected then 0 else 1), (if e.finder = .hostRead then 0 else 1),
         BitVec.ofNat 8 e.seg.val, (match e.home with | .main => 0 | .spare j => BitVec.ofNat 8 (j.val + 1)),
         BitVec.ofNat 8 (e.offset / 256), BitVec.ofNat 8 e.offset, BitVec.ofNat 8 e.syndrome.toNat,
         (match e.bit with | some p => BitVec.ofNat 8 p | none => 0xFF),
         BitVec.ofNat 8 (e.stamp.epoch.toNat / 256), BitVec.ofNat 8 e.stamp.epoch.toNat,
         BitVec.ofNat 8 (e.stamp.phase.toNat / 256), BitVec.ofNat 8 e.stamp.phase.toNat,
         (if e.stamp.unsynced then 1 else 0)] := by
  unfold logBytes stampBytes bytes2
  simp only [List.cons_append, List.nil_append, List.cons.injEq, and_true]
  refine ⟨?kind, ?finder, rfl, ?home, rfl, rfl, (BitVec.ofNat_toNat 8 e.syndrome).symm, rfl, rfl, rfl, rfl, rfl,
    ?unsynced⟩
  case kind => cases e.kind <;> rfl
  case finder => cases e.finder <;> rfl
  case home => cases e.home <;> rfl
  case unsynced => cases e.stamp.unsynced <;> rfl

theorem length_logBytes (e : LogEntry) : (logBytes e).length = 13 := rfl

/-- R150, R171: the log written as one update of the state; LOG_FULL ends where four entries become fewer. -/
theorem setLog_eq (l : List LogEntry) (s : State) :
    ∃ ev, setLog l s = { s with mem := { s.mem with log := l }, ev := ev }
      ∧ (∀ src : Source, src ≠ .logFull → ev.cell src = s.ev.cell src)
      ∧ (s.mem.log.length = 4 → l.length < 4 → (ev.cell .logFull).state = .quiet) := by
  unfold setLog
  obtain ⟨ev, he, _, hcell, _⟩ := handLevel_ev .logFull (s.mem.log.length == logRoom) (l.length == logRoom)
    { s with mem := { s.mem with log := l } }
  refine ⟨ev, he, hcell, fun full short => ?_⟩
  have before : (s.mem.log.length == logRoom) = true := by simp [full, logRoom]
  have after : (l.length == logRoom) = false := by simpa [logRoom] using Nat.ne_of_lt short
  rw [before, after] at he
  have ended := cell_handLevel_end .logFull { s with mem := { s.mem with log := l } }
  rw [he] at ended
  exact ended

theorem peekLogWith_oldest {e : LogEntry} {rest : List LogEntry} {s : State} (h : s.mem.log = e :: rest) :
    peekLogWith s = (s, 0x00 :: logBytes e) := by
  unfold peekLogWith
  rw [h]
  rfl

theorem takeLogWith_oldest {e : LogEntry} {rest : List LogEntry} {s : State} (h : s.mem.log = e :: rest) :
    takeLogWith s = (setLog rest s, 0x00 :: logBytes e) := by
  unfold takeLogWith
  rw [h]
  rfl

theorem logCommands_empty {s : State} (h : s.mem.log = []) :
    peekLogWith s = (s, [0x07]) ∧ takeLogWith s = (s, [0x07]) := by
  unfold peekLogWith takeLogWith
  rw [h]
  exact ⟨rfl, rfl⟩

/-- R195: the end of a transaction leaves the log. -/
theorem csnRise_log {t u : State} (h : exec .csnRise t = .next u) : u.mem.log = t.mem.log := by
  replace h : execCsnRise t = .next u := h
  unfold execCsnRise at h
  injection h with h
  rw [← h]
  split <;> rfl

/-- Settles O20: the empty log, then the oldest entry peeked and taken. -/
theorem logCommandsActOnTheOldestEntry : Obligations.LogCommandsActOnTheOldestEntry := by
  intro s hs
  refine ⟨fun h => ?_, fun e rest h => ?_⟩
  · obtain ⟨peek, take⟩ := logCommands_empty h
    exact ⟨congrArg _ (hostCommand_answered hs peek), congrArg _ (hostCommand_answered hs take)⟩
  · obtain ⟨ev, wrote, cells, ended⟩ := setLog_eq rest s
    have took : exec .takeLog s = .next (answered { s with mem := { s.mem with log := rest }, ev := ev }
        0x31 [] (0x00 :: logBytes e)) :=
      congrArg _ (hostCommand_answered hs (wrote ▸ takeLogWith_oldest h))
    refine ⟨congrArg _ (hostCommand_answered hs (peekLogWith_oldest h)), ev, took, cells, fun hlen => ?_,
      fun t u ht hu => ?_, length_logBytes e, logBytes_eq e⟩
    · exact ended (by rw [h, List.length_cons, hlen]) (by omega)
    · rw [csnRise_log hu]
      injection took.symm.trans ht with ht
      rw [← ht]
      rfl

/-- Settles O21: both answers are the layouts of R153 and R201. -/
theorem healthReadsAnswerCounterAndRemap : Obligations.HealthReadsAnswerCounterAndRemap := by
  intro s hs
  exact ⟨congrArg _ (hostCommand_answered hs rfl), congrArg _ (hostCommand_answered hs rfl)⟩

end Sys2Proof.Machine
end

section
/-! LISTEN entry (R190, R24, R30, R92, R93, R120, R147), and the end of the fill that leads to it (R137). -/

namespace Sys2Proof.Machine

open Sys2Proof.Claims

/-! ### LISTEN entry -/

/-- R190: LISTEN entry up to the writer's take claim. -/
def listenBegun (c : ConfigStore) (fromInit : Bool) (s : State) : State :=
  let u := setRx .recover s
  setStation .listen { u with
    ctl := { u.ctl with entry := entryWait fromInit u.ctl.entry },
    seqr := { divider := some 0, sweep := none, position := 0, samples := [] },
    filter := { accepted := none, last := none, highRun := 0, sampled := true },
    rx := { u.rx with capture := none, width := 0, slotPos := 0, slotsDone := false },
    tb := { u.tb with
      phase := 0, epoch := 0, sync := .seeking, mode := .held, requestMade := false, provisional := false },
    recs := { u.recs with lastReport := none },
    mem := { u.mem with scrub := scrubAtListen c fromInit u.mem.scrub } }

theorem enterListen_takes (c : ConfigStore) (fromInit : Bool) (s : State) :
    enterListen c fromInit s = writerTake (listenBegun c fromInit s) := rfl

/-- R93, R24, R92, R120, R147: what LISTEN entry writes before the take. -/
theorem listenBegun_writes (c : ConfigStore) (fromInit : Bool) (s : State) :
    (listenBegun c fromInit s).ctl = { s.ctl with state := .listen, entry := entryWait fromInit s.ctl.entry }
    ∧ (listenBegun c fromInit s).seqr = { divider := some 0, sweep := none, position := 0, samples := [] }
    ∧ (listenBegun c fromInit s).filter = { accepted := none, last := none, highRun := 0, sampled := true }
    ∧ (listenBegun c fromInit s).rx
        = { s.rx with state := .recover, capture := none, width := 0, slotPos := 0, slotsDone := false }
    ∧ (listenBegun c fromInit s).tb = { s.tb with
        phase := 0, epoch := 0, sync := .seeking, mode := .held, requestMade := false, provisional := false }
    ∧ (listenBegun c fromInit s).recs = { s.recs with lastReport := none }
    ∧ (listenBegun c fromInit s).mem = { s.mem with scrub := scrubAtListen c fromInit s.mem.scrub } := by
  simp [listenBegun]

theorem listenBegun_leaves (c : ConfigStore) (fromInit : Bool) (s : State) :
    (listenBegun c fromInit s).pool = s.pool ∧ (listenBegun c fromInit s).writer = s.writer
    ∧ (listenBegun c fromInit s).dets = s.dets ∧ (listenBegun c fromInit s).trig = s.trig
    ∧ (listenBegun c fromInit s).tx = s.tx ∧ (listenBegun c fromInit s).ret = s.ret
    ∧ (listenBegun c fromInit s).port = s.port ∧ (listenBegun c fromInit s).pins = s.pins
    ∧ (listenBegun c fromInit s).pending = s.pending := by
  simp [listenBegun]

/-- R96, R133: before the take LISTEN entry hands over LINE_STUCK and SYNC_SEEKING alone. -/
theorem listenBegun_events {named : List Source} (hline : .lineStuck ∈ named) (hseek : .syncSeeking ∈ named)
    (c : ConfigStore) (fromInit : Bool) (s : State) : OnlyEvents named s (listenBegun c fromInit s) :=
  onlyEvents_trans (t := setRx .recover s) (onlyEvents_handLevel hline _ _ _) (onlyEvents_handLevel hseek _ _ _)

theorem entryWait_eq (fromInit : Bool) (e : EntryWait) :
    entryWait fromInit e = if fromInit = true ∨ e = .fromInit then .fromInit else .fromHalted := by
  simp [entryWait]

/-- R147: from INIT, S not 0, the scrubber begins to walk. -/
theorem scrubAtListen_walks {c : ConfigStore} {fromInit : Bool} {b : Scrubber} (hf : fromInit = true)
    (hs : scrubInterval c ≠ 0) :
    scrubAtListen c fromInit b = { b with walking := true, timer := scrubInterval c } :=
  if_pos (by simp [hf, hs])

theorem scrubAtListen_stands {c : ConfigStore} {fromInit : Bool} {b : Scrubber}
    (h : fromInit = false ∨ scrubInterval c = 0) : scrubAtListen c fromInit b = b :=
  if_neg (by obtain h | h := h <;> simp [h])

/-- R8: a take from the free list leaves the withdrawn set and the retirement unit. -/
theorem writerTake_keeps_withdrawn {s : State} (h : s.pool.free ≠ []) :
    (writerTake s).pool.withdrawn = s.pool.withdrawn ∧ (writerTake s).ret = s.ret := by
  obtain ⟨g, rest, hf⟩ := List.exists_cons_of_ne_nil h
  obtain ⟨ev, he, _⟩ := writerTake_head hf
  rw [he]
  exact ⟨rfl, rfl⟩

/-- R190: what LISTEN entry makes of a state. -/
theorem enterListen_entered (c : ConfigStore) (fromInit : Bool) (s : State) :
    ListenEntered c fromInit s (enterListen c fromInit s) := by
  rw [enterListen_takes]
  obtain ⟨ctl, seqr, filter, rx, tb, recs, mem⟩ := listenBegun_writes c fromInit s
  obtain ⟨pool, writer, dets, trig, tx, ret, _, pins, pending⟩ := listenBegun_leaves c fromInit s
  have events := listenBegun_events (named := [.lineStuck, .overrun, .freeLow, .syncSeeking]) (by simp) (by simp)
    c fromInit s
  generalize listenBegun c fromInit s = u at *
  obtain ⟨tctl, ttb, tseqr, trecs, tdets, ttrig, tfilter, trx, ttx, tmem, _, tpins, tpending⟩ := writerTake_frame u
  have discarded : u.writer.discarded = s.writer.discarded := congrArg Writer.discarded writer
  unfold ListenEntered
  rw [tctl, ttb, tseqr, trecs, tdets, ttrig, tfilter, trx, ttx, tmem, tpins, tpending, ctl, seqr, filter, rx, tb, recs,
    mem]
  refine ⟨rfl, rfl, rfl, entryWait_eq _ _, rfl, rfl, rfl, rfl, rfl, rfl, rfl, rfl, scrubAtListen_walks,
    scrubAtListen_stands, tookHead_congr pool discarded (writerTake_tookHead u),
    writerTake_refused_of pool discarded, rfl, rfl, rfl, dets, trig, tx, pins, rfl, rfl, rfl, pending, fun h => ?_⟩
  rw [← pool] at h
  obtain ⟨withdrawn, spares⟩ := writerTake_keeps_withdrawn h
  exact ⟨by rw [withdrawn, pool], by rw [spares, ret],
    onlyEvents_trans events (writerTake_events (by simp) (by simp) h)⟩

/-! ### The fill (R137, R189) -/

/-- R137, R186: the fill's last word comes when its core clocks have passed. -/
theorem fillDue_init {k done : Nat} {s : State} (hk : s.tb.prescale = some k) (hst : s.ctl.state = .init)
    (hf : s.mem.fill = some done) :
    fillDue s = some (ticksFor k s.tb.nextPrescale (arrayWords - done)) := by
  unfold fillDue
  rw [hst, hf, hk]

theorem execFillComplete_due {c : ConfigStore} {wait : Nat} {s : State} (ha : Active s c)
    (h : fillDue s = some wait) : exec .fillComplete s = .next (finishFill c (s.elapse wait)) := by
  show execFillComplete s = _
  unfold execFillComplete
  rw [whenConfigured_held ha.1 ha.2, atTime_some h]

/-- The array and the fill's progress have no part in LISTEN entry. -/
theorem finishFill_entered (c : ConfigStore) (s : State) : ListenEntered c true s (finishFill c s) :=
  enterListen_entered c true { s with mem := { s.mem with array := [], fill := none } }

/-- R137: the fill is over, and the array lists nothing. -/
theorem finishFill_mem (c : ConfigStore) (s : State) :
    (finishFill c s).mem.fill = none ∧ (finishFill c s).mem.array = [] := by
  obtain ⟨_, _, _, _, _, _, mem⟩ :=
    listenBegun_writes c true { s with mem := { s.mem with array := [], fill := none } }
  unfold finishFill
  rw [enterListen_takes]
  simp [mem]

/-- Settles O29: the row at its time, LISTEN entry, and an array that lists nothing. -/
theorem fillCompleteEntersListen : Obligations.FillCompleteEntersListen := by
  intro c k done s ha hk hst hf
  refine ⟨ticksFor k s.tb.nextPrescale (135168 - done), fun n => ticksFor_le, _,
    execFillComplete_due ha (fillDue_init hk hst hf), finishFill_entered c _, ?_⟩
  obtain ⟨filled, array⟩ := finishFill_mem c (s.elapse (ticksFor k s.tb.nextPrescale (arrayWords - done)))
  exact ⟨filled, fun a => congrArg (readArray · a) array⟩

end Sys2Proof.Machine
end

section
/-! A segment's entry into the free list through the retirement check (R160 to R163): a spare given, or the segment
withdrawn. -/

namespace Sys2Proof.Machine

open Sys2Proof.Claims

/-! ### A spare given (R161, R162) -/

/-- R21: the free list replaced; FREE_LOW alone may follow. -/
theorem setFree_ev (f : List SegNo) (s : State) :
    ∃ ev, setFree f s = { s with pool := { s.pool with free := f }, ev := ev }
      ∧ ∀ src : Source, src ≠ .freeLow → ev.cell src = s.ev.cell src := by
  obtain ⟨ev, replaced, _, cells, _⟩ := handLevel_ev .freeLow (freeLowHolds s.ctl.config s.pool.free)
    (freeLowHolds s.ctl.config f) { s with pool := { s.pool with free := f } }
  exact ⟨ev, replaced, cells⟩

/-- R161: a main segment's retirement maps the spare and adds the segment's entry at the end. -/
theorem retireTo_ret_main {g : SegNo} {s : State} (h : (s.header g).home = .main) (j : SpareNo) :
    (retireTo g j s).ret = { spares := s.ret.spares.set j .mapped,
                             remap := s.ret.remap ++ [{ seg := g, spare := j, moves := 1 }] } := by
  unfold retireTo
  dsimp only
  rw [h]
  rfl

/-- R162: a second retirement leaves the old spare DEAD and rewrites the segment's entry in its place. -/
theorem retireTo_ret_spare {g : SegNo} {i : SpareNo} {s : State} (h : (s.header g).home = .spare i) (j : SpareNo) :
    (retireTo g j s).ret = { spares := (s.ret.spares.set i .dead).set j .mapped,
                             remap := s.ret.remap.map (rewriteEntry g j) } := by
  unfold retireTo
  dsimp only
  rw [h]
  rfl

/-- R161, R162: from either home a retired segment enters the free list tail with its new header; the retirement unit
stands as `retireTo` leaves it. -/
theorem enterFree_retired {g : SegNo} {j : SpareNo} {s : State} (hp : (s.header g).retirePending = true)
    (hj : s.ret.spares.get j = .unused) (hlow : ∀ i : SpareNo, i < j → s.ret.spares.get i ≠ .unused) :
    ∃ ev, enterFree g s = { s with
        ret := (retireTo g j s).ret,
        pool := { s.pool with
          free := s.pool.free ++ [g],
          headers := s.pool.headers.set g
            { s.header g with home := .spare j, tally := 0, retirePending := false } },
        ev := ev }
      ∧ ∀ src : Source, src ≠ .freeLow → ev.cell src = s.ev.cell src := by
  obtain ⟨ev, entered, cells⟩ := setFree_ev ((retireTo g j s).pool.free ++ [g]) (retireTo g j s)
  refine ⟨ev, ?_, cells⟩
  unfold enterFree
  rw [retireCheck_retired hp hj hlow]
  exact entered

/-- Settles O32: `enterFree_retired`, with what `retireTo` makes of the retirement unit from each home. -/
theorem retirementGivesTheLowestUnusedSpare : Obligations.RetirementGivesTheLowestUnusedSpare := by
  intro g j s hp hj hlow
  obtain ⟨ev, entered, cells⟩ := enterFree_retired hp hj hlow
  refine ⟨fun hmain => ⟨ev, ?_, cells⟩, fun i hspare mapped => ⟨?_, ev, ?_, cells⟩⟩
  · rw [entered, retireTo_ret_main hmain]
  · rintro rfl
    exact nomatch hj.symm.trans mapped
  · rw [entered, retireTo_ret_spare hspare]
    rfl

/-! ### A withdrawal (R163) -/

/-- R163: a segment that fails the check does not enter the free list. -/
theorem enterFree_withdrawn {g : SegNo} {s : State} (hp : (s.header g).retirePending = true)
    (hn : ∀ j : SpareNo, s.ret.spares.get j ≠ .unused) : enterFree g s = withdraw g s := by
  unfold enterFree
  rw [retireCheck_withdrawn hp hn]
  rfl

/-- R163: a main segment's withdrawal leaves the retirement unit. -/
theorem withdraw_main {g : SegNo} {s : State} (h : (s.header g).home = .main) :
    withdraw g s = { s with
      pool := { s.pool with withdrawn := s.pool.withdrawn ++ [g] }, ev := (withdraw g s).ev } := by
  unfold withdraw
  rw [h]
  rfl

/-- R163: a withdrawal from a spare leaves the spare DEAD and removes the segment's entry. -/
theorem withdraw_spare {g : SegNo} {i : SpareNo} {s : State} (h : (s.header g).home = .spare i) :
    withdraw g s = { s with
      pool := { s.pool with withdrawn := s.pool.withdrawn ++ [g] }, ev := (withdraw g s).ev,
      ret := { spares := s.ret.spares.set i .dead, remap := s.ret.remap.filter (fun e => e.seg != g) } } := by
  unfold withdraw
  rw [h]
  rfl

/-- R163: a withdrawal raises SPARE_EXHAUSTED once and touches nothing else of the event unit. -/
theorem withdraw_ev (g : SegNo) (s : State) :
    (withdraw g s).ev.cell .spareExhausted = raisedOnce s.ev .spareExhausted
    ∧ (∀ src : Source, src ≠ .spareExhausted → (withdraw g s).ev.cell src = s.ev.cell src)
    ∧ (withdraw g s).ev.mask = s.ev.mask :=
  ⟨cell_raise_same _ _, fun _ h => cell_raise_other h _, rfl⟩

/-- Settles O33: the check ends in `withdraw`, one case per home. -/
theorem withdrawalTakesASegmentOutOfService : Obligations.WithdrawalTakesASegmentOutOfService := by
  intro g s hp hn
  rw [enterFree_withdrawn hp hn]
  refine ⟨(withdraw g s).ev, withdraw_main, fun i hspare => ?_, withdraw_ev g s⟩
  have kept : (fun e : RemapEntry => decide (e.seg ≠ g)) = fun e => e.seg != g := funext fun _ => decide_not
  rw [kept]
  exact withdraw_spare hspare

end Sys2Proof.Machine
end

section
/-! Every row of the machine, and the clock of an empty queue, keeps `Safe`: the canonical array, the bounds of the log
and the counts, and the level sources true to their conditions (R171, R150, R153, R29, R93, R103). The shared operations
keep it by the lemmas of Laws/Safe and Laws/Station; here they are put together row by row. -/

namespace Sys2Proof.Machine

/-! ### What `Safe` says of single blocks -/

theorem Safe.memory {s : State} (h : Safe s) : memorySafe s.mem := h.1

theorem Safe.log_le {s : State} (h : Safe s) : s.mem.log.length ≤ logRoom := h.2.1.1

theorem Safe.errorCount_le {s : State} (h : Safe s) : s.mem.errorCount ≤ 65535 := h.2.1.2

theorem Safe.lineErrors_le {s : State} (h : Safe s) : s.rx.lineErrors ≤ 255 := h.2.2.1.2.2.2.2

theorem Safe.events {s : State} (h : Safe s) : eventsSafe s.ev := h.2.2.2.2

/-! ### Blocks written with a condition that stands, or that is handed over (R171) -/

/-- The event unit may be rewritten where each level source stays IDLE, or stays not IDLE (R171). -/
theorem eventUnit_safe {e : EventUnit} {s : State} (he : eventsSafe e)
    (hidle : ∀ src : Source, levelPlace src.place = true →
      ((e.cell src).state == .quiet) = ((s.ev.cell src).state == .quiet))
    (h : Safe s) : Safe { s with ev := e } := by
  obtain ⟨hm, hf, hc, ⟨line, overrun, low, seeking, full⟩, _⟩ := h
  exact ⟨hm, hf, hc, ⟨(hidle _ rfl).trans line, (hidle _ rfl).trans overrun, (hidle _ rfl).trans low,
    (hidle _ rfl).trans seeking, (hidle _ rfl).trans full⟩, he⟩

/-- The block held changes, and FREE_LOW is judged against its threshold (R21, R172). -/
theorem holdConfig_safe (config : Option ConfigStore) {s : State} (h : Safe s) :
    Safe (handLevel .freeLow (freeLowHolds s.ctl.config s.pool.free) (freeLowHolds config s.pool.free)
      { s with ctl := { s.ctl with config := config } }) := by
  obtain ⟨hm, hf, hc, ⟨line, overrun, low, seeking, full⟩, he⟩ := h
  refine ⟨by simpa using hm, by simpa using hf, by simpa [countsSafe] using hc, ⟨?_, ?_, ?_, ?_, ?_⟩,
    eventsSafe_handLevel _ _ _ _ he⟩
  all_goals simp only [handLevel_frame]
  · exact (levelAgrees_handLevel_other _ _ _ _ _ _ (by decide)).2 line
  · exact (levelAgrees_handLevel_other _ _ _ _ _ _ (by decide)).2 overrun
  · exact levelAgrees_handLevel _ _ _ _ low
  · exact (levelAgrees_handLevel_other _ _ _ _ _ _ (by decide)).2 seeking
  · exact (levelAgrees_handLevel_other _ _ _ _ _ _ (by decide)).2 full

/-- The array, the buffer and the counter rewritten, the log as it was (R137, R144, R153). -/
theorem integrity_safe {m : Integrity} {s : State} (hm : memorySafe m) (hlog : m.log = s.mem.log)
    (hcount : m.errorCount ≤ 65535) (h : Safe s) : Safe { s with mem := m } := by
  obtain ⟨_, ⟨hlen, _⟩, hc, ⟨line, overrun, low, seeking, full⟩, he⟩ := h
  exact ⟨hm, ⟨hlog ▸ hlen, hcount⟩, hc, ⟨line, overrun, low, seeking, hlog ▸ full⟩, he⟩

/-! ### Rows by their form -/

/-- Every next state that an outcome answers meets `Safe`. -/
def AnswersSafe (o : Host.Outcome State Fault Refusal) : Prop := ∀ t, o = .next t → Safe t

theorem answersSafe_next {t : State} (h : Safe t) : AnswersSafe (.next t) := by
  rintro _ ⟨⟩
  exact h

/-- A row that needs a configuration. -/
theorem configuredRow_safe {s : State} {f : ConfigStore → State}
    (hf : ∀ c, s.live = true → s.ctl.config = some c → Safe (f c)) (h : Safe s) :
    AnswersSafe (.next (whenConfigured s f)) :=
  answersSafe_next (whenConfigured_safe s f hf h)

/-- A row of the clock, run at its time. -/
theorem clockRow_safe {s : State} {due : ConfigStore → Option Nat} {f : ConfigStore → State → State}
    (hf : ∀ c u, Safe u → Safe (f c u)) (h : Safe s) :
    AnswersSafe (.next (whenConfigured s (fun c => atTime (due c) (f c) s))) :=
  configuredRow_safe (fun c _ _ => atTime_safe _ _ _ (hf c) h) h

/-- A row of the clock that holds pins, giving `u`, only where it can come about. -/
theorem pinnedRow_safe {s u : State} {due : ConfigStore → Option Nat} {f : ConfigStore → State → State}
    (hf : ∀ c v, Safe v → Safe (f c v)) (h : Safe s) (hu : Safe u) :
    AnswersSafe (.next (whenConfigured s (fun c => if (due c).isSome then atTime (due c) (f c) u else s))) := by
  refine configuredRow_safe (fun c _ _ => ?_) h
  split
  · exact atTime_safe _ _ _ (hf c) hu
  · exact h

theorem hostCommand_safe {code : Byte} {args : List Byte} {f : State → State × List Byte} {s : State}
    (hf : Safe (f s).1) (h : Safe s) : Safe (hostCommand code args f s) := by
  unfold hostCommand
  split
  · exact hf
  · exact h

/-- A host command whose effect keeps `Safe`. -/
theorem hostRow_safe {code : Byte} {args : List Byte} {f : State → State × List Byte} {s : State}
    (hf : Safe (f s).1) (h : Safe s) : AnswersSafe (.next (hostCommand code args f s)) :=
  answersSafe_next (hostCommand_safe hf h)

/-- A command on a slot keeps `Safe` when its effect does. -/
theorem withSlot_safe {slot : Byte} {s : State} {f : SlotNo → Option Record → State × List Byte}
    (hf : ∀ i r, Safe (f i r).1) (h : Safe s) : Safe (withSlot slot s f).1 := by
  unfold withSlot
  split
  · exact hf _ _
  · exact h

/-! ### The configuration block (R186) -/

/-- R173: an accepted block rewrites levels and the mask; every source's state and count stand. -/
theorem cell_configured (e : EventUnit) (level : Fin 14 → Nat) (mask : Nat) (i : Fin 14) :
    ((e.configured level mask).cells.get i).state = (e.cells.get i).state
    ∧ ((e.configured level mask).cells.get i).count = (e.cells.get i).count := by
  unfold EventUnit.configured
  rw [get_ofFn]
  split <;> exact ⟨rfl, rfl⟩

/-- R173: no source's state or count changes, so a mask level alone is asked of an accepted block. -/
theorem configured_safe (level : Fin 14 → Nat) {mask : Nat} {s : State} (hmask : mask ≤ 3) (h : Safe s) :
    Safe { s with ev := s.ev.configured level mask } := by
  refine eventUnit_safe ⟨hmask, fun i => ?_⟩ (fun src _ => ?_) h
  · rw [(cell_configured s.ev level mask i).2]
    exact h.events.2 i
  · exact congrArg (· == SourceState.quiet) (cell_configured s.ev level mask src.place).1

/-- R186: the mask is in its range, and FREE_LOW is judged by the new threshold. -/
theorem acceptBlock_safe {vals : List (BitVec 16)} {s : State} (haccepted : firstFailing vals = none) (h : Safe s) :
    Safe (acceptBlock vals s) := by
  have hmask : fieldAt vals 83 ≤ 3 :=
    Nat.le_trans (Nat.le_of_eq (field_storeOf vals (i := 83) (by decide) (by decide)).symm)
      (health_accepted haccepted).1
  have stands : (takeDivisor (fieldAt vals 1) s.tb).sync = s.tb.sync := (takeDivisor_frame _ _).2.2.2.1
  have levelled := configured_safe (fun i => fieldAt vals (69 + i.val)) hmask (timebaseSync_safe s _ stands h)
  have counted : Safe { s with
      ctl := { s.ctl with blocks := s.ctl.blocks + 1 },
      ev := s.ev.configured (fun i => fieldAt vals (69 + i.val)) (fieldAt vals 83),
      tb := takeDivisor (fieldAt vals 1) s.tb } := levelled
  unfold acceptBlock
  exact setStation_safe _ _ (holdConfig_safe (some (storeOf vals)) counted)

theorem configureWith_safe {args : List Byte} {s : State} (h : Safe s) : Safe (configureWith args s).1 := by
  unfold configureWith
  split
  next =>
    dsimp only
    split
    next => exact h
    next haccepted => exact acceptBlock_safe haccepted h
  next => exact h

theorem execConfigure_safe {block : List Byte} {s : State} (h : Safe s) : AnswersSafe (execConfigure block s) := by
  refine answersSafe_next ?_
  split
  · exact h
  · exact hostCommand_safe (configureWith_safe h) h

/-! ### The other host commands -/

/-- R189, R192: neither CONFIGURED nor HALTED is RUNNING, so LISTEN entry may set the sync state. -/
theorem startWith_safe {s : State} (h : Safe s) : Safe (startWith s).1 := by
  unfold startWith
  split
  next => exact setStation_safe _ _ h
  next hst _ =>
    split
    · exact enterListen_safe _ _ _ (by simp [hst]) h
    · exact h
  next => exact h

theorem stopWith_safe {s : State} (h : Safe s) : Safe (stopWith s).1 := by
  unfold stopWith
  repeat' split
  · exact enterHalted_safe _ _ h
  · exact h
  · exact h

theorem readRecordWith_safe {slot : Byte} {s : State} (h : Safe s) : Safe (readRecordWith slot s).1 := by
  refine withSlot_safe (fun i r => ?_) h
  cases r <;> exact h

theorem readDataWith_safe {slot index : Byte} {offset count : BitVec 16} {s : State} (h : Safe s) :
    Safe (readDataWith slot index offset count s).1 := by
  refine withSlot_safe (fun i r => ?_) h
  repeat' split
  all_goals exact h

theorem releaseWith_safe {slot : Byte} {s : State} (h : Safe s) : Safe (releaseWith slot s).1 := by
  refine withSlot_safe (fun i r => ?_) h
  repeat' split
  · exact h
  · exact h
  · exact serveOutstanding_safe _ (returnAll_safe _ _ (setSlot_safe _ _ _ h))

theorem softTriggerWith_safe {s : State} (h : Safe s) : Safe (softTriggerWith s).1 := by
  unfold softTriggerWith
  repeat' split
  · exact offer_safe _ _ _ _ h
  · exact h
  · exact h

theorem peekLogWith_safe {s : State} (h : Safe s) : Safe (peekLogWith s).1 := by
  unfold peekLogWith
  split <;> exact h

/-- R151: a log shorter by its oldest entry holds the bound. -/
theorem takeLogWith_safe {s : State} (h : Safe s) : Safe (takeLogWith s).1 := by
  unfold takeLogWith
  split
  next => exact h
  next e rest hlog =>
    refine setLog_safe rest s ?_ h
    have hlen := h.log_le
    rw [hlog, List.length_cons] at hlen
    exact Nat.le_of_succ_le hlen

/-- R153: the counter zeroed. -/
theorem errorCountZeroed_safe {s : State} (h : Safe s) : Safe { s with mem := { s.mem with errorCount := 0 } } :=
  integrity_safe (m := { s.mem with errorCount := 0 }) h.memory rfl (Nat.zero_le _) h

/-- R170, R171: the taken source was PENDING; a level source becomes ACKED, so it is IDLE neither before nor after. -/
theorem nextEventWith_safe {s : State} (h : Safe s) : Safe (nextEventWith s).1 := by
  unfold nextEventWith
  split
  next => exact h
  next i urgent =>
    refine eventUnit_safe (eventsSafe_update _ _ _ (taken_count _) h.events) (fun src level => ?_) h
    unfold EventUnit.cell
    rw [cell_update]
    split
    next here =>
      subst here
      rw [(mostUrgent_some urgent).1, SourceCell.taken, level]
      rfl
    next => rfl

theorem setMaskWith_safe {level : Byte} {s : State} (h : Safe s) : Safe (setMaskWith level s).1 := by
  unfold setMaskWith
  split
  next hlevel => exact eventUnit_safe ⟨hlevel, h.events.2⟩ (fun _ _ => rfl) h
  next => exact h

theorem execBadCommand_safe {code : Byte} {s : State} (h : Safe s) : AnswersSafe (execBadCommand code s) := by
  refine answersSafe_next ?_
  split
  · exact h
  · exact hostCommand_safe h h

theorem execCsnFall_safe {s : State} (h : Safe s) : AnswersSafe (execCsnFall s) := by
  refine answersSafe_next ?_
  repeat' split
  all_goals exact h

theorem execCsnRise_safe {s : State} (h : Safe s) : AnswersSafe (execCsnRise s) := by
  refine answersSafe_next ?_
  split <;> exact h

/-! ### The station controller -/

/-- R187: an upset may move the threshold of FREE_LOW, which is judged again. -/
theorem upsetStore_safe {c : ConfigStore} (d : ConfigStore) {s : State} (hc : s.ctl.config = some c) (h : Safe s) :
    Safe (upsetStore c d s) := by
  unfold upsetStore
  rw [← hc]
  exact holdConfig_safe (some d) h

theorem execParityMismatch_safe {field : StoredField} {upset : BitVec 16} {s : State} (h : Safe s) :
    AnswersSafe (execParityMismatch field upset s) := by
  refine configuredRow_safe (fun c _ hc => ?_) h
  dsimp only
  split
  · exact enterFault_safe _ _ (upsetStore_safe _ hc h)
  · exact h

/-- R137: the filled array lists nothing, and INIT is not RUNNING. -/
theorem finishFill_safe {c : ConfigStore} {s : State} (hst : s.ctl.state = .init) (h : Safe s) :
    Safe (finishFill c s) := by
  refine enterListen_safe c true _ (by simp [hst]) ?_
  exact integrity_safe (m := { s.mem with array := [], fill := none }) ⟨rfl, h.memory.2⟩ rfl h.errorCount_le h

theorem execFillComplete_safe {s : State} (h : Safe s) : AnswersSafe (execFillComplete s) := by
  refine configuredRow_safe (fun c _ _ => ?_) h
  unfold atTime
  split
  next => exact h
  next wait hdue => exact finishFill_safe (by simpa using state_of_fillDue hdue) (elapse_safe wait s h)

/-! ### Acquisition -/

/-- R31: a frame's words keep the array's canonical form, and its header, position and report are not judged. -/
theorem writeFrame_safe (n : Nat) (g : SegNo) (f : Capture) (words : List Word) {s : State} (h : Safe s) :
    Safe (writeFrame n g f words s) := by
  rw [writeFrame_eq]
  have written := integrity_safe
    (m := { s.mem with array := (storeWords g (s.writer.pos * n) words s).mem.array })
    ⟨storeWords_wf g words _ s h.memory.1, h.memory.2⟩ rfl h.errorCount_le h
  exact written

theorem frameFilling_safe {c : ConfigStore} {g : SegNo} {f : Capture} {words : List Word} {s : State} (h : Safe s) :
    Safe (frameFilling c g f words s) := by
  have written := writeFrame_safe (channels c) g f words h
  unfold frameFilling
  dsimp only
  repeat' split
  · exact recordReport_safe _ _ _ _ _ written
  · exact segmentFull_safe _ _ _ written
  · exact written

/-- R36: the count of discarded frames saturates. -/
theorem discardFrame_safe {s : State} (h : Safe s) : Safe (discardFrame s) := by
  obtain ⟨hm, hf, ⟨_, counts⟩, hl, he⟩ := h
  exact ⟨hm, hf, ⟨satSucc_le, counts⟩, hl, he⟩

theorem writerFrame_safe {c : ConfigStore} {f : Capture} {words : List Word} {s : State} (h : Safe s) :
    Safe (writerFrame c f words s) := by
  unfold writerFrame
  split
  · exact frameFilling_safe h
  · exact h
  · exact discardFrame_safe h
  · exact h

theorem bankFrame_safe {c : ConfigStore} {stamp : Timestamp} {words : List Word} {s : State} (h : Safe s) :
    Safe (bankFrame c stamp words s) := by
  unfold bankFrame
  dsimp only
  split
  · exact h
  · exact offer_safe _ _ _ _ h

theorem finishSweep_safe {c : ConfigStore} {s : State} (h : Safe s) : Safe (finishSweep c s) := by
  unfold finishSweep
  split
  · exact h
  · exact bankFrame_safe (writerFrame_safe h)

theorem acceptTrigIn_safe {c : ConfigStore} {high : Bool} {start : Timestamp} {s : State} (h : Safe s) :
    Safe (acceptTrigIn c high start s) := by
  unfold acceptTrigIn
  dsimp only
  split
  · exact offer_safe _ _ _ _ h
  · exact h

theorem sampleTrigIn_safe {c : ConfigStore} {high : Bool} {s : State} (h : Safe s) : Safe (sampleTrigIn c high s) := by
  unfold sampleTrigIn
  dsimp only
  split
  · exact acceptTrigIn_safe h
  · exact h

/-! ### The line receiver -/

theorem pullLine_safe {s : State} (h : Safe s) : Safe (pullLine s) := by
  unfold pullLine
  split <;> exact h

theorem releaseWhile_safe {wait : Nat} {s : State} (h : Safe s) : Safe (releaseWhile wait s) := by
  unfold releaseWhile
  split <;> exact h

theorem takeLeadingEdge_safe {s : State} (h : Safe s) : Safe (takeLeadingEdge s) := by
  unfold takeLeadingEdge
  split
  · exact h
  · exact setRx_safe _ _ (acceptLevel_safe _ h)

theorem execLeadingEdge_safe {s : State} (h : Safe s) : AnswersSafe (execLeadingEdge s) := by
  refine configuredRow_safe (fun _ _ _ => ?_) h
  split
  · exact takeLeadingEdge_safe (settle_safe _ _ (pullLine_safe h))
  · exact h

/-- The line held low, where a row has to wait, while ticks pass. -/
theorem lowUntil_safe {n wait : Nat} {s : State} (h : Safe s) :
    Safe ((if wait = 0 then s else pullLine s).elapse n) := by
  refine elapse_safe _ _ ?_
  split
  · exact h
  · exact pullLine_safe h

theorem takeTrailingEdge_safe {c : ConfigStore} {s : State} (h : Safe s) : Safe (takeTrailingEdge c s) := by
  unfold takeTrailingEdge
  split
  · exact h
  · exact classifyPulse_safe _ _ _ (acceptLevel_safe _ h)

theorem stuckAtBound_safe {c : ConfigStore} {wait : Nat} {s : State} (h : Safe s) : Safe (stuckAtBound c wait s) :=
  declareStuck_safe _ _ (sampleLine_safe _ (lowUntil_safe h))

/-- R95, R96: the trailing edge of the line held low to the width, or the declaration at the bound. -/
theorem execTrailingEdge_safe {width : Nat} {s : State} (h : Safe s) : AnswersSafe (execTrailingEdge width s) := by
  refine configuredRow_safe (fun c _ _ => ?_) h
  split
  next =>
    have lowered : ∀ wait : Nat, Safe (if wait = 0 then s else (pullLine s).elapse wait) := by
      intro wait
      split
      · exact h
      · exact elapse_safe _ _ (pullLine_safe h)
    have settled := settle_safe true _
      (holdLine_safe false _ (lowered (width - ticksSince s.tb.localTick s.rx.pulseStart)))
    dsimp only
    generalize settle true _ = u at settled ⊢
    repeat' split
    · exact stuckAtBound_safe h
    · exact takeTrailingEdge_safe settled
    · exact h
  next => exact h

theorem judgeStuck_safe {c : ConfigStore} {s : State} (h : Safe s) : Safe (judgeStuck c s) := by
  unfold judgeStuck
  dsimp only
  split
  · exact sampleLine_safe _ h
  · exact declareStuck_safe _ _ (sampleLine_safe _ h)

theorem execLineStuckDeclare_safe {s : State} (h : Safe s) : AnswersSafe (execLineStuckDeclare s) := by
  refine configuredRow_safe (fun c _ _ => ?_) h
  split
  · exact h
  · exact judgeStuck_safe (lowUntil_safe h)

theorem execStuckRelease_safe {s : State} (h : Safe s) : AnswersSafe (execStuckRelease s) := by
  refine configuredRow_safe (fun _ _ _ => ?_) h
  split
  · exact setRx_safe _ _ (acceptLevel_safe _ (settle_safe _ _ (holdLine_safe _ _ h)))
  · exact h

theorem awaitHigh_safe {s : State} (h : Safe s) : Safe (awaitHigh s) := by
  unfold awaitHigh
  split
  · exact h
  · exact acceptLevel_safe _ (settle_safe _ _ (holdLine_safe _ _ h))

/-- R190: RUNNING is entered from LISTEN alone, so its entry may set the sync state. -/
theorem finishRecover_safe {c : ConfigStore} {s : State} (h : Safe s) : Safe (finishRecover c s) := by
  have idled := setRx_safe .idle s h
  unfold finishRecover
  dsimp only
  split
  next hst => exact enterRunning_safe _ _ (by rw [hst]; decide) idled
  next => exact idled

theorem execRecoverComplete_safe {s : State} (h : Safe s) : AnswersSafe (execRecoverComplete s) := by
  refine configuredRow_safe (fun c _ _ => ?_) h
  dsimp only
  repeat' split
  · exact h
  · exact finishRecover_safe (elapse_safe _ _ (releaseWhile_safe (awaitHigh_safe h)))
  · exact h

theorem execRecoverCountRestart_safe {s : State} (h : Safe s) : AnswersSafe (execRecoverCountRestart s) := by
  refine configuredRow_safe (fun _ _ _ => ?_) h
  split
  · exact holdLine_safe _ _ (acceptLevel_safe _ (settle_safe _ _ (pullLine_safe h)))
  · exact h

/-- A slot's sampling moves the slot position and leaves the receiver's state and count of line errors. -/
theorem pastSlot_keeps (last : Nat) (r : Receiver) :
    (r.pastSlot last).state = r.state ∧ (r.pastSlot last).lineErrors = r.lineErrors := by
  unfold Receiver.pastSlot
  split <;> exact ⟨rfl, rfl⟩

theorem sampleTagSlot_safe {s : State} (h : Safe s) : Safe (sampleTagSlot s) :=
  have kept := pastSlot_keeps 31 s.rx
  lineErrors_safe s h _ kept.1 (Nat.le_trans (Nat.le_of_eq kept.2) h.lineErrors_le)

theorem sampleNumberSlot_safe {s : State} (h : Safe s) : Safe (sampleNumberSlot s) :=
  have kept := pastSlot_keeps 15 s.rx
  lineErrors_safe s h _ kept.1 (Nat.le_trans (Nat.le_of_eq kept.2) h.lineErrors_le)

/-! ### The line transmitter -/

theorem execDriveStart_safe {s : State} (h : Safe s) : AnswersSafe (execDriveStart s) := by
  refine configuredRow_safe (fun c _ _ => ?_) h
  split
  next => exact h
  next wait _ =>
    have waited := elapse_safe wait _ (releaseWhile_safe (wait := wait) h)
    exact waited

theorem driveNumberBit_safe {c : ConfigStore} {s : State} (h : Safe s) : Safe (driveNumberBit c s) := by
  unfold driveNumberBit
  repeat' split
  all_goals exact h

/-! ### The memory port -/

theorem execPrefetchRead_safe {s : State} (h : Safe s) : AnswersSafe (execPrefetchRead s) := by
  refine configuredRow_safe (fun c _ _ => ?_) h
  repeat' split
  next => exact h
  next p _ _ =>
    have read := readWord_safe c .hostRead p.seg p.offset s h
    exact read
  next => exact h

theorem scrubGrant_safe {c : ConfigStore} {s : State} (h : Safe s) : Safe (scrubGrant c s) := by
  unfold scrubGrant
  dsimp only
  split
  next => exact h
  next g o _ =>
    have read := readWord_safe c .scrub g o.val s h
    exact read

theorem execScrubRead_safe {s : State} (h : Safe s) : AnswersSafe (execScrubRead s) := by
  refine configuredRow_safe (fun c _ _ => ?_) h
  split
  · exact scrubGrant_safe h
  · exact h

/-- R145: the entry's address lies in the array, so its write keeps the canonical form; the buffer is EMPTY. -/
theorem writeBackGrant_safe {e : WriteBackEntry} {s : State} (hheld : s.mem.buffer = some e) (h : Safe s) :
    Safe (writeBackGrant e s) := by
  refine integrity_safe (s := s) ⟨?_, fun _ hb => nomatch hb⟩ rfl h.errorCount_le h
  dsimp only
  split
  · exact wf_writeArray h.memory.1 (h.memory.2 e hheld)
  · exact h.memory.1

theorem execWriteBack_safe {s : State} (h : Safe s) : AnswersSafe (execWriteBack s) := by
  refine configuredRow_safe (fun _ _ _ => ?_) h
  split
  next => exact h
  next hheld =>
    split
    · exact writeBackGrant_safe hheld h
    · exact h

/-! ### Every row, and the clock -/

/-- Every row keeps `Safe`. -/
theorem exec_safe (i : Instr) {s : State} (h : Safe s) : AnswersSafe (exec i s) := by
  cases i with
  | status => exact hostRow_safe h h
  | configure block => exact execConfigure_safe h
  | start => exact hostRow_safe (startWith_safe h) h
  | stop => exact hostRow_safe (stopWith_safe h) h
  | reset => exact hostRow_safe (softReset_safe _ h) h
  | listRecords => exact hostRow_safe h h
  | readRecord slot => exact hostRow_safe (readRecordWith_safe h) h
  | readData slot chainIndex offset count => exact hostRow_safe (readDataWith_safe h) h
  | release slot => exact hostRow_safe (releaseWith_safe h) h
  | softTrigger => exact hostRow_safe (softTriggerWith_safe h) h
  | peekLog => exact hostRow_safe (peekLogWith_safe h) h
  | takeLog => exact hostRow_safe (takeLogWith_safe h) h
  | readErrorCount => exact hostRow_safe (errorCountZeroed_safe h) h
  | readRemap => exact hostRow_safe h h
  | nextEvent => exact hostRow_safe (nextEventWith_safe h) h
  | setMask level => exact hostRow_safe (setMaskWith_safe h) h
  | badCommand code => exact execBadCommand_safe h
  | csnRise => exact execCsnRise_safe h
  | powerOnReset straps => exact answersSafe_next (powerOn_safe _ _ _ h)
  | pinReset straps => exact answersSafe_next (powerOn_safe _ _ _ h)
  | parityMismatch field upset => exact execParityMismatch_safe h
  | fillComplete => exact execFillComplete_safe h
  | sweepStart => exact clockRow_safe (f := startSweep) (fun _ _ hu => hu) h
  | frameComplete inputs => exact pinnedRow_safe (fun _ _ => finishSweep_safe) h (holdInputs_safe _ _ h)
  | trigInSample high => exact clockRow_safe (fun _ _ => sampleTrigIn_safe) h
  | leadingEdge => exact execLeadingEdge_safe h
  | trailingEdge width => exact execTrailingEdge_safe h
  | tagSlotSample peersLow =>
    exact pinnedRow_safe (f := fun _ => sampleTagSlot) (fun _ _ => sampleTagSlot_safe) h (holdLine_safe _ _ h)
  | tagWindowEnd peersLow => exact pinnedRow_safe (fun c u => endTagWindow_safe c u) h (holdLine_safe _ _ h)
  | holdoffExpire => exact clockRow_safe (f := fun _ => id) (fun _ _ hu => hu) h
  | numberSlotSample peersLow =>
    exact pinnedRow_safe (f := fun _ => sampleNumberSlot) (fun _ _ => sampleNumberSlot_safe) h (holdLine_safe _ _ h)
  | numberWindowEnd peersLow =>
    exact pinnedRow_safe (f := fun _ => endNumberWindow) (fun _ => endNumberWindow_safe) h (holdLine_safe _ _ h)
  | lineStuckDeclare => exact execLineStuckDeclare_safe h
  | stuckRelease => exact execStuckRelease_safe h
  | recoverComplete => exact execRecoverComplete_safe h
  | driveStart => exact execDriveStart_safe h
  | driveEnd => exact clockRow_safe (f := fun _ => releaseDrive) (fun _ _ hu => hu) h
  | slotDutyDrive => exact clockRow_safe (fun _ u hu => show Safe u from hu) h
  | numberBitDrive => exact clockRow_safe (fun _ _ => driveNumberBit_safe) h
  | epochRequest => exact clockRow_safe (f := fun _ => makeEpochRequest) (fun _ _ hu => hu) h
  | localEpoch => exact clockRow_safe (f := fun _ => id) (fun _ _ hu => hu) h
  | prefetchRead => exact execPrefetchRead_safe h
  | scrubRequest => exact clockRow_safe (f := fun _ => presentScrub) (fun _ _ hu => hu) h
  | scrubRead => exact execScrubRead_safe h
  | writeBack => exact execWriteBack_safe h
  | csnFall => exact execCsnFall_safe h
  | rstnLow => exact answersSafe_next (powerOn_safe _ _ _ h)
  | recoverCountRestart => exact execRecoverCountRestart_safe h

theorem timePasses_safe {s : State} (h : Safe s) : Safe (timePasses s) := by
  unfold timePasses
  repeat' split
  · exact sampleLine_safe _ h
  · exact countTick_safe _ h
  · exact h

/-- A step on an empty queue: a row joins the queue, a bit is clocked in, or time passes. -/
theorem idle_safe {s : State} (h : Safe s) : Safe (idle s) := by
  unfold idle
  repeat' split
  · exact h
  · exact clockBit_safe _ _ h
  · exact timePasses_safe h

/-- Settles O6: the front command's row or the clock keeps `Safe`. -/
theorem everyStepKeepsTheStationSafe : Obligations.EveryStepKeepsTheStationSafe := by
  intro s t h e
  unfold step at e
  split at e
  next c rest _ =>
    have queued : Safe { s with pending := rest } := h
    exact exec_safe c queued t e
  next => exact answersSafe_next (idle_safe h) t e

end Sys2Proof.Machine
end

section
/-! The host's commands of the event unit: NEXT EVENT's choice and take (R170, R171, R176), SET MASK (R174), and IRQN
(R175). -/

namespace Sys2Proof.Machine

open Sys2Proof.Claims

/-! ### NEXT EVENT (R176) -/

/-- R176: no source goes before i where none has a higher level, nor the same level and a lower order. -/
theorem moreUrgent_eq_false {e : EventUnit} {i j : Fin 14} :
    moreUrgent e j i = false
      ↔ (e.cells.get j).level ≤ (e.cells.get i).level
        ∧ ((e.cells.get j).level = (e.cells.get i).level → i ≤ j) := by
  rw [eq_comm (a := (e.cells.get j).level)]
  simp only [moreUrgent, Bool.or_eq_false_iff, decide_eq_false_iff_not, Nat.not_lt, Bool.and_eq_false_imp, beq_iff_eq,
    Fin.not_lt]

/-- R169: the orders of the level sources. -/
theorem levelPlace_iff (i : Fin 14) : levelPlace i = true ↔ i.val + 1 ∈ [2, 7, 8, 12, 13] := by
  revert i
  decide

/-- R170, R171: what is left of a taken source. -/
theorem taken_eq (i : Fin 14) (cell : SourceCell) :
    cell.taken (levelPlace i)
      = { level := cell.level, count := 0, state := if i.val + 1 ∈ [2, 7, 8, 12, 13] then .acked else .quiet } := by
  simp only [SourceCell.taken, levelPlace_iff]

/-- R176: nothing is taken where nothing is PENDING. -/
theorem nextEventWith_none {s : State} (h : s.ev.mostUrgent = none) : nextEventWith s = (s, [0x00, 0, 0, 0]) := by
  unfold nextEventWith
  rw [h]
  rfl

/-- R176: the selected source is answered and taken. -/
theorem nextEventWith_some {s : State} {i : Fin 14} (h : s.ev.mostUrgent = some i) :
    nextEventWith s
      = ({ s with ev := s.ev.update i (SourceCell.taken (levelPlace i)) },
         [0x00, byte (i.val + 1), byte (s.ev.cells.get i).level, byte (s.ev.cells.get i).count]) := by
  unfold nextEventWith
  rw [h]
  rfl

/-- Settles O22: the two answers of the choice, each with what it says of the PENDING sources. -/
theorem nextEventTakesTheMostUrgentSource : Obligations.NextEventTakesTheMostUrgentSource := by
  intro s hs
  cases urgent : s.ev.mostUrgent with
  | none =>
    refine ⟨fun _ => congrArg _ (hostCommand_answered hs (nextEventWith_none urgent)), fun ⟨i, hi⟩ => ?_⟩
    exact absurd hi (mostUrgent_none urgent i)
  | some i =>
    obtain ⟨hpending, hfirst⟩ := mostUrgent_some urgent
    refine ⟨fun hnone => absurd hpending (hnone i), fun _ => ⟨i, hpending, fun j hj => ?_, ?_⟩⟩
    · exact moreUrgent_eq_false.1 (hfirst j hj)
    · dsimp only
      rw [← taken_eq]
      exact congrArg _ (hostCommand_answered hs (nextEventWith_some urgent))

/-! ### SET MASK and IRQN (R174, R175) -/

theorem setMaskWith_level {level : Byte} {s : State} (h : level.toNat ≤ 3) :
    setMaskWith level s = ({ s with ev := { s.ev with mask := level.toNat } }, [0x00]) :=
  if_pos h

theorem setMaskWith_above {level : Byte} {s : State} (h : 3 < level.toNat) : setMaskWith level s = (s, [0x04]) :=
  if_neg (Nat.not_le_of_lt h)

/-- R175: when IRQN is low. -/
theorem irqnLow_iff (s : State) :
    s.irqnLow = true ↔ s.pins.rstnLow = false
      ∧ ∃ i : Fin 14, (s.ev.cells.get i).state = .pending ∧ s.ev.mask ≤ (s.ev.cells.get i).level := by
  simp [State.irqnLow]

/-- Settles O23: the accepted level, the refused one, and IRQN. -/
theorem setMaskSetsTheMaskLevel : Obligations.SetMaskSetsTheMaskLevel :=
  ⟨fun _ _ hs => ⟨fun hlevel => congrArg _ (hostCommand_answered hs (setMaskWith_level hlevel)),
      fun habove => congrArg _ (hostCommand_answered hs (setMaskWith_above habove))⟩,
    irqnLow_iff⟩

end Sys2Proof.Machine
end

section
/-! The resets of the whole station (R182, R183): the reset state that POWER_ON_RESET and PIN_RESET leave, the rows that
a held RSTN shuts out, and what RESET keeps. -/

namespace Sys2Proof.Machine

open Sys2Proof.Claims

/-! ### Power-on and pin reset -/

/-- R137: the array where a fill in progress is abandoned. -/
theorem fillAbandoned_abandonFill (m : Integrity) : FillAbandoned m (abandonFill m).array :=
  ⟨rfl, fun h => congrArg Integrity.array (abandonFill_none h), fun _ h hw a => readArray_abandonFill h hw a⟩

/-- R182, R181: a power-on that reads the straps leaves the reset state, RSTN as the pins then show it. -/
theorem powerOn_poweredOn (straps : BitVec 5) (rstnLow : Bool) (s : State) :
    powerOn { s.pins with rstnLow := rstnLow, straps := straps } straps s
      = poweredOn straps (abandonFill s.mem).array rstnLow s :=
  rfl

/-- Settles O8: both rows complete a power-on; the pins they leave differ in RSTN alone. -/
theorem powerOnAndPinResetLeaveTheResetState : Obligations.PowerOnAndPinResetLeaveTheResetState := fun straps s =>
  ⟨_, fillAbandoned_abandonFill s.mem, congrArg Host.Outcome.next (powerOn_poweredOn straps s.pins.rstnLow s),
    congrArg Host.Outcome.next (powerOn_poweredOn straps false s)⟩

/-! ### RSTN held low (R182) -/

theorem live_in_reset {s : State} (h : s.pins.rstnLow = true) : s.live = false := by
  unfold State.live
  rw [h]
  rfl

theorem hostCommand_in_reset {s : State} (h : s.pins.rstnLow = true) (code : Byte) (args : List Byte)
    (f : State → State × List Byte) : hostCommand code args f s = s := by
  unfold hostCommand
  rw [live_in_reset h]
  rfl

theorem whenConfigured_in_reset {s : State} (h : s.pins.rstnLow = true) (f : ConfigStore → State) :
    whenConfigured s f = s := by
  unfold whenConfigured
  rw [live_in_reset h]
  rfl

/-- R182: a row of the clock does not come about in a held reset. -/
theorem configuredRow_in_reset {s : State} (h : s.pins.rstnLow = true) (f : ConfigStore → State) :
    (.next (whenConfigured s f) : Host.Outcome State Fault Refusal) = .next s :=
  congrArg _ (whenConfigured_in_reset h f)

/-- R182: the port takes no command in a held reset. -/
theorem hostRow_in_reset {s : State} (h : s.pins.rstnLow = true) (code : Byte) (args : List Byte)
    (f : State → State × List Byte) :
    (.next (hostCommand code args f s) : Host.Outcome State Fault Refusal) = .next s :=
  congrArg _ (hostCommand_in_reset h code args f)

/-- R182: while RSTN is low no row but a reset's and CSN's changes anything. -/
theorem exec_in_reset {i : Instr} {s : State} (h : s.pins.rstnLow = true) (hi : outlastsReset i = false) :
    exec i s = .next s := by
  cases i with
  | powerOnReset _ | pinReset _ | rstnLow | csnFall | csnRise => exact nomatch hi
  | configure block => exact congrArg _ (ite_eq_left_iff.2 fun _ => hostCommand_in_reset h _ _ _)
  | badCommand code => exact congrArg _ (ite_eq_left_iff.2 fun _ => hostCommand_in_reset h _ _ _)
  | status | start | stop | reset | listRecords | readRecord _ | readData _ _ _ _ | release _ | softTrigger | peekLog
  | takeLog | readErrorCount | readRemap | nextEvent | setMask _ => exact hostRow_in_reset h _ _ _
  | parityMismatch _ _ | fillComplete | sweepStart | frameComplete _ | trigInSample _ | leadingEdge | trailingEdge _
  | tagSlotSample _ | tagWindowEnd _ | holdoffExpire | numberSlotSample _ | numberWindowEnd _ | lineStuckDeclare
  | stuckRelease | recoverComplete | driveStart | driveEnd | slotDutyDrive | numberBitDrive | epochRequest | localEpoch
  | prefetchRead | scrubRequest | scrubRead | writeBack | recoverCountRestart => exact configuredRow_in_reset h _

/-- R175, R194: a held reset has IRQN high and MISO at high impedance. -/
theorem outputs_in_reset {s : State} (h : s.pins.rstnLow = true) : s.irqnLow = false ∧ s.misoByte = none := by
  unfold State.irqnLow State.misoByte State.shifting
  rw [live_in_reset h, h]
  exact ⟨rfl, rfl⟩

/-- Settles O10: RSTN_LOW is a power-on with RSTN low and the straps unread, and RSTN low shuts the other rows out. -/
theorem heldResetKeepsResetValues : Obligations.HeldResetKeepsResetValues := by
  intro s
  obtain ⟨irqn, miso⟩ := outputs_in_reset (s := powerOn { s.pins with rstnLow := true } s.ctl.stationId s) rfl
  exact ⟨_, rfl, rfl, rfl, rfl, rfl, rfl, rfl, rfl, rfl, rfl, rfl, rfl, rfl, rfl, rfl, rfl,
    fillAbandoned_abandonFill s.mem, rfl, rfl, rfl, rfl, rfl, rfl, rfl, irqn, miso, rfl,
    fun _ _ held hi => exec_in_reset held hi⟩

/-! ### RESET (R183) -/

/-- R183, R154, R137: RESET keeps the findings; the memory's requesters are at rest and the fill is abandoned. -/
theorem softReset_mem (s : State) :
    (softReset s).mem.log = s.mem.log ∧ (softReset s).mem.errorCount = s.mem.errorCount
    ∧ (softReset s).mem.buffer = none ∧ (softReset s).mem.fill = none ∧ (softReset s).mem.prefetch = none
    ∧ (softReset s).mem.scrub = State.reset.mem.scrub ∧ FillAbandoned s.mem (softReset s).mem.array := by
  rw [(softReset_frame s).2.2.1]
  exact ⟨rfl, rfl, rfl, rfl, rfl, rfl, fillAbandoned_abandonFill s.mem⟩

/-- R172: with the kept log full LOG_FULL alone is PENDING after RESET, at its reset level. -/
theorem softReset_logFull {s : State} (h : s.mem.log.length = logRoom) :
    (softReset s).ev.mask = 3
    ∧ (softReset s).ev.cell .logFull = { state := .pending, count := 1, level := 1 }
    ∧ ∀ src : Source, src ≠ .logFull → (softReset s).ev.cell src = State.reset.ev.cell src := by
  rw [softReset_ev, if_pos h]
  exact ⟨rfl, rfl, fun _ hother => cell_update_other hother⟩

/-- Settles O12: block by block what RESET leaves, and LOG_FULL by the kept log. -/
theorem softResetKeepsOnlyHealthIdAndPort : Obligations.SoftResetKeepsOnlyHealthIdAndPort := by
  intro s hs
  obtain ⟨ctl, -, -, ret, -, pins, pending, tb, writer, seqr, recs, dets, trig, filter, rx, tx⟩ := softReset_frame s
  obtain ⟨log, errorCount, buffer, fill, prefetch, scrub, array⟩ := softReset_mem s
  have events_reset : s.mem.log.length ≠ logRoom → (softReset s).ev = State.reset.ev := fun hlog => by
    rw [softReset_ev, if_neg hlog]
    rfl
  exact ⟨_, execReset_in_command hs, ctl, ret, log, errorCount, buffer, fill, prefetch, scrub, array, tb, writer, seqr,
    recs, dets, trig, filter, rx, tx, pins, pending, events_reset, softReset_logFull⟩

end Sys2Proof.Machine
end

section
/-! What raises and handed conditions leave of the event unit: the mask and every level, and every source but those they
are for (R170, R171, R173). -/

namespace Sys2Proof.Machine

open Sys2Proof.Claims

/-! ### The mask and the levels (R173, R174) -/

/-- The mask level and every source's level stand. -/
def LevelsStand (e f : EventUnit) : Prop :=
  f.mask = e.mask ∧ ∀ i : Fin 14, (f.cells.get i).level = (e.cells.get i).level

theorem LevelsStand.trans {e f g : EventUnit} (hef : LevelsStand e f) (hfg : LevelsStand f g) : LevelsStand e g :=
  ⟨hfg.1.trans hef.1, fun i => (hfg.2 i).trans (hef.2 i)⟩

theorem levelsStand_update {f : SourceCell → SourceCell} (hf : ∀ cell, (f cell).level = cell.level) (e : EventUnit)
    (i : Fin 14) : LevelsStand e (e.update i f) := by
  refine ⟨rfl, fun j => ?_⟩
  rw [cell_update]
  split
  next h => rw [hf, h]
  next => rfl

theorem started_level (cell : SourceCell) : cell.started.level = cell.level := by
  unfold SourceCell.started
  split <;> rfl

theorem levelsStand_raise (src : Source) (s : State) : LevelsStand s.ev (raise src s).ev :=
  levelsStand_update (f := SourceCell.raised) (fun _ => rfl) _ _

theorem levelsStand_handLevel (src : Source) (before after : Bool) (s : State) :
    LevelsStand s.ev (handLevel src before after s).ev := by
  cases before <;> cases after
  · exact ⟨rfl, fun _ => rfl⟩
  · exact levelsStand_update started_level _ _
  · exact levelsStand_update (f := SourceCell.ended) (fun _ => rfl) _ _
  · exact ⟨rfl, fun _ => rfl⟩

/-- A condition handed over leaves the cells at the other places. -/
theorem get_handLevel_other {src : Source} {i : Fin 14} (h : i ≠ src.place) (before after : Bool) (s : State) :
    (handLevel src before after s).ev.cells.get i = s.ev.cells.get i := by
  cases before <;> cases after
  · rfl
  · exact (cell_update _ _ _ _).trans (if_neg h.symm)
  · exact (cell_update _ _ _ _).trans (if_neg h.symm)
  · rfl

theorem levelsStand_setStation (st : StationState) (s : State) : LevelsStand s.ev (setStation st s).ev :=
  levelsStand_handLevel .syncSeeking _ _ { s with ctl := { s.ctl with state := st } }

theorem get_setStation_other {i : Fin 14} (h : i ≠ Source.syncSeeking.place) (st : StationState) (s : State) :
    (setStation st s).ev.cells.get i = s.ev.cells.get i :=
  get_handLevel_other h _ _ { s with ctl := { s.ctl with state := st } }

/-- R133: a change between station states other than RUNNING hands nothing over. -/
theorem setStation_outside {st : StationState} {s : State} (hs : s.ctl.state ≠ .running) (hst : st ≠ .running) :
    setStation st s = { s with ctl := { s.ctl with state := st } } := by
  unfold setStation
  rw [seekingHolds_of_ne hs, seekingHolds_of_ne hst, handLevel_same]

/-! ### The named sources raised or handed over -/

/-- Between two states the named sources alone are raised or handed over. -/
def OnlyHanded (named : List Source) (s t : State) : Prop := OnlyEvents named s t ∧ LevelsStand s.ev t.ev

theorem OnlyHanded.events {named : List Source} {s t : State} (h : OnlyHanded named s t) : OnlyEvents named s t := h.1

theorem OnlyHanded.levels {named : List Source} {s t : State} (h : OnlyHanded named s t) : LevelsStand s.ev t.ev := h.2

theorem onlyHanded_of_ev {named : List Source} {s t : State} (h : t.ev = s.ev) : OnlyHanded named s t :=
  ⟨onlyEvents_of_ev h, congrArg EventUnit.mask h, fun i => by rw [h]⟩

theorem OnlyHanded.trans {named : List Source} {s t u : State} (hst : OnlyHanded named s t)
    (htu : OnlyHanded named t u) : OnlyHanded named s u :=
  ⟨onlyEvents_trans hst.events htu.events, hst.levels.trans htu.levels⟩

theorem onlyHanded_raise {named : List Source} {src : Source} (h : src ∈ named) (s : State) :
    OnlyHanded named s (raise src s) :=
  ⟨onlyEvents_raise h s, levelsStand_raise src s⟩

theorem onlyHanded_handLevel {named : List Source} {src : Source} (h : src ∈ named) (before after : Bool) (s : State) :
    OnlyHanded named s (handLevel src before after s) :=
  ⟨onlyEvents_handLevel h before after s, levelsStand_handLevel src before after s⟩

theorem OnlyHanded.mask {named : List Source} {s t : State} (h : OnlyHanded named s t) : t.ev.mask = s.ev.mask :=
  h.levels.1

/-- Every source keeps its level, whichever are handed over. -/
theorem OnlyHanded.level {named : List Source} {s t : State} (h : OnlyHanded named s t) (src : Source) :
    (t.ev.cell src).level = (s.ev.cell src).level :=
  h.levels.2 src.place

theorem OnlyHanded.cell {named : List Source} {src : Source} {s t : State} (h : OnlyHanded named s t)
    (hsrc : src ∉ named) : t.ev.cell src = s.ev.cell src :=
  h.events.2 src hsrc

/-- R38, R40: the writer hands over OVERRUN. -/
theorem writerIdle_handed {named : List Source} (h : .overrun ∈ named) (s : State) :
    OnlyHanded named s (writerIdle s) :=
  onlyHanded_handLevel h _ _ { s with writer := { s.writer with state := .idle, current := none, pos := 0 } }

/-- R163: the retirement check raises SPARE_EXHAUSTED. -/
theorem retireCheck_handed {named : List Source} (h : .spareExhausted ∈ named) (g : SegNo) (s : State) :
    OnlyHanded named s (retireCheck g s).1 := by
  unfold retireCheck
  split
  · split
    · exact onlyHanded_of_ev (by simp)
    · exact onlyHanded_raise h { s with ret := _, pool := _ }
  · exact onlyHanded_of_ev rfl

/-- R21, R163: a segment's entry into the free list hands over FREE_LOW, or raises SPARE_EXHAUSTED. -/
theorem enterFree_handed {named : List Source} (hlow : .freeLow ∈ named) (hspare : .spareExhausted ∈ named) (g : SegNo)
    (s : State) : OnlyHanded named s (enterFree g s) := by
  have checked := retireCheck_handed hspare g s
  unfold enterFree
  dsimp only
  generalize (retireCheck g s).1 = u at *
  split
  · exact checked.trans (onlyHanded_handLevel hlow _ _ { u with pool := { u.pool with free := u.pool.free ++ [g] } })
  · exact checked

theorem returnAll_handed {named : List Source} (hlow : .freeLow ∈ named) (hspare : .spareExhausted ∈ named) :
    ∀ (l : List SegNo) (s : State), OnlyHanded named s (returnAll l s)
  | [], _ => onlyHanded_of_ev rfl
  | g :: l, s => (enterFree_handed hlow hspare g s).trans (returnAll_handed hlow hspare l (enterFree g s))

/-- R68: the closing of a record raises RECORD_CLOSED. -/
theorem closeOpen_handed {named : List Source} (h : .recordClosed ∈ named) (c : ConfigStore) (stopped : Bool)
    (s : State) : OnlyHanded named s (closeOpen c stopped s) := by
  unfold closeOpen
  repeat' split
  · exact onlyHanded_of_ev rfl
  · exact onlyHanded_of_ev rfl
  · exact onlyHanded_raise h (setSlot _ _ s)

theorem setStation_handed {named : List Source} (h : .syncSeeking ∈ named) (st : StationState) (s : State) :
    OnlyHanded named s (setStation st s) :=
  onlyHanded_handLevel h _ _ { s with ctl := { s.ctl with state := st } }

theorem setRx_handed {named : List Source} (h : .lineStuck ∈ named) (x : RxState) (s : State) :
    OnlyHanded named s (setRx x s) :=
  onlyHanded_handLevel h _ _ { s with rx := { s.rx with state := x } }

end Sys2Proof.Machine
end

section
/-! CONFIGURE (R185, R186, R195) and START (R189, R190, R192), each by the station state. -/

namespace Sys2Proof.Machine

open Sys2Proof.Claims

/-! ### The check of a block (R185) -/

/-- R185: the first failing field is the one before which every field passes. -/
theorem firstFailing_some {vals : List (BitVec 16)} {i : Nat} (h1 : 1 ≤ i) (h2 : i ≤ 86)
    (hi : (!(inRange i (fieldAt vals i) && crossCheck vals i)) = true)
    (hbefore : ∀ j, 1 ≤ j → j < i → (!(inRange j (fieldAt vals j) && crossCheck vals j)) = false) :
    firstFailing vals = some i := by
  have member : i ∈ List.range' 1 fieldCount := List.mem_range'_1.2 ⟨h1, Nat.lt_succ_of_le h2⟩
  exact List.find?_range'_eq_some.2 ⟨hi, member, fun j hj hlt => congrArg (!·) (hbefore j hj hlt)⟩

theorem firstFailing_none {vals : List (BitVec 16)}
    (h : ∀ i, 1 ≤ i → i ≤ 86 → (!(inRange i (fieldAt vals i) && crossCheck vals i)) = false) :
    firstFailing vals = none :=
  List.find?_range'_eq_none.2 fun i h1 h2 => congrArg (!·) (h i h1 (Nat.le_of_lt_succ h2))

/-! ### CONFIGURE by the station state (R186) -/

theorem configureWith_locked {args : List Byte} {s : State} (hu : s.ctl.state ≠ .unconfigured)
    (hc : s.ctl.state ≠ .configured) : configureWith args s = (s, [0x06]) :=
  if_neg (not_or.2 ⟨hu, hc⟩)

theorem configureWith_failing {args : List Byte} {s : State} {i : Nat}
    (hst : s.ctl.state = .unconfigured ∨ s.ctl.state = .configured)
    (hf : firstFailing (splitFields fieldWidths args) = some i) :
    configureWith args s = (s, [0x05, BitVec.ofNat 8 i]) := by
  unfold configureWith
  rw [if_pos hst]
  dsimp only
  rw [hf]
  rfl

theorem configureWith_accepted {args : List Byte} {s : State}
    (hst : s.ctl.state = .unconfigured ∨ s.ctl.state = .configured)
    (hf : firstFailing (splitFields fieldWidths args) = none) :
    configureWith args s = (acceptBlock (splitFields fieldWidths args) s, [0x00]) := by
  unfold configureWith
  rw [if_pos hst]
  dsimp only
  rw [hf]
  rfl

/-- R195: a block of 116 bytes is the whole argument of its command. -/
theorem execConfigure_whole {block response : List Byte} {s t : State} (hs : InCommand s) (hb : block.length = 116)
    (h : configureWith block s = (t, response)) :
    exec (.configure block) s = .next (answered t 0x02 block response) := by
  have whole : block.take configBytes = block := List.take_of_length_le (Nat.le_of_eq hb)
  have enough : ¬ block.length < configBytes := Nat.not_lt_of_le (Nat.le_of_eq hb.symm)
  show execConfigure block s = _
  unfold execConfigure
  rw [if_neg enough, whole, hostCommand_answered hs h]

/-! ### An accepted block (R186, R173) -/

/-- R173: a block gives levels to the twelve sources from order 3 on. -/
theorem level_configured (e : EventUnit) (level : Fin 14 → Nat) (mask : Nat) (i : Fin 14) :
    ((e.configured level mask).cells.get i).level = if i.val < 2 then (e.cells.get i).level else level i := by
  unfold EventUnit.configured
  rw [get_ofFn]
  split <;> rfl

/-- R186, R117: what an accepted block writes beside the event unit, and what it leaves. -/
theorem acceptBlock_frame (vals : List (BitVec 16)) (s : State) :
    let t := acceptBlock vals s
    t.ctl = { s.ctl with state := .configured, config := some (storeOf vals), blocks := s.ctl.blocks + 1 }
    ∧ t.tb = takeDivisor (fieldAt vals 1) s.tb
    ∧ t.pool = s.pool ∧ t.writer = s.writer ∧ t.recs = s.recs ∧ t.mem = s.mem ∧ t.ret = s.ret
    ∧ t.tx = s.tx ∧ t.rx = s.rx ∧ t.dets = s.dets ∧ t.trig = s.trig ∧ t.seqr = s.seqr ∧ t.pins = s.pins
    ∧ t.filter = s.filter ∧ t.pending = s.pending := by
  simp [acceptBlock]

/-- R173, R21, R133: an accepted block's event unit is that of its levels and mask, but for FREE_LOW and SYNC_SEEKING,
whose conditions are handed over. -/
theorem acceptBlock_ev (vals : List (BitVec 16)) (s : State) :
    let levelled := s.ev.configured (fun i => fieldAt vals (69 + i.val)) (fieldAt vals 83)
    LevelsStand levelled (acceptBlock vals s).ev
    ∧ ∀ i : Fin 14, i ≠ 7 → i ≠ 11 → (acceptBlock vals s).ev.cells.get i = levelled.cells.get i := by
  unfold acceptBlock
  refine ⟨LevelsStand.trans ?_ (levelsStand_setStation _ _), fun i h7 h11 => (get_setStation_other h11 _ _).trans ?_⟩
  · exact levelsStand_handLevel .freeLow _ _ _
  · exact get_handLevel_other (src := .freeLow) h7 _ _ _

/-- R186, R173: the mask and the levels after an accepted block, and the sources it leaves. -/
theorem acceptBlock_events (vals : List (BitVec 16)) (s : State) :
    let t := acceptBlock vals s
    t.ev.mask = fieldAt vals 83
    ∧ (∀ i : Fin 14, (t.ev.cells.get i).level
        = if i.val < 2 then (s.ev.cells.get i).level else fieldAt vals (69 + i.val))
    ∧ ∀ i : Fin 14, i ≠ 7 → i ≠ 11 → (t.ev.cells.get i).state = (s.ev.cells.get i).state
        ∧ (t.ev.cells.get i).count = (s.ev.cells.get i).count := by
  obtain ⟨⟨mask, levels⟩, others⟩ := acceptBlock_ev vals s
  refine ⟨mask, fun i => (levels i).trans (level_configured _ _ _ i), fun i h7 h11 => ?_⟩
  rw [others i h7 h11]
  exact cell_configured _ _ _ i

/-- Settles O25: LOCKED, the first failing field by the check's order, and the accepted block's effects. -/
theorem configureAcceptsOrNamesTheFirstFailingField : Obligations.ConfigureAcceptsOrNamesTheFirstFailingField := by
  intro block s hs hb
  refine ⟨fun hu hc => execConfigure_whole hs hb (configureWith_locked hu hc), fun hst =>
    ⟨fun i h1 h2 hi hbefore => execConfigure_whole hs hb
      (configureWith_failing hst (firstFailing_some h1 h2 hi hbefore)), fun hpass => ?_⟩⟩
  have accepted := execConfigure_whole hs hb (configureWith_accepted hst (firstFailing_none hpass))
  generalize splitFields fieldWidths block = vals at *
  obtain ⟨ctl, tb, blocks⟩ := acceptBlock_frame vals s
  obtain ⟨mask, levels, others⟩ := acceptBlock_events vals s
  exact ⟨_, accepted, ctl, fun h => tb.trans (takeDivisor_stopped h), fun h => tb.trans (takeDivisor_running h), mask,
    levels, others, blocks⟩

/-! ### START by the station state (R189, R192) -/

theorem startWith_configured {c : ConfigStore} {s : State} (hc : s.ctl.config = some c)
    (hst : s.ctl.state = .configured) :
    startWith s
      = ({ s with ctl := { s.ctl with state := .init }, mem := { s.mem with fill := some 0 } }, [0x00]) := by
  have entered := setStation_outside (st := .init) (s := { s with mem := { s.mem with fill := some 0 } })
    (by simp [hst]) (by decide)
  unfold startWith
  rw [hst, hc]
  exact congrArg (answer []) entered

/-- R192: what START in HALTED waits for. -/
theorem lineQuiet_iff (s : State) :
    lineQuiet s = true ↔ s.tx.state = .quiet ∧ s.rx.state ∉ [RxState.low, .tagWindow, .numberWindow] := by
  simp [lineQuiet, and_assoc]

theorem startWith_halted {c : ConfigStore} {s : State} (hc : s.ctl.config = some c) (hst : s.ctl.state = .halted)
    (hq : lineQuiet s = true) : startWith s = (enterListen c false s, [0x00]) := by
  unfold startWith
  rw [hst, hc]
  exact if_pos hq

/-- R192: in HALTED a line agent that is not done refuses START. -/
theorem startWith_busy {s : State} (hst : s.ctl.state = .halted) (hq : lineQuiet s = false) :
    startWith s = (s, [0x02]) := by
  unfold startWith
  rw [hst]
  cases s.ctl.config with
  | none => rfl
  | some c => exact if_neg (by simp [hq])

theorem startWith_elsewhere {s : State} (hst : s.ctl.state ∉ [StationState.configured, .halted]) :
    startWith s = (s, [0x02]) := by
  unfold startWith
  split
  next h _ => exact absurd (by simp [h]) hst
  next h _ => exact absurd (by simp [h]) hst
  next => rfl

theorem execStart_answered {response : List Byte} {s t : State} (hs : InCommand s) (h : startWith s = (t, response)) :
    exec .start s = .next (answered t 0x03 [] response) :=
  congrArg _ (hostCommand_answered hs h)

/-- R190: LISTEN entry leaves the array's contents. -/
theorem enterListen_array (c : ConfigStore) (fromInit : Bool) (s : State) :
    (enterListen c fromInit s).mem.array = s.mem.array := by
  simp [enterListen]

/-- Settles O27: INIT's entry, LISTEN's entry as `enterListen` makes it, and the two refusals. -/
theorem startEntersInitOrListen : Obligations.StartEntersInitOrListen := by
  intro s hs
  refine ⟨fun c hc hst => execStart_answered hs (startWith_configured hc hst), fun c hc hst htx hrx => ?_,
    fun hst hbusy => execStart_answered hs (startWith_busy hst ?_),
    fun hst => execStart_answered hs (startWith_elsewhere hst)⟩
  · exact ⟨_, execStart_answered hs (startWith_halted hc hst ((lineQuiet_iff s).2 ⟨htx, hrx⟩)),
      enterListen_entered c false s, enterListen_array c false s⟩
  · rw [← Bool.not_eq_true, lineQuiet_iff]
    rintro ⟨htx, hrx⟩
    exact hbusy.elim (absurd htx) (absurd · hrx)

end Sys2Proof.Machine
end

section
/-! The end of acquisition (R15, R24, R38, R65): what STOP (R191) and FAULT entry (R188) do alike, and each of them. -/

namespace Sys2Proof.Machine

open Sys2Proof.Claims

/-! ### The sequencer stopped and the pool returned (R24, R15, R38) -/

/-- R15, R24: the sequencer has stopped, history and the lone segment have returned, the writer is IDLE. -/
def poolEnded (s : State) : State := returnPool (stopSequencer s)

theorem writerIdle_stopped (s : State) :
    (writerIdle (stopSequencer s)).pool = s.pool ∧ (writerIdle (stopSequencer s)).ret = s.ret := by
  simp [stopSequencer]

theorem poolEnded_frame (s : State) :
    let u := poolEnded s
    u.ctl = s.ctl ∧ u.tb = s.tb ∧ u.recs = s.recs ∧ u.filter = s.filter ∧ u.rx = s.rx ∧ u.tx = s.tx ∧ u.mem = s.mem
    ∧ u.port = s.port ∧ u.pins = s.pins ∧ u.pending = s.pending ∧ u.seqr = .reset ∧ u.writer = idleWriter s := by
  simp [poolEnded, returnPool, stopSequencer, idleWriter]

theorem poolEnded_history (s : State) : (poolEnded s).pool.history = [] := returnAll_history _ _

/-- R15: segments with no flag set join the free list's tail, history first, and the rest of the pool stands. -/
theorem poolEnded_clear {s : State} (h : ∀ g ∈ s.pool.history ++ s.lone.toList, (s.header g).retirePending = false) :
    let u := poolEnded s
    u.pool = { s.pool with free := s.pool.free ++ (s.pool.history ++ s.lone.toList), history := [] } ∧ u.ret = s.ret
    ∧ ∀ src : Source, src ≠ .freeLow → src ≠ .overrun → u.ev.cell src = s.ev.cell src := by
  obtain ⟨pool, ret⟩ := writerIdle_stopped s
  have handed := writerIdle_handed (List.mem_singleton_self _) (stopSequencer s)
  have header : ∀ g, (setHistory [] (writerIdle (stopSequencer s))).header g = s.header g :=
    header_congr (s := s) (t := writerIdle (stopSequencer s)) pool
  obtain ⟨ev, he, hcells⟩ := returnAll_clear (s.pool.history ++ s.lone.toList)
    (setHistory [] (writerIdle (stopSequencer s))) (fun g hg => (header g).symm ▸ h g hg)
  have returned : poolEnded s = _ := he
  rw [returned]
  refine ⟨?_, ret, fun src hlow hover => (hcells src hlow).trans (handed.cell (by simpa using hover))⟩
  dsimp only [setHistory]
  rw [pool]

theorem poolEnded_handed {named : List Source} (hover : .overrun ∈ named) (hlow : .freeLow ∈ named)
    (hspare : .spareExhausted ∈ named) (s : State) : OnlyHanded named s (poolEnded s) :=
  (writerIdle_handed hover (stopSequencer s)).trans
    (returnAll_handed hlow hspare _ (setHistory [] (writerIdle (stopSequencer s))))

/-- R13: the return leaves the frames that a chain holds. -/
theorem poolEnded_framesIn (s : State) (chain : List SegNo) : framesIn (poolEnded s) chain = framesIn s chain := by
  obtain ⟨pool, -⟩ := writerIdle_stopped s
  refine heldFrames_congr (fun a => ?_) chain
  obtain ⟨valid, -⟩ := returnAll_header a (s.pool.history ++ s.lone.toList)
    (setHistory [] (writerIdle (stopSequencer s)))
  exact valid.trans (congrArg Header.valid (header_congr (s := s) pool a))

/-! ### The OPEN record closed (R65) -/

/-- R15, R65: with acquisition ended the OPEN record has closed with STOPPED. -/
def acquisitionEnd (c : ConfigStore) (s : State) : State := closeOpen c true (poolEnded s)

/-- R65: of the record controller a closing writes the slots alone. -/
theorem closeOpen_recs (c : ConfigStore) (stopped : Bool) (s : State) :
    (closeOpen c stopped s).recs.seq = s.recs.seq ∧ (closeOpen c stopped s).recs.missed = s.recs.missed
    ∧ (closeOpen c stopped s).recs.lastReport = s.recs.lastReport := by
  unfold closeOpen
  repeat' split
  all_goals exact ⟨rfl, rfl, rfl⟩

theorem acquisitionEnd_frame (c : ConfigStore) (s : State) :
    let u := acquisitionEnd c s
    u.ctl = s.ctl ∧ u.tb = s.tb ∧ u.filter = s.filter ∧ u.rx = s.rx
    ∧ u.tx = s.tx ∧ u.mem = s.mem ∧ u.port = s.port ∧ u.pins = s.pins ∧ u.pending = s.pending ∧ u.seqr = .reset
    ∧ u.writer = idleWriter s ∧ u.pool = (poolEnded s).pool ∧ u.ret = (poolEnded s).ret := by
  simp [acquisitionEnd, poolEnded_frame]

theorem acquisitionEnd_recs (c : ConfigStore) (s : State) :
    let u := acquisitionEnd c s
    u.recs.seq = s.recs.seq ∧ u.recs.missed = s.recs.missed ∧ u.recs.lastReport = s.recs.lastReport := by
  obtain ⟨-, -, recs, -⟩ := poolEnded_frame s
  rw [← recs]
  exact closeOpen_recs c true (poolEnded s)

/-- R65, R53: the one OPEN record closes where it stood before acquisition ended. -/
theorem acquisitionEnd_only {c : ConfigStore} {i : SlotNo} {r : Record} {s : State} (h : OnlyOpen i r s) :
    acquisitionEnd c s = raiseClosed (setSlot i (some (r.closedAs c true (framesIn s r.chain))) (poolEnded s)) := by
  obtain ⟨-, -, recs, -⟩ := poolEnded_frame s
  unfold acquisitionEnd
  rw [closeOpen_onlyOpen ((onlyOpen_congr recs).2 h), poolEnded_framesIn]

theorem acquisitionEnd_none {c : ConfigStore} {s : State} (h : NoneOpen s) : acquisitionEnd c s = poolEnded s := by
  obtain ⟨-, -, recs, -⟩ := poolEnded_frame s
  exact closeOpen_noneOpen ((noneOpen_congr recs).2 h)

theorem poolEnded_recordClosed (s : State) :
    (poolEnded s).ev.cell .recordClosed = s.ev.cell .recordClosed :=
  (poolEnded_handed (named := [.overrun, .freeLow, .spareExhausted]) (by simp) (by simp) (by simp) s).cell (by simp)

theorem acquisitionEnd_handed {named : List Source} (hover : .overrun ∈ named) (hlow : .freeLow ∈ named)
    (hspare : .spareExhausted ∈ named) (hclosed : .recordClosed ∈ named) (c : ConfigStore) (s : State) :
    OnlyHanded named s (acquisitionEnd c s) :=
  (poolEnded_handed hover hlow hspare s).trans (closeOpen_handed hclosed c true (poolEnded s))

/-- R15: with no flag set no source of the retirement unit is raised. -/
theorem acquisitionEnd_clear_events {named : List Source} (hover : .overrun ∈ named) (hlow : .freeLow ∈ named)
    (hclosed : .recordClosed ∈ named) (c : ConfigStore) {s : State}
    (h : ∀ g ∈ s.pool.history ++ s.lone.toList, (s.header g).retirePending = false) :
    OnlyEvents named s (acquisitionEnd c s) := by
  obtain ⟨-, -, cells⟩ := poolEnded_clear h
  have mask := (poolEnded_handed (named := [.overrun, .freeLow, .spareExhausted]) (by simp) (by simp) (by simp) s).mask
  have returned : OnlyEvents named s (poolEnded s) :=
    ⟨mask, fun src hsrc => cells src (fun e => hsrc (e ▸ hlow)) (fun e => hsrc (e ▸ hover))⟩
  exact onlyEvents_trans returned (closeOpen_handed hclosed c true (poolEnded s)).events

/-! ### What STOP and FAULT entry do alike -/

/-- What STOP and FAULT entry keep of the state `u` in which acquisition has ended, and what both then write. -/
structure EndsAs (u t : State) : Prop where
  seqr : t.seqr = u.seqr
  writer : t.writer = u.writer
  pool : t.pool = u.pool
  ret : t.ret = u.ret
  recs : t.recs = u.recs
  dets : t.dets = Vector.replicate 8 Detector.reset
  trig : t.trig = .reset
  tb : t.tb = { u.tb with mode := .localScale, requestMade := false }
  counts : t.tx.suppressed = u.tx.suppressed ∧ t.tx.lost = u.tx.lost ∧ t.rx.lineErrors = u.rx.lineErrors
  mem : t.mem.log = u.mem.log ∧ t.mem.errorCount = u.mem.errorCount ∧ t.mem.buffer = u.mem.buffer
    ∧ t.mem.prefetch = u.mem.prefetch
  pending : t.pending = u.pending
  handed : OnlyHanded [.lineStuck, .syncSeeking, .configFault] u t

theorem lone_idle {s : State} (h : s.writer.current = none) : s.lone = none := by
  unfold State.lone
  split
  · rfl
  · exact h

theorem onlyEvents_mono {named more : List Source} {s t : State} (hsub : named ⊆ more) (h : OnlyEvents named s t) :
    OnlyEvents more s t :=
  ⟨h.1, fun src hsrc => h.2 src (fun hin => hsrc (hsub hin))⟩

/-- R65, R68: the one OPEN record closed with STOPPED, and RECORD_CLOSED raised for it. -/
theorem EndsAs.closes {c : ConfigStore} {i : SlotNo} {r : Record} {s t : State} (h : EndsAs (acquisitionEnd c s) t)
    (ho : OnlyOpen i r s) :
    ClosedWhereItStands c true i r s t ∧ t.ev.cell .recordClosed = raisedOnce s.ev .recordClosed := by
  obtain ⟨-, -, recs, -⟩ := poolEnded_frame s
  have slots := congrArg RecordUnit.slots h.recs
  have raised : t.ev.cell .recordClosed = _ := h.handed.cell (by simp)
  rw [acquisitionEnd_only ho] at slots raised
  refine ⟨closedWhereItStands_of_slot ho.2.1 ?_ (fun j hj => ?_), ?_⟩
  · rw [slots]
    exact slot_setSlot_same _ _ _
  · rw [slots]
    exact (slot_setSlot_other hj _ _).trans (by rw [recs])
  · rw [raised, raiseClosed, cell_raise_same]
    exact raisedOnce_congr (poolEnded_recordClosed s)

theorem EndsAs.closes_none {c : ConfigStore} {s t : State} (h : EndsAs (acquisitionEnd c s) t) (hn : NoneOpen s) :
    t.recs = s.recs ∧ t.ev.cell .recordClosed = s.ev.cell .recordClosed := by
  obtain ⟨-, -, recs, -⟩ := poolEnded_frame s
  have kept : t.ev.cell .recordClosed = _ := h.handed.cell (by simp)
  rw [acquisitionEnd_none hn] at kept
  refine ⟨h.recs.trans ?_, kept.trans (poolEnded_recordClosed s)⟩
  rw [acquisitionEnd_none hn, recs]

/-- R15: with no flag set the segments stand at the free list's tail, and nothing is retired. -/
theorem EndsAs.returns {c : ConfigStore} {s t : State} (h : EndsAs (acquisitionEnd c s) t)
    (hclear : ∀ g ∈ s.pool.history ++ s.lone.toList, (s.header g).retirePending = false) :
    t.pool.free = s.pool.free ++ s.pool.history ++ s.lone.toList ∧ t.pool.withdrawn = s.pool.withdrawn
    ∧ (∀ g, t.header g = s.header g) ∧ t.ret = s.ret
    ∧ OnlyEvents [.recordClosed, .overrun, .freeLow, .syncSeeking, .lineStuck, .configFault] s t := by
  obtain ⟨-, -, -, -, -, -, -, -, -, -, -, pool, ret⟩ := acquisitionEnd_frame c s
  obtain ⟨returned, kept, -⟩ := poolEnded_clear hclear
  have pool_eq := (h.pool.trans pool).trans returned
  have ended := acquisitionEnd_clear_events
    (named := [.recordClosed, .overrun, .freeLow, .syncSeeking, .lineStuck, .configFault]) (by simp) (by simp)
    (by simp) c hclear
  refine ⟨?_, by rw [pool_eq], fun g => ?_, (h.ret.trans ret).trans kept,
    onlyEvents_trans ended (onlyEvents_mono (by simp) h.handed.events)⟩
  · rw [pool_eq, List.append_assoc]
  · unfold State.header
    rw [pool_eq]

/-- R188, R191, R15, R38: what STOP and FAULT entry do alike. -/
theorem EndsAs.acquisitionEnded {c : ConfigStore} {s t : State} (h : EndsAs (acquisitionEnd c s) t) :
    AcquisitionEnded c s t := by
  obtain ⟨-, tb, -, rx, tx, mem, -, -, pending, seqr, writer, pool, -⟩ := acquisitionEnd_frame c s
  obtain ⟨seq, missed, lastReport⟩ := acquisitionEnd_recs c s
  rw [← h.recs] at seq missed lastReport
  have idle : t.writer = idleWriter s := h.writer.trans writer
  obtain ⟨suppressed, lost, lineErrors⟩ := h.counts
  obtain ⟨log, errorCount, buffer, prefetch⟩ := h.mem
  rw [tx] at suppressed lost
  rw [rx] at lineErrors
  rw [mem] at log errorCount buffer prefetch
  refine ⟨h.seqr.trans seqr, idle, ?_, lone_idle (by rw [idle]; rfl), h.returns, fun i r ho => h.closes ho,
    h.closes_none, fun d => ?_, h.trig, ?_, seq, missed, suppressed, lost, lineErrors, log, errorCount, buffer,
    prefetch, lastReport, h.pending.trans pending⟩
  · rw [h.pool, pool]
    exact poolEnded_history s
  · rw [h.dets]
    exact get_replicate _ _
  · rw [h.tb, tb]

/-! ### STOP (R191) -/

/-- R191, R114: STOP once acquisition has ended. -/
def haltedFrom (u : State) : State :=
  setStation .halted { disableRequesters u with
    tb := { u.tb with mode := .localScale, requestMade := false }, tx := txStop u.tx }

theorem enterHalted_eq (c : ConfigStore) (s : State) : enterHalted c s = haltedFrom (acquisitionEnd c s) := rfl

theorem haltedFrom_frame (u : State) :
    let t := haltedFrom u
    t.ctl = { u.ctl with state := .halted } ∧ t.rx = u.rx ∧ t.filter = u.filter ∧ t.mem = u.mem ∧ t.pins = u.pins
    ∧ t.tx = txStop u.tx := by
  simp [haltedFrom, disableRequesters]

theorem haltedFrom_endsAs (u : State) : EndsAs u (haltedFrom u) := by
  refine ⟨?_, ?_, ?_, ?_, ?_, ?_, ?_, ?_, ?_, ?_, ?_, setStation_handed (by simp) _ _⟩
  all_goals simp [haltedFrom, disableRequesters, txStop]

theorem stopWith_acquiring {c : ConfigStore} {s : State} (hc : s.ctl.config = some c)
    (hst : s.ctl.state = .listen ∨ s.ctl.state = .running) :
    stopWith s = (haltedFrom (acquisitionEnd c s), [0x00]) := by
  unfold stopWith
  rw [hc]
  dsimp only
  rw [if_pos hst, enterHalted_eq]
  rfl

theorem stopWith_elsewhere {s : State} (hst : s.ctl.state ∉ [StationState.listen, .running]) :
    stopWith s = (s, [0x02]) := by
  unfold stopWith
  cases s.ctl.config with
  | none => rfl
  | some c => exact if_neg (by simpa using hst)

theorem execStop_answered {response : List Byte} {s t : State} (hs : InCommand s) (h : stopWith s = (t, response)) :
    exec .stop s = .next (answered t 0x04 [] response) :=
  congrArg _ (hostCommand_answered hs h)

/-- Settles O28: STOP's own writes on the end of acquisition, and the refusal. -/
theorem stopHaltsTheStation : Obligations.StopHaltsTheStation := by
  intro s hs
  refine ⟨fun c hc hst => ?_, fun hst => execStop_answered hs (stopWith_elsewhere hst)⟩
  obtain ⟨uctl, -, ufilter, urx, utx, umem, -, upins, -⟩ := acquisitionEnd_frame c s
  obtain ⟨ctl, rx, filter, mem, pins, tx⟩ := haltedFrom_frame (acquisitionEnd c s)
  have ended := (haltedFrom_endsAs (acquisitionEnd c s)).acquisitionEnded
  have answers := execStop_answered hs (stopWith_acquiring hc hst)
  generalize haltedFrom (acquisitionEnd c s) = t at *
  rw [uctl] at ctl
  rw [utx] at tx
  refine ⟨t, answers, ctl, ended, rx.trans urx, filter.trans ufilter, mem.trans umem, pins.trans upins, ?_⟩
  rw [tx]
  exact ⟨rfl, rfl, rfl, rfl, rfl, rfl, rfl⟩

/-! ### FAULT entry (R188) -/

/-- R188, R115, R137, R147: FAULT entry once acquisition has ended, up to the raise of CONFIG_FAULT. -/
def faultCleared (u : State) : State :=
  let v := setRx .idle (disableRequesters u)
  let m := abandonFill v.mem
  setStation .fault { v with
    ctl := { v.ctl with entry := .none },
    filter := { v.filter with accepted := none, last := none, highRun := 0 },
    rx := { Receiver.reset with lineErrors := v.rx.lineErrors },
    tx := txCut v.tx,
    tb := { v.tb with mode := .localScale, requestMade := false },
    mem := { m with scrub := scrubFault m.scrub } }

/-- R188: FAULT entry once acquisition has ended. -/
def faultFrom (u : State) : State := raise .configFault (faultCleared u)

theorem enterFault_eq (c : ConfigStore) (s : State) : enterFault c s = faultFrom (acquisitionEnd c s) := rfl

theorem faultFrom_frame (u : State) :
    let t := faultFrom u
    t.ctl = { u.ctl with state := .fault, entry := .none }
    ∧ t.rx = { Receiver.reset with lineErrors := u.rx.lineErrors }
    ∧ t.filter = { u.filter with accepted := none, last := none, highRun := 0 } ∧ t.tx = txCut u.tx
    ∧ t.mem = { abandonFill u.mem with scrub := scrubFault u.mem.scrub } ∧ t.port = u.port ∧ t.pins = u.pins := by
  simp [faultFrom, faultCleared, disableRequesters]

/-- R96, R133: the receiver may leave STUCK, and the station RUNNING. -/
theorem faultCleared_handed {named : List Source} (hline : .lineStuck ∈ named) (hseek : .syncSeeking ∈ named)
    (u : State) : OnlyHanded named u (faultCleared u) := by
  have received : OnlyHanded named u (setRx .idle (disableRequesters u)) :=
    setRx_handed hline .idle (disableRequesters u)
  unfold faultCleared
  generalize setRx .idle (disableRequesters u) = v at *
  exact received.trans (setStation_handed hseek .fault { v with
    ctl := _, filter := _, rx := _, tx := _, tb := _, mem := _ })

theorem faultFrom_endsAs (u : State) : EndsAs u (faultFrom u) := by
  refine ⟨?_, ?_, ?_, ?_, ?_, ?_, ?_, ?_, ?_, ?_, ?_,
    (faultCleared_handed (by simp) (by simp) u).trans (onlyHanded_raise (by simp) _)⟩
  all_goals simp [faultFrom, faultCleared, disableRequesters, txCut]

/-- R188: CONFIG_FAULT is raised once. -/
theorem faultFrom_configFault (u : State) : (faultFrom u).ev.cell .configFault = raisedOnce u.ev .configFault := by
  have handed := faultCleared_handed (named := [.lineStuck, .syncSeeking]) (by simp) (by simp) u
  exact (cell_raise_same _ _).trans (raisedOnce_congr (handed.cell (by simp)))

/-! ### The parity checker (R187, R193) -/

/-- An upset of the store writes the store and the event unit. -/
theorem upsetStore_eq (c d : ConfigStore) (s : State) :
    ∃ ev, upsetStore c d s = { s with ctl := { s.ctl with config := some d }, ev := ev } := by
  obtain ⟨ev, he, -⟩ := handLevel_ev .freeLow (freeLowHolds (some c) s.pool.free) (freeLowHolds (some d) s.pool.free)
    { s with ctl := { s.ctl with config := some d } }
  exact ⟨ev, he⟩

theorem upsetStore_frame (c d : ConfigStore) (s : State) :
    let u := upsetStore c d s
    u.ctl = { s.ctl with config := some d } ∧ u.filter = s.filter ∧ u.rx = s.rx ∧ u.tx = s.tx ∧ u.mem = s.mem
    ∧ u.port = s.port ∧ u.pins = s.pins ∧ u.pending = s.pending := by
  simp [upsetStore]

/-- R21: with the store upset FREE_LOW is judged again. -/
theorem upsetStore_handed {named : List Source} (h : .freeLow ∈ named) (c d : ConfigStore) (s : State) :
    OnlyHanded named s (upsetStore c d s) :=
  onlyHanded_handLevel h _ _ { s with ctl := { s.ctl with config := some d } }

/-- R187, R188: the station in FAULT, its store upset from c to d. -/
def faulted (c d : ConfigStore) (s : State) : State := faultFrom (acquisitionEnd d (upsetStore c d s))

/-- The end of acquisition told of the state before the store was upset. -/
theorem acquisitionEnded_before_upset {c d : ConfigStore} {s t : State}
    (h : AcquisitionEnded d (upsetStore c d s) t) : AcquisitionEnded d s t := by
  obtain ⟨ev, upset⟩ := upsetStore_eq c d s
  have handed := upsetStore_handed (List.mem_singleton_self _) c d s
  rw [upset] at h handed
  have closed := handed.cell (src := .recordClosed) (by simp)
  obtain ⟨seqr, writer, history, lone, clear, only, none, rest⟩ := h
  refine ⟨seqr, writer, history, lone, fun hclear => ?_, fun i r ho => ?_, fun hn => ?_, rest⟩
  · obtain ⟨free, withdrawn, headers, ret, events⟩ := clear hclear
    exact ⟨free, withdrawn, headers, ret, onlyEvents_trans (onlyEvents_mono (by simp) handed.events) events⟩
  · obtain ⟨closes, raised⟩ := only i r ho
    exact ⟨closes, raised.trans (raisedOnce_congr closed)⟩
  · obtain ⟨recs, kept⟩ := none hn
    exact ⟨recs, kept.trans closed⟩

theorem checking_iff (st : StationState) : checking st = true ↔ st ≠ .unconfigured ∧ st ≠ .fault := by
  cases st <;> decide

/-- R187: nothing comes about where the field still matches or the checker does not compare. -/
theorem execParityMismatch_stands {c : ConfigStore} {f : StoredField} {upset : BitVec 16} {s : State}
    (ha : Active s c)
    (h : mismatchAt (struckStore s.ctl.blocks f upset c) f.index = false ∨ s.ctl.state = .unconfigured
      ∨ s.ctl.state = .fault) : exec (.parityMismatch f upset) s = .next s := by
  show execParityMismatch f upset s = _
  unfold execParityMismatch
  rw [whenConfigured_held ha.1 ha.2]
  refine congrArg _ (if_neg fun hb => ?_)
  obtain ⟨hchecking, hmismatch⟩ := Bool.and_eq_true_iff.1 hb
  obtain ⟨hu, hf⟩ := (checking_iff _).1 hchecking
  obtain h | h | h := h
  · exact Bool.noConfusion (h.symm.trans hmismatch)
  · exact hu h
  · exact hf h

theorem execParityMismatch_faults {c : ConfigStore} {f : StoredField} {upset : BitVec 16} {s : State}
    (ha : Active s c) (hm : mismatchAt (struckStore s.ctl.blocks f upset c) f.index = true)
    (hu : s.ctl.state ≠ .unconfigured) (hf : s.ctl.state ≠ .fault) :
    exec (.parityMismatch f upset) s = .next (faulted c (struckStore s.ctl.blocks f upset c) s) := by
  show execParityMismatch f upset s = _
  unfold execParityMismatch
  rw [whenConfigured_held ha.1 ha.2]
  dsimp only
  rw [if_pos (Bool.and_eq_true_iff.2 ⟨(checking_iff _).2 ⟨hu, hf⟩, hm⟩), enterFault_eq]
  rfl

/-- R188: what FAULT entry leaves of the event unit's levels and mask, and the raise of CONFIG_FAULT. -/
theorem faulted_events (c d : ConfigStore) (s : State) :
    let t := faulted c d s
    t.ev.cell .configFault = raisedOnce s.ev .configFault ∧ t.ev.mask = s.ev.mask
    ∧ ∀ src : Source, (t.ev.cell src).level = (s.ev.cell src).level := by
  have ended : OnlyHanded [.freeLow, .overrun, .spareExhausted, .recordClosed] s
      (acquisitionEnd d (upsetStore c d s)) :=
    (upsetStore_handed (by simp) c d s).trans
      (acquisitionEnd_handed (by simp) (by simp) (by simp) (by simp) d (upsetStore c d s))
  have entered := (faultFrom_endsAs (acquisitionEnd d (upsetStore c d s))).handed
  unfold faulted
  exact ⟨(faultFrom_configFault _).trans (raisedOnce_congr (ended.cell (by simp))), entered.mask.trans ended.mask,
    fun src => (entered.level src).trans (ended.level src)⟩

/-- R188: the blocks that FAULT entry writes beside the end of acquisition. -/
theorem faulted_frame (c d : ConfigStore) (s : State) :
    let t := faulted c d s
    t.ctl = { s.ctl with state := .fault, entry := .none, config := some d }
    ∧ t.rx = { Receiver.reset with lineErrors := s.rx.lineErrors }
    ∧ t.filter = { s.filter with accepted := none, last := none, highRun := 0 } ∧ t.tx = txCut s.tx
    ∧ t.mem = { abandonFill s.mem with scrub := scrubFault s.mem.scrub } ∧ t.port = s.port ∧ t.pins = s.pins
    ∧ t.pending = s.pending := by
  obtain ⟨sctl, sfilter, srx, stx, smem, sport, spins, spending⟩ := upsetStore_frame c d s
  obtain ⟨uctl, -, ufilter, urx, utx, umem, uport, upins, upending, -⟩ := acquisitionEnd_frame d (upsetStore c d s)
  obtain ⟨ctl, rx, filter, tx, mem, port, pins⟩ := faultFrom_frame (acquisitionEnd d (upsetStore c d s))
  have pending := (faultFrom_endsAs (acquisitionEnd d (upsetStore c d s))).pending
  unfold faulted
  exact ⟨ctl.trans (by rw [uctl, sctl]), rx.trans (by rw [urx, srx]), filter.trans (by rw [ufilter, sfilter]),
    tx.trans (by rw [utx, stx]), mem.trans (by rw [umem, smem]), port.trans (uport.trans sport),
    pins.trans (upins.trans spins), pending.trans (upending.trans spending)⟩

/-- Settles O31: the row that stands, and FAULT entry block by block on the end of acquisition. -/
theorem parityMismatchEntersFault : Obligations.ParityMismatchEntersFault := by
  intro c f upset s ha d
  have struck : struckStore s.ctl.blocks f upset c = d := rfl
  refine ⟨fun h => execParityMismatch_stands ha (struck ▸ h), fun hm hu hf => ⟨faulted c d s, ?_, ?_⟩⟩
  · rw [execParityMismatch_faults ha (struck ▸ hm) hu hf, struck]
  clear_value d
  have ended : AcquisitionEnded d s (faulted c d s) :=
    acquisitionEnded_before_upset (faultFrom_endsAs (acquisitionEnd d (upsetStore c d s))).acquisitionEnded
  obtain ⟨ctl, rx, filter, tx, mem, port, pins, pending⟩ := faulted_frame c d s
  obtain ⟨configFault, mask, levels⟩ := faulted_events c d s
  generalize faulted c d s = t at *
  rw [ctl, rx, filter, tx, mem]
  exact ⟨rfl, rfl, rfl, ended, configFault, mask, levels, rfl, rfl, rfl, rfl, rfl, rfl, rfl, rfl, by simp,
    fillAbandoned_abandonFill s.mem, port, pins, pending⟩

end Sys2Proof.Machine
end

section
/-! The bytes of the host's commands (R194, R198, R199): what the command decoder reads from them, and when a host row
acts. -/

namespace Sys2Proof.Machine

open Sys2Proof.Claims

/-! ### The command decoder -/

/-- R194: a 16-bit argument sent as two bytes is read back. -/
theorem pair_extractLsb' (v : BitVec 16) : pair (v.extractLsb' 8 8) (v.extractLsb' 0 8) = v :=
  (BitVec.extractLsb'_append_extractLsb'_eq_extractLsb' (x := v) (start₁ := 0) (len₁ := 8) (len₂ := 8) rfl).trans
    BitVec.extractLsb'_eq_self

/-- R199: a byte outside the command list is a whole command at once. -/
theorem decodeCommand_unlisted {code : Byte} (args : List Byte) (h : code.toNat ∉ commandBytes) :
    decodeCommand (code :: args) = some (.badCommand code) := by
  unfold decodeCommand
  dsimp only
  split
  case h_17 => rfl
  all_goals
    rename_i listed
    exact absurd (listed ▸ by decide) h

/-- R194, R198: the block is the first 116 argument bytes. -/
theorem decodeCommand_configure {block : List Byte} (later : List Byte) (h : block.length = configBytes) :
    decodeCommand (0x02 :: block ++ later) = some (.configure block) := by
  have enough : ¬ (block ++ later).length < configBytes := by
    rw [List.length_append, h]
    omega
  exact (if_neg enough).trans (congrArg (some ∘ Instr.configure) (List.take_left' h))

theorem decodeCommand_hostBytes {i : Instr} {bytes : List Byte} (later : List Byte) (hw : i.wf = true)
    (hb : hostBytes i = some bytes) : decodeCommand (bytes ++ later) = some i := by
  cases i with
  | configure block =>
    obtain rfl := Option.some.inj hb
    exact decodeCommand_configure later (beq_iff_eq.1 hw)
  | badCommand code =>
    obtain rfl := Option.some.inj hb
    exact decodeCommand_unlisted later (by simpa [Instr.wf] using hw)
  | readData slot index offset count =>
    obtain rfl := Option.some.inj hb
    show some (Instr.readData slot index (pair (offset.extractLsb' 8 8) (offset.extractLsb' 0 8))
      (pair (count.extractLsb' 8 8) (count.extractLsb' 0 8))) = _
    rw [pair_extractLsb', pair_extractLsb']
  | status | start | stop | reset | listRecords | readRecord _ | release _ | softTrigger | peekLog | takeLog
  | readErrorCount | readRemap | nextEvent | setMask _ =>
    obtain rfl := Option.some.inj hb
    rfl
  | csnRise | powerOnReset _ | pinReset _ | parityMismatch _ _ | fillComplete | sweepStart | frameComplete _
  | trigInSample _ | leadingEdge | trailingEdge _ | tagSlotSample _ | tagWindowEnd _ | holdoffExpire
  | numberSlotSample _ | numberWindowEnd _ | lineStuckDeclare | stuckRelease | recoverComplete | driveStart | driveEnd
  | slotDutyDrive | numberBitDrive | epochRequest | localEpoch | prefetchRead | scrubRequest | scrubRead | writeBack
  | csnFall | rstnLow | recoverCountRestart => exact nomatch hb

/-- Settles O4: command by command. -/
theorem decoderReadsBackEveryHostCommand : Obligations.DecoderReadsBackEveryHostCommand :=
  fun _ _ later hw hb => decodeCommand_hostBytes later hw hb

/-! ### When a host row acts (R194, R195, R199) -/

/-- R194: outside the command phase the port takes no command. -/
theorem hostRow_elsewhere {s : State} (h : s.port.phase ≠ .command) (code : Byte) (args : List Byte)
    (f : State → State × List Byte) :
    (.next (hostCommand code args f s) : Host.Outcome State Fault Refusal) = .next s :=
  congrArg _ (hostCommand_elsewhere h code args f)

theorem exec_outside_command {i : Instr} {s : State} (hi : (hostBytes i).isSome = true)
    (h : s.port.phase ≠ .command) : exec i s = .next s := by
  cases i with
  | configure block => exact congrArg _ (ite_eq_left_iff.2 fun _ => hostCommand_elsewhere h _ _ _)
  | badCommand code => exact congrArg _ (ite_eq_left_iff.2 fun _ => hostCommand_elsewhere h _ _ _)
  | status | start | stop | reset | listRecords | readRecord _ | readData _ _ _ _ | release _ | softTrigger | peekLog
  | takeLog | readErrorCount | readRemap | nextEvent | setMask _ => exact hostRow_elsewhere h _ _ _
  | csnRise | powerOnReset _ | pinReset _ | parityMismatch _ _ | fillComplete | sweepStart | frameComplete _
  | trigInSample _ | leadingEdge | trailingEdge _ | tagSlotSample _ | tagWindowEnd _ | holdoffExpire
  | numberSlotSample _ | numberWindowEnd _ | lineStuckDeclare | stuckRelease | recoverComplete | driveStart | driveEnd
  | slotDutyDrive | numberBitDrive | epochRequest | localEpoch | prefetchRead | scrubRequest | scrubRead | writeBack
  | csnFall | rstnLow | recoverCountRestart => exact nomatch hi

/-- R199: an unlisted byte is refused and changes nothing. -/
theorem execBadCommand_answered {code : Byte} {s : State} (hs : InCommand s) (h : code.toNat ∉ commandBytes) :
    exec (.badCommand code) s = .next (answered s code [] [0x01]) := by
  have unlisted : ¬ commandBytes.contains code.toNat = true := by simpa using h
  exact congrArg _ ((if_neg unlisted).trans (hostCommand_answered hs rfl))

/-- Settles O13: the row's phase, the block's length, and the byte's place in the command list. -/
theorem hostRowsActOnlyInTheCommandPhase : Obligations.HostRowsActOnlyInTheCommandPhase :=
  ⟨fun _ _ hi h => exec_outside_command hi h, fun _ _ short => congrArg _ (if_pos short),
    fun _ _ hs h => execBadCommand_answered hs h⟩

end Sys2Proof.Machine
end

section
/-! The layouts of the status response and of a record descriptor (R201), byte by byte. -/

namespace Sys2Proof.Machine

open Sys2Proof.Claims

/-! ### The status response -/

theorem toNat_eq_ite (b : Bool) : b.toNat = if b then 1 else 0 := by
  cases b <;> rfl

/-- A flag that stands in a byte at the bit of weight k. -/
theorem weighted_toNat (k : Nat) (b : Bool) : k * b.toNat = if b then k else 0 := by
  cases b with
  | false => exact Nat.mul_zero k
  | true => exact Nat.mul_one k

theorem locked_toNat (y : Sync) : (y == .locked).toNat = if y = .locked then 1 else 0 := by
  cases y <;> rfl

/-- R201: the sixteen bytes of the status response, one by one. -/
theorem statusBytes_eq (s : State) :
    statusBytes s
      = [BitVec.ofNat 8 s.ctl.state.code,
        BitVec.ofNat 8
          ((if s.tb.sync = .locked then 1 else 0) + 2 * s.writer.state.code + 8 * s.ctl.stationId.toNat),
        BitVec.ofNat 8 (s.pool.free.length / 256), BitVec.ofNat 8 s.pool.free.length,
        BitVec.ofNat 8 s.pool.history.length,
        BitVec.ofNat 8 (s.pool.withdrawn.length / 256), BitVec.ofNat 8 s.pool.withdrawn.length,
        BitVec.ofNat 8 (s.ret.spares.toList.countP (· == .unused)),
        BitVec.ofNat 8 (s.recs.slots.toList.countP Option.isSome),
        BitVec.ofNat 8 s.mem.log.length, BitVec.ofNat 8 s.recs.missed, BitVec.ofNat 8 s.tx.suppressed,
        BitVec.ofNat 8 s.tx.lost, BitVec.ofNat 8 s.rx.lineErrors,
        BitVec.ofNat 8 (s.writer.discarded / 256), BitVec.ofNat 8 s.writer.discarded] := by
  unfold statusBytes usedSlots unusedSpares
  rw [locked_toNat, ← List.countP_eq_length_filter, ← List.countP_eq_length_filter]
  rfl

/-- Settles O15. -/
theorem statusReportsTheStation : Obligations.StatusReportsTheStation := by
  intro s hs
  rw [← statusBytes_eq]
  exact congrArg _ (hostCommand_answered hs rfl)

/-! ### A descriptor's parts -/

theorem flagByte_eq (f : RecFlags) :
    flagByte f
      = BitVec.ofNat 8 ((if f.preShort then 1 else 0) + (if f.truncated then 2 else 0) + (if f.stopped then 4 else 0)
          + (if f.extendCapped then 8 else 0) + (if f.memError then 16 else 0) + (if f.unsynced then 32 else 0)) := by
  unfold flagByte byte
  rw [toNat_eq_ite f.preShort]
  simp only [weighted_toNat]

theorem presenceByte_eq (origin : Option IdSet) (cause : Option Cause) :
    presenceByte origin cause
      = BitVec.ofNat 8 ((if origin.isSome then 1 else 0) + (if cause.isSome then 2 else 0)
          + (if cause.any (·.retried) then 4 else 0)) := by
  unfold presenceByte byte
  rw [toNat_eq_ite origin.isSome]
  simp only [weighted_toNat]

/-- R201: a timestamp's five bytes. -/
theorem stampBytes_eq (t : Timestamp) :
    stampBytes t
      = [BitVec.ofNat 8 (t.epoch.toNat / 256), BitVec.ofNat 8 t.epoch.toNat,
         BitVec.ofNat 8 (t.phase.toNat / 256), BitVec.ofNat 8 t.phase.toNat, (if t.unsynced then 1 else 0)] := by
  have unsynced : byte t.unsynced.toNat = if t.unsynced then 1 else 0 := by
    cases t.unsynced <;> rfl
  rw [← unsynced]
  rfl

/-- R201: the descriptor's first twelve bytes, up to the presence byte. -/
def descriptorHead (i : SlotNo) (r : Record) : List Byte :=
  [byte i.val] ++ bytes2 r.sequence.toNat ++ [byte r.state.code, flagByte r.flags, byte r.uncorrectable]
  ++ stampBytes r.trigTime ++ [presenceByte r.origin r.cause]

/-- R201: the last nine bytes of the descriptor's fixed part. -/
def descriptorCounts (r : Record) : List Byte :=
  bytes2 r.firstOffset ++ bytes2 r.trigIndex ++ bytes2 r.total
  ++ [byte r.overflow, byte r.retrigs.length, byte r.chain.length]

/-- R201: the descriptor's lists. -/
def descriptorLists (s : State) (r : Record) : List Byte :=
  r.retrigs.flatMap retriggerBytes ++ r.chain.flatMap (chainBytes s)

theorem descriptorBytes_parts (s : State) (i : SlotNo) (r : Record) :
    descriptorBytes s i r
      = descriptorHead i r ++ (originBytes r.origin
          ++ (causeBytes r.cause ++ (descriptorCounts r ++ descriptorLists s r))) := by
  simp only [descriptorBytes, descriptorHead, descriptorCounts, descriptorLists, List.append_assoc]

theorem length_descriptorHead (i : SlotNo) (r : Record) : (descriptorHead i r).length = 12 := rfl

theorem length_descriptorCounts (r : Record) : (descriptorCounts r).length = 9 := rfl

/-! ### Each part at its place -/

theorem descriptorBytes_head (s : State) (i : SlotNo) (r : Record) :
    (descriptorBytes s i r).take 12 = descriptorHead i r := by
  rw [descriptorBytes_parts, List.take_left' (length_descriptorHead i r)]

theorem descriptorBytes_drop_head (s : State) (i : SlotNo) (r : Record) :
    (descriptorBytes s i r).drop 12
      = originBytes r.origin ++ (causeBytes r.cause ++ (descriptorCounts r ++ descriptorLists s r)) := by
  rw [descriptorBytes_parts, List.drop_left' (length_descriptorHead i r)]

theorem descriptorBytes_drop_origin (s : State) (i : SlotNo) (r : Record) :
    (descriptorBytes s i r).drop 16 = causeBytes r.cause ++ (descriptorCounts r ++ descriptorLists s r) := by
  rw [show 16 = 12 + 4 from rfl, ← List.drop_drop, descriptorBytes_drop_head,
    List.drop_left' (length_originBytes r.origin)]

theorem descriptorBytes_drop_cause (s : State) (i : SlotNo) (r : Record) :
    (descriptorBytes s i r).drop 23 = descriptorCounts r ++ descriptorLists s r := by
  rw [show 23 = 16 + 7 from rfl, ← List.drop_drop, descriptorBytes_drop_origin,
    List.drop_left' (length_causeBytes r.cause)]

theorem descriptorBytes_origin (s : State) (i : SlotNo) (r : Record) :
    ((descriptorBytes s i r).drop 12).take 4 = originBytes r.origin := by
  rw [descriptorBytes_drop_head, List.take_left' (length_originBytes r.origin)]

theorem descriptorBytes_cause (s : State) (i : SlotNo) (r : Record) :
    ((descriptorBytes s i r).drop 16).take 7 = causeBytes r.cause := by
  rw [descriptorBytes_drop_origin, List.take_left' (length_causeBytes r.cause)]

theorem descriptorBytes_counts (s : State) (i : SlotNo) (r : Record) :
    ((descriptorBytes s i r).drop 23).take 9 = descriptorCounts r := by
  rw [descriptorBytes_drop_cause, List.take_left' (length_descriptorCounts r)]

theorem descriptorBytes_lists (s : State) (i : SlotNo) (r : Record) :
    (descriptorBytes s i r).drop 32 = descriptorLists s r := by
  rw [show 32 = 23 + 9 from rfl, ← List.drop_drop, descriptorBytes_drop_cause,
    List.drop_left' (length_descriptorCounts r)]

/-- R201: the twelve bytes of the head, one by one. -/
theorem descriptorHead_eq (i : SlotNo) (r : Record) :
    descriptorHead i r
      = [BitVec.ofNat 8 i.val, BitVec.ofNat 8 (r.sequence.toNat / 256), BitVec.ofNat 8 r.sequence.toNat,
         BitVec.ofNat 8 r.state.code,
         BitVec.ofNat 8 ((if r.flags.preShort then 1 else 0) + (if r.flags.truncated then 2 else 0)
           + (if r.flags.stopped then 4 else 0) + (if r.flags.extendCapped then 8 else 0)
           + (if r.flags.memError then 16 else 0) + (if r.flags.unsynced then 32 else 0)),
         BitVec.ofNat 8 r.uncorrectable,
         BitVec.ofNat 8 (r.trigTime.epoch.toNat / 256), BitVec.ofNat 8 r.trigTime.epoch.toNat,
         BitVec.ofNat 8 (r.trigTime.phase.toNat / 256), BitVec.ofNat 8 r.trigTime.phase.toNat,
         (if r.trigTime.unsynced then 1 else 0),
         BitVec.ofNat 8 ((if r.origin.isSome then 1 else 0) + (if r.cause.isSome then 2 else 0)
           + (if r.cause.any (·.retried) then 4 else 0))] := by
  unfold descriptorHead
  rw [flagByte_eq, presenceByte_eq, stampBytes_eq]
  rfl

/-- R201: the seven bytes of a local cause, one by one. -/
theorem causeBytes_some (q : Cause) :
    causeBytes (some q)
      = [BitVec.ofNat 8 (q.causes.toNat / 256), BitVec.ofNat 8 q.causes.toNat,
         BitVec.ofNat 8 (q.first.epoch.toNat / 256), BitVec.ofNat 8 q.first.epoch.toNat,
         BitVec.ofNat 8 (q.first.phase.toNat / 256), BitVec.ofNat 8 q.first.phase.toNat,
         (if q.first.unsynced then 1 else 0)] :=
  congrArg (bytes2 q.causes.toNat ++ ·) (stampBytes_eq q.first)

/-- Settles O17: each part of a descriptor at its place, and the forms the layouts share. -/
theorem descriptorIsLaidOutAsTheSpecSays : Obligations.DescriptorIsLaidOutAsTheSpecSays := by
  intro s i r
  refine ⟨(descriptorBytes_head s i r).trans (descriptorHead_eq i r), fun absent => ?_, fun ids present => ?_,
    fun absent => ?_, fun q present => ?_, descriptorBytes_counts s i r, descriptorBytes_lists s i r,
    fun t => ⟨stampBytes_eq t, rfl⟩, rfl, presenceByte_eq, rfl, fun _ => rfl, rfl, fun _ => rfl, rfl, rfl, rfl, rfl,
    rfl, fun _ => rfl⟩
  · rw [descriptorBytes_origin, absent]
    rfl
  · rw [descriptorBytes_origin, present]
    rfl
  · rw [descriptorBytes_cause, absent]
    rfl
  · rw [descriptorBytes_cause, present, causeBytes_some]

end Sys2Proof.Machine
end

section
/-! The transactions of the host port (R194, R195, R197, R200): CSN opens and ends them, and what each byte clocked in
between leaves. -/

namespace Sys2Proof.Machine

open Sys2Proof.Claims

/-! ### CSN -/

theorem csnFall_opens {s : State} (hc : s.pins.csnLow = false) (hr : s.pins.rstnLow = false)
    (hp : s.port.phase = .idle) :
    exec .csnFall s = .next { s with
      pins := { s.pins with csnLow := true }, port := { State.reset.port with phase := .command } } := by
  show execCsnFall s = _
  simp [execCsnFall, State.live, hc, hr, hp, State.reset]

theorem csnFall_ignored {s : State} (hc : s.pins.csnLow = false)
    (h : s.pins.rstnLow = true ∨ s.port.phase ≠ .idle) :
    exec .csnFall s = .next { s with pins := { s.pins with csnLow := true } } := by
  have taken : ¬ (s.live && s.port.phase == .idle) = true := by
    rcases h with h | h <;> simp [State.live, h]
  show execCsnFall s = _
  unfold execCsnFall
  dsimp only
  rw [hc, if_neg Bool.false_ne_true, if_neg taken]

theorem csnRise_ends {s : State} (hc : s.pins.csnLow = true) :
    exec .csnRise s = .next { s with
      pins := { s.pins with csnLow := false }, port := State.reset.port, mem := { s.mem with prefetch := none } } :=
  congrArg _ (if_pos hc)

/-! ### Whether the port shifts, and MISO (R194) -/

theorem phase_of_pair {a b phase : PortPhase} (h : phase ∈ [a, b]) : phase = a ∨ phase = b := by
  simpa only [List.mem_cons, List.not_mem_nil, or_false] using h

theorem not_shifting {s : State}
    (h : s.pins.csnLow = false ∨ s.pins.rstnLow = true ∨ s.port.phase ∈ [PortPhase.idle, .waitRise]) :
    s.shifting = false := by
  unfold State.shifting State.live
  rcases h with h | h | h
  · simp [h]
  · simp [h]
  · rcases phase_of_pair h with h | h <;> simp [h]

theorem shifting_of_phase {s : State} (hc : s.pins.csnLow = true) (hr : s.pins.rstnLow = false)
    (hp : s.port.phase ∈ [PortPhase.command, .arguments, .response, .trailing]) : s.shifting = true := by
  unfold State.shifting State.live
  rw [hc, hr]
  cases hphase : s.port.phase with
  | command | arguments | response | trailing => rfl
  | idle | waitRise => simp [hphase] at hp

theorem misoByte_silent {s : State} (h : s.shifting = false) : s.misoByte = none := by
  unfold State.misoByte
  rw [h]
  rfl

theorem misoByte_receiving {s : State} (h : s.shifting = true)
    (hp : s.port.phase ∈ [PortPhase.command, .arguments]) : s.misoByte = some 0x00 := by
  unfold State.misoByte
  rw [if_pos h]
  rcases phase_of_pair hp with hp | hp <;> rw [hp]

theorem misoByte_trailing {s : State} (h : s.shifting = true) (hp : s.port.phase = .trailing) :
    s.misoByte = some 0xFF := by
  unfold State.misoByte
  rw [if_pos h, hp]

theorem misoByte_response {s : State} {b : Byte} (h : s.shifting = true) (hp : s.port.phase = .response)
    (hb : s.port.response[place s]? = some b) : s.misoByte = some b := by
  have sent : s.port.response[s.port.place]? = some b := hb
  unfold State.misoByte
  rw [if_pos h, hp]
  dsimp only
  rw [List.getD_eq_getElem?_getD, sent, Option.getD_some]

/-! ### Bits make bytes (R194) -/

/-- The byte being received once a bit has joined it. -/
def joinBit (v : Byte) (bit : Bool) : Byte := (v <<< 1) ||| (BitVec.ofBool bit).setWidth 8

theorem received_eq_joinBit (bit : Bool) (p : Port) : p.received bit = joinBit p.shiftIn bit := rfl

/-- The port takes bits in: a command or its arguments are on their way. -/
def Port.receiving (p : Port) : Bool := p.phase == .command || p.phase == .arguments

/-- The port some bits further within a byte. -/
def Port.shifted (bits : List Bool) (p : Port) : Port :=
  { p with
    bitCount := p.bitCount + bits.length,
    shiftIn := if p.receiving then bits.foldl joinBit p.shiftIn else p.shiftIn }

theorem shifted_cons (bit : Bool) (bits : List Bool) (p : Port) :
    (p.shifted [bit]).shifted bits = p.shifted (bit :: bits) := by
  have same : (p.shifted [bit]).receiving = p.receiving := rfl
  unfold Port.shifted at same ⊢
  rw [same]
  cases p.receiving <;> simp [Nat.add_assoc, Nat.add_comm 1]

/-- A bit within a byte. -/
theorem clockBit_within {s : State} (bit : Bool) (h : s.shifting = true) (hb : s.port.bitCount < 7) :
    clockBit bit s = { s with port := s.port.shifted [bit] } := by
  unfold clockBit
  rw [if_pos h]
  exact if_pos hb

/-- The bits within a byte move the port alone. -/
theorem clockBits_within : ∀ (bits : List Bool) {s : State}, s.shifting = true → s.port.bitCount + bits.length ≤ 7 →
    bits.foldl (fun u x => clockBit x u) s = { s with port := s.port.shifted bits }
  | [], s, _, _ => by simp [Port.shifted]
  | bit :: bits, s, h, hb => by
    rw [List.length_cons] at hb
    have later := clockBits_within bits (s := { s with port := s.port.shifted [bit] }) h
      (by simp only [Port.shifted, List.length_singleton]; omega)
    rw [List.foldl_cons, clockBit_within bit h (by omega), later, shifted_cons]

/-- The first seven bits of a byte. -/
def leadingBits (b : Byte) : List Bool := (List.range 7).map (fun i => b.getLsbD (7 - i))

theorem bitsOf_eq (b : Byte) : bitsOf b = leadingBits b ++ [b.getLsbD 0] := rfl

/-- R194: the eight bits of a byte, most significant first, spell it. -/
theorem foldl_joinBit_bitsOf (b : Byte) : (bitsOf b).foldl joinBit 0 = b := by
  apply BitVec.eq_of_getLsbD_eq
  intro i hi
  match i, hi with
  | 0, _ | 1, _ | 2, _ | 3, _ | 4, _ | 5, _ | 6, _ | 7, _ => simp [bitsOf, List.range_succ, joinBit]

/-- The state with all but the last bit of a byte clocked in. -/
def State.lastBitWaits (b : Byte) (s : State) : State := { s with port := s.port.shifted (leadingBits b) }

/-- R194, R195: the last bit of a byte completes it, to be taken or sent by the phase. -/
theorem clockByte_eq {s : State} (b : Byte) (h : s.shifting = true) (h0 : s.port.bitCount = 0) :
    clockByte b s
      = if s.port.receiving then
          takeByte ((s.lastBitWaits b).port.received (b.getLsbD 0)) (s.lastBitWaits b)
        else sendByte (s.lastBitWaits b) := by
  have seven : s.port.bitCount + (leadingBits b).length = 7 := by
    simp [h0, leadingBits]
  have shifts : (s.lastBitWaits b).shifting = true := h
  have full : ¬ (s.lastBitWaits b).port.bitCount < 7 := Nat.not_lt_of_le (Nat.le_of_eq seven.symm)
  have last : clockByte b s = clockBit (b.getLsbD 0) (s.lastBitWaits b) := by
    unfold clockByte
    rw [bitsOf_eq, List.foldl_append, clockBits_within _ h (Nat.le_of_eq seven)]
    rfl
  rw [last]
  unfold clockBit
  rw [if_pos shifts]
  exact if_neg full

/-! ### Bytes of the command (R195, R198) -/

theorem receiving_iff (p : Port) : p.receiving = true ↔ p.phase ∈ [PortPhase.command, .arguments] := by
  simp [Port.receiving]

/-- R194, R195: a byte of the command or its arguments is taken when its last bit is in. -/
theorem clockByte_received {s : State} (b : Byte) (h : s.shifting = true) (hp : s.port.receiving = true)
    (h0 : s.port.bitCount = 0) (hz : s.port.shiftIn = 0) :
    clockByte b s = takeByte b (s.lastBitWaits b) := by
  have whole : (s.lastBitWaits b).port.received (b.getLsbD 0) = b := by
    calc (s.lastBitWaits b).port.received (b.getLsbD 0)
        = joinBit (s.lastBitWaits b).port.shiftIn (b.getLsbD 0) := received_eq_joinBit _ _
      _ = (bitsOf b).foldl joinBit 0 := by
          rw [bitsOf_eq, List.foldl_append, State.lastBitWaits, Port.shifted, if_pos hp, hz]
          rfl
      _ = b := foldl_joinBit_bitsOf b
  rw [clockByte_eq b h h0, if_pos hp, whole]

/-- R195: with the last of its bytes the command stands at the front of the queue. -/
theorem takeByte_spells {s : State} {b code : Byte} {args : List Byte} {c : Instr}
    (hb : s.port.command.toList ++ s.port.args ++ [b] = code :: args) (hc : decodeCommand (code :: args) = some c) :
    takeByte b s = { s with port := { Port.reset with phase := .command }, pending := c :: s.pending } := by
  unfold takeByte
  rw [hb]
  dsimp only
  rw [hc]

/-- R195: while bytes are missing the byte joins the command and its arguments. -/
theorem takeByte_joins {s : State} {b code : Byte} {args : List Byte}
    (hb : s.port.command.toList ++ s.port.args ++ [b] = code :: args) (hc : decodeCommand (code :: args) = none) :
    takeByte b s = { s with port := { s.port with
      phase := .arguments, bitCount := 0, shiftIn := 0, byteCount := s.port.byteCount + 1, command := some code,
      args := args } } := by
  unfold takeByte
  rw [hb]
  dsimp only
  rw [hc]

theorem clockByte_spells {s : State} {b code : Byte} {args : List Byte} {c : Instr} (h : s.shifting = true)
    (hp : s.port.receiving = true) (h0 : s.port.bitCount = 0) (hz : s.port.shiftIn = 0)
    (hb : s.port.command.toList ++ s.port.args ++ [b] = code :: args) (hc : decodeCommand (code :: args) = some c) :
    clockByte b s = { s with port := { Port.reset with phase := .command }, pending := c :: s.pending } :=
  (clockByte_received b h hp h0 hz).trans (takeByte_spells hb hc)

theorem clockByte_joins {s : State} {b code : Byte} {args : List Byte} (h : s.shifting = true)
    (hp : s.port.receiving = true) (h0 : s.port.bitCount = 0) (hz : s.port.shiftIn = 0)
    (hb : s.port.command.toList ++ s.port.args ++ [b] = code :: args) (hc : decodeCommand (code :: args) = none) :
    clockByte b s = { s with port := { s.port with
      phase := .arguments, byteCount := s.port.byteCount + 1, command := some code, args := args } } := by
  refine ((clockByte_received b h hp h0 hz).trans (takeByte_joins hb hc)).trans ?_
  dsimp only
  rw [h0, hz]
  rfl

/-! ### Bytes of the response (R194, R200) -/

/-- The port once a byte has been shifted out, in the phase that follows it. -/
def Port.sent (phase : PortPhase) (p : Port) : Port := { p with phase := phase, byteCount := p.byteCount + 1 }

/-- Whether a READ DATA has words still to be read. -/
def State.wordsRemain (s : State) : Bool := s.mem.prefetch.any (fun p => 0 < p.remaining)

/-- R194: the phase after the byte, by what is left of the response. -/
def Port.phaseAfter (reading : Bool) (p : Port) : PortPhase :=
  { p with byteCount := p.byteCount + 1 }.sentPhase reading

theorem place_sent {phase : PortPhase} {p : Port} (h : 1 + p.args.length ≤ p.byteCount) :
    (p.sent phase).place = p.place + 1 :=
  Nat.sub_add_comm h

theorem phaseAfter_eq {reading : Bool} {p : Port} (h : 1 + p.args.length ≤ p.byteCount) :
    p.phaseAfter reading = if p.response.length ≤ p.place + 1 && !reading then .trailing else p.phase := by
  rw [← place_sent (phase := p.phase) h]
  rfl

theorem phaseAfter_trailing {reading : Bool} {p : Port} (h : p.phase = .trailing) :
    p.phaseAfter reading = .trailing := by
  unfold Port.phaseAfter Port.sentPhase
  rw [h, ite_self]

/-- A byte clocked in while the port sends moves the response on. -/
theorem clockByte_sent {s : State} (b : Byte) (h : s.shifting = true) (hp : s.port.receiving = false)
    (h0 : s.port.bitCount = 0) :
    clockByte b s = shiftWord { s with port := s.port.sent (s.port.phaseAfter s.wordsRemain) } := by
  have sending : ¬ s.port.receiving = true := Bool.eq_false_iff.1 hp
  rw [clockByte_eq b h h0, if_neg sending]
  unfold sendByte State.lastBitWaits Port.sent Port.phaseAfter Port.shifted
  rw [hp, h0]
  rfl

theorem shiftWord_stands {s : State} (h : s.port.prefetchWord = none ∨ s.port.place % 2 = 0) : shiftWord s = s := by
  refine if_neg ?_
  rcases h with h | h <;> simp [h]

/-- R200, R141: a word of the range begins to shift out, and the next is presented. -/
theorem shiftWord_presents {s : State} {p : Prefetch} {w : Word} (hm : s.mem.prefetch = some p)
    (hw : s.port.prefetchWord = some w) (h : s.port.place % 2 = 1) :
    shiftWord s = { s with
      port := { s.port with prefetchWord := none },
      mem := { s.mem with prefetch := some { p with presented := decide (0 < p.remaining) } } } := by
  refine (if_pos (by simp [hw, h])).trans ?_
  rw [hm]
  rfl

/-- A byte with no word of a READ DATA in it moves the port alone. -/
theorem clockByte_moves_on {s : State} {phase : PortPhase} (b : Byte) (h : s.shifting = true)
    (hp : s.port.receiving = false) (h0 : s.port.bitCount = 0) (hphase : s.port.phaseAfter s.wordsRemain = phase)
    (hw : s.port.prefetchWord = none ∨ (s.port.sent phase).place % 2 = 0) :
    clockByte b s = { s with port := s.port.sent phase } := by
  rw [clockByte_sent b h hp h0, hphase]
  exact shiftWord_stands hw

/-- R200: as a word of a READ DATA begins to shift out, the prefetch word empties and the next is presented. -/
theorem clockByte_presents {s : State} {phase : PortPhase} {p : Prefetch} {w : Word} (b : Byte) (h : s.shifting = true)
    (hp : s.port.receiving = false) (h0 : s.port.bitCount = 0) (hphase : s.port.phaseAfter s.wordsRemain = phase)
    (hm : s.mem.prefetch = some p) (hw : s.port.prefetchWord = some w) (odd : (s.port.sent phase).place % 2 = 1) :
    clockByte b s = { s with
      port := { s.port.sent phase with prefetchWord := none },
      mem := { s.mem with prefetch := some { p with presented := decide (0 < p.remaining) } } } := by
  rw [clockByte_sent b h hp h0, hphase]
  exact shiftWord_presents hm hw odd

theorem sent_same {p : Port} {phase : PortPhase} (h : p.phase = phase) :
    p.sent phase = { p with byteCount := p.byteCount + 1 } := by
  rw [← h]
  rfl

theorem not_receiving {p : Port} (h : p.phase = .response ∨ p.phase = .trailing) : p.receiving = false := by
  rcases h with h | h <;> simp [Port.receiving, h]

/-- R194: within the response its phase stands. -/
theorem phaseAfter_within {reading : Bool} {p : Port} (hb : 1 + p.args.length ≤ p.byteCount)
    (h : p.place + 1 < p.response.length) : p.phaseAfter reading = p.phase := by
  have more : decide (p.response.length ≤ p.place + 1) = false := decide_eq_false (Nat.not_le_of_lt h)
  rw [phaseAfter_eq hb, more]
  rfl

/-- R194: with nothing more to read, the trailing phase follows the response's last byte. -/
theorem phaseAfter_unread {s : State} (hb : 1 + s.port.args.length ≤ s.port.byteCount) (hm : s.mem.prefetch = none) :
    s.port.phaseAfter s.wordsRemain
      = if s.port.response.length ≤ s.port.place + 1 then .trailing else s.port.phase := by
  have unread : s.wordsRemain = false := by rw [State.wordsRemain, hm]; rfl
  rw [phaseAfter_eq hb, unread]
  simp only [Bool.not_false, Bool.and_true, decide_eq_true_eq]

/-- Settles O14: the edges of CSN, the silent port, then MISO and a byte by the phase it falls in. -/
theorem csnOpensAndEndsTransactions : Obligations.CsnOpensAndEndsTransactions := by
  intro s
  refine ⟨fun hc => ⟨csnFall_opens hc, csnFall_ignored hc⟩, csnRise_ends, fun h => ?silent, fun hc hr =>
    ⟨fun hp => ?receivingMiso, fun hp => ?trailingMiso, fun b hp hb => ?responseMiso, fun b hb => ?level,
      fun b h0 => ⟨fun code args hp hz hb => ?command, fun hp hw => ?trailing, fun hp hbytes => ?response⟩⟩⟩
  case silent =>
    have silent := misoByte_silent (not_shifting h)
    exact ⟨silent, congrArg (Option.map _) silent, fun bit => clockBit_ignored bit (not_shifting h)⟩
  case receivingMiso => exact misoByte_receiving (shifting_of_phase hc hr (List.mem_append_left _ hp)) hp
  case trailingMiso => exact misoByte_trailing (shifting_of_phase hc hr (by simp [hp])) hp
  case responseMiso => exact misoByte_response (shifting_of_phase hc hr (by simp [hp])) hp hb
  case level => exact congrArg (Option.map _) hb
  case command =>
    have shifts := shifting_of_phase hc hr (List.mem_append_left _ hp)
    have takes := (receiving_iff s.port).2 hp
    exact ⟨fun c spelt => clockByte_spells shifts takes h0 hz hb spelt, clockByte_joins shifts takes h0 hz hb⟩
  case trailing =>
    have shifts := shifting_of_phase hc hr (by simp [hp])
    rw [clockByte_moves_on b shifts (not_receiving (.inr hp)) h0 (phaseAfter_trailing hp) (.inl hw), sent_same hp]
  case response =>
    have shifts := shifting_of_phase hc hr (by simp [hp])
    have sends := not_receiving (.inl hp)
    have within : place s + 1 < s.port.response.length → s.port.phaseAfter s.wordsRemain = .response :=
      fun short => (phaseAfter_within hbytes short).trans hp
    have next_place : (s.port.sent .response).place = place s + 1 := place_sent hbytes
    refine ⟨fun hm hw => ?_, fun p w hm hw odd short => ?_, fun hw short => ?_⟩
    · exact clockByte_moves_on b shifts sends h0 ((phaseAfter_unread hbytes hm).trans (by rw [hp]; rfl)) (.inl hw)
    · rw [clockByte_presents b shifts sends h0 (within short) hm hw (next_place ▸ odd), sent_same hp]
    · rw [clockByte_moves_on b shifts sends h0 (within short) (next_place ▸ hw), sent_same hp]

end Sys2Proof.Machine
end

section
/-! One step of the station (logs 1, 2 and 6): the front command is run on the queue's rest, and on an empty queue a due
row, a bit that waits on MOSI, or the clock. -/

namespace Sys2Proof.Machine

open Sys2Proof.Claims

/-! ### The step -/

theorem step_queued {c : Instr} {rest : List Instr} {s : State} (h : s.pending = c :: rest) :
    step s = exec c { s with pending := rest } := by
  unfold step
  rw [h]

theorem step_empty {s : State} (h : s.pending = []) : step s = .next (idle s) := by
  unfold step
  rw [h]

/-- Settles O1: the step on a queue that is not empty. -/
theorem stepRunsTheFrontCommand : Obligations.StepRunsTheFrontCommand := by
  intro c s rest
  exact step_queued rfl

/-! ### What an idle step does (logs 2, 6) -/

theorem idle_row {s : State} {row : Instr} (h : rowNow s = some row) : idle s = { s with pending := [row] } := by
  unfold idle
  rw [h]

theorem idle_bit {s : State} {bit : Bool} {rest : List Bool} (h : rowNow s = none) (hm : s.pins.mosi = bit :: rest) :
    idle s = clockBit bit { s with pins := { s.pins with mosi := rest } } := by
  unfold idle
  rw [h, hm]

theorem idle_quiet {s : State} (h : rowNow s = none) (hm : s.pins.mosi = []) : idle s = timePasses s := by
  unfold idle
  rw [h, hm]

/-! ### The passing of time (R92, R117) -/

theorem sampleLine_of_not_waiting {s : State} (h : sampleWaits s = false) : sampleLine s = s :=
  if_neg (ne_true_of_eq_false h)

/-- R117: no tick passes while the prescaler is stopped or no block is held. -/
theorem countTick_stopped {s : State} (h : s.tb.prescale = none ∨ s.ctl.config = none) : countTick s = s := by
  unfold countTick
  split
  next hk hc => simp [hk, hc] at h
  next => rfl

/-- Where the line's sample does not wait, the count is one tick of a running prescaler, or nothing. -/
theorem countTick_cases {s : State} (h : sampleWaits s = false) :
    countTick s = s
    ∨ ∃ c k, s.ctl.config = some c ∧ s.tb.prescale = some k ∧ countTick s = tick s := by
  cases hk : s.tb.prescale with
  | none => exact .inl (countTick_stopped (.inl hk))
  | some k =>
    cases hc : s.ctl.config with
    | none => exact .inl (countTick_stopped (.inr hc))
    | some c => exact .inr ⟨c, k, rfl, rfl, by rw [tick, sampleLine_of_not_waiting h]⟩

/-- All that the passing of time can be (log 2): nothing, the line's sample with the edge that it accepts, or a tick. -/
theorem timePasses_cases (s : State) :
    timePasses s = s
    ∨ timePasses s = { sampleLine s with pending := (edgeRow (sampleLine s)).toList }
    ∨ ∃ c k, s.ctl.config = some c ∧ s.tb.prescale = some k ∧ timePasses s = tick s := by
  unfold timePasses
  split
  · split
    next => exact .inr (.inl rfl)
    next waits =>
      obtain stopped | runs := countTick_cases (Bool.eq_false_of_not_eq_true waits)
      · exact .inl stopped
      · exact .inr (.inr runs)
  · exact .inl rfl

/-! ### What an idle step leaves -/

/-- What the clock may change of the station on an empty queue: one tick at most, one row at most in the queue. -/
def ClockBounded (s t : State) : Prop :=
  Untouched s t ∧ (t.tb.localTick = s.tb.localTick ∨ t.tb.localTick = s.tb.localTick + 1) ∧ t.pending.length ≤ 1

theorem divisorTaken_refl (tb : Timebase) : DivisorTaken tb tb := .inl ⟨rfl, rfl⟩

theorem untouched_refl (s : State) : Untouched s s := by
  simp [Untouched, divisorTaken_refl]

theorem sampleLine_untouched (s : State) : Untouched s (sampleLine s) := by
  simp [Untouched, divisorTaken_refl]

/-- The queue is none of the blocks of `Untouched`. -/
theorem untouched_queue {s t : State} (h : Untouched s t) (q : List Instr) : Untouched s { t with pending := q } := h

theorem tick_localTick {s : State} {c : ConfigStore} {k : Nat} (hc : s.ctl.config = some c)
    (hk : s.tb.prescale = some k) : (tick s).tb.localTick = s.tb.localTick + 1 := by
  rw [(tick_running hc hk).1]
  rfl

theorem clockBounded_row (s : State) (row : Instr) : ClockBounded s { s with pending := [row] } :=
  ⟨untouched_queue (untouched_refl s) [row], .inl rfl, Nat.le_refl 1⟩

theorem clockBounded_sample (s : State) :
    ClockBounded s { sampleLine s with pending := (edgeRow (sampleLine s)).toList } :=
  ⟨untouched_queue (sampleLine_untouched s) _, .inl (by simp), Option.length_toList_le⟩

theorem clockBounded_tick {s : State} {c : ConfigStore} {k : Nat} (hc : s.ctl.config = some c)
    (hk : s.tb.prescale = some k) (hq : s.pending = []) : ClockBounded s (tick s) :=
  ⟨elapse_untouched hc hk 1, .inr (tick_localTick hc hk), by simp [hq]⟩

theorem timePasses_clockBounded {s : State} (hq : s.pending = []) : ClockBounded s (timePasses s) := by
  obtain stands | samples | ⟨c, k, hc, hk, ticks⟩ := timePasses_cases s
  · rw [stands]
    exact ⟨untouched_refl s, .inl rfl, by simp [hq]⟩
  · rw [samples]
    exact clockBounded_sample s
  · rw [ticks]
    exact clockBounded_tick hc hk hq

/-- Settles O2: a due row, else a bit that waits on MOSI, else the passing of time. -/
theorem idleStepRunsTheClock : Obligations.IdleStepRunsTheClock := by
  intro s hq
  refine ⟨idle s, step_empty hq, fun row due => idle_row due, fun h bit rest hm => idle_bit h hm, fun quiet => ?_⟩
  change ClockBounded s (idle s)
  cases due : rowNow s with
  | some row =>
    rw [idle_row due]
    exact clockBounded_row s row
  | none =>
    have hm : s.pins.mosi = [] := quiet.resolve_left (fun row => row due)
    rw [idle_quiet due hm]
    exact timePasses_clockBounded hq

end Sys2Proof.Machine
end
